-- ==== Sys2Proof/Word.lean ====
section
/-!
DEFINITION. The widths of the spec: a byte of DMA space, a 32-bit register word, and the address of
a DMA byte as a plain number (spec rules R7, R8, R61).
-/

namespace Sys2Proof

/-- One byte of DMA space, `u8` of rule R7. -/
abbrev Byte := BitVec 8

/-- One register of the window, `u32` of rule R7. -/
abbrev Word := BitVec 32

/-- The first number that is no DMA address: addresses are 0 to 2^32 - 1 (rule R61). -/
abbrev addressLimit : Nat := 2 ^ 32

end Sys2Proof
end

