-- ==== Sys2Proof/Config.lean ====
section
/-!
DEFINITION. What is fixed for one engine on one platform (the parameters of rule R6), and the values
the spec leaves unspecified (93_implementation_defined.md section 2), as opaque constants that no
proof can evaluate.
-/

namespace Sys2Proof

/-- One region of the platform's memory map. `MemOK` of rule R62 holds for a read (a write) of every
address of a region that is `readable` (`writable`). A `device` region is not memory: reads of it
have side effects (rule R68). -/
structure Region where
  base : Nat
  size : Nat
  readable : Bool
  writable : Bool
  device : Bool
  deriving DecidableEq, Repr

/-- The parameters of rule R6 that stay fixed while the engine runs. `LATENCY`, which may differ from
command to command, is `State.latencies`. -/
structure Config where
  /-- `ENGINE_BASE`, a multiple of 0x100. -/
  engineBase : Word
  /-- `MemOK`, as a finite list of regions (every predicate on 2^32 addresses is one). -/
  regions : List Region
  /-- `DMA_COHERENT` (rule R71). -/
  dmaCoherent : Bool
  /-- `CRC_POLY` (rule R100). -/
  crcPoly : Word
  /-- `CRC_REFLECTED` (rule R100). -/
  crcReflected : Bool
  /-- `RED_SCALE_TARGET`, 1 to 255 (rule R178). -/
  scaleTarget : Nat
  deriving DecidableEq, Repr

/-- The parameters of `State.reset`: the defaults of rule R6 where it gives one; `MemOK` as
95_test_vectors.md section 6 states it for its programs. DESIGN CHOICE (log entry 1), unsafe: the
base 0x80000000 and coherent DMA. -/
def Config.default : Config where
  engineBase := 0x80000000#32
  regions := [⟨0, 0x10000, true, true, false⟩]
  dmaCoherent := true
  crcPoly := 0xEB31D82E#32
  crcReflected := true
  scaleTarget := 255

/-- An unspecified byte at address `addr`, in the draw numbered `draw` (rules R68, R69, R71, R245, R256,
R272). -/
opaque Config.freeByte (draw addr : Nat) : Byte

/-- An unspecified register word, number `slot` of the draw `draw` (rules R40, R68, R69). -/
opaque Config.freeWord (draw slot : Nat) : Word

end Sys2Proof
end

