-- ==== Sys2Proof/Syntax.lean ====
section
/-!
DEFINITION. The commands of the engine: one constructor for each row of spec/opcode_table.json
(rule R81). A command word has no immediate (rule R85), so the only operands are the flags that the
command reads (rule R82).
-/

namespace Sys2Proof

/-- A command, rule R81. -/
inductive Instr where
  /-- `NOP`, OP 0x0 (rule R87). -/
  | nop
  /-- `CRC_INIT`, OP 0x1 (rule R104). -/
  | crcInit
  /-- `CRC_UPDATE`, OP 0x2 (rule R105). -/
  | crcUpdate
  /-- `KEY_LOAD`, OP 0x3 (rule R132). -/
  | keyLoad
  /-- `KEY_CLEAR`, OP 0x4 (rule R133). -/
  | keyClear
  /-- `AES_ENC`, OP 0x5 (rule R134). -/
  | aesEnc
  /-- `AES_DEC`, OP 0x6 (rule R135). -/
  | aesDec
  /-- `RED_ENC`, OP 0x7, with the flags `CRYPT` and `DISC` (rule R204). -/
  | redEnc (crypt disc : Bool)
  /-- `RED_DEC`, OP 0x8, with the flags `CRYPT` and `VALIDATE` (rule R205). -/
  | redDec (crypt validate : Bool)
  deriving DecidableEq, Repr

/-- The fields of a command word that the spec defines (rule R80). -/
structure CommandFields where
  op : BitVec 4
  crypt : Bool
  validate : Bool
  disc : Bool
  deriving DecidableEq, Repr

end Sys2Proof
end

