-- ==== Sys2Proof/WellFormed.lean ====
section
/-!
DEFINITION. The checks on what a program or a platform gives the engine: a command word, a command,
the parameters.
-/

namespace Sys2Proof

/-- The bits of `CMD` that hold something: `OP` 3:0, `CRYPT` 8, `VALIDATE` 9, `DISC` 10. All others
are read-only zero (rules R80, R84). -/
def cmdMask : Word := 0x0000070F#32

/-- A word that the `CMD` register can hold (rule R84). -/
def cmdReservedClear (w : Word) : Bool := w &&& ~~~cmdMask == 0#32

/-- A word that holds a command of the opcode map: its reserved bits are clear and its `OP` is not
one of the reserved opcodes 0x9 to 0xF (rules R81, R83, R84). -/
def commandWordWellFormed (w : Word) : Bool :=
  cmdReservedClear w && decide ((w.extractLsb' 0 4).toNat ≤ 8)

/-- A command is well formed. A flag has two values and every command allows both ("There is no flag
a command requires", rule R82), so there is nothing to refuse in any of the nine. -/
def Instr.wellFormed (i : Instr) : Bool :=
  match i with
  | .nop => true
  | .crcInit => true
  | .crcUpdate => true
  | .keyLoad => true
  | .keyClear => true
  | .aesEnc => true
  | .aesDec => true
  | .redEnc _ _ => true
  | .redDec _ _ => true

/-- The bits of the command word that a command reads: `OP`, and the flags of rule R82. -/
def Instr.readMask (i : Instr) : Word :=
  match i with
  | .nop => 0x00F#32
  | .crcInit => 0x00F#32
  | .crcUpdate => 0x00F#32
  | .keyLoad => 0x00F#32
  | .keyClear => 0x00F#32
  | .aesEnc => 0x00F#32
  | .aesDec => 0x00F#32
  | .redEnc _ _ => 0x50F#32
  | .redDec _ _ => 0x30F#32

/-- A region lies in the address space of rule R61. -/
def Region.wellFormed (r : Region) : Bool := decide (r.base + r.size ≤ addressLimit)

/-- The parameters are ones that rule R6 allows: the window's base is a multiple of 0x100, the scale
target is 1 to 255, and every region lies in the address space. -/
def Config.wellFormed (c : Config) : Bool :=
  decide (c.engineBase.toNat % 0x100 = 0) && decide (1 ≤ c.scaleTarget)
    && decide (c.scaleTarget ≤ 255) && c.regions.all Region.wellFormed

end Sys2Proof
end

