-- ==== Sys2Proof/Decode.lean ====
section
/-!
DEFINITION. The decoder of rule R86, total and rejecting by name, and after it the encoder, written
from the format of rule R80.
-/

namespace Sys2Proof

/-- Why a word is no command. -/
inductive DecodeError where
  /-- `OP` is 0x9 to 0xF, reserved by rule R83. A launch of it ends with `ERR_OP`; safe. -/
  | reservedOpcode (op : BitVec 4)
  deriving DecidableEq, Repr

/-- The fields of a command word, rule R80. -/
def commandFields (w : Word) : CommandFields where
  op := w.extractLsb' 0 4
  crypt := w.getLsbD 8
  validate := w.getLsbD 9
  disc := w.getLsbD 10

/-- Rule R86: the command that a word stands for, from the opcode map of rule R81. The flags that a
command does not read are dropped (rule R82). -/
def decode (w : Word) : Except DecodeError Instr :=
  let f := commandFields w
  match f.op.toNat with
  | 0x0 => .ok .nop
  | 0x1 => .ok .crcInit
  | 0x2 => .ok .crcUpdate
  | 0x3 => .ok .keyLoad
  | 0x4 => .ok .keyClear
  | 0x5 => .ok .aesEnc
  | 0x6 => .ok .aesDec
  | 0x7 => .ok (.redEnc f.crypt f.disc)
  | 0x8 => .ok (.redDec f.crypt f.validate)
  | _ => .error (.reservedOpcode f.op)

/-- The word with the given fields, reserved bits zero (rule R80). -/
def commandWord (f : CommandFields) : Word :=
  f.op.zeroExtend 32
    ||| (if f.crypt then 0x100#32 else 0#32)
    ||| (if f.validate then 0x200#32 else 0#32)
    ||| (if f.disc then 0x400#32 else 0#32)

/-- The fields of a command's word, from the opcode map of rule R81 and the encodings that rules R87,
R104, R105, R132 to R135, R204 and R205 give: a flag that the command does not read is 0. -/
def encodeFields (i : Instr) : CommandFields :=
  match i with
  | .nop => ⟨0x0, false, false, false⟩
  | .crcInit => ⟨0x1, false, false, false⟩
  | .crcUpdate => ⟨0x2, false, false, false⟩
  | .keyLoad => ⟨0x3, false, false, false⟩
  | .keyClear => ⟨0x4, false, false, false⟩
  | .aesEnc => ⟨0x5, false, false, false⟩
  | .aesDec => ⟨0x6, false, false, false⟩
  | .redEnc crypt disc => ⟨0x7, crypt, false, disc⟩
  | .redDec crypt validate => ⟨0x8, crypt, validate, false⟩

/-- The command word of a command. -/
def encode (i : Instr) : Word := commandWord (encodeFields i)

/-- The instruction the decoder reads from the `nbits` bits `w` of a command word, the bits above
them zero. The one word of a command is the 32-bit register `CMD` (rule R80), so there is no order
of words or bytes to lay out. -/
def decodeTableWord (nbits w : Nat) : Option Instr :=
  match decode (BitVec.ofNat 32 (w % 2 ^ nbits)) with
  | .ok i => some i
  | .error _ => none

end Sys2Proof
end

