-- ==== Sys2Proof/Machine/State.lean ====
section
/-!
DEFINITION. The state of the engine and of what stands around it, as plain data: the register window
of rules R20 to R36, the hidden state of rules R24 and R41, DMA space, the parameters, and the host's
coming accesses. Also the ways a step can stop (there is none) and the state after reset.
-/

namespace Sys2Proof.Machine

/-- Four bytes: one column of the cipher state (rule R121) or one word of the key schedule (rule R128),
first byte first. -/
structure Col where
  b0 : Byte
  b1 : Byte
  b2 : Byte
  b3 : Byte
  deriving DecidableEq, Repr

/-- Sixteen bytes: a cipher block, a key or a round key (rule R9), as the four columns of rule R121. -/
structure Block where
  c0 : Col
  c1 : Col
  c2 : Col
  c3 : Col
  deriving DecidableEq, Repr

/-- The column of four zero bytes. -/
def Col.zero : Col := ⟨0#8, 0#8, 0#8, 0#8⟩

/-- The block of 16 zero bytes. -/
def Block.zero : Block := ⟨Col.zero, Col.zero, Col.zero, Col.zero⟩

/-- The round-key store `RK[0..10]` (rule R41). -/
abbrev RoundKeys := Vector Block 11

/-- The round-key store after a reset or `KEY_CLEAR`: zero bytes (rules R46, R133). -/
def RoundKeys.zero : RoundKeys := Vector.replicate 11 Block.zero

/-- The outcome codes of rule R241 (their numbers: `ErrCode.toByte`). The reserved codes 0x08 to 0xFF
"never produced" have no constructor. -/
inductive ErrCode where
  | ok
  | op
  | noKey
  | len
  | overlap
  | dst
  | model
  | bus
  deriving DecidableEq, Repr

/-- The operands a launch latches (rule R24). -/
structure Latch where
  cmd : Word
  src : Word
  srclen : Word
  dst : Word
  dstlen : Word
  crc : Word
  btimeHi : Word
  btimeLo : Word
  deriving DecidableEq, Repr

/-- The latch when no command runs: nothing of it survives a command (rule R42). DESIGN CHOICE
(log entry 12): it then holds zeros. -/
def Latch.zero : Latch := ⟨0#32, 0#32, 0#32, 0#32, 0#32, 0#32, 0#32, 0#32⟩

/-- The byte addresses `base, ..., base + size - 1`. -/
structure ByteRange where
  base : Nat
  size : Nat
  deriving DecidableEq, Repr

/-- DMA space: the bytes that differ from `unlistedByte`, by address, in rising order of address. -/
abbrev Memory := List Host.Cell

/-- What a byte of DMA space that is not listed reads as. The spec gives no contents before the first
write. DESIGN CHOICE (log entry 2), unsafe: 0x00. -/
def unlistedByte : Byte := 0#8

/-- The width of a host access to the register window (rule R21 allows `word` only). -/
inductive AccessWidth where
  | byte
  | half
  | word
  | double
  deriving DecidableEq, Repr

/-- What the host's bus last got back. -/
inductive BusResponse where
  /-- No access yet. -/
  | none
  /-- A write or a cache operation was taken. -/
  | done
  /-- The word a register read returns (rule R21). -/
  | word (value : Word)
  /-- The byte a load of DMA space returns. -/
  | byte (value : Byte)
  /-- The bus error response of rule R249. -/
  | error
  deriving DecidableEq, Repr

/-- One input of the machine. Host accesses and engine steps are serialised (rule R248); the list of
inputs is that order. -/
inductive Input where
  /-- The engine takes one step before the host's next access. -/
  | engine
  /-- A read of the register window at an offset (rule R20). -/
  | readReg (offset : BitVec 8) (width : AccessWidth)
  /-- A write of the register window at an offset (rule R20). -/
  | writeReg (offset : BitVec 8) (width : AccessWidth) (value : Word)
  /-- A byte load by the host. -/
  | load (addr : Word)
  /-- A byte store by the host. -/
  | store (addr : Word) (value : Byte)
  /-- A byte of DMA space written by another bus master or another engine instance (rule R256). -/
  | busWrite (addr : Word) (value : Byte)
  /-- A byte of DMA space read by another engine instance (rule R256). -/
  | busRead (addr : Word)
  /-- The host writes back its cached copies of the bytes (rule R71). -/
  | clean (range : ByteRange)
  /-- The host discards its cached copies of the bytes (rule R71). -/
  | invalidate (range : ByteRange)
  /-- The reset input is asserted (rule R271). -/
  | resetAssert
  /-- The reset input is released (rule R271). -/
  | resetRelease
  /-- `WAIT` of rule R88: `STATUS` is read until `BUSY = 0`. -/
  | waitIdle
  deriving DecidableEq, Repr

/-- The state. -/
structure State where
  /-- The parameters of rule R6; nothing writes them. -/
  cfg : Config
  /-- `CTRL.IE` (rule R26). -/
  ie : Bool
  /-- `STATUS.BUSY`, the phase `RUNNING` (rules R28, R37). -/
  busy : Bool
  /-- `STATUS.DONE` (rule R29). -/
  done : Bool
  /-- `STATUS.KEYV` (rule R30). -/
  keyv : Bool
  /-- `STATUS.CRCOK` (rule R31). -/
  crcok : Bool
  /-- `STATUS.CNTOK` (rule R31). -/
  cntok : Bool
  /-- `STATUS.S24OVF` (rule R31). -/
  s24ovf : Bool
  /-- `STATUS.ERRCODE` (rule R32). -/
  errcode : ErrCode
  /-- `CMD` (rule R33). -/
  cmd : Word
  /-- `SRC` (rule R34). -/
  src : Word
  /-- `SRCLEN` (rule R34). -/
  srclen : Word
  /-- `DST` (rule R34). -/
  dst : Word
  /-- `DSTLEN` (rule R34). -/
  dstlen : Word
  /-- `RESLEN` (rule R38). -/
  reslen : Word
  /-- `CRC` (rule R35). -/
  crc : Word
  /-- `BTIME_LO` (rule R36). -/
  btimeLo : Word
  /-- `BTIME_HI` (rule R36). -/
  btimeHi : Word
  /-- `MAXV` (rule R38). -/
  maxv : Word
  /-- `MINV` (rule R38). -/
  minv : Word
  /-- `DIFFCNT` (rule R38). -/
  diffcnt : Word
  /-- `ERRADDR` (rule R38). -/
  erraddr : Word
  /-- The round-key store (rule R41). -/
  rk : RoundKeys
  /-- The operands of the running command (rule R24). -/
  latch : Latch
  /-- The engine steps the running command still takes before the one that ends it (rule R283). -/
  wait : Nat
  /-- `LATENCY` of the coming commands, one number a launch; 0 when none is listed (rules R6, R283). -/
  latencies : List Nat
  /-- A byte of the running command's source or destination was written by another than the command, was read
  by another engine instance, or lies in a device region (rules R68, R69, R256, R276): the model's own
  field. -/
  disturbed : Bool
  /-- Ranges that a running command may find in change: those written or touched meanwhile, and the device
  regions (rules R68, R69, R256, R276): the model's own field. -/
  unsteady : List ByteRange
  /-- The level of the reset input: it is asserted (rule R271). -/
  resetHeld : Bool
  /-- The host has not seen the end of the last command, so that `RESLEN`, `MAXV`, `MINV`, `DIFFCNT` and
  `ERRADDR` are not yet defined for it (rule R274): the model's own field. -/
  endUnseen : Bool
  /-- The host has not seen the end of the last command, so that `CRC` is not yet defined for it (rule R274):
  the model's own field. -/
  crcUnseen : Bool
  /-- The destination ranges of the commands whose end the host has not seen (rule R274): the model's own
  field. -/
  unseenDest : List ByteRange
  /-- DMA space as the engine sees it (rule R61). -/
  mem : Memory
  /-- Bytes stored by the host and not cleaned, without DMA coherence (rule R71): the model's own. -/
  hostDirty : List Host.Cell
  /-- Ranges written by the engine and not invalidated, without DMA coherence (rule R71): the model's own. -/
  hostStale : List ByteRange
  /-- The host's coming accesses and the engine's steps between them: the model's own field. -/
  inputs : List Input
  /-- What the host's last access got back: the model's own field. -/
  response : BusResponse
  /-- How many unspecified values have been drawn: the model's own field. -/
  draws : Nat
  deriving DecidableEq, Repr

/-- The reasons the machine stops with a fault: none. "no behaviour of the engine hangs"
(93_implementation_defined.md); a command that cannot complete ends with an error code (rule R240),
which is a next state. -/
inductive Fault where
  deriving DecidableEq, Repr

/-- The reasons a step is refused. -/
inductive Refusal where
  /-- The command has no meaning in `exec` yet. Raised by `exec`'s refused arms, of which none is left;
  safe, since no next state is claimed. -/
  | notModelled (mnemonic : String)
  deriving DecidableEq, Repr

/-- Right after the hardware reset: rule R46 for the engine; memory with nothing listed; the
parameters of `Config.default`; the reset input released; no input, no response, no latency listed,
nothing drawn and no end unseen (DESIGN CHOICE, log entries 1, 2, 3, 4, 5, 12, 15). -/
def State.reset : State where
  cfg := Config.default
  ie := false
  busy := false
  done := false
  keyv := false
  crcok := false
  cntok := false
  s24ovf := false
  errcode := .ok
  cmd := 0#32
  src := 0#32
  srclen := 0#32
  dst := 0#32
  dstlen := 0#32
  reslen := 0#32
  crc := 0xFFFFFFFF#32
  btimeLo := 0#32
  btimeHi := 0#32
  maxv := 0#32
  minv := 0#32
  diffcnt := 0#32
  erraddr := 0#32
  rk := RoundKeys.zero
  latch := Latch.zero
  wait := 0
  latencies := []
  disturbed := false
  unsteady := []
  resetHeld := false
  endUnseen := false
  crcUnseen := false
  unseenDest := []
  mem := []
  hostDirty := []
  hostStale := []
  inputs := []
  response := .none
  draws := 0

end Sys2Proof.Machine
end

