-- ==== Sys2Proof/Machine/Bytes.lean ====
section
/-!
DEFINITION. Byte strings: little-endian numbers and sign extension (rule R8), and the two views of a
16-byte block (rules R9, R121).
-/

namespace Sys2Proof.Machine

/-- `LEbytes_n(v)`: the `n` bytes of `v mod 2^(8n)`, least significant first (rule R8). -/
def leBytes (n : Nat) (v : Nat) : List Byte :=
  match n with
  | 0 => []
  | n + 1 => BitVec.ofNat 8 v :: leBytes n (v / 256)

/-- `LE(bytes)`: the number whose least significant byte is the first (rule R8). -/
def leNat (bytes : List Byte) : Nat :=
  match bytes with
  | [] => 0
  | b :: rest => b.toNat + 256 * leNat rest

/-- `LEbytes_4` of a register word. -/
def wordBytes (w : Word) : List Byte := leBytes 4 w.toNat

/-- `LEbytes_3` of a signed value: the bytes of its low 24 bits (rules R173, R175). -/
def lowBytes3 (v : Int) : List Byte := leBytes 3 (BitVec.ofInt 24 v).toNat

/-- `sext_24` of three bytes, as a 32-bit word (rule R192). -/
def sext24 (bytes : List Byte) : Word := (BitVec.ofNat 24 (leNat bytes)).signExtend 32

/-- A 32-bit word with the low 32 bits of a number (rule R7: assignment to a register wraps). -/
def toWord (n : Nat) : Word := BitVec.ofNat 32 n

/-- The bytes of a column, in order. -/
def Col.toList (c : Col) : List Byte := [c.b0, c.b1, c.b2, c.b3]

/-- `store` of rule R121: the 16 bytes of a block, column by column. -/
def Block.toList (b : Block) : List Byte :=
  b.c0.toList ++ b.c1.toList ++ b.c2.toList ++ b.c3.toList

/-- `load` of rule R121: the block of 16 bytes. (A list shorter than 16 is filled with 0x00 and a
longer one cut, which no rule asks for.) -/
def Block.ofList (l : List Byte) : Block where
  c0 := ⟨l.getD 0 0#8, l.getD 1 0#8, l.getD 2 0#8, l.getD 3 0#8⟩
  c1 := ⟨l.getD 4 0#8, l.getD 5 0#8, l.getD 6 0#8, l.getD 7 0#8⟩
  c2 := ⟨l.getD 8 0#8, l.getD 9 0#8, l.getD 10 0#8, l.getD 11 0#8⟩
  c3 := ⟨l.getD 12 0#8, l.getD 13 0#8, l.getD 14 0#8, l.getD 15 0#8⟩

end Sys2Proof.Machine
end

