-- ==== Sys2Proof/Machine/Memory.lean ====
section
/-!
DEFINITION. DMA space as a list of cells in one canonical form (rule R61): addresses strictly rising,
no cell equal to what an unlisted byte reads as.
-/

namespace Sys2Proof.Machine

/-- The byte at an address. -/
def Memory.read (m : Memory) (a : Nat) : Byte :=
  match m with
  | [] => unlistedByte
  | (x, c) :: rest => if x = a then c else Memory.read rest a

/-- The memory with the byte at an address removed or replaced, in canonical form. -/
def Memory.write (m : Memory) (a : Nat) (b : Byte) : Memory :=
  match m with
  | [] => if b = unlistedByte then [] else [(a, b)]
  | (x, c) :: rest =>
    if a < x then (if b = unlistedByte then (x, c) :: rest else (a, b) :: (x, c) :: rest)
    else if a = x then (if b = unlistedByte then rest else (a, b) :: rest)
    else (x, c) :: Memory.write rest a b

/-- The bytes at `a, a+1, ..., a+n-1`. -/
def Memory.readBytes (m : Memory) (a n : Nat) : List Byte :=
  match n with
  | 0 => []
  | n + 1 => m.read a :: Memory.readBytes m (a + 1) n

/-- The memory with a byte string stored from `a` on, first byte first. -/
def Memory.writeBytes (m : Memory) (a : Nat) (bytes : List Byte) : Memory :=
  match bytes with
  | [] => m
  | b :: rest => Memory.writeBytes (m.write a b) (a + 1) rest

/-- The memory with unspecified values, those of one draw, in the `n` bytes from `a` on
(93_implementation_defined.md section 2: "any value"). -/
def Memory.scramble (m : Memory) (draw a n : Nat) : Memory :=
  match n with
  | 0 => m
  | n + 1 => Memory.scramble (m.write a (Config.freeByte draw a)) draw (a + 1) n

/-- The memory with unspecified values, those of one draw, in the bytes that a list of cells names. -/
def Memory.scrambleListed (m : Memory) (draw : Nat) (cells : List Host.Cell) : Memory :=
  match cells with
  | [] => m
  | (a, _) :: rest => Memory.scrambleListed (m.write a (Config.freeByte draw a)) draw rest

/-- The canonical form: addresses strictly rising and in the address space of rule R61, no cell equal
to what an unlisted byte reads as. -/
def Memory.wf (m : Memory) : Bool :=
  decide (m.Pairwise fun p q => p.1 < q.1)
    && m.all fun p => decide (p.1 < addressLimit) && decide (p.2 ≠ unlistedByte)

/-- The memory with the bytes that a list of cells names set to what the list holds. -/
def Memory.copyListed (m : Memory) (cells : List Host.Cell) : Memory :=
  match cells with
  | [] => m
  | (a, b) :: rest => Memory.copyListed (m.write a b) rest

end Sys2Proof.Machine
end

