-- ==== Sys2Proof/Machine/Operands.lean ====
section
/-!
DEFINITION. The operand forms: byte ranges and the checks on them (rules R8, R66), the ranges a
command's latched operands name (rules R24, R85), and the access check of DMA (rules R62, R64).
-/

namespace Sys2Proof.Machine

/-- `RangeOK(a, n)`: the range does not wrap (rule R8). -/
def rangeOK (a n : Nat) : Bool := decide (a + n ≤ addressLimit)

/-- `Overlap(a, n, b, m)`: both ranges are not empty and share an address (rule R8). -/
def overlap (a n b m : Nat) : Bool :=
  decide (0 < n) && decide (0 < m) && decide (a < b + m) && decide (b < a + n)

/-- The address lies in the range. -/
def ByteRange.contains (r : ByteRange) (a : Nat) : Bool :=
  decide (r.base ≤ a) && decide (a < r.base + r.size)

/-- The addresses that both ranges have. -/
def ByteRange.inter (r q : ByteRange) : ByteRange :=
  ⟨max r.base q.base, min (r.base + r.size) (q.base + q.size) - max r.base q.base⟩

/-- The two ranges share an address. -/
def ByteRange.meets (r q : ByteRange) : Bool := overlap r.base r.size q.base q.size

/-- The part of `n` bytes from a DMA address that lies in the address space (rule R61). -/
def clippedRange (a : Word) (n : Nat) : ByteRange := ⟨a.toNat, min n (addressLimit - a.toNat)⟩

/-- The range with no byte. -/
def emptyRange : ByteRange := ⟨0, 0⟩

/-- The source range of a command (the DMA column of rule R85). -/
def sourceRange (i : Instr) (l : Latch) : ByteRange :=
  match i with
  | .nop => emptyRange
  | .crcInit => emptyRange
  | .crcUpdate => clippedRange l.src l.srclen.toNat
  | .keyLoad => clippedRange l.src (min l.srclen.toNat 16)
  | .keyClear => emptyRange
  | .aesEnc => clippedRange l.src l.srclen.toNat
  | .aesDec => clippedRange l.src l.srclen.toNat
  | .redEnc _ _ => clippedRange l.src l.srclen.toNat
  | .redDec _ _ => clippedRange l.src l.srclen.toNat

/-- The destination range of a command (the DMA column of rule R85, and rule R272). -/
def destRange (i : Instr) (l : Latch) : ByteRange :=
  match i with
  | .nop => emptyRange
  | .crcInit => emptyRange
  | .crcUpdate => emptyRange
  | .keyLoad => emptyRange
  | .keyClear => emptyRange
  | .aesEnc => clippedRange l.dst l.srclen.toNat
  | .aesDec => clippedRange l.dst l.srclen.toNat
  | .redEnc _ _ => clippedRange l.dst l.dstlen.toNat
  | .redDec _ _ => clippedRange l.dst l.dstlen.toNat

/-- A command that makes DMA accesses (the DMA column of rule R85). -/
def usesDma (i : Instr) : Bool :=
  match i with
  | .nop => false
  | .crcInit => false
  | .crcUpdate => true
  | .keyLoad => true
  | .keyClear => false
  | .aesEnc => true
  | .aesDec => true
  | .redEnc _ _ => true
  | .redDec _ _ => true

/-- The source range of the latched command; a reserved opcode has none (rule R83). -/
def Latch.source (l : Latch) : ByteRange :=
  match decode l.cmd with
  | .ok i => sourceRange i l
  | .error _ => emptyRange

/-- The destination range of the latched command; a reserved opcode has none (rule R83). -/
def Latch.dest (l : Latch) : ByteRange :=
  match decode l.cmd with
  | .ok i => destRange i l
  | .error _ => emptyRange

/-- The kind of a DMA access (rule R6). -/
inductive AccessKind where
  | read
  | write
  deriving DecidableEq, Repr

/-- The range of addresses of a region. -/
def regionRange (r : Region) : ByteRange := ⟨r.base, r.size⟩

/-- A region lets an access of a kind complete. -/
def regionAllows (r : Region) (kind : AccessKind) : Bool :=
  match kind with
  | .read => r.readable
  | .write => r.writable

/-- `MemOK(a, kind)` (rules R6, R62). -/
def memOK (cfg : Config) (kind : AccessKind) (a : Nat) : Bool :=
  cfg.regions.any fun r => (regionRange r).contains a && regionAllows r kind

/-- The engine's own register window, 0x100 bytes at `ENGINE_BASE` (rule R20). -/
def window (cfg : Config) : ByteRange := ⟨cfg.engineBase.toNat, 0x100⟩

/-- A DMA access to the address completes: `MemOK` holds and the address is not in the engine's own
window (rules R62, R64). -/
def dmaOK (cfg : Config) (kind : AccessKind) (a : Nat) : Bool :=
  memOK cfg kind a && !(window cfg).contains a

/-- The first address of `a, ..., a+n-1`, in rising order, at which a DMA access fails (rules R62, R244:
it is also the lowest). -/
def firstFailing (cfg : Config) (kind : AccessKind) (a n : Nat) : Option Nat :=
  match n with
  | 0 => none
  | n + 1 => if dmaOK cfg kind a then firstFailing cfg kind (a + 1) n else some a

/-- The ranges of the device regions (rule R68). -/
def deviceRanges (cfg : Config) : List ByteRange :=
  (cfg.regions.filter fun r => r.device).map regionRange

/-- The source or the destination of the operands lies in a device region (rule R68). -/
def touchesDevice (cfg : Config) (l : Latch) : Bool :=
  (deviceRanges cfg).any fun r => l.source.meets r || l.dest.meets r

end Sys2Proof.Machine
end

