-- ==== Sys2Proof/Machine/Flags.lean ====
section
/-!
DEFINITION. The words that the status and control registers read as (rules R22, R23, R27), the codes of
rule R241, and the interrupt output.
-/

namespace Sys2Proof.Machine

/-- The number of an outcome code (rule R241). -/
def ErrCode.toByte (c : ErrCode) : Byte :=
  match c with
  | .ok => 0x00#8
  | .op => 0x01#8
  | .noKey => 0x02#8
  | .len => 0x03#8
  | .overlap => 0x04#8
  | .dst => 0x05#8
  | .model => 0x06#8
  | .bus => 0x07#8

/-- The value of a one-bit field at bit `k` of a register (rule R7). -/
def bitAt (k : Nat) (b : Bool) : Word := if b then 1#32 <<< k else 0#32

/-- What a read of `ID` returns (rule R22). -/
def idWord : Word := 0x4D465431#32

/-- The seed of the CRC (rules R46, R103, R104). -/
def crcSeed : Word := 0xFFFFFFFF#32

/-- What a read of `CTRL` returns: `START` and `SRST` read 0 (rule R23). -/
def State.ctrlWord (s : State) : Word := bitAt 2 s.ie

/-- What a read of `STATUS` returns (rule R27). -/
def State.statusWord (s : State) : Word :=
  bitAt 0 s.busy ||| bitAt 1 s.done ||| bitAt 2 s.keyv ||| bitAt 3 s.crcok ||| bitAt 4 s.cntok
    ||| bitAt 5 s.s24ovf ||| (s.errcode.toByte.zeroExtend 32 <<< 8)

/-- The interrupt output, `IRQ = STATUS.DONE & CTRL.IE` at every instant (rules R26, R246). -/
def State.irq (s : State) : Bool := s.done && s.ie

end Sys2Proof.Machine
end

