-- ==== Sys2Proof/Machine/Ops.lean ====
section
/-!
DEFINITION. The named operations that the commands share: DMA reads and writes (rule R62), the two ends
of a command (rules R242, R243: the error end is this engine's taking of an exception, and rule R250
gives it no return), the launch (rule R24), the reset (rules R271, R272), and the drawing of
unspecified bytes.
-/

namespace Sys2Proof.Machine

/-- `MemRead(a, n)`: the bytes, or the first failing address (rule R62). -/
def dmaRead (cfg : Config) (m : Memory) (a n : Nat) : Except Nat (List Byte) :=
  match firstFailing cfg .read a n with
  | some e => .error e
  | none => .ok (m.readBytes a n)

/-- `MemWrite(a, n, v)`: the memory after it, and the first failing address if there is one; the bytes
before that address are then written, and no others (rule R62). -/
def dmaWrite (cfg : Config) (m : Memory) (a : Nat) (bytes : List Byte) : Memory × Option Nat :=
  match firstFailing cfg .write a bytes.length with
  | some e => (m.writeBytes a (bytes.take (e - a)), some e)
  | none => (m.writeBytes a bytes, none)

/-- The result registers and result flags that a command's rule writes before its end; what a rule does
not write is 0 (rules R38, R45, R243). -/
structure Outputs where
  reslen : Word := 0#32
  maxv : Word := 0#32
  minv : Word := 0#32
  diffcnt : Word := 0#32
  crcok : Bool := false
  cntok : Bool := false
  s24ovf : Bool := false
  deriving DecidableEq, Repr

/-- The outputs of a command that produced `n` bytes and nothing else (rule R45). -/
def Outputs.bytes (n : Nat) : Outputs := { reslen := toWord n }

/-- What both ends of a command do: the outputs, the outcome code and the error address are written,
`BUSY` is cleared and `DONE` set in the same step (rules R28, R29, R242, R243), and the working state
is discarded (rule R42). The host sees this end at once if `IRQ` is raised for it, and not yet otherwise
(rule R274). -/
def State.finish (s : State) (out : Outputs) (code : ErrCode) (addr : Word) : State :=
  { s with
    reslen := out.reslen, maxv := out.maxv, minv := out.minv, diffcnt := out.diffcnt
    crcok := out.crcok, cntok := out.cntok, s24ovf := out.s24ovf
    errcode := code, erraddr := addr
    busy := false, done := true
    latch := Latch.zero, wait := 0, disturbed := false, unsteady := []
    endUnseen := !s.ie, crcUnseen := !s.ie
    unseenDest := if s.ie then [] else s.latch.dest :: s.unseenDest }

/-- The host sees the end of every command that has ended (rule R274). -/
def State.see (s : State) : State := { s with endUnseen := false, crcUnseen := false, unseenDest := [] }

/-- The host sees it if `IRQ` is raised (rule R274). -/
def State.seeIrq (s : State) : State := if s.irq then s.see else s

/-- `complete()`, the successful end of a command (rule R242). -/
def State.complete (s : State) (out : Outputs) : State := s.finish out .ok 0#32

/-- `raise Error(code, addr)`, the error end of a command (rule R243), for a rule that wrote `reslen` to
`RESLEN` before it and 0 to the other result registers and flags. -/
def State.raiseError (s : State) (code : ErrCode) (addr reslen : Nat) : State :=
  s.finish (Outputs.bytes reslen) code (if code = .bus then toWord addr else 0#32)

/-- The state with unspecified values in the bytes of a range, a fresh draw of them. -/
def State.scramble (s : State) (r : ByteRange) : State :=
  { s with mem := s.mem.scramble s.draws r.base r.size, draws := s.draws + 1 }

/-- Without DMA coherence, the host's cached copies of a range that the engine may have written are
stale until the host invalidates them (rule R71). -/
def State.markStale (s : State) (r : ByteRange) : State :=
  if s.cfg.dmaCoherent || r.size == 0 then s else { s with hostStale := r :: s.hostStale }

/-- The operands a launch latches now (rule R24). -/
def State.operands (s : State) : Latch where
  cmd := s.cmd
  src := s.src
  srclen := s.srclen
  dst := s.dst
  dstlen := s.dstlen
  crc := s.crc
  btimeHi := s.btimeHi
  btimeLo := s.btimeLo

/-- `launch()` (rule R24). The command will take the next listed `LATENCY` (rule R283); operands that
lie in a device region are disturbed from the start, and no byte of such a region is steady (rule R68). -/
def State.launch (s : State) : State :=
  { s with
    done := false, errcode := .ok, crcok := false, cntok := false, s24ovf := false
    busy := true
    latch := s.operands
    wait := s.latencies.headD 0
    latencies := s.latencies.tail
    disturbed := touchesDevice s.cfg s.operands
    unsteady := deviceRanges s.cfg }

/-- The host's stored and uncleaned bytes in the source of the command that a launch latches now: those that
rule R71 asks the host to clean first. With DMA coherence, and for a command without a source, there are
none. -/
def State.uncleanedSource (s : State) : List Host.Cell :=
  if s.cfg.dmaCoherent then [] else s.hostDirty.filter fun p => s.operands.source.contains p.1

/-- What a launch finds in memory without DMA coherence: the source bytes that the host has stored and not
cleaned hold unspecified values (rules R69, R71; 93_implementation_defined.md section 2: "any value in the
stale bytes"). No other byte changes. -/
def State.loseUncleaned (s : State) : State :=
  if s.uncleanedSource.isEmpty then s
  else { s with mem := s.mem.scrambleListed s.draws s.uncleanedSource, draws := s.draws + 1 }

/-- The registers, the round keys and the phase of rule R46 (`hardware_reset()` of rule R271). The
parameters, DMA space and what stands outside the engine stay. -/
def State.clearEngine (s : State) : State :=
  { s with
    ie := false
    busy := false, done := false, keyv := false, crcok := false, cntok := false, s24ovf := false
    errcode := .ok
    cmd := 0#32, src := 0#32, srclen := 0#32, dst := 0#32, dstlen := 0#32
    reslen := 0#32, maxv := 0#32, minv := 0#32, diffcnt := 0#32, erraddr := 0#32
    crc := crcSeed
    btimeLo := 0#32, btimeHi := 0#32
    rk := RoundKeys.zero
    latch := Latch.zero, wait := 0, disturbed := false, unsteady := []
    endUnseen := false, crcUnseen := false }

/-- What an abort leaves in DMA space: unspecified values in the destination range of the running
command (rule R272); nothing changes when no command runs or it writes no DMA byte. -/
def State.abort (s : State) : State :=
  if s.busy && s.latch.dest.size != 0 then (s.scramble s.latch.dest).markStale s.latch.dest else s

/-- A reset, hardware or soft (rules R270 to R272). -/
def State.hardwareReset (s : State) : State := s.abort.clearEngine

/-- The reset input is asserted: the engine is reset, and stays so until the release (rule R271). -/
def State.assertReset (s : State) : State := { s.hardwareReset with resetHeld := true }

/-- The reset input is released (rule R271); the state stays the reset state. -/
def State.releaseReset (s : State) : State := { s with resetHeld := false }

end Sys2Proof.Machine
end

