-- ==== Sys2Proof/Machine/Crc.lean ====
section
/-!
DEFINITION. The Checksum Engine: the CRC function (rules R100 to R103) and the commands `CRC_INIT` and
`CRC_UPDATE` (rules R104, R105).
-/

namespace Sys2Proof.Machine

/-- One turn of the table loop, least significant bit first (rule R101, `CRC_REFLECTED`). -/
def crcTurnReflected (poly c : Word) : Word :=
  if c.getLsbD 0 then (c >>> 1) ^^^ poly else c >>> 1

/-- One turn of the table loop, most significant bit first (rule R101, not `CRC_REFLECTED`). -/
def crcTurnNormal (poly c : Word) : Word :=
  if c.getLsbD 31 then (c <<< 1) ^^^ poly else c <<< 1

/-- `n` turns of a loop body. -/
def repeatTurns (n : Nat) (body : Word → Word) (c : Word) : Word :=
  match n with
  | 0 => c
  | n + 1 => repeatTurns n body (body c)

/-- `T[i]` (rule R101). The table is a constant of the parameters, not state (rule R43). -/
def crcTable (cfg : Config) (i : Byte) : Word :=
  if cfg.crcReflected then repeatTurns 8 (crcTurnReflected cfg.crcPoly) (i.zeroExtend 32)
  else repeatTurns 8 (crcTurnNormal cfg.crcPoly) (i.zeroExtend 32 <<< 24)

/-- `crc_step(c, b)` (rule R102). -/
def crcStep (cfg : Config) (c : Word) (b : Byte) : Word :=
  if cfg.crcReflected then crcTable cfg (c.truncate 8 ^^^ b) ^^^ (c >>> 8)
  else crcTable cfg ((c >>> 24).truncate 8 ^^^ b) ^^^ (c <<< 8)

/-- `crc_update(c, bytes)` (rule R102). -/
def crcUpdate (cfg : Config) (c : Word) (bytes : List Byte) : Word :=
  bytes.foldl (crcStep cfg) c

/-- `crc32(bytes)` (rule R103). -/
def crc32 (cfg : Config) (bytes : List Byte) : Word := crcUpdate cfg crcSeed bytes

/-- `CRC_INIT` (rule R104). -/
def execCrcInit (s : State) : Host.Outcome State Fault Refusal :=
  .next ({ s with crc := crcSeed }.complete {})

/-- `CRC_UPDATE` (rule R105). On a bus error at `e` the bytes before `e` are in the CRC and counted
in `RESLEN` (rule R245). -/
def execCrcUpdate (s : State) : Host.Outcome State Fault Refusal :=
  let a := s.latch.src.toNat
  let n := s.latch.srclen.toNat
  let c := s.latch.crc
  if !rangeOK a n then .next (s.raiseError .len 0 0)
  else
    match firstFailing s.cfg .read a n with
    | some e =>
      .next ({ s with crc := crcUpdate s.cfg c (s.mem.readBytes a (e - a)) }.raiseError .bus e (e - a))
    | none =>
      .next ({ s with crc := crcUpdate s.cfg c (s.mem.readBytes a n) }.complete (Outputs.bytes n))

end Sys2Proof.Machine
end

