-- ==== Sys2Proof/Machine/Cipher.lean ====
section
/-!
DEFINITION. The Cipher Engine's functions: the block cipher in both directions (rules R120 to R130),
the key schedule (rule R128), the password's key (rule R131) and the cipher over whole segments
(rule R136).
-/

namespace Sys2Proof.Machine

/-- The rows of the table `SBOX` of rule R122, one number a row, its entry 0 in the most significant byte. -/
def sboxRows : List Nat :=
  [0x637C777BF26B6FC53001672BFED7AB76,
   0xCA82C97DFA5947F0ADD4A2AF9CA472C0,
   0xB7FD9326363FF7CC34A5E5F171D83115,
   0x04C723C31896059A071280E2EB27B275,
   0x09832C1A1B6E5AA0523BD6B329E32F84,
   0x53D100ED20FCB15B6ACBBE394A4C58CF,
   0xD0EFAAFB434D338545F9027F503C9FA8,
   0x51A3408F929D38F5BCB6DA2110FFF3D2,
   0xCD0C13EC5F974417C4A77E3D645D1973,
   0x60814FDC222A908846EEB814DE5E0BDB,
   0xE0323A0A4906245CC2D3AC629195E479,
   0xE7C8376D8DD54EA96C56F4EA657AAE08,
   0xBA78252E1CA6B4C6E8DD741F4BBD8B8A,
   0x703EB5664803F60E613557B986C11D9E,
   0xE1F8981169D98E949B1E87E9CE5528DF,
   0x8CA1890DBFE6426841992D0FB054BB16]

/-- The rows of the table `INV_SBOX` of rule R123, in the same form. -/
def invSboxRows : List Nat :=
  [0x52096AD53036A538BF40A39E81F3D7FB,
   0x7CE339829B2FFF87348E4344C4DEE9CB,
   0x547B9432A6C2233DEE4C950B42FAC34E,
   0x082EA16628D924B2765BA2496D8BD125,
   0x72F8F66486689816D4A45CCC5D65B692,
   0x6C704850FDEDB9DA5E154657A78D9D84,
   0x90D8AB008CBCD30AF7E45805B8B34506,
   0xD02C1E8FCA3F0F02C1AFBD0301138A6B,
   0x3A9111414F67DCEA97F2CFCEF0B4E673,
   0x96AC7422E7AD3585E2F937E81C75DF6E,
   0x47F11A711D29C5896FB7620EAA18BE1B,
   0xFC563E4BC6D279209ADBC0FE78CD5AF4,
   0x1FDDA8338807C731B11210592780EC5F,
   0x60517FA919B54A0D2DE57A9F93C99CEF,
   0xA0E03B4DAE2AF5B0C8EBBB3C83539961,
   0x172B047EBA77D626E169146355210C7D]

/-- The entry of a table of 16 rows that a byte selects: its high nibble the row, its low nibble the
column (rule R122). -/
def tableByte (rows : List Nat) (b : Byte) : Byte :=
  BitVec.ofNat 8 (rows.getD (b.toNat / 16) 0 >>> (8 * (15 - b.toNat % 16)))

/-- `SBOX[b]` (rule R122). -/
def sbox (b : Byte) : Byte := tableByte sboxRows b

/-- `INV_SBOX[b]` (rule R123). -/
def invSbox (b : Byte) : Byte := tableByte invSboxRows b

/-- A function of bytes, on each byte of a column. -/
def Col.map (f : Byte → Byte) (c : Col) : Col := ⟨f c.b0, f c.b1, f c.b2, f c.b3⟩

/-- The bytewise exclusive OR of two columns. -/
def Col.xor (a b : Col) : Col := ⟨a.b0 ^^^ b.b0, a.b1 ^^^ b.b1, a.b2 ^^^ b.b2, a.b3 ^^^ b.b3⟩

/-- A function of columns, on each column of a block. -/
def Block.mapCols (f : Col → Col) (s : Block) : Block := ⟨f s.c0, f s.c1, f s.c2, f s.c3⟩

/-- SubBytes (rule R124). -/
def subBytes (s : Block) : Block := s.mapCols (Col.map sbox)

/-- InvSubBytes (rule R124). -/
def invSubBytes (s : Block) : Block := s.mapCols (Col.map invSbox)

/-- ShiftRows: row `r` of the state is byte `r` of each column, and turns left by `r` (rule R125). -/
def shiftRows (s : Block) : Block where
  c0 := ⟨s.c0.b0, s.c1.b1, s.c2.b2, s.c3.b3⟩
  c1 := ⟨s.c1.b0, s.c2.b1, s.c3.b2, s.c0.b3⟩
  c2 := ⟨s.c2.b0, s.c3.b1, s.c0.b2, s.c1.b3⟩
  c3 := ⟨s.c3.b0, s.c0.b1, s.c1.b2, s.c2.b3⟩

/-- InvShiftRows: row `r` turns right by `r` (rule R125). -/
def invShiftRows (s : Block) : Block where
  c0 := ⟨s.c0.b0, s.c3.b1, s.c2.b2, s.c1.b3⟩
  c1 := ⟨s.c1.b0, s.c0.b1, s.c3.b2, s.c2.b3⟩
  c2 := ⟨s.c2.b0, s.c1.b1, s.c0.b2, s.c3.b3⟩
  c3 := ⟨s.c3.b0, s.c2.b1, s.c1.b2, s.c0.b3⟩

/-- `xtime(b)` (rule R126). -/
def xtime (b : Byte) : Byte := (b <<< 1) ^^^ (if b.getLsbD 7 then 0x1B#8 else 0x00#8)

/-- The exclusive OR of `xtime^k(a)` over the `n` low bits `k` that are set in `b`. -/
def gmulBits (n : Nat) (a b : Byte) : Byte :=
  match n with
  | 0 => 0#8
  | n + 1 => (if b.getLsbD 0 then a else 0#8) ^^^ gmulBits n (xtime a) (b >>> 1)

/-- `a • b`, multiplication in GF(2^8) (rule R126). -/
def gmul (a b : Byte) : Byte := gmulBits 8 a b

/-- MixColumns on one column (rule R126). -/
def mixColumn (c : Col) : Col where
  b0 := gmul 2#8 c.b0 ^^^ gmul 3#8 c.b1 ^^^ c.b2 ^^^ c.b3
  b1 := c.b0 ^^^ gmul 2#8 c.b1 ^^^ gmul 3#8 c.b2 ^^^ c.b3
  b2 := c.b0 ^^^ c.b1 ^^^ gmul 2#8 c.b2 ^^^ gmul 3#8 c.b3
  b3 := gmul 3#8 c.b0 ^^^ c.b1 ^^^ c.b2 ^^^ gmul 2#8 c.b3

/-- InvMixColumns on one column (rule R126). -/
def invMixColumn (c : Col) : Col where
  b0 := gmul 14#8 c.b0 ^^^ gmul 11#8 c.b1 ^^^ gmul 13#8 c.b2 ^^^ gmul 9#8 c.b3
  b1 := gmul 9#8 c.b0 ^^^ gmul 14#8 c.b1 ^^^ gmul 11#8 c.b2 ^^^ gmul 13#8 c.b3
  b2 := gmul 13#8 c.b0 ^^^ gmul 9#8 c.b1 ^^^ gmul 14#8 c.b2 ^^^ gmul 11#8 c.b3
  b3 := gmul 11#8 c.b0 ^^^ gmul 13#8 c.b1 ^^^ gmul 9#8 c.b2 ^^^ gmul 14#8 c.b3

/-- MixColumns (rule R126). -/
def mixColumns (s : Block) : Block := s.mapCols mixColumn

/-- InvMixColumns (rule R126). -/
def invMixColumns (s : Block) : Block := s.mapCols invMixColumn

/-- AddRoundKey with a round key (rule R127). -/
def addRoundKey (k s : Block) : Block :=
  ⟨s.c0.xor k.c0, s.c1.xor k.c1, s.c2.xor k.c2, s.c3.xor k.c3⟩

/-- RotWord, then SubWord, then the round constant on byte 0 (the branch `i mod 4 = 0` of rule R128). -/
def keyTurn (rcon : Byte) (t : Col) : Col :=
  ⟨sbox t.b1 ^^^ rcon, sbox t.b2, sbox t.b3, sbox t.b0⟩

/-- `RK[j+1]` from `RK[j]`: four turns of the loop of rule R128, `w[i] = w[i-4] ^ t`. -/
def nextRoundKey (rcon : Byte) (k : Block) : Block :=
  let w0 := k.c0.xor (keyTurn rcon k.c3)
  let w1 := k.c1.xor w0
  let w2 := k.c2.xor w1
  ⟨w0, w1, w2, k.c3.xor w2⟩

/-- Key expansion (rule R128): `RK[0]` is the key, and the constants are `RCON`. -/
def expandKey (k0 : Block) : RoundKeys :=
  let k1 := nextRoundKey 0x01#8 k0
  let k2 := nextRoundKey 0x02#8 k1
  let k3 := nextRoundKey 0x04#8 k2
  let k4 := nextRoundKey 0x08#8 k3
  let k5 := nextRoundKey 0x10#8 k4
  let k6 := nextRoundKey 0x20#8 k5
  let k7 := nextRoundKey 0x40#8 k6
  let k8 := nextRoundKey 0x80#8 k7
  let k9 := nextRoundKey 0x1B#8 k8
  let k10 := nextRoundKey 0x36#8 k9
  #v[k0, k1, k2, k3, k4, k5, k6, k7, k8, k9, k10]

/-- One of the rounds 1 to 9 of rule R129. -/
def cipherRound (k s : Block) : Block := addRoundKey k (mixColumns (shiftRows (subBytes s)))

/-- One of the rounds 9 to 1 of rule R130. -/
def invCipherRound (k s : Block) : Block := invMixColumns (addRoundKey k (invSubBytes (invShiftRows s)))

/-- `Cipher(in, RK)` (rule R129). -/
def cipher (rk : RoundKeys) (p : Block) : Block :=
  let s := addRoundKey rk[0] p
  let s := [rk[1], rk[2], rk[3], rk[4], rk[5], rk[6], rk[7], rk[8], rk[9]].foldl
    (fun s k => cipherRound k s) s
  addRoundKey rk[10] (shiftRows (subBytes s))

/-- `InvCipher(in, RK)` (rule R130). -/
def invCipher (rk : RoundKeys) (p : Block) : Block :=
  let s := addRoundKey rk[10] p
  let s := [rk[9], rk[8], rk[7], rk[6], rk[5], rk[4], rk[3], rk[2], rk[1]].foldl
    (fun s k => invCipherRound k s) s
  addRoundKey rk[0] (invSubBytes (invShiftRows s))

/-- A block function on each whole 16-byte segment of a byte string, the results in order (rule R136).
(Bytes after the last whole segment, which no rule has, give nothing.) -/
def ecb (f : Block → Block) (bytes : List Byte) : List Byte :=
  match bytes with
  | b0 :: b1 :: b2 :: b3 :: b4 :: b5 :: b6 :: b7 :: b8 :: b9 :: b10 :: b11 :: b12 :: b13 :: b14 :: b15
      :: rest =>
    (f ⟨⟨b0, b1, b2, b3⟩, ⟨b4, b5, b6, b7⟩, ⟨b8, b9, b10, b11⟩, ⟨b12, b13, b14, b15⟩⟩).toList
      ++ ecb f rest
  | _ => []

/-- `ECB_ENC(bytes, RK)` (rule R136). -/
def ecbEnc (rk : RoundKeys) (bytes : List Byte) : List Byte := ecb (cipher rk) bytes

/-- `ECB_DEC(bytes, RK)` (rule R136). -/
def ecbDec (rk : RoundKeys) (bytes : List Byte) : List Byte := ecb (invCipher rk) bytes

/-- The password bytes of rule R131 among the `m` bytes from `a` on: up to the first 0x00, which ends
them and is the last byte read. The error is the first failing address. -/
def passwordBytes (cfg : Config) (mem : Memory) (a m : Nat) : Except Nat (List Byte) :=
  match m with
  | 0 => .ok []
  | m + 1 =>
    if !dmaOK cfg .read a then .error a
    else if mem.read a = 0x00#8 then .ok []
    else
      match passwordBytes cfg mem (a + 1) m with
      | .error e => .error e
      | .ok rest => .ok (mem.read a :: rest)

/-- `derive_key(a, n)` (rule R131): the key, zero-padded, and the number of bytes used. -/
def deriveKey (cfg : Config) (mem : Memory) (a n : Nat) : Except Nat (Block × Nat) :=
  match passwordBytes cfg mem a (min n 16) with
  | .error e => .error e
  | .ok bytes => .ok (Block.ofList bytes, bytes.length)

end Sys2Proof.Machine
end

