-- ==== Sys2Proof/Machine/Keys.lean ====
section
/-!
DEFINITION. The Cipher Engine's commands: `KEY_LOAD`, `KEY_CLEAR`, `AES_ENC` and `AES_DEC` (rules R132
to R135).
-/

namespace Sys2Proof.Machine

/-- The round-key store holds nothing: zero bytes and `KEYV = 0` (rules R132, R133). -/
def State.clearKeys (s : State) : State := { s with rk := RoundKeys.zero, keyv := false }

/-- The round-key store holds the schedule of a key (rule R132). -/
def State.loadKeys (s : State) (key : Block) : State := { s with rk := expandKey key, keyv := true }

/-- `KEY_LOAD` (rule R132). -/
def execKeyLoad (s : State) : Host.Outcome State Fault Refusal :=
  let a := s.latch.src.toNat
  let n := s.latch.srclen.toNat
  if !rangeOK a (min n 16) then .next (s.raiseError .len 0 0)
  else
    match deriveKey s.cfg s.mem a n with
    | .error e => .next (s.clearKeys.raiseError .bus e 0)
    | .ok (key, used) => .next ((s.loadKeys key).complete (Outputs.bytes used))

/-- `KEY_CLEAR` (rule R133). -/
def execKeyClear (s : State) : Host.Outcome State Fault Refusal :=
  .next (s.clearKeys.complete {})

/-- How the segment loop of rule R134 ended: the memory, the number of whole segments written, and the
failing address if a bus error ended it. -/
structure SegmentRun where
  mem : Memory
  segments : Nat
  failing : Option Nat
  deriving DecidableEq, Repr

/-- The segment loop of rule R134 over `k` more segments, after `j` of them: each is read whole, then
written. -/
def segmentLoop (cfg : Config) (f : Block → Block) (k src dst j : Nat) (m : Memory) : SegmentRun :=
  match k with
  | 0 => ⟨m, j, none⟩
  | k + 1 =>
    match dmaRead cfg m src 16 with
    | .error e => ⟨m, j, some e⟩
    | .ok p =>
      match dmaWrite cfg m dst (f (Block.ofList p)).toList with
      | (m', some e) => ⟨m', j, some e⟩
      | (m', none) => segmentLoop cfg f k (src + 16) (dst + 16) (j + 1) m'

/-- The static checks of rule R134, in its order; the first that fails. -/
def segmentCheck (s : State) : Option ErrCode :=
  let a := s.latch.src.toNat
  let n := s.latch.srclen.toNat
  let d := s.latch.dst.toNat
  if !s.keyv then some .noKey
  else if n % 16 ≠ 0 then some .len
  else if !rangeOK a n then some .len
  else if s.latch.dstlen.toNat < n then some .dst
  else if !rangeOK d n then some .len
  else if a ≠ d && overlap a n d n then some .overlap
  else none

/-- What `AES_ENC` and `AES_DEC` share (rules R134, R135): the checks, the loop over the segments with
a block function, and the end. -/
def segmentCommand (f : Block → Block) (s : State) : State :=
  match segmentCheck s with
  | some code => s.raiseError code 0 0
  | none =>
    let n := s.latch.srclen.toNat
    let run := segmentLoop s.cfg f (n / 16) s.latch.src.toNat s.latch.dst.toNat 0 s.mem
    let s := { s with mem := run.mem }
    match run.failing with
    | some e => s.raiseError .bus e (16 * run.segments)
    | none => s.complete (Outputs.bytes n)

/-- `AES_ENC` (rule R134). -/
def execAesEnc (s : State) : Host.Outcome State Fault Refusal :=
  .next (segmentCommand (cipher s.rk) s)

/-- `AES_DEC` (rule R135). -/
def execAesDec (s : State) : Host.Outcome State Fault Refusal :=
  .next (segmentCommand (invCipher s.rk) s)

end Sys2Proof.Machine
end

