-- ==== Sys2Proof/Machine/Delta.lean ====
section
/-!
DEFINITION. The delta transform of the RED codec, both ways (rules R172 to R176, R192).
-/

namespace Sys2Proof.Machine

/-- The samples `v[j] = sext_32(LE(...))` of a byte string, four bytes each (rule R172). -/
def samplesOf (bytes : List Byte) : List Int :=
  match bytes with
  | b0 :: b1 :: b2 :: b3 :: rest => (toWord (leNat [b0, b1, b2, b3])).toInt :: samplesOf rest
  | _ => []

/-- The bytes of one sample after the first, given the sample before it (rule R173): the difference, or
the escape and the sample's low 24 bits. The difference is exact. -/
def deltaBytes (prev cur : Int) : List Byte :=
  if -127 ≤ cur - prev ∧ cur - prev ≤ 127 then [BitVec.ofInt 8 (cur - prev)]
  else 0x80#8 :: lowBytes3 cur

/-- The bytes of the samples after one (rule R173). -/
def deltaTail (prev : Int) (v : List Int) : List Byte :=
  match v with
  | [] => []
  | cur :: rest => deltaBytes prev cur ++ deltaTail cur rest

/-- `delta_encode(v)` (rule R173), the first sample verbatim; of no samples, nothing. -/
def deltaEncode (v : List Int) : List Byte :=
  match v with
  | [] => []
  | first :: rest => lowBytes3 first ++ deltaTail first rest

/-- Whether the delta decoder reads a verbatim group, and the bytes of it so far (rule R192). -/
inductive DeltaMode where
  | normal
  | verbatim (got : List Byte)
  deriving DecidableEq, Repr

/-- The loop of `delta_decode` (rule R192) from a mode and a running total on. The total wraps. -/
def deltaLoop (mode : DeltaMode) (acc : Word) (z : List Byte) : List Word :=
  match z with
  | [] => []
  | c :: rest =>
    match mode with
    | .verbatim got =>
      if got.length = 2 then
        sext24 (got ++ [c]) :: deltaLoop .normal (sext24 (got ++ [c])) rest
      else deltaLoop (.verbatim (got ++ [c])) acc rest
    | .normal =>
      if c = 0x80#8 then deltaLoop (.verbatim []) acc rest
      else (acc + c.signExtend 32) :: deltaLoop .normal (acc + c.signExtend 32) rest

/-- `delta_decode(z')` (rule R192): the decoder starts as if just after an escape. -/
def deltaDecode (z : List Byte) : List Word := deltaLoop (.verbatim []) 0#32 z

/-- The greatest of a list of numbers; 0 of none (rules R175, R205). -/
def greatest (v : List Int) : Int :=
  match v with
  | [] => 0
  | x :: rest => rest.foldl max x

/-- The least of a list of numbers; 0 of none (rules R175, R205). -/
def least (v : List Int) : Int :=
  match v with
  | [] => 0
  | x :: rest => rest.foldl min x

/-- A sample is in the signed 24-bit range (rule R176). -/
def in24 (x : Int) : Bool := decide (-2 ^ 23 ≤ x) && decide (x ≤ 2 ^ 23 - 1)

end Sys2Proof.Machine
end

