-- ==== Sys2Proof/Machine/RangeCoder.lean ====
section
/-!
DEFINITION. The byte-frequency model of the RED codec (rules R177 to R179) and its range coder, both ways
(rules R180 to R191).
-/

namespace Sys2Proof.Machine

/-- The histogram of a byte stream, 256 buckets by the byte's unsigned value (rule R177). -/
def histogram (z : List Byte) : List Nat :=
  (List.range 256).map fun b => z.count (BitVec.ofNat 8 b)

/-- `scale(h)` (rule R178): the ceiling of `h[b] * RED_SCALE_TARGET / M` when the peak `M` exceeds 255. -/
def scale (cfg : Config) (h : List Nat) : List Nat :=
  let peak := h.foldl max 0
  if peak ≤ 255 then h else h.map fun x => (x * cfg.scaleTarget + peak - 1) / peak

/-- `cnt[b]` (rule R178). -/
def countOf (cnt : List Nat) (b : Nat) : Nat := cnt.getD b 0

/-- `cum[b]`, the sum of the counts below `b` (rule R179). -/
def cumulative (cnt : List Nat) (b : Nat) : Nat := (cnt.take b).sum

/-- `T = cum[256]` (rule R179). -/
def totalCount (cnt : List Nat) : Nat := cumulative cnt 256

/-- `TOP` (rule R180). -/
def coderTop : Nat := 2 ^ 31

/-- `BOTTOM` (rule R180). -/
def coderBottom : Nat := 2 ^ 23

/-- `SHIFT` (rule R180). -/
def coderShift : Nat := 23

/-- `EXTRA` (rule R180). -/
def coderExtra : Nat := 7

/-- The most turns a renormalisation takes: `range` is at least 1 and each turn multiplies it by 2^8, so
three turns bring it over `BOTTOM` (rules R182, R188, R189). DEDUCED (log entry 7). -/
def coderTurns : Nat := 4

/-- The encoder's state (rules R180, R181), with the bytes given out so far. -/
structure EncState where
  low : Word
  range : Word
  buffer : Byte
  help : Word
  out : List Byte
  deriving DecidableEq, Repr

/-- The encoder's state at the start of a block (rule R181). -/
def encStart : EncState := ⟨0#32, toWord coderTop, 0x00#8, 0#32, []⟩

/-- The held byte and the bytes waiting behind it are given out (rules R182, R184, R190): after a carry
the held byte is one more and the waiting bytes are 0x00, else they are 0xFF. -/
def EncState.settle (e : EncState) (carry : Bool) : List Byte :=
  if carry then e.out ++ [e.buffer + 1#8] ++ List.replicate e.help.toNat 0x00#8
  else e.out ++ [e.buffer] ++ List.replicate e.help.toNat 0xFF#8

/-- The top byte of `low`, `(low >> SHIFT) & 0xFF` (rule R182). -/
def EncState.topByte (e : EncState) : Byte := (e.low >>> coderShift).truncate 8

/-- The three branches of a turn of `enc_normalize` (rule R182), before the shift. -/
def encTurnOut (e : EncState) : EncState :=
  if e.low.toNat < 0xFF * 2 ^ coderShift then
    { e with out := e.settle false, help := 0#32, buffer := e.topByte }
  else if e.low.getLsbD 31 then
    { e with out := e.settle true, help := 0#32, buffer := e.topByte }
  else { e with help := e.help + 1#32 }

/-- One turn of the loop of `enc_normalize` (rule R182). -/
def encTurn (e : EncState) : EncState :=
  { encTurnOut e with range := e.range <<< 8, low := (e.low <<< 8) &&& toWord (coderTop - 1) }

/-- `enc_normalize()` (rule R182), at most `n` turns. -/
def encNormalize (n : Nat) (e : EncState) : EncState :=
  match n with
  | 0 => e
  | n + 1 => if e.range.toNat ≤ coderBottom then encNormalize n (encTurn e) else e

/-- `encode_symbol(b)` (rule R183). -/
def encodeSymbol (cnt : List Nat) (e : EncState) (b : Byte) : EncState :=
  let e := encNormalize coderTurns e
  let total := totalCount cnt
  let r := e.range.toNat / total
  let cum := cumulative cnt b.toNat
  let count := countOf cnt b.toNat
  let tmp := r * cum
  { e with
    low := toWord (e.low.toNat + tmp)
    range := if cum + count < total then toWord (r * count) else toWord (e.range.toNat - tmp) }

/-- `enc_finish()` (rule R184): the payload. -/
def encFinish (e : EncState) : List Byte :=
  let e := encNormalize coderTurns e
  let tmp := (e.low >>> coderShift).toNat + 1
  e.settle (decide (0xFF < tmp)) ++ [BitVec.ofNat 8 tmp]

/-- `range_encode(z, cnt)` (rule R185). -/
def rangeEncode (z : List Byte) (cnt : List Nat) : List Byte :=
  encFinish (z.foldl (encodeSymbol cnt) encStart)

/-- The decoder's state (rules R180, R187), with the payload bytes not yet read. -/
structure DecState where
  low : Word
  range : Word
  buffer : Byte
  input : List Byte
  deriving DecidableEq, Repr

/-- `inbyte()`: the next payload byte, 0x00 past the end of the block (rule R186). -/
def nextByte (input : List Byte) : Byte := input.headD 0x00#8

/-- `dec_start()` (rule R187): the first payload byte is discarded. -/
def decStart (payload : List Byte) : DecState :=
  let buffer := nextByte payload.tail
  ⟨(buffer >>> (8 - coderExtra)).zeroExtend 32, toWord (2 ^ coderExtra), buffer, payload.tail.tail⟩

/-- One turn of the loop of `dec_normalize` (rule R188). -/
def decTurn (d : DecState) : DecState :=
  let buffer := nextByte d.input
  { low := ((d.low <<< 8) ||| (d.buffer <<< coderExtra).zeroExtend 32)
      ||| (buffer >>> (8 - coderExtra)).zeroExtend 32
    range := d.range <<< 8
    buffer := buffer
    input := d.input.tail }

/-- `dec_normalize()` (rule R188), at most `n` turns. -/
def decNormalize (n : Nat) (d : DecState) : DecState :=
  match n with
  | 0 => d
  | n + 1 => if d.range.toNat ≤ coderBottom then decNormalize n (decTurn d) else d

/-- The byte whose counts hold the value: `cum[b] <= tmp < cum[b+1]` (rule R189), searched from the
bucket `b` on with `tmp` counted from `cum[b]`. (With no such byte, which rule R189 excludes, the
search ends past the last bucket.) -/
def findSymbol (cnt : List Nat) (b tmp : Nat) : Nat :=
  match cnt with
  | [] => b
  | c :: rest => if tmp < c then b else findSymbol rest (b + 1) (tmp - c)

/-- `decode_symbol()` (rule R189): the byte and the state after it. -/
def decodeSymbol (cnt : List Nat) (d : DecState) : Byte × DecState :=
  let d := decNormalize coderTurns d
  let total := totalCount cnt
  let q := d.range.toNat / total
  let tmp := d.low.toNat / q
  let tmp := if total ≤ tmp then total - 1 else tmp
  let b := findSymbol cnt 0 tmp
  let cum := cumulative cnt b
  let count := countOf cnt b
  let t := toWord (q * cum)
  (BitVec.ofNat 8 b,
    { d with
      low := d.low - t
      range := if cum + count < total then toWord (q * count) else d.range - t })

/-- `n` calls of `decode_symbol()` (rule R191). -/
def decodeSymbols (cnt : List Nat) (n : Nat) (d : DecState) : List Byte :=
  match n with
  | 0 => []
  | n + 1 => (decodeSymbol cnt d).1 :: decodeSymbols cnt n (decodeSymbol cnt d).2

/-- `range_decode(payload, cnt, D)` (rule R191). -/
def rangeDecode (payload : List Byte) (cnt : List Nat) (count : Nat) : List Byte :=
  decodeSymbols cnt count (decStart payload)

end Sys2Proof.Machine
end

