-- ==== Sys2Proof/Machine/Red.lean ====
section
/-!
DEFINITION. The block of the RED codec (rules R170, R171, R194 to R203) and the commands `RED_ENC` and
`RED_DEC` (rules R204, R205).
-/

namespace Sys2Proof.Machine

/-- The size of the block header (rules R6, R171). -/
def headerSize : Nat := 287

/-- The number of filler bytes after a payload of a length (rule R194). -/
def fillerCount (payloadLength : Nat) : Nat := (8 - (headerSize + payloadLength) % 8) % 8

/-- The block length of a payload of a length (rule R195). -/
def blockLength (payloadLength : Nat) : Nat :=
  headerSize + payloadLength + fillerCount payloadLength

/-- The block time `{BTIME_HI, BTIME_LO}` of the latch (rules R36, R198). -/
def Latch.blockTime (l : Latch) : Nat := l.btimeHi.toNat * 2 ^ 32 + l.btimeLo.toNat

/-- The frequency table as stored (rules R200, R202): encrypted when a key is given. -/
def storedTable (key : Option RoundKeys) (cnt : List Nat) : List Byte :=
  let table := cnt.map fun c => BitVec.ofNat 8 c
  match key with
  | some rk => ecbEnc rk table
  | none => table

/-- Bytes 4 to 286 of the header (rules R171, R195 to R200). -/
def headerFields (l diffs : Nat) (v : List Int) (blockTime : Nat) (disc : Bool) (table : List Byte) :
    List Byte :=
  leBytes 4 l ++ leBytes 8 blockTime ++ leBytes 4 diffs ++ leBytes 4 v.length
    ++ lowBytes3 (greatest v) ++ lowBytes3 (least v) ++ [if disc then 0x01#8 else 0x00#8] ++ table

/-- The bytes of a block after its checksum: the header's fields, the payload, the filler (rule R170). -/
def blockBody (cfg : Config) (v : List Int) (blockTime : Nat) (disc : Bool) (key : Option RoundKeys) :
    List Byte :=
  let z := deltaEncode v
  let cnt := scale cfg (histogram z)
  let payload := rangeEncode z cnt
  headerFields (blockLength payload.length) z.length v blockTime disc (storedTable key cnt)
    ++ payload ++ List.replicate (fillerCount payload.length) 0x00#8

/-- The block of the samples `v` (rules R170 to R203), the checksum over all but its own four bytes
first (rule R203). -/
def encodeBlock (cfg : Config) (v : List Int) (blockTime : Nat) (disc : Bool)
    (key : Option RoundKeys) : List Byte :=
  let body := blockBody cfg v blockTime disc key
  wordBytes (crc32 cfg body) ++ body

/-- The key that the flag `CRYPT` selects (rules R202, R204, R205). -/
def State.tableKey (s : State) (crypt : Bool) : Option RoundKeys := if crypt then some s.rk else none

/-- The static checks of `RED_ENC` (rule R204), in its order; the first that fails. -/
def redEncCheck (crypt : Bool) (s : State) : Option ErrCode :=
  let a := s.latch.src.toNat
  let n := s.latch.srclen.toNat
  let d := s.latch.dst.toNat
  let cap := s.latch.dstlen.toNat
  if crypt && !s.keyv then some .noKey
  else if n = 0 ∨ n % 4 ≠ 0 then some .len
  else if !rangeOK a n then some .len
  else if !rangeOK d cap then some .len
  else if overlap a n d cap then some .overlap
  else none

/-- `enc_fail(code, a)` of rule R204, and the bus error of rule R205 while writing samples: the destination
range `[DST, DST + DSTLEN)` holds unspecified values, the result registers and flags are 0. -/
def State.failScrambled (s : State) (code : ErrCode) (addr : Nat) : State :=
  (s.scramble ⟨s.latch.dst.toNat, s.latch.dstlen.toNat⟩).raiseError code addr 0

/-- `RED_ENC` with the flags `CRYPT` and `DISC` (rule R204). -/
def execRedEnc (crypt disc : Bool) (s : State) : Host.Outcome State Fault Refusal :=
  match redEncCheck crypt s with
  | some code => .next (s.raiseError code 0 0)
  | none =>
    match dmaRead s.cfg s.mem s.latch.src.toNat s.latch.srclen.toNat with
    | .error e => .next (s.failScrambled .bus e)
    | .ok bytes =>
      let v := samplesOf bytes
      let blk := encodeBlock s.cfg v s.latch.blockTime disc (s.tableKey crypt)
      if s.latch.dstlen.toNat < blk.length then .next (s.failScrambled .dst 0)
      else
        match dmaWrite s.cfg s.mem s.latch.dst.toNat blk with
        | (_, some e) => .next (s.failScrambled .bus e)
        | (m, none) =>
          .next ({ s with mem := m }.complete
            { reslen := toWord blk.length
              diffcnt := toWord (deltaEncode v).length
              maxv := BitVec.ofInt 32 (greatest v)
              minv := BitVec.ofInt 32 (least v)
              s24ovf := v.any fun x => !in24 x })

/-- The static checks of `RED_DEC` (rule R205), in its order; the first that fails. -/
def redDecCheck (crypt : Bool) (s : State) : Option ErrCode :=
  let a := s.latch.src.toNat
  let n := s.latch.srclen.toNat
  let d := s.latch.dst.toNat
  let cap := s.latch.dstlen.toNat
  if crypt && !s.keyv then some .noKey
  else if n < headerSize then some .len
  else if !rangeOK a n then some .len
  else if !rangeOK d cap then some .len
  else if overlap a n d cap then some .overlap
  else none

/-- The field of `n` bytes at offset `k` of a byte string, as a number (rule R171). -/
def fieldAt (bytes : List Byte) (k n : Nat) : Nat := leNat ((bytes.drop k).take n)

/-- The counts of a block's frequency table, bytes 31 to 286, decrypted when a key is given (rules
R202, R205). -/
def tableOf (blk : List Byte) (key : Option RoundKeys) : List Nat :=
  let stored := (blk.drop 31).take 256
  let table := match key with
    | some rk => ecbDec rk stored
    | none => stored
  table.map BitVec.toNat

/-- The stored checksum of a block is that of its bytes from 4 on (rules R203, R205). -/
def checksumOK (cfg : Config) (blk : List Byte) : Bool :=
  (crc32 cfg (blk.drop 4)).toNat == fieldAt blk 0 4

/-- The samples of a block with a difference count and a table of counts (rule R205): the payload is all
that follows the header. -/
def decodeBlock (blk : List Byte) (diffs : Nat) (cnt : List Nat) : List Word :=
  deltaDecode (rangeDecode (blk.drop headerSize) cnt diffs)

/-- The part of rule R205 after the whole block is read. -/
def redDecBlock (validate : Bool) (blk : List Byte) (cnt : List Nat) (s : State) : State :=
  let diffs := fieldAt blk 16 4
  let count := fieldAt blk 20 4
  if totalCount cnt = 0 ∧ 0 < diffs then s.raiseError .model 0 0
  else
    let out := decodeBlock blk diffs cnt
    let kept := out.take count
    match dmaWrite s.cfg s.mem s.latch.dst.toNat (kept.flatMap wordBytes) with
    | (_, some e) => s.failScrambled .bus e
    | (m, none) =>
      { s with mem := m }.complete
        { reslen := toWord (4 * kept.length)
          diffcnt := toWord diffs
          maxv := BitVec.ofInt 32 (greatest (kept.map BitVec.toInt))
          minv := BitVec.ofInt 32 (least (kept.map BitVec.toInt))
          crcok := validate && checksumOK s.cfg blk
          cntok := out.length == count }

/-- `RED_DEC` with the flags `CRYPT` and `VALIDATE` (rule R205). -/
def execRedDec (crypt validate : Bool) (s : State) : Host.Outcome State Fault Refusal :=
  match redDecCheck crypt s with
  | some code => .next (s.raiseError code 0 0)
  | none =>
    let a := s.latch.src.toNat
    match dmaRead s.cfg s.mem a headerSize with
    | .error e => .next (s.raiseError .bus e 0)
    | .ok h =>
      let l := fieldAt h 4 4
      if l < headerSize ∨ s.latch.srclen.toNat < l then .next (s.raiseError .len 0 0)
      else if s.latch.dstlen.toNat < 4 * fieldAt h 20 4 then .next (s.raiseError .dst 0 0)
      else
        match dmaRead s.cfg s.mem (a + headerSize) (l - headerSize) with
        | .error e => .next (s.raiseError .bus e 0)
        | .ok p => .next (redDecBlock validate (h ++ p) (tableOf (h ++ p) (s.tableKey crypt)) s)

end Sys2Proof.Machine
end

