-- ==== Sys2Proof/Machine/System.lean ====
section
/-!
DEFINITION. `NOP` (rule R87).
-/

namespace Sys2Proof.Machine

/-- `NOP` (rule R87): it ends at once, with every result 0. -/
def execNop (s : State) : Host.Outcome State Fault Refusal := .next (s.complete {})

end Sys2Proof.Machine
end

