-- ==== Sys2Proof/Machine/HostPort.lean ====
section
/-!
DEFINITION. What the host and other bus masters do to the engine: accesses to the register window (rules
R20 to R40) and to DMA space (rules R69, R256), and cache operations (rule R71).
-/

namespace Sys2Proof.Machine

/-- The access is one that rule R21 allows: 32 bits wide, at a multiple of 4. -/
def registerAccessOK (offset : BitVec 8) (width : AccessWidth) : Bool :=
  width == .word && offset.toNat % 4 == 0

/-- The offsets of the result registers (rules R20, R38). -/
def resultOffset (offset : BitVec 8) : Bool := [0x20, 0x30, 0x34, 0x38, 0x3C].contains offset.toNat

/-- The host reads an unspecified value from the register: a result register or `CRC`, while a command runs (rule
R40) or while the host has not seen its end (rule R274). -/
def State.registerUnspecified (s : State) (offset : BitVec 8) : Bool :=
  (resultOffset offset && (s.busy || s.endUnseen)) || (offset.toNat == 0x24 && (s.busy || s.crcUnseen))

/-- The word that an idle engine's register reads as, by its offset (rules R20, R22, R23, R27); reserved
offsets read 0. -/
def State.register (s : State) (offset : BitVec 8) : Word :=
  match offset.toNat with
  | 0x00 => idWord
  | 0x04 => s.ctrlWord
  | 0x08 => s.statusWord
  | 0x0C => s.cmd
  | 0x10 => s.src
  | 0x14 => s.srclen
  | 0x18 => s.dst
  | 0x1C => s.dstlen
  | 0x20 => s.reslen
  | 0x24 => s.crc
  | 0x28 => s.btimeLo
  | 0x2C => s.btimeHi
  | 0x30 => s.maxv
  | 0x34 => s.minv
  | 0x38 => s.diffcnt
  | 0x3C => s.erraddr
  | _ => 0#32

/-- A host read of the register window (rules R20, R21, R40, R249). By a read of `STATUS` with `BUSY = 0` the host
sees the end of the last command (rule R274; the reading beside rule R40 is log entry 20). -/
def State.readRegister (s : State) (offset : BitVec 8) (width : AccessWidth) : State :=
  if !registerAccessOK offset width then { s with response := .error }
  else if s.registerUnspecified offset then
    { s with response := .word (Config.freeWord s.draws 0), draws := s.draws + 1 }
  else
    let t := { s with response := .word (s.register offset) }
    if offset.toNat == 0x08 && !s.busy then t.see else t

/-- A write to `CTRL` (rules R23 to R25): `SRST` comes first and hides the other bits; else `IE` takes bit
2, and `START` launches when no command runs. Where `IRQ` is then raised, the host sees the last command's end
(rules R247, R274). -/
def State.writeCtrl (s : State) (v : Word) : State :=
  if v.getLsbD 1 then s.hardwareReset
  else
    let s := { s with ie := v.getLsbD 2 }
    if v.getLsbD 0 && !s.busy then s.loseUncleaned.launch else s.seeIrq

/-- A write to `STATUS` clears `DONE` when bit 1 is 1, and does nothing else (rules R27, R29). -/
def State.writeStatus (s : State) (v : Word) : State :=
  if v.getLsbD 1 then { s with done := false } else s

/-- A write to a register that the host may write when no command runs (rule R39). What it writes to `CRC` is no
command's result (log entry 20). The reserved bits of `CMD` are discarded (rule R84). Writes to read-only and
reserved registers are ignored (rules R20, R22, R38). -/
def State.writeOperand (s : State) (offset : BitVec 8) (v : Word) : State :=
  if s.busy then s
  else
    match offset.toNat with
    | 0x0C => { s with cmd := v &&& cmdMask }
    | 0x10 => { s with src := v }
    | 0x14 => { s with srclen := v }
    | 0x18 => { s with dst := v }
    | 0x1C => { s with dstlen := v }
    | 0x24 => { s with crc := v, crcUnseen := false }
    | 0x28 => { s with btimeLo := v }
    | 0x2C => { s with btimeHi := v }
    | _ => s

/-- A host write of the register window (rules R20, R21, R249). While the reset input is asserted the state
stays the reset state (rule R271), so the write has no effect on the engine (its response: log entry
15). -/
def State.writeRegister (s : State) (offset : BitVec 8) (width : AccessWidth) (v : Word) : State :=
  if !registerAccessOK offset width then { s with response := .error }
  else
    let s := { s with response := .done }
    if s.resetHeld then s
    else match offset.toNat with
    | 0x04 => s.writeCtrl v
    | 0x08 => s.writeStatus v
    | _ => s.writeOperand offset v

/-- The byte at the address may not be what the host last put there or what the engine last wrote there, in
the host's view: it is in the destination of the running command (rule R69), or of one whose end the host
has not seen (rules R69, R274), or the host has not invalidated it (rule R71). -/
def State.loadUnspecified (s : State) (a : Nat) : Bool :=
  (s.busy && s.latch.dest.contains a) || (s.unseenDest.any fun r => r.contains a)
    || (!s.cfg.dmaCoherent && s.hostStale.any fun r => r.contains a)

/-- The byte the host has for an address: its own uncleaned copy, else the one in memory (rule R71). -/
def State.hostView (s : State) (a : Nat) : Byte :=
  if s.cfg.dmaCoherent then s.mem.read a
  else
    match s.hostDirty.find? fun p => p.1 == a with
    | some p => p.2
    | none => s.mem.read a

/-- A byte load by the host. In the register window it is an access that is not 32 bits wide (rules R60,
R249). -/
def State.hostLoad (s : State) (addr : Word) : State :=
  let a := addr.toNat
  if (window s.cfg).contains a then { s with response := .error }
  else if s.loadUnspecified a then
    { s with response := .byte (Config.freeByte s.draws a), draws := s.draws + 1 }
  else { s with response := .byte (s.hostView a) }

/-- The address lies in the source or the destination of the running command (rule R69). -/
def State.inUse (s : State) (a : Nat) : Bool :=
  s.busy && (s.latch.source.contains a || s.latch.dest.contains a)

/-- Bytes of DMA space are changed by another than the running command: it is disturbed if it uses one of
them, and does not find those steady (rules R68, R69, R256, R276). -/
def State.disturb (s : State) (addrs : List Nat) : State :=
  { s with
    disturbed := s.disturbed || addrs.any s.inUse
    unsteady := (addrs.filter s.inUse).map (fun a => ⟨a, 1⟩) ++ s.unsteady }

/-- The ranges without the addresses of one range. -/
def subtractRange (r : ByteRange) (stale : List ByteRange) : List ByteRange :=
  stale.flatMap fun q =>
    [⟨q.base, min (q.base + q.size) r.base - q.base⟩,
      ⟨max q.base (r.base + r.size), (q.base + q.size) - max q.base (r.base + r.size)⟩].filter
      fun p => p.size != 0

/-- The cells of the host's uncleaned bytes, with one byte stored (kept whatever its value). -/
def dirtyWrite (d : List Host.Cell) (a : Nat) (b : Byte) : List Host.Cell :=
  match d with
  | [] => [(a, b)]
  | (x, c) :: rest =>
    if a < x then (a, b) :: (x, c) :: rest
    else if a = x then (a, b) :: rest
    else (x, c) :: dirtyWrite rest a b

/-- A byte store by the host. It disturbs a running command that uses the byte (rules R69, R276), and the byte
is then no ended command's result (rule R274, log entry 20). Without DMA coherence it stays in the host's cache
until it is cleaned (rule R71, `State.loseUncleaned`). In the register window it is an access that is not 32
bits wide. -/
def State.hostStore (s : State) (addr : Word) (b : Byte) : State :=
  let a := addr.toNat
  if (window s.cfg).contains a then { s with response := .error }
  else
    let s := { s.disturb [a] with
      response := .done, unseenDest := subtractRange ⟨a, 1⟩ s.unseenDest }
    if s.cfg.dmaCoherent then { s with mem := s.mem.write a b }
    else
      { s with
        hostDirty := dirtyWrite s.hostDirty a b
        hostStale := subtractRange ⟨a, 1⟩ s.hostStale }

/-- A byte that the running command uses is touched at the same time by another engine instance: its contents
are unspecified (rule R256), so the command finds it in change (rule R68). A copy in the host's cache is
then stale without DMA coherence (rule R71). -/
def State.touch (s : State) (a : Nat) : State := ((s.disturb [a]).scramble ⟨a, 1⟩).markStale ⟨a, 1⟩

/-- A byte of DMA space is written by another bus master or another engine instance, past the host's cache,
whose copy is then stale without DMA coherence (rule R71); a byte that the running command uses has
unspecified contents (rule R256), and every other is then no command's result. In the register window a byte
access changes nothing (rule R249). -/
def State.otherWrite (s : State) (addr : Word) (b : Byte) : State :=
  let a := addr.toNat
  if (window s.cfg).contains a then s
  else if s.inUse a then s.touch a
  else
    State.markStale
      { s with mem := s.mem.write a b, unseenDest := subtractRange ⟨a, 1⟩ s.unseenDest } ⟨a, 1⟩

/-- A byte of DMA space is read by another engine instance. A byte that the running command uses has
unspecified contents (rule R256: "touch the same DMA bytes at the same time"); nothing else changes. What
the other instance gets is its own. -/
def State.otherRead (s : State) (addr : Word) : State :=
  let a := addr.toNat
  if !(window s.cfg).contains a && s.inUse a then s.touch a else s

/-- The host cleans its copies of a range (rule R71): the uncleaned bytes of it reach memory. -/
def State.hostClean (s : State) (r : ByteRange) : State :=
  let cells := s.hostDirty.filter fun p => r.contains p.1
  { s.disturb (cells.map Prod.fst) with
    response := .done
    mem := s.mem.copyListed cells
    hostDirty := s.hostDirty.filter fun p => !r.contains p.1 }

/-- The host discards its copies of a range (rule R71). -/
def State.hostInvalidate (s : State) (r : ByteRange) : State :=
  { s with
    response := .done
    hostDirty := s.hostDirty.filter fun p => !r.contains p.1
    hostStale := subtractRange r s.hostStale }

end Sys2Proof.Machine
end

