-- ==== Sys2Proof/Machine/Disturbed.lean ====
section
/-!
DEFINITION. The end of a command whose operands were disturbed while it ran (rules R68, R69, R256, R276):
its rule runs on what it reads, with unspecified bytes where the source was not steady, and rule R69 leaves
its destination bytes and its result registers unspecified. The reading is log entry 9.
-/

namespace Sys2Proof.Machine

/-- The memory with unspecified values, those of one draw, in the bytes of a range that some listed range
has. -/
def Memory.scrambleWithin (m : Memory) (draw : Nat) (r : ByteRange) (ranges : List ByteRange) : Memory :=
  match ranges with
  | [] => m
  | q :: rest => Memory.scrambleWithin (m.scramble draw (r.inter q).base (r.inter q).size) draw r rest

/-- What a disturbed command works on: an unspecified value for every byte of its source that was not steady
(rule R68), everything else as it is. The operands, the keys and `MemOK` are not disturbed, so neither
are the checks on them (rules R62, R66, R244). -/
def State.readUnsteady (s : State) (source : ByteRange) : State :=
  { s with mem := s.mem.scrambleWithin s.draws source s.unsteady, draws := s.draws + 1 }

/-- The destination bytes of a command (rule R69): of its destination range, those that it may write in any
outcome (rule R245). -/
def writtenRange (i : Instr) (l : Latch) : ByteRange :=
  (destRange i l).inter ⟨l.dst.toNat, l.dstlen.toNat⟩

/-- The state `t` at a command's end, with unspecified values in the result registers of rule R38 and in the
destination bytes (rules R68, R69). Memory is otherwise what it was in `s` before the end. -/
def State.freeResults (t s : State) (r : ByteRange) : State :=
  { t with
    mem := s.mem.scramble t.draws r.base r.size
    reslen := Config.freeWord t.draws 0
    maxv := Config.freeWord t.draws 1
    minv := Config.freeWord t.draws 2
    diffcnt := Config.freeWord t.draws 3
    erraddr := Config.freeWord t.draws 4
    draws := t.draws + 1 }

end Sys2Proof.Machine
end

