-- ==== Sys2Proof/Machine/Sequencer.lean ====
section
/-!
DEFINITION. The engine's own steps (rules R24, R28, R37, R283) and the machine's inputs, one at a time
(rule R248).
-/

namespace Sys2Proof.Machine

/-- An outcome with its next state changed. -/
def mapNext (f : State → State) (o : Host.Outcome State Fault Refusal) : Host.Outcome State Fault Refusal :=
  match o with
  | .next t => .next (f t)
  | .fault f => .fault f
  | .refused r => .refused r

/-- After a command's end, without DMA coherence, its destination is stale in the host's cache (rule
R71). -/
def markStaleAfter (r : ByteRange) (o : Host.Outcome State Fault Refusal) :
    Host.Outcome State Fault Refusal :=
  mapNext (fun t => t.markStale r) o

/-- The end of a disturbed command: that of its meaning on what it reads, with the results left unspecified
(rules R68, R69; log entry 9). -/
def State.disturbedEnd (s : State) (i : Instr) : Host.Outcome State Fault Refusal :=
  mapNext (fun t => t.freeResults s (writtenRange i s.latch))
    (exec i (s.readUnsteady (sourceRange i s.latch)))

/-- The step that ends the running command: a reserved opcode ends with `ERR_OP` (rule R83); a command
whose bytes in DMA space were disturbed ends as rule R69 leaves it; every other has its meaning. -/
def State.commandEnd (s : State) : Host.Outcome State Fault Refusal :=
  match decode s.latch.cmd with
  | .error _ => .next (s.raiseError .op 0 0)
  | .ok i =>
    markStaleAfter (destRange i s.latch)
      (if s.disturbed && usesDma i then s.disturbedEnd i else exec i s)

/-- One step of the engine: nothing when it is idle; else one of the steps the command still takes, or
its end (rule R283). -/
def State.engineStep (s : State) : Host.Outcome State Fault Refusal :=
  if !s.busy then .next s
  else
    match s.wait with
    | 0 => s.commandEnd
    | n + 1 => .next { s with wait := n }

/-- `WAIT` (rule R88): `STATUS` is read until `BUSY = 0`. While the engine is busy it takes a step between
two reads, and the statement stays the next input. -/
def State.waitStep (s : State) : Host.Outcome State Fault Refusal :=
  if s.busy then
    { s with response := .word s.statusWord, inputs := .waitIdle :: s.inputs }.engineStep
  else .next (s.readRegister 0x08#8 .word)

/-- One input, taken from the state whose list of inputs is what comes after it. -/
def State.takeInput (s : State) (input : Input) : Host.Outcome State Fault Refusal :=
  match input with
  | .engine => s.engineStep
  | .readReg offset width => .next (s.readRegister offset width)
  | .writeReg offset width v => .next (s.writeRegister offset width v)
  | .load addr => .next (s.hostLoad addr)
  | .store addr b => .next (s.hostStore addr b)
  | .busWrite addr b => .next (s.otherWrite addr b)
  | .busRead addr => .next (s.otherRead addr)
  | .clean r => .next (s.hostClean r)
  | .invalidate r => .next (s.hostInvalidate r)
  | .resetAssert => .next s.assertReset
  | .resetRelease => .next s.releaseReset
  | .waitIdle => s.waitStep

/-- A command word placed where the machine takes its next command from: the register `CMD` and, by a
launch that takes no further engine step, the latch (rules R24, R33). Nothing stands before its
end: no input, no disturbance, no asserted reset. -/
def State.placeCommand (s : State) (w : Word) : State :=
  { { s with cmd := w &&& cmdMask }.launch with
    wait := 0, latencies := s.latencies, disturbed := false, unsteady := [], resetHeld := false, inputs := [] }

end Sys2Proof.Machine
end

