-- ==== Sys2Proof/Machine/Step.lean ====
section
/-!
DEFINITION. One step of the machine: the next input, or, when none is listed, a step of the engine (rule
R248).
-/

namespace Sys2Proof.Machine

/-- One step. -/
def step (s : State) : Host.Outcome State Fault Refusal :=
  match s.inputs with
  | [] => s.engineStep
  | input :: rest => { s with inputs := rest }.takeInput input

/-- `s` with the command word `w` launched from its registers, so that the next step ends that command
(log entry 8). The engine fetches nothing (rule R37): this stands for the host's writes of `CMD` and
`CTRL.START`. -/
def State.withFetchWord (s : State) (nbits w : Nat) : State :=
  s.placeCommand (BitVec.ofNat 32 (w % 2 ^ nbits))

end Sys2Proof.Machine
end

