-- ==== Sys2Proof/Machine/Script.lean ====
section
/-!
DEFINITION. Host scripts (rules R88, R89): each statement and macro as the list of inputs it stands for.
-/

namespace Sys2Proof.Machine

/-- The registers a script names (rule R20). -/
inductive Reg where
  | id | ctrl | status | cmd | src | srclen | dst | dstlen | reslen | crc | btimeLo | btimeHi
  | maxv | minv | diffcnt | erraddr
  deriving DecidableEq, Repr

/-- The offset of a register in the window (rule R20). -/
def regOffset (r : Reg) : BitVec 8 :=
  match r with
  | .id => 0x00#8
  | .ctrl => 0x04#8
  | .status => 0x08#8
  | .cmd => 0x0C#8
  | .src => 0x10#8
  | .srclen => 0x14#8
  | .dst => 0x18#8
  | .dstlen => 0x1C#8
  | .reslen => 0x20#8
  | .crc => 0x24#8
  | .btimeLo => 0x28#8
  | .btimeHi => 0x2C#8
  | .maxv => 0x30#8
  | .minv => 0x34#8
  | .diffcnt => 0x38#8
  | .erraddr => 0x3C#8

/-- `WR <REG>, <value>` (rule R88). -/
def scriptWr (r : Reg) (v : Word) : List Input := [.writeReg (regOffset r) .word v]

/-- `RD <REG>` (rule R88). -/
def scriptRd (r : Reg) : List Input := [.readReg (regOffset r) .word]

/-- `GO <MNEMONIC>[.<FLAG>...]` (rule R88), of the word that the mnemonic and the flags give. -/
def scriptGo (w : Word) : List Input := scriptWr .cmd w ++ scriptWr .ctrl 0x1#32

/-- `GOI <MNEMONIC>[.<FLAG>...]` (rule R88). -/
def scriptGoi (w : Word) : List Input := scriptWr .cmd w ++ scriptWr .ctrl 0x5#32

/-- `WAIT` (rule R88). -/
def scriptWait : List Input := [.waitIdle]

/-- `CLR` (rule R88). -/
def scriptClr : List Input := scriptWr .status 0x2#32

/-- `SRST` (rule R88). -/
def scriptSrst : List Input := scriptWr .ctrl 0x2#32

/-- `CRC32 a, n` (rule R89). -/
def scriptCrc32 (a n : Word) : List Input :=
  scriptGo (encode .crcInit) ++ scriptWait ++ scriptWr .src a ++ scriptWr .srclen n
    ++ scriptGo (encode .crcUpdate) ++ scriptWait

/-- `HDRCRC a` (rule R89). -/
def scriptHdrCrc (a : Word) : List Input := scriptCrc32 a 1020#32

/-- `BLKCRC a, L` (rule R89). -/
def scriptBlkCrc (a l : Word) : List Input := scriptCrc32 (a + 4#32) (l - 4#32)

/-- What `ENCBLK` and `DECBLK` share (rule R89): the password's key, then one segment. -/
def scriptBlock (i : Instr) (p pl s d : Word) : List Input :=
  scriptWr .src p ++ scriptWr .srclen pl ++ scriptGo (encode .keyLoad) ++ scriptWait
    ++ scriptWr .src s ++ scriptWr .srclen 16#32 ++ scriptWr .dst d ++ scriptWr .dstlen 16#32
    ++ scriptGo (encode i) ++ scriptWait

/-- `ENCBLK p, pl, s, d` (rule R89). -/
def scriptEncBlk (p pl s d : Word) : List Input := scriptBlock .aesEnc p pl s d

/-- `DECBLK p, pl, s, d` (rule R89). -/
def scriptDecBlk (p pl s d : Word) : List Input := scriptBlock .aesDec p pl s d

end Sys2Proof.Machine
end

