-- ==== Sys2Proof/Safety.lean ====
section
/-!
DEFINITION. The terms that statements about the machine use: the invariant of a run, how a command ended, and
what stayed as it was.
-/

namespace Sys2Proof.Machine

/-- The registers with reserved bits hold 0 there (rules R21, R84). -/
def State.reservedBitsClear (s : State) : Prop :=
  cmdReservedClear s.cmd = true ∧ cmdReservedClear s.latch.cmd = true

/-- DMA space is in its canonical form, and the host's uncleaned bytes have rising DMA addresses. -/
def State.memoryCanonical (s : State) : Prop :=
  s.mem.wf = true ∧ (s.hostDirty.Pairwise fun p q => p.1 < q.1) ∧ ∀ p ∈ s.hostDirty, p.1 < addressLimit

/-- While a command runs, `DONE`, the result flags and `ERRCODE` are 0 (rules R24, R28, R40); while none
runs, no operand of a command is kept (rule R42). While the reset input is asserted, the engine's state is
the reset state (rule R271). While `IRQ` is raised, the host has seen every end (rule R274). -/
def State.phaseConsistent (s : State) : Prop :=
  (if s.busy then
    s.done = false ∧ s.errcode = .ok ∧ s.crcok = false ∧ s.cntok = false ∧ s.s24ovf = false
  else s.latch = Latch.zero ∧ s.wait = 0 ∧ s.disturbed = false ∧ s.unsteady = []) ∧
    (s.resetHeld = true → s.clearEngine = s) ∧
    (s.irq = true → s.endUnseen = false ∧ s.crcUnseen = false ∧ s.unseenDest = [])

/-- `KEYV` is 1 exactly when the store holds the schedule of a loaded key, and the store is zero bytes
otherwise (rules R30, R41). -/
def State.keysConsistent (s : State) : Prop :=
  if s.keyv then ∃ k, s.rk = expandKey k else s.rk = RoundKeys.zero

/-- The invariant of the machine. -/
def State.Inv (s : State) : Prop :=
  s.cfg.wellFormed = true ∧ s.reservedBitsClear ∧ s.memoryCanonical ∧ s.phaseConsistent
    ∧ s.keysConsistent

/-- A command has ended with an outcome code and an error address (rules R242, R243). -/
def State.EndedWith (t : State) (code : ErrCode) (addr : Word) : Prop :=
  t.busy = false ∧ t.done = true ∧ t.errcode = code ∧ t.erraddr = addr

/-- The result registers `RESLEN`, `MAXV`, `MINV`, `DIFFCNT` (rule R38). -/
def State.ResultsAre (t : State) (reslen maxv minv diffcnt : Word) : Prop :=
  t.reslen = reslen ∧ t.maxv = maxv ∧ t.minv = minv ∧ t.diffcnt = diffcnt

/-- The result flags `CRCOK`, `CNTOK`, `S24OVF` (rule R31). -/
def State.FlagsAre (t : State) (crcok cntok s24ovf : Bool) : Prop :=
  t.crcok = crcok ∧ t.cntok = cntok ∧ t.s24ovf = s24ovf

/-- The outcomes that a command can report (the column "raised by" of rule R241). -/
def outcomeCodes (i : Instr) : List ErrCode :=
  match i with
  | .nop => [.ok]
  | .crcInit => [.ok]
  | .crcUpdate => [.ok, .len, .bus]
  | .keyLoad => [.ok, .len, .bus]
  | .keyClear => [.ok]
  | .aesEnc => [.ok, .noKey, .len, .overlap, .dst, .bus]
  | .aesDec => [.ok, .noKey, .len, .overlap, .dst, .bus]
  | .redEnc crypt _ => (if crypt then [.noKey] else []) ++ [.ok, .len, .overlap, .dst, .bus]
  | .redDec crypt _ => (if crypt then [.noKey] else []) ++ [.ok, .len, .overlap, .dst, .model, .bus]

/-- Every byte of DMA space outside a range reads as before. -/
def SameMemoryOutside (r : ByteRange) (s t : State) : Prop :=
  ∀ a, r.contains a = false → t.mem.read a = s.mem.read a

/-- Every byte of DMA space reads as before. -/
def SameMemory (s t : State) : Prop := ∀ a, t.mem.read a = s.mem.read a

/-- The round-key store and `KEYV` are unchanged. -/
def SameKeys (s t : State) : Prop := t.rk = s.rk ∧ t.keyv = s.keyv

/-- The registers that no command writes are unchanged (rules R34, R36), and so are the parameters and
what stands outside the engine. -/
def SameRest (s t : State) : Prop :=
  t.cfg = s.cfg ∧ t.ie = s.ie ∧ t.cmd = s.cmd ∧ t.src = s.src ∧ t.srclen = s.srclen ∧ t.dst = s.dst
    ∧ t.dstlen = s.dstlen ∧ t.btimeLo = s.btimeLo ∧ t.btimeHi = s.btimeHi
    ∧ t.latencies = s.latencies ∧ t.inputs = s.inputs ∧ t.response = s.response
    ∧ t.hostDirty = s.hostDirty ∧ t.hostStale = s.hostStale ∧ t.resetHeld = s.resetHeld

/-- Every DMA access of a kind to the `n` bytes from `a` on completes (rules R62, R64). -/
def AllDmaOK (cfg : Config) (kind : AccessKind) (a n : Nat) : Prop :=
  ∀ x, a ≤ x → x < a + n → dmaOK cfg kind x = true

/-- `e` is the first byte of the `n` bytes from `a` on at which a DMA access of a kind fails (rule R62). -/
def FirstBad (cfg : Config) (kind : AccessKind) (a n e : Nat) : Prop :=
  a ≤ e ∧ e < a + n ∧ dmaOK cfg kind e = false ∧ AllDmaOK cfg kind a (e - a)

end Sys2Proof.Machine
end

