-- ==== Sys2Proof/Certificates/Slice0/Obligations.lean ====
section
/-!
DEFINITION. The statements for the provers. Each docstring names the rules it formalises, or says that the
statement rests on an inference or a choice of the model and where that is logged.
-/

open Sys2Proof Sys2Proof.Machine

/-! ## Encoding -/

/-- Rules R80 to R82, R86: the encoder and the decoder agree, both ways. A command's word decodes to it; and
of every word that decodes, the bits that its command reads are exactly the bits its encoding has, so
no bit of an encoding is dropped but the flags that R82 says are ignored and the bits that R84 reserves. -/
def Obligations.DecodeEncodeAgree : Prop :=
  (∀ i : Instr, i.wellFormed = true →
      decode (encode i) = .ok i ∧ commandWordWellFormed (encode i) = true) ∧
    ∀ (w : Word) (i : Instr), decode w = .ok i → encode i = w &&& i.readMask

/-- Rules R83, R86: the decoder rejects a word exactly when its `OP` is 0x9 to 0xF, and names that `OP`. -/
def Obligations.DecoderRejectsReservedOpcodes : Prop :=
  ∀ w : Word,
    (∀ e, decode w = .error e ↔
      9 ≤ (w &&& 0xF#32).toNat ∧ e = .reservedOpcode (w.extractLsb' 0 4))

/-- Rules R81, R104, R105, R132 to R135, R204, R205: words written out from the encodings these rules give,
and what they stand for. -/
def Obligations.DecodedWordsOfTheOpcodeMap : Prop :=
  decode 0x00000000#32 = .ok .nop ∧ decode 0x00000001#32 = .ok .crcInit
    ∧ decode 0x00000002#32 = .ok .crcUpdate ∧ decode 0x00000003#32 = .ok .keyLoad
    ∧ decode 0x00000004#32 = .ok .keyClear ∧ decode 0x00000005#32 = .ok .aesEnc
    ∧ decode 0x00000006#32 = .ok .aesDec ∧ decode 0x00000407#32 = .ok (.redEnc false true)
    ∧ decode 0x00000507#32 = .ok (.redEnc true true) ∧ decode 0x00000208#32 = .ok (.redDec false true)
    ∧ decode 0x00000308#32 = .ok (.redDec true true) ∧ decode 0x00000701#32 = .ok .crcInit

/-- Rule R82: the flags that each command reads; the end of the latched command is the same when the flags it
does not read are 0; and no command requires a flag, since a word whose `OP` is not reserved decodes
whatever its flags are. -/
def Obligations.UnreadFlagsAreIgnored : Prop :=
  (∀ i : Instr,
    (i.readMask.getLsbD 8 = true ↔ (∃ c d, i = .redEnc c d) ∨ ∃ c v, i = .redDec c v) ∧
    (i.readMask.getLsbD 9 = true ↔ ∃ c v, i = .redDec c v) ∧
    (i.readMask.getLsbD 10 = true ↔ ∃ c d, i = .redEnc c d)) ∧
  (∀ (s : State) (i : Instr), decode s.latch.cmd = .ok i →
    State.commandEnd { s with latch := { s.latch with cmd := s.latch.cmd &&& i.readMask } }
      = s.commandEnd) ∧
  ∀ w : Word, (w &&& 0xF#32).toNat ≤ 8 → ∃ i, decode w = .ok i

/-- Rule R83: the step that ends a reserved opcode, in which the host does nothing, or lets the engine step
(`.engine`), or waits (`.waitIdle`, whose read of `STATUS` comes first, rule R88); `u` is the state right before
the end. -/
def Obligations.ReservedOpcodeEndsWithErrOp : Prop :=
  ∀ s u : State,
    (s.inputs = [] ∧ u = s ∨
      (∃ rest, s.inputs = .engine :: rest ∧ u = { s with inputs := rest }) ∨
      (∃ rest, s.inputs = .waitIdle :: rest ∧ u = { s with response := .word s.statusWord })) →
    s.busy = true → s.wait = 0 → 9 ≤ (s.latch.cmd &&& 0xF#32).toNat →
    ∃ t, step s = .next t ∧ t.EndedWith .op 0#32 ∧ t.ResultsAre 0#32 0#32 0#32 0#32
      ∧ t.FlagsAre false false false ∧ SameMemory u t ∧ SameKeys u t ∧ t.crc = u.crc ∧ SameRest u t

/-! ## Steps -/

/-- The step that ends a running command is the meaning of the command its latched word decodes to (rules
R24, R69, R86). What the step adds: with DMA coherence, nothing; without it the command's destination becomes
stale in the host's cache (`markStaleAfter`), which after every end, also of a command that failed before it
wrote, is the model's choice, log entry 11 (rule R71 gives the host the duty to invalidate). An `.engine`
input asks for the same step, and so does a `.waitIdle` after its read of `STATUS` (rule R88). (Disturbed
operands: `DisturbedCommandEnds`. Atomic ends: log entry 6.) -/
def Obligations.StepRunsTheDecodedCommand : Prop :=
  ∀ (s : State) (i : Instr), s.busy = true → s.wait = 0 →
    decode s.latch.cmd = .ok i → (s.disturbed = false ∨ usesDma i = false) →
    (s.inputs = [] → step s = markStaleAfter (destRange i s.latch) (exec i s)) ∧
    (s.inputs = [] → s.cfg.dmaCoherent = true → step s = exec i s) ∧
    (∀ rest, s.inputs = .engine :: rest →
      step s = markStaleAfter (destRange i s.latch) (exec i { s with inputs := rest })) ∧
    (∀ rest, s.inputs = .waitIdle :: rest →
      step s = markStaleAfter (destRange i s.latch)
        (exec i { s with response := .word s.statusWord, inputs := .waitIdle :: rest }))

/-- Rule R283, "Every command ends": a running command with `n` more engine steps takes them one at a time and
has ended after `n + 1` steps in which the host does nothing. The number of steps is the model's
reading of `LATENCY` (log entry 5). The host has then seen the end if `IRQ` is raised for it, and otherwise not
yet (rule R274, as log entry 20 reads it). And an idle engine keeps its state (rules R37, R258): a step of it
changes nothing, and a wait for it only reads `STATUS` (rule R88), by which the host sees the end. -/
def Obligations.EveryCommandEnds : Prop :=
  (∀ (n : Nat) (s : State), s.inputs = [] → s.busy = true → s.wait = n →
    (∀ k, k ≤ n → Host.Core.run Sys2Proof.core k s = .next { s with wait := n - k }) ∧
    ∃ t, Host.Core.run Sys2Proof.core (n + 1) s = .next t ∧ State.busy t = false ∧ State.done t = true
      ∧ State.endUnseen t = !s.ie ∧ State.crcUnseen t = !s.ie
      ∧ State.unseenDest t = (if s.ie then [] else s.latch.dest :: s.unseenDest)) ∧
  ∀ s : State, s.busy = false →
    (s.inputs = [] → step s = .next s) ∧
    (∀ rest, s.inputs = .engine :: rest → step s = .next { s with inputs := rest }) ∧
    (∀ rest, s.inputs = .waitIdle :: rest →
      step s = .next { s with
        inputs := rest, response := .word s.statusWord
        endUnseen := false, crcUnseen := false, unseenDest := [] })

/-- Rules R250, R283: the machine is never stuck; from every state there is a next one. -/
def Obligations.MachineNeverStops : Prop := ∀ s : State, ∃ t, step s = .next t

/-! ## Invariants -/

/-- Every step keeps DMA space in its canonical form (rule R61; the form is the model's, log entry 2). -/
def Obligations.StepKeepsMemoryCanonical : Prop :=
  ∀ s t : State, s.memoryCanonical → step s = .next t → t.memoryCanonical

/-- Rule R30: `KEYV` is 1 exactly when the round-key store holds the schedule of a loaded key (and the store is
zero bytes otherwise, rules R41, R132, R133). Every step keeps it. -/
def Obligations.StepKeepsKeyStoreMatchingKeyv : Prop :=
  ∀ s t : State, s.keysConsistent → step s = .next t → t.keysConsistent

/-- Rules R24, R28, R29, R40, R42, R271, R274: while a command runs, `DONE`, the result flags and `ERRCODE` are 0;
while none runs, the latch holds nothing (zeros: log entry 12); while the reset input is asserted, the engine
is in its reset state. While `IRQ` is raised, the host has seen every end (rule R274, as log entry 20 reads it).
Every step keeps it. -/
def Obligations.StepKeepsPhaseConsistent : Prop :=
  ∀ s t : State, s.phaseConsistent → step s = .next t → t.phaseConsistent

/-- Rule R84: the reserved bits of `CMD` and of the latched word are 0. Every step keeps it. -/
def Obligations.StepKeepsReservedBitsClear : Prop :=
  ∀ s t : State, s.reservedBitsClear → step s = .next t → t.reservedBitsClear

/-- The invariants hold right after reset. The reset values of the registers and of the round keys are rule
R46's; that the parameters are well formed, that memory is canonical and lists nothing, and that the latch
holds zeros, rest on the model's choices of log entries 1, 2 and 12. -/
def Obligations.ResetMeetsTheInvariant : Prop := State.reset.Inv

/-! ## Launch, register window, interrupt -/

/-- The launch (rule R24): a write of `CTRL` with `START = 1` and `SRST = 0` while no command runs and the reset
input is not asserted (rule R271). It changes no byte of DMA space with coherence, and none for a command that
makes no DMA access or a reserved opcode (rules R83, R87); without coherence only source bytes that the host has
stored and not cleaned, which are then unspecified (rule R71; log entry 11). -/
def Obligations.LaunchLatchesTheOperands : Prop :=
  ∀ (s : State) (v : Word) (rest : List Input), s.inputs = .writeReg 0x04#8 .word v :: rest →
    v.getLsbD 0 = true → v.getLsbD 1 = false → s.busy = false → s.resetHeld = false →
    ∃ t, step s = .next t ∧ t.busy = true ∧ t.done = false ∧ t.errcode = .ok
      ∧ t.FlagsAre false false false
      ∧ t.latch = ⟨s.cmd, s.src, s.srclen, s.dst, s.dstlen, s.crc, s.btimeHi, s.btimeLo⟩
      ∧ t.ie = v.getLsbD 2 ∧ SameKeys s t ∧ t.crc = s.crc ∧ t.cmd = s.cmd ∧ t.src = s.src
      ∧ t.srclen = s.srclen ∧ t.dst = s.dst ∧ t.dstlen = s.dstlen ∧ t.btimeLo = s.btimeLo
      ∧ t.btimeHi = s.btimeHi ∧ t.inputs = rest ∧ t.response = .done
      ∧ (s.cfg.dmaCoherent = true → t.mem = s.mem)
      ∧ (∀ e, decode s.cmd = .error e → t.mem = s.mem)
      ∧ (∀ i, decode s.cmd = .ok i → (usesDma i = false → t.mem = s.mem) ∧
          SameMemoryOutside (sourceRange i t.latch) s t)
      ∧ (∀ x, t.mem.read x ≠ s.mem.read x → ∃ b, (x, b) ∈ s.hostDirty)

/-- Rule R275: no queue. While a command runs, a `START` is ignored (the same write still sets `IE`, rule R24),
and so are writes to the operand registers, to `CRC`, and to the read-only registers (rule R39). -/
def Obligations.WritesWhileBusyAreIgnored : Prop :=
  ∀ (s : State) (offset : BitVec 8) (v : Word) (rest : List Input),
    s.inputs = .writeReg offset .word v :: rest → s.busy = true → offset.toNat % 4 = 0 →
    (offset = 0x04#8 → v.getLsbD 1 = false → s.phaseConsistent →
      step s = .next { s with inputs := rest, response := .done, ie := v.getLsbD 2 }) ∧
    (offset ≠ 0x04#8 → offset ≠ 0x08#8 →
      step s = .next { s with inputs := rest, response := .done })

/-- Rules R20, R23, R33 to R36, R38 to R40, R84: the register window of an idle engine. A read gives the
register at its offset (of `CTRL`, `IE` at bit 2 and zeros) and changes nothing; a write of a read-write
register changes that register only (of `CMD`, the bits of rule R80 only; of `CTRL` with `START = SRST = 0`,
`IE` only), and reads back; a write of a result register is ignored. Beside the register, only the host's
bus response and its list of inputs change, and what the host has seen: a write of `CRC` makes that register the
host's own, and a write of `CTRL` that raises `IRQ` shows the last command's end. The results and `CRC` are read
where the host has seen the end (rule R274, as log entry 20 reads it; before: `ReadsWhileBusy`). (`ID`:
`IdReadsItsConstant`; `STATUS`: `StatusRegisterFields`; reserved offsets: `BadRegisterAccessesChangeNothing`;
`START` and `SRST`: `LaunchLatchesTheOperands`, `SoftResetAbortsTheCommand`; writes while the reset input is
asserted: `HardwareResetValues`.) -/
def Obligations.RegistersReadBack : Prop :=
  ∀ (s : State) (rest : List Input), s.busy = false →
    (let reads (offset : BitVec 8) (w : Word) : Prop :=
       s.inputs = .readReg offset .word :: rest →
         step s = .next { s with inputs := rest, response := .word w }
     reads 0x04#8 (if s.ie then 0x00000004#32 else 0x00000000#32) ∧ reads 0x0C#8 s.cmd ∧ reads 0x10#8 s.src
       ∧ reads 0x14#8 s.srclen ∧ reads 0x18#8 s.dst ∧ reads 0x1C#8 s.dstlen ∧ reads 0x28#8 s.btimeLo
       ∧ reads 0x2C#8 s.btimeHi ∧ (s.crcUnseen = false → reads 0x24#8 s.crc)
       ∧ (s.endUnseen = false → reads 0x20#8 s.reslen ∧ reads 0x30#8 s.maxv ∧ reads 0x34#8 s.minv
         ∧ reads 0x38#8 s.diffcnt ∧ reads 0x3C#8 s.erraddr)) ∧
    (s.resetHeld = false → ∀ v : Word,
      let u : State := { s with inputs := rest, response := .done }
      let writes (offset : BitVec 8) (t : State) : Prop :=
        s.inputs = .writeReg offset .word v :: rest → step s = .next t
      writes 0x0C#8 { u with cmd := v &&& 0x0000070F#32 } ∧ writes 0x10#8 { u with src := v }
        ∧ writes 0x14#8 { u with srclen := v } ∧ writes 0x18#8 { u with dst := v }
        ∧ writes 0x1C#8 { u with dstlen := v } ∧ writes 0x24#8 { u with crc := v, crcUnseen := false }
        ∧ writes 0x28#8 { u with btimeLo := v } ∧ writes 0x2C#8 { u with btimeHi := v }
        ∧ (∀ offset : BitVec 8, offset.toNat ∈ [0x20, 0x30, 0x34, 0x38, 0x3C] → writes offset u)
        ∧ (v.getLsbD 0 = false → v.getLsbD 1 = false → writes 0x04#8
            (let w := { u with ie := v.getLsbD 2 }
             if s.done && v.getLsbD 2 then
               { w with endUnseen := false, crcUnseen := false, unseenDest := [] }
             else w))) ∧
    (s.resetHeld = false → ∀ (offset : BitVec 8) (v : Word),
      s.inputs = .writeReg offset .word v :: .readReg offset .word :: rest →
      (offset.toNat ∈ [0x10, 0x14, 0x18, 0x1C, 0x24, 0x28, 0x2C] →
        ∃ t, Host.Core.run Sys2Proof.core 2 s = .next t ∧ State.response t = .word v
          ∧ State.inputs t = rest) ∧
      (offset = 0x0C#8 →
        ∃ t, Host.Core.run Sys2Proof.core 2 s = .next t ∧ State.response t = .word (v &&& 0x0000070F#32)
          ∧ State.cmd t = v &&& 0x0000070F#32 ∧ State.inputs t = rest))

/-- Rule R22: `ID` always reads 0x4D465431, and writes to it are ignored. -/
def Obligations.IdReadsItsConstant : Prop :=
  ∀ (s : State) (rest : List Input),
    (s.inputs = .readReg 0x00#8 .word :: rest →
      step s = .next { s with inputs := rest, response := .word 0x4D465431#32 }) ∧
    (∀ v, s.inputs = .writeReg 0x00#8 .word v :: rest →
      step s = .next { s with inputs := rest, response := .done })

/-- Rule R249: a register access that is not 32 bits wide, or not at a multiple of 4, gets a bus error response
and changes nothing else. Reads of reserved offsets give zero and writes to them are ignored. -/
def Obligations.BadRegisterAccessesChangeNothing : Prop :=
  ∀ (s : State) (offset : BitVec 8) (width : AccessWidth) (rest : List Input),
    ((width ≠ .word ∨ offset.toNat % 4 ≠ 0) →
      (s.inputs = .readReg offset width :: rest →
        step s = .next { s with inputs := rest, response := .error }) ∧
      (∀ v, s.inputs = .writeReg offset width v :: rest →
        step s = .next { s with inputs := rest, response := .error })) ∧
    ((width = .word ∧ offset.toNat % 4 = 0 ∧ 0x40 ≤ offset.toNat) →
      (s.inputs = .readReg offset width :: rest →
        step s = .next { s with inputs := rest, response := .word 0#32 }) ∧
      (∀ v, s.inputs = .writeReg offset width v :: rest →
        step s = .next { s with inputs := rest, response := .done }))

/-- Rule R27: the fields of `STATUS` as the host reads it, with the numbers of rule R241 in `ERRCODE`, its reset
value, and that a write to it changes only `DONE`. By a read with `BUSY = 0` the host sees the last command's end
(rule R274), and with it all the ends before, also for the destination bytes: that reading, and the fields that
hold what the host has seen, are the model's, log entry 20. (The premise on `resetHeld` is rule R271's, which
every step keeps: `StepKeepsPhaseConsistent`.) -/
def Obligations.StatusRegisterFields : Prop :=
  State.reset.statusWord = 0#32 ∧ ∀ (s : State) (rest : List Input),
    (s.inputs = .readReg 0x08#8 .word :: rest →
      ∃ w, step s = .next
          (let t := { s with inputs := rest, response := .word w }
           if s.busy then t else { t with endUnseen := false, crcUnseen := false, unseenDest := [] }) ∧
        w.getLsbD 0 = s.busy ∧ w.getLsbD 1 = s.done ∧ w.getLsbD 2 = s.keyv ∧ w.getLsbD 3 = s.crcok
          ∧ w.getLsbD 4 = s.cntok ∧ w.getLsbD 5 = s.s24ovf ∧ w.extractLsb' 6 2 = 0#2
          ∧ w.extractLsb' 8 8 = (match s.errcode with
            | .ok => 0x00#8
            | .op => 0x01#8
            | .noKey => 0x02#8
            | .len => 0x03#8
            | .overlap => 0x04#8
            | .dst => 0x05#8
            | .model => 0x06#8
            | .bus => 0x07#8)
          ∧ w.extractLsb' 16 16 = 0#16) ∧
    (∀ v, (s.resetHeld = true → s.clearEngine = s) → s.inputs = .writeReg 0x08#8 .word v :: rest →
      step s = .next { s with inputs := rest, response := .done, done := s.done && !v.getLsbD 1 })

/-- What a busy engine reads as (rule R40): `STATUS` shows `BUSY` and the current `KEYV` only; each of `RESLEN`,
`CRC`, `MAXV`, `MINV`, `DIFFCNT` and `ERRADDR` gives some word, and its register stays as it is; each of the
other registers gives its value. (`ID`: `IdReadsItsConstant`.) After the end those six still give some word until
the host has seen the end (rule R274, as log entry 20 reads it beside rule R40). -/
def Obligations.ReadsWhileBusy : Prop :=
  ∀ (s : State) (rest : List Input),
    let reads (offset : BitVec 8) (w : Word) : Prop :=
      s.inputs = .readReg offset .word :: rest →
        step s = .next { s with inputs := rest, response := .word w }
    let readsSome (offset : BitVec 8) : Prop :=
      s.inputs = .readReg offset .word :: rest →
        ∃ w, step s = .next { s with inputs := rest, response := .word w, draws := s.draws + 1 }
    (s.busy = true → s.phaseConsistent →
      reads 0x08#8 (if s.keyv then 0x00000005#32 else 0x00000001#32) ∧
      (∀ offset : BitVec 8, offset.toNat ∈ [0x20, 0x24, 0x30, 0x34, 0x38, 0x3C] → readsSome offset) ∧
      reads 0x04#8 (if s.ie then 0x00000004#32 else 0x00000000#32) ∧ reads 0x0C#8 s.cmd ∧ reads 0x10#8 s.src
        ∧ reads 0x14#8 s.srclen ∧ reads 0x18#8 s.dst ∧ reads 0x1C#8 s.dstlen ∧ reads 0x28#8 s.btimeLo
        ∧ reads 0x2C#8 s.btimeHi) ∧
    (s.busy = false → s.endUnseen = true →
      ∀ offset : BitVec 8, offset.toNat ∈ [0x20, 0x30, 0x34, 0x38, 0x3C] → readsSome offset) ∧
    (s.busy = false → s.crcUnseen = true → readsSome 0x24#8)

/-- Rule R247: `IE = 0` masks `IRQ`; every command end makes `DONE` pending; a write of 1 to `STATUS` bit 1, a
launch and each reset clear it; setting `IE` while `DONE = 1` raises `IRQ` at once, clearing `IE` or
`DONE` drops it at once. (The premise on `resetHeld` is rule R271's, which every step keeps:
`StepKeepsPhaseConsistent`.) -/
def Obligations.InterruptEnableAndPending : Prop :=
  ∀ (s t : State), step s = .next t →
    (t.ie = false → t.irq = false) ∧
    (∀ rest, s.inputs = [] ∨ s.inputs = .engine :: rest ∨ s.inputs = .waitIdle :: rest → s.busy = true →
      s.wait = 0 → t.done = true ∧ t.irq = s.ie) ∧
    (∀ rest, s.inputs = .resetAssert :: rest → t.done = false ∧ t.irq = false) ∧
    ((s.resetHeld = true → s.clearEngine = s) →
      (∀ v rest, s.inputs = .writeReg 0x08#8 .word v :: rest → v.getLsbD 1 = true →
        t.done = false ∧ t.irq = false) ∧
      (∀ v rest, s.inputs = .writeReg 0x04#8 .word v :: rest → v.getLsbD 1 = false → v.getLsbD 0 = true →
        s.busy = false → t.done = false ∧ t.irq = false) ∧
      (∀ v rest, s.inputs = .writeReg 0x04#8 .word v :: rest → v.getLsbD 1 = true →
        t.done = false ∧ t.irq = false) ∧
      (∀ v rest, s.inputs = .writeReg 0x04#8 .word v :: rest → v.getLsbD 1 = false → v.getLsbD 0 = false →
        t.irq = (s.done && v.getLsbD 2)))

/-! ## Reset -/

/-- Rule R46: the state after the hardware reset and after a soft reset, from every state. DMA space is not
changed by it when no command runs; when one runs, rule R272 excepts its destination. And rule R271: while
the reset input is asserted, and when it is released, the engine is in its reset state with `IRQ = 0`,
whatever the step is; a host write of the register window meanwhile has no effect on it (what the host's bus
answers is log entry 15). That the reset state has zeros in the latch and no disturbance or waiting step is the
model's choice, log entry 12; that it has no end unseen for the registers, log entry 20. -/
def Obligations.HardwareResetValues : Prop :=
  (∀ (s : State) (rest : List Input) (v : Word),
    s.inputs = .resetAssert :: rest ∨
      (s.inputs = .writeReg 0x04#8 .word v :: rest ∧ v.getLsbD 1 = true ∧ (s.resetHeld = true → s.clearEngine = s)) →
    ∃ t, step s = .next t ∧ t.ctrlWord = 0#32 ∧ t.statusWord = 0#32 ∧ t.cmd = 0#32 ∧ t.src = 0#32
      ∧ t.srclen = 0#32 ∧ t.dst = 0#32 ∧ t.dstlen = 0#32 ∧ t.ResultsAre 0#32 0#32 0#32 0#32
      ∧ t.erraddr = 0#32 ∧ t.crc = 0xFFFFFFFF#32 ∧ t.btimeLo = 0#32 ∧ t.btimeHi = 0#32
      ∧ (∀ k : Fin 11, ∀ b ∈ t.rk[k].toList, b = 0x00#8) ∧ t.busy = false ∧ t.irq = false
      ∧ t.register 0x00#8 = 0x4D465431#32 ∧ (s.busy = false → t.mem = s.mem)
      ∧ SameMemoryOutside s.latch.dest s t ∧ (s.inputs = .resetAssert :: rest → t.resetHeld = true)
      ∧ t.endUnseen = false ∧ t.crcUnseen = false) ∧
  ∀ (s : State) (rest : List Input), s.resetHeld = true → s.phaseConsistent →
    (∀ offset width v, s.inputs = .writeReg offset width v :: rest →
      ∃ r, step s = .next { s with inputs := rest, response := r }) ∧
    (s.inputs = .resetRelease :: rest → step s = .next { s with inputs := rest, resetHeld := false }) ∧
    ∀ t, step s = .next t → t.clearEngine = t ∧ t.irq = false ∧
      (t.resetHeld = false → ∃ later, s.inputs = .resetRelease :: later)

/-- Rule R272: a write of `CTRL` with `SRST = 1` resets the engine, whatever its `START` and `IE` bits are (while
the reset input is asserted the engine is in its reset state already, rule R271, as every step keeps it:
`StepKeepsPhaseConsistent`). A
running command is aborted: `DONE` stays 0 and no interrupt is raised; `[DST, DST + SRCLEN)` of
`AES_ENC` and `AES_DEC`, and `[DST, DST + DSTLEN)` of `RED_ENC` and `RED_DEC`, may hold anything, and
every other byte of DMA space is unchanged. That the latch then holds zeros is the model's choice, log entry
12 (rule R271: the working state is discarded). -/
def Obligations.SoftResetAbortsTheCommand : Prop :=
  ∀ (s : State) (v : Word) (rest : List Input), s.inputs = .writeReg 0x04#8 .word v :: rest →
    v.getLsbD 1 = true → (s.resetHeld = true → s.clearEngine = s) →
    ∃ t, step s = .next t ∧ t.ie = false ∧ t.statusWord = 0#32 ∧ t.cmd = 0#32 ∧ t.src = 0#32
      ∧ t.srclen = 0#32 ∧ t.dst = 0#32 ∧ t.dstlen = 0#32 ∧ t.ResultsAre 0#32 0#32 0#32 0#32
      ∧ t.erraddr = 0#32 ∧ t.crc = 0xFFFFFFFF#32 ∧ t.btimeLo = 0#32 ∧ t.btimeHi = 0#32
      ∧ t.rk = RoundKeys.zero ∧ t.latch = Latch.zero ∧ t.irq = false ∧ t.inputs = rest
      ∧ (s.busy = false → SameMemory s t)
      ∧ (∀ i, s.busy = true → decode s.latch.cmd = .ok i →
          (i = .aesEnc ∨ i = .aesDec →
            SameMemoryOutside ⟨s.latch.dst.toNat, s.latch.srclen.toNat⟩ s t) ∧
          (∀ c d, i = .redEnc c d ∨ i = .redDec c d →
            SameMemoryOutside ⟨s.latch.dst.toNat, s.latch.dstlen.toNat⟩ s t) ∧
          (i = .crcUpdate ∨ i = .keyLoad ∨ i = .nop ∨ i = .crcInit ∨ i = .keyClear → SameMemory s t))

/-! ## Checksum Engine -/

/-- Rule R87: `NOP` ends at once and touches nothing; and the rule's example. -/
def Obligations.NopCompletes : Prop :=
  (∀ s : State, ∃ t, exec .nop s = .next t ∧ t.EndedWith .ok 0#32 ∧ t.ResultsAre 0#32 0#32 0#32 0#32
    ∧ t.FlagsAre false false false ∧ SameMemory s t ∧ SameKeys s t ∧ t.crc = s.crc ∧ SameRest s t) ∧
  ∃ t, Host.Core.run Sys2Proof.core 2 { State.reset with inputs := [.writeReg 0x04#8 .word 0x5#32] } = .next t
    ∧ State.statusWord t = 0x00000002#32 ∧ State.irq t = true

/-- Rule R104: `CRC_INIT`, of the word 0x00000001, seeds the register `CRC` and changes nothing else. -/
def Obligations.CrcInitSeedsTheRegister : Prop :=
  encode .crcInit = 0x00000001#32 ∧ ∀ s : State, ∃ t, exec .crcInit s = .next t ∧ t.crc = 0xFFFFFFFF#32 ∧ t.EndedWith .ok 0#32
    ∧ t.ResultsAre 0#32 0#32 0#32 0#32 ∧ t.FlagsAre false false false ∧ SameMemory s t ∧ SameKeys s t
    ∧ SameRest s t

/-- Rule R105: `CRC_UPDATE`, of the word 0x00000002, on a range that does not wrap and whose bytes can all be read folds them into the
latched value; on a wrapping range it ends with `ERR_LEN` and `CRC` unchanged; at the first byte that
cannot be read it ends with `ERR_BUS`, and `CRC` and `RESLEN` tell the bytes before it. -/
def Obligations.CrcUpdateFoldsTheRange : Prop :=
  encode .crcUpdate = 0x00000002#32 ∧ ∀ s : State,
    (s.latch.src.toNat + s.latch.srclen.toNat ≤ 2 ^ 32 →
      AllDmaOK s.cfg .read s.latch.src.toNat s.latch.srclen.toNat →
      ∃ t, exec .crcUpdate s = .next t
        ∧ t.crc = crcUpdate s.cfg s.latch.crc (s.mem.readBytes s.latch.src.toNat s.latch.srclen.toNat)
        ∧ t.EndedWith .ok 0#32 ∧ t.ResultsAre s.latch.srclen 0#32 0#32 0#32
        ∧ t.FlagsAre false false false ∧ SameMemory s t ∧ SameKeys s t ∧ SameRest s t) ∧
    (2 ^ 32 < s.latch.src.toNat + s.latch.srclen.toNat →
      ∃ t, exec .crcUpdate s = .next t ∧ t.crc = s.crc ∧ t.EndedWith .len 0#32
        ∧ t.ResultsAre 0#32 0#32 0#32 0#32 ∧ t.FlagsAre false false false ∧ SameMemory s t
        ∧ SameKeys s t ∧ SameRest s t) ∧
    (∀ e, s.latch.src.toNat + s.latch.srclen.toNat ≤ 2 ^ 32 →
      FirstBad s.cfg .read s.latch.src.toNat s.latch.srclen.toNat e →
      ∃ t, exec .crcUpdate s = .next t
        ∧ t.crc = crcUpdate s.cfg s.latch.crc
            (s.mem.readBytes s.latch.src.toNat (e - s.latch.src.toNat))
        ∧ t.EndedWith .bus (BitVec.ofNat 32 e)
        ∧ t.ResultsAre (BitVec.ofNat 32 (e - s.latch.src.toNat)) 0#32 0#32 0#32
        ∧ t.FlagsAre false false false ∧ SameMemory s t ∧ SameKeys s t ∧ SameRest s t)

/-- Rule R107: with the `x^0` bit of the polynomial set (bit 31 in the reflected form), changing any one byte
changes the checksum. -/
def Obligations.CrcDetectsOneChangedByte : Prop :=
  ∀ (cfg : Config) (before after : List Byte) (b b' : Byte),
    cfg.crcPoly.getLsbD (if cfg.crcReflected then 31 else 0) = true → b ≠ b' →
    crc32 cfg (before ++ b :: after) ≠ crc32 cfg (before ++ b' :: after)

/-- Rule R108: the table under the default parameters, a row of eight entries a number, and the check values
that the rule gives. -/
def Obligations.DefaultCrcTable : Prop :=
  let rows : List Nat :=
    [0x000000009695C4CAFB4839C96DDDFD0320F3C3CFB6660705DBBBFA064D2E3ECC,
     0x41E7879ED7724354BAAFBE572C3A7A9D61144451F781809B9A5C7D980CC9B952,
     0x83CF0F3C155ACBF6788736F5EE12F23FA33CCCF335A908395874F53ACEE131F0,
     0xC22888A254BD4C683960B16BAFF575A1E2DB4B6D744E8FA7199372A48F06B66E,
     0xD1FDAE2547686AEF2AB597ECBC205326F10E6DEA679BA9200A4654239CD390E9,
     0x901A29BB068FED716B521072FDC7D4B8B0E9EA74267C2EBE4BA1D3BDDD341777,
     0x5232A119C4A765D3A97A98D03FEF5C1A72C162D6E454A61C89895B1F1F1C9FD5,
     0x13D526878540E24DE89D1F4E7E08DB843326E548A5B32182C86EDC815EFB184B,
     0x7598EC17E30D28DD8ED0D5DE18451114556B2FD8C3FEEB12AE23161138B6D2DB,
     0x347F6B89A2EAAF43CF37524059A2968A148CA84682196C8CEFC4918F79515545,
     0xF657E32B60C227E10D1FDAE29B8A1E28D6A420E44031E42E2DEC192DBB79DDE7,
     0xB7B064B52125A07F4CF85D7CDA6D99B69743A77A01D663B06C0B9EB3FA9E5A79,
     0xA465423232F086F85F2D7BFBC9B8BF31849681FD120345377FDEB834E94B7CFE,
     0xE582C5AC731701661ECAFC65885F38AFC571066353E4C2A93E393FAAA8ACFB60,
     0x27AA4D0EB13F89C4DCE274C74A77B00D07598EC191CC4A0BFC11B7086A8473C2,
     0x664DCA90F0D80E5A9D05F3590B90379346BE095FD02BCD95BDF630962B63F45C,
     0xEB31D82E7DA41CE41079E1E786EC252DCBC21BE15D57DF2B308A2228A61FE6E2,
     0xAAD65FB03C439B7A519E6679C70BA2B38A259C7F1CB058B5716DA5B6E7F8617C,
     0x68FED712FE6B13D893B6EEDB05232A11480D14DDDE98D017B3452D1425D0E9DE,
     0x2919508CBF8C9446D251694544C4AD8F09EA93439F7F5789F2A2AA8A64376E40,
     0x3ACC760BAC59B2C1C1844FC257118B081A3FB5C48CAA710EE1778C0D77E248C7,
     0x7B2BF195EDBE355F8063C85C16F60C965BD8325ACD4DF690A0900B933605CF59,
     0xB90379372F96BDFD424B40FED4DE843499F0BAF80F657E3262B88331F42D47FB,
     0xF8E4FEA96E713A6303ACC760953903AAD8173D664E82F9AC235F04AFB5CAC065,
     0x9EA93439083CF0F365E10DF0F374C93ABE5AF7F628CF333C4512CE3FD3870AF5,
     0xDF4EB3A749DB776D24068A6EB2934EA4FFBD70686928B4A204F549A192608D6B,
     0x1D663B058BF3FFCFE62E02CC70BBC6063D95F8CAAB003C00C6DDC103504805C9,
     0x5C81BC9BCA147851A7C98552315C41987C727F54EAE7BB9E873A469D11AF8257,
     0x4F549A1CD9C15ED6B41CA3D52289671F6FA759D3F9329D1994EF601A027AA4D0,
     0x0EB31D829826D948F5FB244B636EE0812E40DE4DB8D51A87D508E784439D234E,
     0xCC9B95205A0E51EA37D3ACE9A1466823EC6856EF7AFD922517206F2681B5ABEC,
     0x8D7C12BE1BE9D67476342B77E0A1EFBDAD8FD1713B1A15BB56C7E8B8C0522C72]
  (∀ i : Fin 256, crcTable Config.default (BitVec.ofNat 8 i.val)
      = BitVec.ofNat 32 (rows.getD (i.val / 8) 0 >>> (32 * (7 - i.val % 8))))
    ∧ crc32 Config.default [] = 0xFFFFFFFF#32 ∧ crc32 Config.default [0x00#8] = 0xC0ADD38D#32
    ∧ crc32 Config.default [0xFF#8] = 0x00FFFFFF#32 ∧ crc32 Config.default [0x61#8] = 0xF25D5575#32
    ∧ crc32 Config.default [0x31#8, 0x32#8, 0x33#8, 0x34#8, 0x35#8, 0x36#8, 0x37#8, 0x38#8, 0x39#8]
      = 0xD2C22F51#32
    ∧ ~~~ crc32 Config.default [0x31#8, 0x32#8, 0x33#8, 0x34#8, 0x35#8, 0x36#8, 0x37#8, 0x38#8, 0x39#8]
      = 0x2D3DD0AE#32
    ∧ crc32 Config.default (List.replicate 4 0xFF#8) = 0x00000000#32
    ∧ crc32 Config.default (List.replicate 16 0x00#8) = 0xBC4BADD8#32

/-! ## Cipher Engine -/

/-- Rules R122, R123: `SBOX` is the affine map of the multiplicative inverse (0 for 0), and `INV_SBOX` undoes
it. -/
def Obligations.SboxIsAffineInverse : Prop :=
  (∀ b x : Byte, (b = 0#8 ∧ x = 0#8) ∨ gmul b x = 1#8 →
    sbox b = x ^^^ x.rotateLeft 1 ^^^ x.rotateLeft 2 ^^^ x.rotateLeft 3 ^^^ x.rotateLeft 4 ^^^ 0x63#8) ∧
    (∀ b : Byte, b ≠ 0#8 → ∃ x : Byte, gmul b x = 1#8) ∧
    ∀ b : Byte, invSbox (sbox b) = b

/-- Rule R128: the 44 words of the expanded key obey the recurrence with RotWord, SubWord and `RCON`, and
`RK[0]` is the key itself. -/
def Obligations.KeyExpansionRecurrence : Prop :=
  ∀ k : Block,
    let w : List Col := (expandKey k).toList.flatMap fun r => [r.c0, r.c1, r.c2, r.c3]
    let rcon : List Byte := [0x01#8, 0x02#8, 0x04#8, 0x08#8, 0x10#8, 0x20#8, 0x40#8, 0x80#8, 0x1B#8, 0x36#8]
    w.length = 44 ∧ w.take 4 = [k.c0, k.c1, k.c2, k.c3] ∧
      ∀ i, 4 ≤ i → i < 44 →
        let t := w.getD (i - 1) Col.zero
        w.getD i Col.zero = (w.getD (i - 4) Col.zero).xor
          (if i % 4 = 0 then
            ⟨sbox t.b1 ^^^ rcon.getD (i / 4 - 1) 0#8, sbox t.b2, sbox t.b3, sbox t.b0⟩
          else t)

/-- The law of rule R130: `InvCipher(Cipher(p, RK), RK) = p` for every block and every round-key set; and the
other way round. -/
def Obligations.InvCipherUndoesCipher : Prop :=
  ∀ (rk : RoundKeys) (p : Block), invCipher rk (cipher rk p) = p ∧ cipher rk (invCipher rk p) = p

/-- Rule R138: the FIPS-197 vectors. -/
def Obligations.CipherReproducesFipsVectors : Prop :=
  let blk (n : Nat) : Block :=
    Block.ofList ((List.range 16).map fun j => BitVec.ofNat 8 (n >>> (8 * (15 - j))))
  cipher (expandKey (blk 0x000102030405060708090A0B0C0D0E0F)) (blk 0x00112233445566778899AABBCCDDEEFF)
      = blk 0x69C4E0D86A7B0430D8CDB78070B4C55A
    ∧ cipher (expandKey (blk 0x2B7E151628AED2A6ABF7158809CF4F3C)) (blk 0x3243F6A8885A308D313198A2E0370734)
      = blk 0x3925841D02DC09FBDC118597196A0B32
    ∧ cipher (expandKey (blk 0)) (blk 0) = blk 0x66E94BD4EF8A2C3B884CFA59CA342B2E
    ∧ (expandKey (blk 0x2B7E151628AED2A6ABF7158809CF4F3C))[1] = blk 0xA0FAFE1788542CB123A339392A6C7605
    ∧ (expandKey (blk 0x2B7E151628AED2A6ABF7158809CF4F3C))[2] = blk 0xF2C295F27A96B9435935807A7359F67F
    ∧ (expandKey (blk 0x2B7E151628AED2A6ABF7158809CF4F3C))[10] = blk 0xD014F9A8C9EE2589E13F0CC8B6630CA6

/-- Rules R131, R132: `KEY_LOAD`, of the word 0x00000003. The password is the bytes before the first 0x00 among the first
`min(SRCLEN, 16)`; the bytes read are these and the 0x00. If all of them can be read, the store holds
the schedule of the zero-padded password and `RESLEN` counts the password's bytes; at the first that
cannot, the store is cleared; when the range wraps, the key is kept. -/
def Obligations.KeyLoadDerivesTheKey : Prop :=
  encode .keyLoad = 0x00000003#32 ∧ ∀ s : State,
    let a := s.latch.src.toNat
    let m := min s.latch.srclen.toNat 16
    let password := (s.mem.readBytes a m).takeWhile fun b => b != 0x00#8
    let bytesRead := min (password.length + 1) m
    (a + m ≤ 2 ^ 32 → AllDmaOK s.cfg .read a bytesRead →
      ∃ t k, exec .keyLoad s = .next t
        ∧ k.toList = password ++ List.replicate (16 - password.length) 0x00#8
        ∧ t.rk = expandKey k ∧ t.keyv = true ∧ t.EndedWith .ok 0#32
        ∧ t.ResultsAre (BitVec.ofNat 32 password.length) 0#32 0#32 0#32
        ∧ t.FlagsAre false false false ∧ SameMemory s t ∧ t.crc = s.crc ∧ SameRest s t) ∧
    (2 ^ 32 < a + m →
      ∃ t, exec .keyLoad s = .next t ∧ SameKeys s t ∧ t.EndedWith .len 0#32
        ∧ t.ResultsAre 0#32 0#32 0#32 0#32 ∧ t.FlagsAre false false false ∧ SameMemory s t
        ∧ t.crc = s.crc ∧ SameRest s t) ∧
    (∀ e, a + m ≤ 2 ^ 32 → FirstBad s.cfg .read a bytesRead e →
      ∃ t, exec .keyLoad s = .next t ∧ t.rk = RoundKeys.zero ∧ t.keyv = false
        ∧ t.EndedWith .bus (BitVec.ofNat 32 e) ∧ t.ResultsAre 0#32 0#32 0#32 0#32
        ∧ t.FlagsAre false false false ∧ SameMemory s t ∧ t.crc = s.crc ∧ SameRest s t)

/-- Rule R133: `KEY_CLEAR`, of the word 0x00000004, zeroes the store and `KEYV`, whatever `KEYV` was. -/
def Obligations.KeyClearEmptiesTheStore : Prop :=
  encode .keyClear = 0x00000004#32 ∧ ∀ s : State, ∃ t, exec .keyClear s = .next t ∧ (∀ k : Fin 11, ∀ b ∈ t.rk[k].toList, b = 0x00#8)
    ∧ t.keyv = false ∧ t.EndedWith .ok 0#32 ∧ t.ResultsAre 0#32 0#32 0#32 0#32
    ∧ t.FlagsAre false false false ∧ SameMemory s t ∧ t.crc = s.crc ∧ SameRest s t

/-- Rule R134, the successful end: with a key, a length that is a multiple of 16, ranges that do not wrap, room
at the destination, no overlap other than `SRC = DST`, and every byte reachable, `AES_ENC` stores the
encryption of each segment and nothing else. -/
def Obligations.AesEncStoresTheEncryptedSegments : Prop :=
  ∀ s : State,
    let a := s.latch.src.toNat
    let n := s.latch.srclen.toNat
    let d := s.latch.dst.toNat
    s.mem.wf = true → s.keyv = true → n % 16 = 0 → a + n ≤ 2 ^ 32 → n ≤ s.latch.dstlen.toNat →
    d + n ≤ 2 ^ 32 → (n = 0 ∨ a = d ∨ a + n ≤ d ∨ d + n ≤ a) →
    AllDmaOK s.cfg .read a n → AllDmaOK s.cfg .write d n →
    ∃ t, exec .aesEnc s = .next t ∧ t.mem.readBytes d n = ecbEnc s.rk (s.mem.readBytes a n)
      ∧ SameMemoryOutside ⟨d, n⟩ s t ∧ t.EndedWith .ok 0#32 ∧ t.ResultsAre s.latch.srclen 0#32 0#32 0#32
      ∧ t.FlagsAre false false false ∧ SameKeys s t ∧ t.crc = s.crc ∧ SameRest s t

/-- Rule R135, the successful end: as for `AES_ENC`, with the decryption of each segment. -/
def Obligations.AesDecStoresTheDecryptedSegments : Prop :=
  ∀ s : State,
    let a := s.latch.src.toNat
    let n := s.latch.srclen.toNat
    let d := s.latch.dst.toNat
    s.mem.wf = true → s.keyv = true → n % 16 = 0 → a + n ≤ 2 ^ 32 → n ≤ s.latch.dstlen.toNat →
    d + n ≤ 2 ^ 32 → (n = 0 ∨ a = d ∨ a + n ≤ d ∨ d + n ≤ a) →
    AllDmaOK s.cfg .read a n → AllDmaOK s.cfg .write d n →
    ∃ t, exec .aesDec s = .next t ∧ t.mem.readBytes d n = ecbDec s.rk (s.mem.readBytes a n)
      ∧ SameMemoryOutside ⟨d, n⟩ s t ∧ t.EndedWith .ok 0#32 ∧ t.ResultsAre s.latch.srclen 0#32 0#32 0#32
      ∧ t.FlagsAre false false false ∧ SameKeys s t ∧ t.crc = s.crc ∧ SameRest s t

/-- The static checks of rules R134, R135, R244: the error of the first that fails in the rule's order, with
no byte of memory and no register changed but the end state. -/
def Obligations.AesStaticErrorsInOrder : Prop :=
  ∀ (s : State) (i : Instr) (code : ErrCode), i = .aesEnc ∨ i = .aesDec →
    (let a := s.latch.src.toNat
     let n := s.latch.srclen.toNat
     let d := s.latch.dst.toNat
     (s.keyv = false ∧ code = .noKey) ∨
       (s.keyv = true ∧ n % 16 ≠ 0 ∧ code = .len) ∨
       (s.keyv = true ∧ n % 16 = 0 ∧ 2 ^ 32 < a + n ∧ code = .len) ∨
       (s.keyv = true ∧ n % 16 = 0 ∧ a + n ≤ 2 ^ 32 ∧ s.latch.dstlen.toNat < n ∧ code = .dst) ∨
       (s.keyv = true ∧ n % 16 = 0 ∧ a + n ≤ 2 ^ 32 ∧ n ≤ s.latch.dstlen.toNat ∧ 2 ^ 32 < d + n
         ∧ code = .len) ∨
       (s.keyv = true ∧ n % 16 = 0 ∧ a + n ≤ 2 ^ 32 ∧ n ≤ s.latch.dstlen.toNat ∧ d + n ≤ 2 ^ 32
         ∧ a ≠ d ∧ a < d + n ∧ d < a + n ∧ code = .overlap)) →
    ∃ t, exec i s = .next t ∧ t.EndedWith code 0#32 ∧ t.ResultsAre 0#32 0#32 0#32 0#32
      ∧ t.FlagsAre false false false ∧ SameMemory s t ∧ SameKeys s t ∧ t.crc = s.crc ∧ SameRest s t

/-- The bus errors of rules R134, R135, R245: at the segment `j`, the segments before it are done and counted in
`RESLEN`; of segment `j`, nothing is stored when its read fails, and the bytes before the failing one
when its write fails. -/
def Obligations.AesBusErrorKeepsDoneSegments : Prop :=
  ∀ (s : State) (i : Instr) (f : Block → Block) (j e : Nat),
    (i = .aesEnc ∧ f = cipher s.rk) ∨ (i = .aesDec ∧ f = invCipher s.rk) →
    (let a := s.latch.src.toNat
     let n := s.latch.srclen.toNat
     let d := s.latch.dst.toNat
     s.mem.wf = true → s.keyv = true → n % 16 = 0 → a + n ≤ 2 ^ 32 → n ≤ s.latch.dstlen.toNat →
     d + n ≤ 2 ^ 32 → (a = d ∨ a + n ≤ d ∨ d + n ≤ a) → 16 * j < n →
     AllDmaOK s.cfg .read a (16 * j) → AllDmaOK s.cfg .write d (16 * j) →
     (FirstBad s.cfg .read (a + 16 * j) 16 e →
       ∃ t, exec i s = .next t ∧ t.EndedWith .bus (BitVec.ofNat 32 e)
         ∧ t.ResultsAre (BitVec.ofNat 32 (16 * j)) 0#32 0#32 0#32 ∧ t.FlagsAre false false false
         ∧ t.mem.readBytes d (16 * j) = ecb f (s.mem.readBytes a (16 * j))
         ∧ SameMemoryOutside ⟨d, 16 * j⟩ s t ∧ SameKeys s t ∧ t.crc = s.crc ∧ SameRest s t) ∧
     (AllDmaOK s.cfg .read (a + 16 * j) 16 → FirstBad s.cfg .write (d + 16 * j) 16 e →
       ∃ t, exec i s = .next t ∧ t.EndedWith .bus (BitVec.ofNat 32 e)
         ∧ t.ResultsAre (BitVec.ofNat 32 (16 * j)) 0#32 0#32 0#32 ∧ t.FlagsAre false false false
         ∧ t.mem.readBytes d (e - d) = (ecb f (s.mem.readBytes a (16 * (j + 1)))).take (e - d)
         ∧ SameMemoryOutside ⟨d, e - d⟩ s t ∧ SameKeys s t ∧ t.crc = s.crc ∧ SameRest s t))

/-- The cipher round trip on memory (95_test_vectors.md S2, rules R130, R134, R135): segments encrypted in place
and then decrypted in place under the same key are what they were, and so is every other byte. -/
def Obligations.AesRoundTripInPlace : Prop :=
  ∀ s : State,
    let a := s.latch.src.toNat
    let n := s.latch.srclen.toNat
    s.mem.wf = true → s.keyv = true → n % 16 = 0 → a + n ≤ 2 ^ 32 → n ≤ s.latch.dstlen.toNat →
    s.latch.dst = s.latch.src → AllDmaOK s.cfg .read a n → AllDmaOK s.cfg .write a n →
    ∃ t u, exec .aesEnc s = .next t ∧ exec .aesDec { t with latch := s.latch } = .next u
      ∧ u.EndedWith .ok 0#32 ∧ SameMemory s u

/-! ## RED Block Codec -/

/-- Rules R173, R176, R192: the delta decoder gives back every list of samples in the signed 24-bit range. -/
def Obligations.DeltaDecodeInvertsEncode : Prop :=
  ∀ v : List Int, (∀ x ∈ v, -2 ^ 23 ≤ x ∧ x ≤ 2 ^ 23 - 1) →
    (deltaDecode (deltaEncode v)).map BitVec.toInt = v

/-- Rule R174: the difference count. With `e` escaped samples, `D = n + 2 + 3e`, so `n + 2 <= D <= 4n - 1` and
`D >= 3`. -/
def Obligations.DifferenceCountFormula : Prop :=
  ∀ v : List Int, v ≠ [] →
    let escaped := (v.zip v.tail).countP fun p => decide (p.2 - p.1 < -127 ∨ 127 < p.2 - p.1)
    let count := (deltaEncode v).length
    count = v.length + 2 + 3 * escaped ∧ v.length + 2 ≤ count ∧ count ≤ 4 * v.length - 1 ∧ 3 ≤ count

/-- Rule R178: the scaled counts. They are the counts when the peak `M` is at most 255; else each is the least
number not below `h[b] * S / M`. They fit in a byte, are zero exactly where the count is, and the
peak becomes `S`. -/
def Obligations.ScaledCountsFitAByte : Prop :=
  ∀ (cfg : Config) (h : List Nat), cfg.wellFormed = true →
    (scale cfg h).length = h.length ∧
    ∀ peak, peak ∈ h → (∀ x ∈ h, x ≤ peak) →
      (peak ≤ 255 → scale cfg h = h) ∧
      ∀ b, b < h.length →
        let x := h.getD b 0
        let c := (scale cfg h).getD b 0
        c ≤ 255 ∧ (c = 0 ↔ x = 0) ∧
          (255 < peak → x * cfg.scaleTarget ≤ c * peak ∧ c * peak < x * cfg.scaleTarget + peak ∧
            (x = peak → c = cfg.scaleTarget))

/-- The bounds of rule R179 on the total of the counts of a stream. -/
def Obligations.TotalCountBounds : Prop :=
  ∀ (cfg : Config) (z : List Byte), cfg.wellFormed = true → z ≠ [] →
    1 ≤ totalCount (scale cfg (histogram z)) ∧ totalCount (scale cfg (histogram z)) ≤ 65280

/-- After a renormalisation `range` is over `BOTTOM` and at most `TOP`, so the loops of rules R182 and R188 have
ended: the model's bound on their turns (log entry 7, an inference) cuts nothing off. -/
def Obligations.RenormalisationFinishes : Prop :=
  (∀ e : EncState, 1 ≤ e.range.toNat → e.range.toNat ≤ 2 ^ 31 →
    2 ^ 23 < (encNormalize coderTurns e).range.toNat ∧ (encNormalize coderTurns e).range.toNat ≤ 2 ^ 31) ∧
  (∀ d : DecState, 1 ≤ d.range.toNat → d.range.toNat ≤ 2 ^ 31 →
    2 ^ 23 < (decNormalize coderTurns d).range.toNat ∧ (decNormalize coderTurns d).range.toNat ≤ 2 ^ 31)

/-- Rules R189, R207: whatever the payload bytes are, decoding a symbol of a table with a total of 1 to 65280
leaves `range` between 1 and 2^31 and gives a byte that the table counts. -/
def Obligations.SymbolDecodingIsDefined : Prop :=
  ∀ (cnt : List Nat) (d : DecState), cnt.length = 256 → 1 ≤ totalCount cnt → totalCount cnt ≤ 65280 →
    1 ≤ d.range.toNat → d.range.toNat ≤ 2 ^ 31 →
    1 ≤ (decodeSymbol cnt d).2.range.toNat ∧ (decodeSymbol cnt d).2.range.toNat ≤ 2 ^ 31
      ∧ 0 < countOf cnt (decodeSymbol cnt d).1.toNat

/-- Rule R191 for streams of up to about 2 * 10^9 bytes (a longer one could wrap the 32-bit underflow count of
rule R180, log entry 7): decoding the payload, with any zero bytes after it (rules R186, R194), gives
back the stream. -/
def Obligations.RangeDecodeInvertsEncode : Prop :=
  ∀ (cfg : Config) (z : List Byte) (filler : Nat), cfg.wellFormed = true → z ≠ [] → 17 * z.length + 16 ≤ 2 ^ 35 →
    let cnt := scale cfg (histogram z)
    rangeDecode (rangeEncode z cnt ++ List.replicate filler 0x00#8) cnt z.length = z

/-- Rule R208: the bounds on the size of a block of `n` samples. -/
def Obligations.BlockSizeBounds : Prop :=
  ∀ (cfg : Config) (v : List Int) (blockTime : Nat) (disc : Bool) (key : Option RoundKeys),
    cfg.wellFormed = true → v ≠ [] →
    let z := deltaEncode v
    let payload := rangeEncode z (scale cfg (histogram z))
    let block := encodeBlock cfg v blockTime disc key
    z.length ≤ 4 * v.length - 1 ∧ 288 ≤ block.length ∧ payload.length ≤ 3 + (17 * z.length + 7) / 8
      ∧ block.length ≤ 297 + (17 * (4 * v.length - 1) + 7) / 8

/-- Rules R171, R194, R195, R197 to R199, R203: the fields of a block as it is stored, at their offsets. -/
def Obligations.BlockHeaderFields : Prop :=
  ∀ (cfg : Config) (v : List Int) (blockTime : Nat) (disc : Bool) (key : Option RoundKeys),
    let z := deltaEncode v
    let cnt := scale cfg (histogram z)
    let payload := rangeEncode z cnt
    let block := encodeBlock cfg v blockTime disc key
    let field (k n : Nat) : List Byte := (block.drop k).take n
    field 0 4 = leBytes 4 (crc32 cfg (block.drop 4)).toNat
      ∧ field 4 4 = leBytes 4 block.length ∧ field 8 8 = leBytes 8 blockTime
      ∧ field 16 4 = leBytes 4 z.length ∧ field 20 4 = leBytes 4 v.length
      ∧ field 24 3 = lowBytes3 (greatest v) ∧ field 27 3 = lowBytes3 (least v)
      ∧ field 30 1 = [if disc then 0x01#8 else 0x00#8]
      ∧ (key = none → field 31 256 = cnt.map fun c => BitVec.ofNat 8 c)
      ∧ (∀ rk, key = some rk → field 31 256 = ecbEnc rk (cnt.map fun c => BitVec.ofNat 8 c))
      ∧ field 287 payload.length = payload
      ∧ block.drop (287 + payload.length) = List.replicate ((8 - (287 + payload.length) % 8) % 8) 0x00#8
      ∧ block.length % 8 = 0

/-- Rule R204, the successful end: with a key if `CRYPT = 1`, at least one sample, ranges that do not wrap or
overlap, room for the block, and every byte reachable, `RED_ENC` stores the block and nothing else,
and reports its length, its difference count, the extremes and the 24-bit overflow. -/
def Obligations.RedEncStoresTheBlock : Prop :=
  ∀ (s : State) (crypt disc : Bool),
    let a := s.latch.src.toNat
    let n := s.latch.srclen.toNat
    let d := s.latch.dst.toNat
    let cap := s.latch.dstlen.toNat
    let v := (List.range (n / 4)).map fun j =>
      (BitVec.ofNat 32 (leNat (s.mem.readBytes (a + 4 * j) 4))).toInt
    let block := encodeBlock s.cfg v (s.latch.btimeHi.toNat * 2 ^ 32 + s.latch.btimeLo.toNat) disc
      (if crypt then some s.rk else none)
    s.mem.wf = true → (crypt = true → s.keyv = true) → 0 < n → n % 4 = 0 → a + n ≤ 2 ^ 32 →
    d + cap ≤ 2 ^ 32 → (a + n ≤ d ∨ d + cap ≤ a) → AllDmaOK s.cfg .read a n → block.length ≤ cap →
    AllDmaOK s.cfg .write d block.length →
    ∃ t, exec (.redEnc crypt disc) s = .next t ∧ t.mem.readBytes d block.length = block
      ∧ SameMemoryOutside ⟨d, block.length⟩ s t ∧ t.EndedWith .ok 0#32
      ∧ t.reslen = BitVec.ofNat 32 block.length ∧ t.diffcnt = BitVec.ofNat 32 (deltaEncode v).length
      ∧ (∃ x ∈ v, (∀ y ∈ v, y ≤ x) ∧ t.maxv = BitVec.ofInt 32 x)
      ∧ (∃ x ∈ v, (∀ y ∈ v, x ≤ y) ∧ t.minv = BitVec.ofInt 32 x)
      ∧ t.crcok = false ∧ t.cntok = false
      ∧ (t.s24ovf = true ↔ ∃ x ∈ v, x < -2 ^ 23 ∨ 2 ^ 23 - 1 < x)
      ∧ SameKeys s t ∧ t.crc = s.crc ∧ SameRest s t

/-- The errors of `RED_ENC` (rules R204, R244, R245): the static checks in order, with memory unchanged; a sample
that cannot be read, a block that does not fit, a byte that cannot be written, with unspecified values
in `[DST, DST + DSTLEN)` and no other byte changed. -/
def Obligations.RedEncErrors : Prop :=
  ∀ (s : State) (crypt disc : Bool),
    let a := s.latch.src.toNat
    let n := s.latch.srclen.toNat
    let d := s.latch.dst.toNat
    let cap := s.latch.dstlen.toNat
    let v := (List.range (n / 4)).map fun j =>
      (BitVec.ofNat 32 (leNat (s.mem.readBytes (a + 4 * j) 4))).toInt
    let block := encodeBlock s.cfg v (s.latch.btimeHi.toNat * 2 ^ 32 + s.latch.btimeLo.toNat) disc
      (if crypt then some s.rk else none)
    let key := crypt = true → s.keyv = true
    let shape := 0 < n ∧ n % 4 = 0 ∧ a + n ≤ 2 ^ 32 ∧ d + cap ≤ 2 ^ 32
    let apart := ¬ (0 < cap ∧ a < d + cap ∧ d < a + n)
    let fails (code : ErrCode) (addr : Nat) (r : ByteRange) : Prop :=
      ∃ t, exec (.redEnc crypt disc) s = .next t ∧ t.EndedWith code (BitVec.ofNat 32 addr)
        ∧ t.ResultsAre 0#32 0#32 0#32 0#32 ∧ t.FlagsAre false false false ∧ SameMemoryOutside r s t
        ∧ SameKeys s t ∧ t.crc = s.crc ∧ SameRest s t
    (¬ key → fails .noKey 0 ⟨d, 0⟩) ∧
    (key → ¬ shape → fails .len 0 ⟨d, 0⟩) ∧
    (key → shape → ¬ apart → fails .overlap 0 ⟨d, 0⟩) ∧
    (∀ e, key → shape → apart → FirstBad s.cfg .read a n e → fails .bus e ⟨d, cap⟩) ∧
    (key → shape → apart → AllDmaOK s.cfg .read a n → cap < block.length → fails .dst 0 ⟨d, cap⟩) ∧
    (∀ e, key → shape → apart → AllDmaOK s.cfg .read a n → block.length ≤ cap →
      FirstBad s.cfg .write d block.length e → fails .bus e ⟨d, cap⟩)

/-- Rule R205, the successful end: with a key if `CRYPT = 1`, a whole block in the source range with a possible
length field, ranges that do not wrap or overlap, room for the samples, a table that can decode, and
every byte reachable, `RED_DEC` stores the samples it decodes, at most the header's count, and
nothing else, and reports the flags. -/
def Obligations.RedDecStoresTheSamples : Prop :=
  ∀ (s : State) (crypt validate : Bool),
    let a := s.latch.src.toNat
    let n := s.latch.srclen.toNat
    let d := s.latch.dst.toNat
    let cap := s.latch.dstlen.toNat
    let l := leNat (s.mem.readBytes (a + 4) 4)
    let diffs := leNat (s.mem.readBytes (a + 16) 4)
    let count := leNat (s.mem.readBytes (a + 20) 4)
    let stored := s.mem.readBytes (a + 31) 256
    let cnt := (if crypt then ecbDec s.rk stored else stored).map BitVec.toNat
    let out := deltaDecode (rangeDecode (s.mem.readBytes (a + 287) (l - 287)) cnt diffs)
    let w := min out.length count
    s.mem.wf = true → (crypt = true → s.keyv = true) → 287 ≤ n → a + n ≤ 2 ^ 32 → d + cap ≤ 2 ^ 32 →
    (cap = 0 ∨ a + n ≤ d ∨ d + cap ≤ a) → 287 ≤ l → l ≤ n → 4 * count ≤ cap →
    AllDmaOK s.cfg .read a l → (0 < totalCount cnt ∨ diffs = 0) → AllDmaOK s.cfg .write d (4 * w) →
    ∃ t, exec (.redDec crypt validate) s = .next t
      ∧ t.mem.readBytes d (4 * w) = (out.take w).flatMap wordBytes
      ∧ SameMemoryOutside ⟨d, 4 * w⟩ s t ∧ t.EndedWith .ok 0#32
      ∧ t.reslen = BitVec.ofNat 32 (4 * w) ∧ t.diffcnt = BitVec.ofNat 32 diffs
      ∧ (w = 0 → t.maxv = 0#32 ∧ t.minv = 0#32)
      ∧ (0 < w → t.maxv ∈ out.take w ∧ t.minv ∈ out.take w ∧
          ∀ x ∈ out.take w, t.minv.toInt ≤ x.toInt ∧ x.toInt ≤ t.maxv.toInt)
      ∧ (t.crcok = true ↔ validate = true ∧
          (crc32 s.cfg (s.mem.readBytes (a + 4) (l - 4))).toNat = leNat (s.mem.readBytes a 4))
      ∧ (t.cntok = true ↔ out.length = count) ∧ t.s24ovf = false
      ∧ SameKeys s t ∧ t.crc = s.crc ∧ SameRest s t

/-- The errors of `RED_DEC` (rules R205, R244, R245), in the order tested; every one before the samples are
written leaves memory unchanged, and the last leaves unspecified values in `[DST, DST + DSTLEN)`. -/
def Obligations.RedDecErrors : Prop :=
  ∀ (s : State) (crypt validate : Bool),
    let a := s.latch.src.toNat
    let n := s.latch.srclen.toNat
    let d := s.latch.dst.toNat
    let cap := s.latch.dstlen.toNat
    let l := leNat (s.mem.readBytes (a + 4) 4)
    let diffs := leNat (s.mem.readBytes (a + 16) 4)
    let count := leNat (s.mem.readBytes (a + 20) 4)
    let stored := s.mem.readBytes (a + 31) 256
    let cnt := (if crypt then ecbDec s.rk stored else stored).map BitVec.toNat
    let out := deltaDecode (rangeDecode (s.mem.readBytes (a + 287) (l - 287)) cnt diffs)
    let w := min out.length count
    let key := crypt = true → s.keyv = true
    let shape := 287 ≤ n ∧ a + n ≤ 2 ^ 32 ∧ d + cap ≤ 2 ^ 32
    let apart := ¬ (0 < cap ∧ a < d + cap ∧ d < a + n)
    let fails (code : ErrCode) (addr : Nat) (r : ByteRange) : Prop :=
      ∃ t, exec (.redDec crypt validate) s = .next t ∧ t.EndedWith code (BitVec.ofNat 32 addr)
        ∧ t.ResultsAre 0#32 0#32 0#32 0#32 ∧ t.FlagsAre false false false ∧ SameMemoryOutside r s t
        ∧ SameKeys s t ∧ t.crc = s.crc ∧ SameRest s t
    (¬ key → fails .noKey 0 ⟨d, 0⟩) ∧
    (key → ¬ shape → fails .len 0 ⟨d, 0⟩) ∧
    (key → shape → ¬ apart → fails .overlap 0 ⟨d, 0⟩) ∧
    (∀ e, key → shape → apart → FirstBad s.cfg .read a 287 e → fails .bus e ⟨d, 0⟩) ∧
    (key → shape → apart → AllDmaOK s.cfg .read a 287 → (l < 287 ∨ n < l) → fails .len 0 ⟨d, 0⟩) ∧
    (key → shape → apart → AllDmaOK s.cfg .read a 287 → 287 ≤ l → l ≤ n → cap < 4 * count →
      fails .dst 0 ⟨d, 0⟩) ∧
    (∀ e, key → shape → apart → AllDmaOK s.cfg .read a 287 → 287 ≤ l → l ≤ n → 4 * count ≤ cap →
      FirstBad s.cfg .read (a + 287) (l - 287) e → fails .bus e ⟨d, 0⟩) ∧
    (key → shape → apart → 287 ≤ l → l ≤ n → 4 * count ≤ cap → AllDmaOK s.cfg .read a l →
      totalCount cnt = 0 → 0 < diffs → fails .model 0 ⟨d, 0⟩) ∧
    (∀ e, key → shape → apart → 287 ≤ l → l ≤ n → 4 * count ≤ cap → AllDmaOK s.cfg .read a l →
      (0 < totalCount cnt ∨ diffs = 0) → FirstBad s.cfg .write d (4 * w) e → fails .bus e ⟨d, cap⟩)

/-- Rule R206 with the room that rule R208 says always suffices: `RED_ENC` and then `RED_DEC` of its block, with
`VALIDATE = 1` and the same key, store the samples again, with `CRCOK = 1` and `CNTOK = 1`. The second
command's operands name the block as source and any room apart from it. -/
def Obligations.RedRoundTrip : Prop :=
  ∀ (s : State) (crypt disc : Bool) (dst2 : Word),
    let a := s.latch.src.toNat
    let n := s.latch.srclen.toNat
    let d := s.latch.dst.toNat
    let cap := s.latch.dstlen.toNat
    let need := 297 + (17 * (n - 1) + 7) / 8
    s.mem.wf = true → s.cfg.wellFormed = true → (crypt = true → s.keyv = true) → 0 < n → n % 4 = 0 →
    a + n ≤ 2 ^ 32 → d + cap ≤ 2 ^ 32 → (a + n ≤ d ∨ d + cap ≤ a) → need ≤ cap →
    dst2.toNat + n ≤ 2 ^ 32 → (dst2.toNat + n ≤ d ∨ d + cap ≤ dst2.toNat) →
    AllDmaOK s.cfg .read a n → AllDmaOK s.cfg .read d cap → AllDmaOK s.cfg .write d cap →
    AllDmaOK s.cfg .write dst2.toNat n →
    (∀ j, j < n / 4 →
      let x := (BitVec.ofNat 32 (leNat (s.mem.readBytes (a + 4 * j) 4))).toInt; -2 ^ 23 ≤ x ∧ x ≤ 2 ^ 23 - 1) →
    ∃ t u, exec (.redEnc crypt disc) s = .next t ∧ t.errcode = .ok
      ∧ exec (.redDec crypt true)
          { t with latch := { s.latch with
              src := s.latch.dst, srclen := t.reslen, dst := dst2, dstlen := s.latch.srclen } } = .next u
      ∧ u.EndedWith .ok 0#32 ∧ u.FlagsAre true true false ∧ u.reslen = s.latch.srclen
      ∧ u.mem.readBytes dst2.toNat n = s.mem.readBytes a n

/-! ## Frames and rules about all commands -/

/-- The last sentences of rule R245: no command writes outside `[DST, DST + DSTLEN)` in any outcome, the commands
without a destination write nothing, and no command writes its source but `AES_ENC` and `AES_DEC` in
place. -/
def Obligations.NoCommandWritesOutsideItsDestination : Prop :=
  ∀ (i : Instr) (s t : State), exec i s = .next t →
    SameMemoryOutside ⟨s.latch.dst.toNat, s.latch.dstlen.toNat⟩ s t ∧
    (i = .nop ∨ i = .crcInit ∨ i = .crcUpdate ∨ i = .keyLoad ∨ i = .keyClear → SameMemory s t) ∧
    (((i ≠ .aesEnc ∧ i ≠ .aesDec) ∨ s.latch.src ≠ s.latch.dst) →
      ∀ x, s.latch.src.toNat ≤ x → x < s.latch.src.toNat + s.latch.srclen.toNat →
        t.mem.read x = s.mem.read x)

/-- The rows of rule R45 and rules R30, R31, R34 to R36, R38, R241, R243, R245: what no command writes, which
commands write the keys, `CRC`, each flag and each result register, which outcomes a command reports, and what
an error leaves in them. Of `RESLEN`: 0 for the commands that count nothing and for every error but a bus
error of `CRC_UPDATE`, `AES_ENC` or `AES_DEC`, which counts less than the source; the whole source for their
success; at most 16 bytes for a key, and at most `DSTLEN` for the RED commands. That the latch is cleared to
zeros is the model's choice, log entry 12. -/
def Obligations.CommandsWriteTheirOwnRegistersOnly : Prop :=
  ∀ (i : Instr) (s t : State), exec i s = .next t →
    let counted := i = .crcUpdate ∨ i = .aesEnc ∨ i = .aesDec
    SameRest s t ∧ t.busy = false ∧ t.done = true ∧ t.latch = Latch.zero
      ∧ (i ≠ .keyLoad → i ≠ .keyClear → SameKeys s t)
      ∧ (i ≠ .crcInit → i ≠ .crcUpdate → t.crc = s.crc)
      ∧ ((∀ c v, i ≠ .redDec c v) → t.crcok = false ∧ t.cntok = false)
      ∧ ((∀ c d, i ≠ .redEnc c d) → t.s24ovf = false)
      ∧ ((∀ c d, i ≠ .redEnc c d) → (∀ c v, i ≠ .redDec c v) →
          t.maxv = 0#32 ∧ t.minv = 0#32 ∧ t.diffcnt = 0#32)
      ∧ (t.errcode ≠ .ok → t.maxv = 0#32 ∧ t.minv = 0#32 ∧ t.diffcnt = 0#32
          ∧ t.crcok = false ∧ t.cntok = false ∧ t.s24ovf = false)
      ∧ (t.errcode ≠ .bus → t.erraddr = 0#32) ∧ t.errcode ∈ outcomeCodes i
      ∧ (i = .nop ∨ i = .crcInit ∨ i = .keyClear → t.reslen = 0#32)
      ∧ (t.errcode ≠ .ok → ¬ (t.errcode = .bus ∧ counted) → t.reslen = 0#32)
      ∧ (t.errcode = .ok → counted → t.reslen = s.latch.srclen)
      ∧ (t.errcode = .bus → counted → t.reslen.toNat < s.latch.srclen.toNat)
      ∧ (i = .keyLoad → t.reslen.toNat ≤ 16)
      ∧ ((∃ c f, i = .redEnc c f ∨ i = .redDec c f) → t.reslen.toNat ≤ s.latch.dstlen.toNat)

/-- Rules R62, R64: a byte that a successful command, or an `AES_ENC` or `AES_DEC` with any outcome, changes is one
where a DMA write completes, so no such byte is in the engine's own window. An error end of `RED_ENC` or
`RED_DEC` changes bytes only with `ERR_BUS` or `ERR_DST`, and those it leaves unspecified (rule R245) are in
`[DST, DST + DSTLEN)`. -/
def Obligations.ChangedBytesAreWritable : Prop :=
  ∀ (i : Instr) (s t : State) (x : Nat), exec i s = .next t → t.mem.read x ≠ s.mem.read x →
    (t.errcode = .ok ∨ i = .aesEnc ∨ i = .aesDec →
      memOK s.cfg .write x = true ∧
        ¬ (s.cfg.engineBase.toNat ≤ x ∧ x < s.cfg.engineBase.toNat + 0x100)) ∧
    (t.errcode ≠ .ok → (∃ c f, i = .redEnc c f ∨ i = .redDec c f) →
      (t.errcode = .bus ∨ t.errcode = .dst) ∧
        s.latch.dst.toNat ≤ x ∧ x < s.latch.dst.toNat + s.latch.dstlen.toNat)

/-- Rules R41, R252: the round keys cannot be read back. A register read, at any offset, at any time, gives the
host the same whatever the round-key store holds. -/
def Obligations.RoundKeysCannotBeReadBack : Prop :=
  ∀ (s : State) (rk : RoundKeys) (offset : BitVec 8) (width : AccessWidth) (rest : List Input) (t t' : State),
    s.inputs = .readReg offset width :: rest → step s = .next t → step { s with rk := rk } = .next t' →
    t'.response = t.response ∧ t' = { t with rk := rk }

/-! ## Host accesses to DMA space -/

/-- Rules R69, R73, R256 with DMA coherence: the byte that a host store or a write by another bus master leaves is
what the engine and the host then read, and no other byte changes; a host load gives the byte in memory, but
some byte while it is in the destination of a running command, or of one whose end the host has not seen; a byte
that another engine instance writes or reads while the running command uses it has unspecified contents, and
reading any other changes nothing. In the register window, with DMA coherence or without, a byte access of the host gets a bus error (rule R249), and one
of another master changes nothing. The accesses as single bytes that MemOK is not asked for are the model's
choice, log entry 14; the accesses of others are log entry 17; what the host has seen (rules R69, R274), and that
a byte it stores is then its own, is log entry 20. -/
def Obligations.HostStoresReachMemory : Prop :=
  ∀ (s : State) (addr : Word) (b : Byte) (rest : List Input),
    (s.cfg.dmaCoherent = true → s.mem.wf = true → ¬ (window s.cfg).contains addr.toNat = true →
      (s.inputs = .store addr b :: rest →
        ∃ t, step s = .next t ∧ t.mem.read addr.toNat = b ∧ SameMemoryOutside ⟨addr.toNat, 1⟩ s t
          ∧ t.hostView addr.toNat = b ∧ t.response = .done ∧ t.inputs = rest
          ∧ (t.unseenDest.any fun r => r.contains addr.toNat) = false
          ∧ (s.inUse addr.toNat = false → t = { s with
              mem := t.mem, response := .done, inputs := rest, unseenDest := t.unseenDest })) ∧
      (s.inputs = .busWrite addr b :: rest →
        ∃ t, step s = .next t ∧ SameMemoryOutside ⟨addr.toNat, 1⟩ s t ∧ t.response = s.response
          ∧ t.inputs = rest
          ∧ (s.inUse addr.toNat = false → t.mem.read addr.toNat = b
              ∧ (t.unseenDest.any fun r => r.contains addr.toNat) = false
              ∧ t = { s with mem := t.mem, inputs := rest, unseenDest := t.unseenDest })) ∧
      (s.inputs = .load addr :: rest →
        (¬ (s.busy = true ∧ s.latch.dest.contains addr.toNat = true) →
          (s.unseenDest.any fun r => r.contains addr.toNat) = false →
          step s = .next { s with inputs := rest, response := .byte (s.mem.read addr.toNat) }) ∧
        (s.busy = true ∧ s.latch.dest.contains addr.toNat = true ∨
            (s.unseenDest.any fun r => r.contains addr.toNat) = true →
          ∃ x, step s = .next { s with inputs := rest, response := .byte x, draws := s.draws + 1 }))) ∧
    (s.inputs = .busRead addr :: rest →
      (∃ t, step s = .next t ∧ SameMemoryOutside ⟨addr.toNat, 1⟩ s t ∧ t.response = s.response
        ∧ t.inputs = rest) ∧
      (s.inUse addr.toNat = false → step s = .next { s with inputs := rest })) ∧
    ((window s.cfg).contains addr.toNat = true →
      (s.inputs = .store addr b :: rest ∨ s.inputs = .load addr :: rest →
        step s = .next { s with inputs := rest, response := .error }) ∧
      (s.inputs = .busWrite addr b :: rest ∨ s.inputs = .busRead addr :: rest →
        step s = .next { s with inputs := rest }))

/-- Rules R68, R69, R256, R276: a write of a byte that the running command uses, by the host, by its cache or by
another bus master, disturbs the command, and so does a read of it by another engine instance, which leaves its
contents unspecified (log entry 17); a launch gives a disturbed one exactly on a device region. A
disturbed command still ends: with the error code, the flags, the `CRC` and the keys of its own rule on what
it reads, which is the memory but for its source bytes that were not steady. So the checks on its operands, on
`KEYV` and on `MemOK` are as ever (rules R62, R66, R244). Its destination, within `[DST, DST + DSTLEN)`, and
the result registers hold anything; no other byte changes, and no register that it does not write. What
"unspecified" covers is the model's reading, log entry 9 (device regions: log entry 13). -/
def Obligations.DisturbedCommandEnds : Prop :=
  (∀ (s : State) (i : Instr) (a : Nat), decode s.latch.cmd = .ok i → s.busy = true →
    ((sourceRange i s.latch).contains a = true ∨ (destRange i s.latch).contains a = true) →
    (∀ addr b rest, addr.toNat = a → ¬ (window s.cfg).contains a = true →
      s.inputs = .store addr b :: rest ∨ s.inputs = .busWrite addr b :: rest ∨ s.inputs = .busRead addr :: rest →
      ∃ t, step s = .next t ∧ t.disturbed = true ∧ (t.unsteady.any fun r => r.contains a) = true
        ∧ t.busy = true ∧ t.latch = s.latch ∧ SameMemoryOutside ⟨a, 1⟩ s t) ∧
    (∀ r b rest, s.inputs = .clean r :: rest → (a, b) ∈ s.hostDirty → r.contains a = true →
      ∃ t, step s = .next t ∧ t.disturbed = true ∧ (t.unsteady.any fun r => r.contains a) = true
        ∧ t.busy = true ∧ t.latch = s.latch ∧ SameMemoryOutside r s t)) ∧
  (∀ (s : State) (i : Instr) (v : Word) (rest : List Input), decode s.cmd = .ok i → s.busy = false →
    s.resetHeld = false → s.inputs = .writeReg 0x04#8 .word v :: rest → v.getLsbD 0 = true →
    v.getLsbD 1 = false →
    ∃ t, step s = .next t ∧ t.busy = true ∧
      (t.disturbed = true ↔ ∃ r ∈ s.cfg.regions, r.device = true ∧ ∃ x, r.base ≤ x ∧ x < r.base + r.size ∧
        ((sourceRange i t.latch).contains x = true ∨ (destRange i t.latch).contains x = true))) ∧
  ∀ (s : State) (i : Instr), decode s.latch.cmd = .ok i → s.busy = true → usesDma i = true →
    s.disturbed = true → s.wait = 0 → s.inputs = [] →
    ∃ t u m, step s = .next t ∧ exec i { s with mem := m, draws := s.draws + 1 } = .next u
      ∧ (∀ x, m.read x = s.mem.read x ∨
          ((sourceRange i s.latch).contains x = true ∧ (s.unsteady.any fun r => r.contains x) = true))
      ∧ t.busy = false ∧ t.done = true ∧ t.errcode = u.errcode ∧ t.FlagsAre u.crcok u.cntok u.s24ovf
      ∧ t.crc = u.crc ∧ SameKeys u t
      ∧ SameMemoryOutside (destRange i s.latch) s t
      ∧ SameMemoryOutside ⟨s.latch.dst.toNat, s.latch.dstlen.toNat⟩ s t
      ∧ (i ≠ .keyLoad → SameKeys s t) ∧ (i ≠ .crcUpdate → t.crc = s.crc)
      ∧ t.cmd = s.cmd ∧ t.src = s.src ∧ t.srclen = s.srclen ∧ t.dst = s.dst ∧ t.dstlen = s.dstlen
      ∧ t.btimeLo = s.btimeLo ∧ t.btimeHi = s.btimeHi ∧ t.ie = s.ie
      ∧ (i = .aesEnc ∨ i = .aesDec → s.keyv = false → t.errcode = .noKey)
      ∧ (i = .crcUpdate → 2 ^ 32 < s.latch.src.toNat + s.latch.srclen.toNat →
          t.errcode = .len ∧ t.crc = s.crc)
      ∧ (i = .crcUpdate → s.latch.src.toNat + s.latch.srclen.toNat ≤ 2 ^ 32 →
          (t.errcode = .ok ↔ AllDmaOK s.cfg .read s.latch.src.toNat s.latch.srclen.toNat))

/-- Rule R71 without DMA coherence: a byte the host stores reaches the engine's memory when the host cleans it
(and not before), and the host reads back its own copy meanwhile; a byte of an ended command's destination
reads as some byte to the host, until the host invalidates it and then reads what is in memory; a write by
another bus master reaches memory past the host's cache, where the byte is then stale. The host's cache as the
model holds it is log entry 11; that a stored byte reaches memory and is read back whatever MemOK says, log
entry 14; another master's write, log entry 17; what the host has seen (rule R274), log entry 20. -/
def Obligations.UncoherentStoresNeedACleaning : Prop :=
  ∀ (s : State) (addr : Word) (b : Byte) (rest : List Input),
    s.cfg.dmaCoherent = false → s.memoryCanonical → ¬ (window s.cfg).contains addr.toNat = true →
    (s.busy = false → s.inputs = .store addr b :: .load addr :: .clean ⟨addr.toNat, 1⟩ :: rest →
      ∃ t u, Host.Core.run Sys2Proof.core 2 s = .next t ∧ Host.Core.run Sys2Proof.core 3 s = .next u
        ∧ State.mem t = s.mem ∧ State.response t = .byte b
        ∧ Memory.read (State.mem u) addr.toNat = b ∧ SameMemoryOutside ⟨addr.toNat, 1⟩ s u) ∧
    (∀ i t, decode s.latch.cmd = .ok i → s.busy = true → s.wait = 0 → s.inputs = [] → step s = .next t →
      (destRange i s.latch).contains addr.toNat = true →
      (t.hostStale.any fun r => r.contains addr.toNat) = true) ∧
    (s.inputs = .load addr :: rest → (s.hostStale.any fun r => r.contains addr.toNat) = true →
      ∃ x, step s = .next { s with inputs := rest, response := .byte x, draws := s.draws + 1 }) ∧
    (∀ r : ByteRange, s.busy = false → r.contains addr.toNat = true →
      (s.unseenDest.any fun q => q.contains addr.toNat) = false →
      s.inputs = .invalidate r :: .load addr :: rest →
      ∃ t, Host.Core.run Sys2Proof.core 2 s = .next t ∧ State.mem t = s.mem
        ∧ State.response t = .byte (s.mem.read addr.toNat)) ∧
    (s.inputs = .busWrite addr b :: rest →
      ∃ t, step s = .next t ∧ (s.inUse addr.toNat = false → t.mem.read addr.toNat = b)
        ∧ SameMemoryOutside ⟨addr.toNat, 1⟩ s t ∧ (t.hostStale.any fun r => r.contains addr.toNat) = true)
end

