-- ==== Sys2Proof/Laws/Memory.lean ====
section
/-!
SUPPORT. What the operations of DMA space do, once each: what a byte reads as after them, and that they
keep the canonical form.
-/

namespace Sys2Proof.Machine

/-- Reading after a write: the byte written there, the old one elsewhere. -/
theorem Memory.read_write (m : Memory) (hm : m.Pairwise fun p q => p.1 < q.1) (a x : Nat) (b : Byte) :
    Memory.read (m.write a b) x = if x = a then b else m.read x := by
  induction m with
  | nil => by_cases hb : b = unlistedByte <;> by_cases hx : x = a <;> simp_all [Memory.write, Memory.read]; omega
  | cons p rest ih =>
    obtain ⟨y, c⟩ := p
    have hrest := (List.pairwise_cons.1 hm).2
    have hlt := (List.pairwise_cons.1 hm).1
    have hmiss : ∀ z, z ≤ y → Memory.read rest z = unlistedByte := by
      intro z hz
      clear ih hm
      induction rest with
      | nil => rfl
      | cons q r ihr =>
        have h1 := hlt q (by simp)
        have : q.1 ≠ z := by simp only at h1; omega
        simp only [Memory.read, this, if_false]
        exact ihr (List.pairwise_cons.1 hrest).2 fun q' hq' => hlt q' (by simp [hq'])
    have ih := ih hrest
    rcases Nat.lt_trichotomy a y with h | h | h
    · by_cases hb : b = unlistedByte
      · subst hb
        have h2 : y ≠ a := by omega
        by_cases hx : x = a
        · subst hx; simp [Memory.write, h, Memory.read, h2, hmiss x (by omega)]
        · simp [Memory.write, h, hx]
      · by_cases hx : x = a
        · subst hx; simp [Memory.write, h, hb, Memory.read]
        · have : a ≠ x := fun e => hx e.symm
          simp [Memory.write, h, hb, Memory.read, this, hx]
    · subst h
      by_cases hb : b = unlistedByte
      · by_cases hx : x = a
        · subst hx; simp [Memory.write, hb, hmiss x (le_refl x)]
        · have : a ≠ x := fun e => hx e.symm
          simp [Memory.write, hb, Memory.read, this, hx]
      · by_cases hx : x = a
        · subst hx; simp [Memory.write, hb, Memory.read]
        · have : a ≠ x := fun e => hx e.symm
          simp [Memory.write, hb, Memory.read, this, hx]
    · have h1 : ¬ a < y := by omega
      have h2 : a ≠ y := by omega
      by_cases hx : y = x
      · subst hx
        have : y ≠ a := by omega
        simp [Memory.write, h1, h2, Memory.read, this]
      · simp [Memory.write, h1, h2, Memory.read, hx, ih]

/-- A write leaves every other byte alone, in canonical form or not. -/
theorem Memory.read_write_other (m : Memory) (a x : Nat) (b : Byte) (hx : x ≠ a) :
    Memory.read (m.write a b) x = m.read x := by
  have ha : a ≠ x := fun e => hx e.symm
  induction m with
  | nil => by_cases hb : b = unlistedByte <;> simp [Memory.write, Memory.read, hb, ha]
  | cons p rest ih =>
    obtain ⟨y, c⟩ := p
    simp only [Memory.write]
    split_ifs with h1 h2 h2 h3
    · rfl
    · simp [Memory.read, ha]
    · subst h2; simp [Memory.read, ha]
    · subst h2; simp [Memory.read, ha]
    · simp only [Memory.read, ih]

/-- The keys of a memory after a write are the old ones and perhaps the address written. -/
theorem Memory.mem_write (m : Memory) (a : Nat) (b : Byte) (p : Host.Cell) (hp : p ∈ m.write a b) :
    p ∈ m ∨ (p = (a, b) ∧ b ≠ unlistedByte) := by
  induction m with
  | nil =>
    by_cases hb : b = unlistedByte
    · simp [Memory.write, hb] at hp
    · simp [Memory.write, hb] at hp; exact .inr ⟨hp, hb⟩
  | cons q rest ih =>
    obtain ⟨y, c⟩ := q
    simp only [Memory.write] at hp
    split_ifs at hp with h1 h2 h2 h3
    · exact .inl hp
    · rcases List.mem_cons.1 hp with rfl | h
      · exact .inr ⟨rfl, h2⟩
      · exact .inl h
    · exact .inl (List.mem_cons_of_mem _ hp)
    · rcases List.mem_cons.1 hp with rfl | h
      · exact .inr ⟨rfl, h3⟩
      · exact .inl (List.mem_cons_of_mem _ h)
    · rcases List.mem_cons.1 hp with rfl | h
      · exact .inl (by simp)
      · rcases ih h with h | h
        · exact .inl (List.mem_cons_of_mem _ h)
        · exact .inr h

/-- A write keeps the addresses rising. -/
theorem Memory.rising_write (m : Memory) (hm : m.Pairwise fun p q => p.1 < q.1) (a : Nat) (b : Byte) :
    (m.write a b).Pairwise fun p q => p.1 < q.1 := by
  induction m with
  | nil => by_cases hb : b = unlistedByte <;> simp [Memory.write, hb]
  | cons q rest ih =>
    obtain ⟨y, c⟩ := q
    obtain ⟨hlt, hrest⟩ := List.pairwise_cons.1 hm
    simp only [Memory.write]
    split_ifs with h1 h2 h2 h3
    · exact hm
    · refine List.pairwise_cons.2 ⟨fun p hp => ?_, hm⟩
      rcases List.mem_cons.1 hp with rfl | hp
      · exact h1
      · exact Nat.lt_trans h1 (hlt p hp)
    · exact hrest
    · exact List.pairwise_cons.2 ⟨fun p hp => h2 ▸ hlt p hp, hrest⟩
    · refine List.pairwise_cons.2 ⟨fun p hp => ?_, ih hrest⟩
      rcases Memory.mem_write rest a b p hp with hp | ⟨rfl, -⟩
      · exact hlt p hp
      · show y < a; omega

/-- What the canonical form says. -/
theorem Memory.wf_iff (m : Memory) :
    m.wf = true ↔
      (m.Pairwise fun p q => p.1 < q.1) ∧ ∀ p ∈ m, p.1 < addressLimit ∧ p.2 ≠ unlistedByte := by
  simp [Memory.wf]

/-- The memory with nothing listed is canonical. -/
theorem Memory.wf_nil : Memory.wf [] = true := by decide

/-- A write keeps the canonical form. -/
theorem Memory.wf_write (m : Memory) (hm : m.wf = true) (a : Nat) (ha : a < addressLimit) (b : Byte) :
    Memory.wf (m.write a b) = true := by
  rw [Memory.wf_iff] at hm ⊢
  refine ⟨Memory.rising_write m hm.1 a b, fun p hp => ?_⟩
  rcases Memory.mem_write m a b p hp with h | ⟨rfl, hb⟩
  · exact hm.2 p h
  · exact ⟨ha, hb⟩

/-- A canonical memory is fixed by what its bytes read as, one address at a time. -/
theorem Memory.read_write_wf (m : Memory) (hm : m.wf = true) (a x : Nat) (b : Byte) :
    Memory.read (m.write a b) x = if x = a then b else m.read x :=
  Memory.read_write m ((Memory.wf_iff m).1 hm).1 a x b

/-- Storing a byte string keeps the addresses rising. -/
theorem Memory.rising_writeBytes (bytes : List Byte) : ∀ (m : Memory) (a : Nat),
    (m.Pairwise fun p q => p.1 < q.1) → (m.writeBytes a bytes).Pairwise fun p q => p.1 < q.1 := by
  induction bytes with
  | nil => intro m a h; exact h
  | cons b rest ih => intro m a h; exact ih _ _ (Memory.rising_write m h a b)

/-- Reading after a byte string is stored: its byte inside, the old byte outside. -/
theorem Memory.read_writeBytes (bytes : List Byte) : ∀ (m : Memory) (a x : Nat),
    (m.Pairwise fun p q => p.1 < q.1) →
    Memory.read (m.writeBytes a bytes) x
      = if a ≤ x ∧ x < a + bytes.length then bytes.getD (x - a) 0#8 else m.read x := by
  induction bytes with
  | nil =>
    intro m a x _
    have : ¬ (a ≤ x ∧ x < a + ([] : List Byte).length) := by simp
    simp [Memory.writeBytes]
  | cons b rest ih =>
    intro m a x h
    rw [Memory.writeBytes, ih _ _ _ (Memory.rising_write m h a b), Memory.read_write m h]
    by_cases hx : x = a
    · subst hx
      rw [if_neg (by omega), if_pos rfl, if_pos (by simp)]
      simp
    · by_cases h1 : a + 1 ≤ x ∧ x < a + 1 + rest.length
      · have h2 : a ≤ x ∧ x < a + (b :: rest).length := by simp only [List.length_cons]; omega
        rw [if_pos h1, if_pos h2]
        obtain ⟨k, hk⟩ : ∃ k, x - a = k + 1 := ⟨x - a - 1, by omega⟩
        have hk' : x - (a + 1) = k := by omega
        rw [hk, hk']
        simp
      · have h2 : ¬ (a ≤ x ∧ x < a + (b :: rest).length) := by simp only [List.length_cons]; omega
        rw [if_neg h1, if_neg h2, if_neg hx]

/-- Storing a byte string leaves every byte outside it alone. -/
theorem Memory.read_writeBytes_other (bytes : List Byte) : ∀ (m : Memory) (a x : Nat),
    ¬ (a ≤ x ∧ x < a + bytes.length) → Memory.read (m.writeBytes a bytes) x = m.read x := by
  induction bytes with
  | nil => intro m a x _; rfl
  | cons b rest ih =>
    intro m a x hx
    simp only [List.length_cons] at hx
    rw [Memory.writeBytes, ih _ _ _ (by omega), Memory.read_write_other _ _ _ _ (by omega)]

/-- Storing a byte string in the address space keeps the canonical form. -/
theorem Memory.wf_writeBytes (bytes : List Byte) : ∀ (m : Memory) (a : Nat), m.wf = true →
    a + bytes.length ≤ addressLimit → Memory.wf (m.writeBytes a bytes) = true := by
  induction bytes with
  | nil => intro m a h _; exact h
  | cons b rest ih =>
    intro m a h ha
    simp only [List.length_cons] at ha
    exact ih _ _ (Memory.wf_write m h a (by omega) b) (by omega)

/-- Unspecified values in a range keep the addresses rising. -/
theorem Memory.rising_scramble (draw n : Nat) : ∀ (m : Memory) (a : Nat),
    (m.Pairwise fun p q => p.1 < q.1) → (m.scramble draw a n).Pairwise fun p q => p.1 < q.1 := by
  induction n with
  | zero => intro m a h; exact h
  | succ n ih => intro m a h; exact ih _ _ (Memory.rising_write m h a _)

/-- Reading after unspecified values are put in a range: the draw's byte inside, the old byte outside. -/
theorem Memory.read_scramble (draw n : Nat) : ∀ (m : Memory) (a x : Nat),
    (m.Pairwise fun p q => p.1 < q.1) →
    Memory.read (m.scramble draw a n) x
      = if a ≤ x ∧ x < a + n then Config.freeByte draw x else m.read x := by
  induction n with
  | zero =>
    intro m a x _
    have : ¬ (a ≤ x ∧ x < a + 0) := by omega
    rw [if_neg this]; rfl
  | succ n ih =>
    intro m a x h
    rw [Memory.scramble, ih _ _ _ (Memory.rising_write m h a _), Memory.read_write m h]
    by_cases hx : x = a
    · subst hx
      rw [if_neg (by omega), if_pos rfl, if_pos (by omega)]
    · by_cases h1 : a + 1 ≤ x ∧ x < a + 1 + n
      · rw [if_pos h1, if_pos (by omega)]
      · rw [if_neg h1, if_neg hx, if_neg (by omega)]

/-- Unspecified values in a range leave every byte outside it alone. -/
theorem Memory.read_scramble_other (draw n : Nat) : ∀ (m : Memory) (a x : Nat),
    ¬ (a ≤ x ∧ x < a + n) → Memory.read (m.scramble draw a n) x = m.read x := by
  induction n with
  | zero => intro m a x _; rfl
  | succ n ih =>
    intro m a x hx
    rw [Memory.scramble, ih _ _ _ (by omega), Memory.read_write_other _ _ _ _ (by omega)]

/-- Unspecified values in a range of the address space keep the canonical form. -/
theorem Memory.wf_scramble (draw n : Nat) : ∀ (m : Memory) (a : Nat), m.wf = true →
    a + n ≤ addressLimit → Memory.wf (m.scramble draw a n) = true := by
  induction n with
  | zero => intro m a h _; exact h
  | succ n ih => intro m a h ha; exact ih _ _ (Memory.wf_write m h a (by omega) _) (by omega)

/-- Copying listed cells in leaves every byte that they do not name alone. -/
theorem Memory.read_copyListed_other (cells : List Host.Cell) (x : Nat) :
    ∀ m : Memory, (∀ p ∈ cells, p.1 ≠ x) → Memory.read (m.copyListed cells) x = m.read x := by
  induction cells with
  | nil => intro m _; rfl
  | cons p rest ih =>
    intro m h
    rw [Memory.copyListed, ih _ fun q hq => h q (by simp [hq]),
      Memory.read_write_other _ _ _ _ fun e => h p (by simp) e.symm]

/-- Copying listed cells in keeps the canonical form. -/
theorem Memory.wf_copyListed (cells : List Host.Cell) : ∀ (m : Memory), m.wf = true →
    (∀ p ∈ cells, p.1 < addressLimit) → Memory.wf (m.copyListed cells) = true := by
  induction cells with
  | nil => intro m h _; exact h
  | cons p rest ih =>
    intro m h hp
    exact ih _ (Memory.wf_write m h p.1 (hp p (by simp)) p.2) fun q hq => hp q (by simp [hq])

/-- Unspecified values at listed cells leave every byte that they do not name alone. -/
theorem Memory.read_scrambleListed_other (draw : Nat) (cells : List Host.Cell) (x : Nat) :
    ∀ m : Memory, (∀ p ∈ cells, p.1 ≠ x) → Memory.read (m.scrambleListed draw cells) x = m.read x := by
  induction cells with
  | nil => intro m _; rfl
  | cons p rest ih =>
    intro m h
    rw [Memory.scrambleListed, ih _ fun q hq => h q (by simp [hq]),
      Memory.read_write_other _ _ _ _ fun e => h p (by simp) e.symm]

/-- Unspecified values at listed cells keep the canonical form. -/
theorem Memory.wf_scrambleListed (draw : Nat) (cells : List Host.Cell) : ∀ (m : Memory), m.wf = true →
    (∀ p ∈ cells, p.1 < addressLimit) → Memory.wf (m.scrambleListed draw cells) = true := by
  induction cells with
  | nil => intro m h _; exact h
  | cons p rest ih =>
    intro m h hp
    exact ih _ (Memory.wf_write m h p.1 (hp p (by simp)) _) fun q hq => hp q (by simp [hq])

/-- As many bytes are read as asked for. -/
@[simp] theorem Memory.length_readBytes (m : Memory) (n : Nat) :
    ∀ a, (m.readBytes a n).length = n := by
  induction n with
  | zero => intro a; rfl
  | succ n ih => intro a; simp [Memory.readBytes, ih]

/-- The byte at place `k` of a byte string read from memory. -/
theorem Memory.getElem_readBytes (m : Memory) (n : Nat) : ∀ (a k : Nat) (h : k < (m.readBytes a n).length),
    (m.readBytes a n)[k] = m.read (a + k) := by
  induction n with
  | zero => intro a k h; simp [Memory.readBytes] at h
  | succ n ih =>
    intro a k h
    cases k with
    | zero => simp [Memory.readBytes]
    | succ k =>
      have := ih (a + 1) k (by simpa [Memory.readBytes] using h)
      simp [Memory.readBytes, this, Nat.add_assoc, Nat.add_comm 1 k]

/-- Two memories that agree on a range give the same byte string there. -/
theorem Memory.readBytes_congr (m m' : Memory) (n : Nat) : ∀ a,
    (∀ x, a ≤ x → x < a + n → m'.read x = m.read x) → m'.readBytes a n = m.readBytes a n := by
  induction n with
  | zero => intro a _; rfl
  | succ n ih =>
    intro a h
    rw [Memory.readBytes, Memory.readBytes, h a (by omega) (by omega),
      ih (a + 1) fun x h1 h2 => h x (by omega) (by omega)]

/-- Reading back a byte string just stored. -/
theorem Memory.readBytes_writeBytes (m : Memory) (hm : m.Pairwise fun p q => p.1 < q.1) (a : Nat)
    (bytes : List Byte) : (m.writeBytes a bytes).readBytes a bytes.length = bytes := by
  apply List.ext_getElem (by simp)
  intro k h1 h2
  rw [Memory.getElem_readBytes, Memory.read_writeBytes _ _ _ _ hm, if_pos (by omega)]
  simp [h2]

end Sys2Proof.Machine
end

