-- ==== Sys2Proof/Laws/State.lean ====
section
/-!
SUPPORT. One lemma a field for each named update of State, so that no later proof unfolds an update. The
lemmas of the updates that always write the same fields hold by rfl; `markStale`, `abort`,
`loseUncleaned` and `seeIrq`, which may leave the state as it is, have the lemmas of the fields they never write.
-/

namespace Sys2Proof.Machine

variable (s : State)

/-! ### `State.finish` -/

@[simp] theorem State.finish_cfg (o : Outputs) (c : ErrCode) (a : Word) : (s.finish o c a).cfg = s.cfg := rfl
@[simp] theorem State.finish_ie (o : Outputs) (c : ErrCode) (a : Word) : (s.finish o c a).ie = s.ie := rfl
@[simp] theorem State.finish_busy (o : Outputs) (c : ErrCode) (a : Word) : (s.finish o c a).busy = false := rfl
@[simp] theorem State.finish_done (o : Outputs) (c : ErrCode) (a : Word) : (s.finish o c a).done = true := rfl
@[simp] theorem State.finish_keyv (o : Outputs) (c : ErrCode) (a : Word) : (s.finish o c a).keyv = s.keyv := rfl
@[simp] theorem State.finish_crcok (o : Outputs) (c : ErrCode) (a : Word) : (s.finish o c a).crcok = o.crcok := rfl
@[simp] theorem State.finish_cntok (o : Outputs) (c : ErrCode) (a : Word) : (s.finish o c a).cntok = o.cntok := rfl
@[simp] theorem State.finish_s24ovf (o : Outputs) (c : ErrCode) (a : Word) : (s.finish o c a).s24ovf = o.s24ovf := rfl
@[simp] theorem State.finish_errcode (o : Outputs) (c : ErrCode) (a : Word) : (s.finish o c a).errcode = c := rfl
@[simp] theorem State.finish_cmd (o : Outputs) (c : ErrCode) (a : Word) : (s.finish o c a).cmd = s.cmd := rfl
@[simp] theorem State.finish_src (o : Outputs) (c : ErrCode) (a : Word) : (s.finish o c a).src = s.src := rfl
@[simp] theorem State.finish_srclen (o : Outputs) (c : ErrCode) (a : Word) : (s.finish o c a).srclen = s.srclen := rfl
@[simp] theorem State.finish_dst (o : Outputs) (c : ErrCode) (a : Word) : (s.finish o c a).dst = s.dst := rfl
@[simp] theorem State.finish_dstlen (o : Outputs) (c : ErrCode) (a : Word) : (s.finish o c a).dstlen = s.dstlen := rfl
@[simp] theorem State.finish_reslen (o : Outputs) (c : ErrCode) (a : Word) : (s.finish o c a).reslen = o.reslen := rfl
@[simp] theorem State.finish_crc (o : Outputs) (c : ErrCode) (a : Word) : (s.finish o c a).crc = s.crc := rfl
@[simp] theorem State.finish_btimeLo (o : Outputs) (c : ErrCode) (a : Word) : (s.finish o c a).btimeLo = s.btimeLo := rfl
@[simp] theorem State.finish_btimeHi (o : Outputs) (c : ErrCode) (a : Word) : (s.finish o c a).btimeHi = s.btimeHi := rfl
@[simp] theorem State.finish_maxv (o : Outputs) (c : ErrCode) (a : Word) : (s.finish o c a).maxv = o.maxv := rfl
@[simp] theorem State.finish_minv (o : Outputs) (c : ErrCode) (a : Word) : (s.finish o c a).minv = o.minv := rfl
@[simp] theorem State.finish_diffcnt (o : Outputs) (c : ErrCode) (a : Word) : (s.finish o c a).diffcnt = o.diffcnt := rfl
@[simp] theorem State.finish_erraddr (o : Outputs) (c : ErrCode) (a : Word) : (s.finish o c a).erraddr = a := rfl
@[simp] theorem State.finish_rk (o : Outputs) (c : ErrCode) (a : Word) : (s.finish o c a).rk = s.rk := rfl
@[simp] theorem State.finish_latch (o : Outputs) (c : ErrCode) (a : Word) : (s.finish o c a).latch = Latch.zero := rfl
@[simp] theorem State.finish_wait (o : Outputs) (c : ErrCode) (a : Word) : (s.finish o c a).wait = 0 := rfl
@[simp] theorem State.finish_latencies (o : Outputs) (c : ErrCode) (a : Word) : (s.finish o c a).latencies = s.latencies := rfl
@[simp] theorem State.finish_disturbed (o : Outputs) (c : ErrCode) (a : Word) : (s.finish o c a).disturbed = false := rfl
@[simp] theorem State.finish_unsteady (o : Outputs) (c : ErrCode) (a : Word) : (s.finish o c a).unsteady = [] := rfl
@[simp] theorem State.finish_resetHeld (o : Outputs) (c : ErrCode) (a : Word) : (s.finish o c a).resetHeld = s.resetHeld := rfl
@[simp] theorem State.finish_endUnseen (o : Outputs) (c : ErrCode) (a : Word) : (s.finish o c a).endUnseen = !s.ie := rfl
@[simp] theorem State.finish_crcUnseen (o : Outputs) (c : ErrCode) (a : Word) : (s.finish o c a).crcUnseen = !s.ie := rfl
@[simp] theorem State.finish_unseenDest (o : Outputs) (c : ErrCode) (a : Word) : (s.finish o c a).unseenDest = (if s.ie then [] else s.latch.dest :: s.unseenDest) := rfl
@[simp] theorem State.finish_mem (o : Outputs) (c : ErrCode) (a : Word) : (s.finish o c a).mem = s.mem := rfl
@[simp] theorem State.finish_hostDirty (o : Outputs) (c : ErrCode) (a : Word) : (s.finish o c a).hostDirty = s.hostDirty := rfl
@[simp] theorem State.finish_hostStale (o : Outputs) (c : ErrCode) (a : Word) : (s.finish o c a).hostStale = s.hostStale := rfl
@[simp] theorem State.finish_inputs (o : Outputs) (c : ErrCode) (a : Word) : (s.finish o c a).inputs = s.inputs := rfl
@[simp] theorem State.finish_response (o : Outputs) (c : ErrCode) (a : Word) : (s.finish o c a).response = s.response := rfl
@[simp] theorem State.finish_draws (o : Outputs) (c : ErrCode) (a : Word) : (s.finish o c a).draws = s.draws := rfl

/-! ### `State.complete` -/

@[simp] theorem State.complete_cfg (o : Outputs) : (s.complete o).cfg = s.cfg := rfl
@[simp] theorem State.complete_ie (o : Outputs) : (s.complete o).ie = s.ie := rfl
@[simp] theorem State.complete_busy (o : Outputs) : (s.complete o).busy = false := rfl
@[simp] theorem State.complete_done (o : Outputs) : (s.complete o).done = true := rfl
@[simp] theorem State.complete_keyv (o : Outputs) : (s.complete o).keyv = s.keyv := rfl
@[simp] theorem State.complete_crcok (o : Outputs) : (s.complete o).crcok = o.crcok := rfl
@[simp] theorem State.complete_cntok (o : Outputs) : (s.complete o).cntok = o.cntok := rfl
@[simp] theorem State.complete_s24ovf (o : Outputs) : (s.complete o).s24ovf = o.s24ovf := rfl
@[simp] theorem State.complete_errcode (o : Outputs) : (s.complete o).errcode = .ok := rfl
@[simp] theorem State.complete_cmd (o : Outputs) : (s.complete o).cmd = s.cmd := rfl
@[simp] theorem State.complete_src (o : Outputs) : (s.complete o).src = s.src := rfl
@[simp] theorem State.complete_srclen (o : Outputs) : (s.complete o).srclen = s.srclen := rfl
@[simp] theorem State.complete_dst (o : Outputs) : (s.complete o).dst = s.dst := rfl
@[simp] theorem State.complete_dstlen (o : Outputs) : (s.complete o).dstlen = s.dstlen := rfl
@[simp] theorem State.complete_reslen (o : Outputs) : (s.complete o).reslen = o.reslen := rfl
@[simp] theorem State.complete_crc (o : Outputs) : (s.complete o).crc = s.crc := rfl
@[simp] theorem State.complete_btimeLo (o : Outputs) : (s.complete o).btimeLo = s.btimeLo := rfl
@[simp] theorem State.complete_btimeHi (o : Outputs) : (s.complete o).btimeHi = s.btimeHi := rfl
@[simp] theorem State.complete_maxv (o : Outputs) : (s.complete o).maxv = o.maxv := rfl
@[simp] theorem State.complete_minv (o : Outputs) : (s.complete o).minv = o.minv := rfl
@[simp] theorem State.complete_diffcnt (o : Outputs) : (s.complete o).diffcnt = o.diffcnt := rfl
@[simp] theorem State.complete_erraddr (o : Outputs) : (s.complete o).erraddr = 0#32 := rfl
@[simp] theorem State.complete_rk (o : Outputs) : (s.complete o).rk = s.rk := rfl
@[simp] theorem State.complete_latch (o : Outputs) : (s.complete o).latch = Latch.zero := rfl
@[simp] theorem State.complete_wait (o : Outputs) : (s.complete o).wait = 0 := rfl
@[simp] theorem State.complete_latencies (o : Outputs) : (s.complete o).latencies = s.latencies := rfl
@[simp] theorem State.complete_disturbed (o : Outputs) : (s.complete o).disturbed = false := rfl
@[simp] theorem State.complete_unsteady (o : Outputs) : (s.complete o).unsteady = [] := rfl
@[simp] theorem State.complete_resetHeld (o : Outputs) : (s.complete o).resetHeld = s.resetHeld := rfl
@[simp] theorem State.complete_endUnseen (o : Outputs) : (s.complete o).endUnseen = !s.ie := rfl
@[simp] theorem State.complete_crcUnseen (o : Outputs) : (s.complete o).crcUnseen = !s.ie := rfl
@[simp] theorem State.complete_unseenDest (o : Outputs) : (s.complete o).unseenDest = (if s.ie then [] else s.latch.dest :: s.unseenDest) := rfl
@[simp] theorem State.complete_mem (o : Outputs) : (s.complete o).mem = s.mem := rfl
@[simp] theorem State.complete_hostDirty (o : Outputs) : (s.complete o).hostDirty = s.hostDirty := rfl
@[simp] theorem State.complete_hostStale (o : Outputs) : (s.complete o).hostStale = s.hostStale := rfl
@[simp] theorem State.complete_inputs (o : Outputs) : (s.complete o).inputs = s.inputs := rfl
@[simp] theorem State.complete_response (o : Outputs) : (s.complete o).response = s.response := rfl
@[simp] theorem State.complete_draws (o : Outputs) : (s.complete o).draws = s.draws := rfl

/-! ### `State.raiseError` -/

@[simp] theorem State.raiseError_cfg (c : ErrCode) (a n : Nat) : (s.raiseError c a n).cfg = s.cfg := rfl
@[simp] theorem State.raiseError_ie (c : ErrCode) (a n : Nat) : (s.raiseError c a n).ie = s.ie := rfl
@[simp] theorem State.raiseError_busy (c : ErrCode) (a n : Nat) : (s.raiseError c a n).busy = false := rfl
@[simp] theorem State.raiseError_done (c : ErrCode) (a n : Nat) : (s.raiseError c a n).done = true := rfl
@[simp] theorem State.raiseError_keyv (c : ErrCode) (a n : Nat) : (s.raiseError c a n).keyv = s.keyv := rfl
@[simp] theorem State.raiseError_crcok (c : ErrCode) (a n : Nat) : (s.raiseError c a n).crcok = false := rfl
@[simp] theorem State.raiseError_cntok (c : ErrCode) (a n : Nat) : (s.raiseError c a n).cntok = false := rfl
@[simp] theorem State.raiseError_s24ovf (c : ErrCode) (a n : Nat) : (s.raiseError c a n).s24ovf = false := rfl
@[simp] theorem State.raiseError_errcode (c : ErrCode) (a n : Nat) : (s.raiseError c a n).errcode = c := rfl
@[simp] theorem State.raiseError_cmd (c : ErrCode) (a n : Nat) : (s.raiseError c a n).cmd = s.cmd := rfl
@[simp] theorem State.raiseError_src (c : ErrCode) (a n : Nat) : (s.raiseError c a n).src = s.src := rfl
@[simp] theorem State.raiseError_srclen (c : ErrCode) (a n : Nat) : (s.raiseError c a n).srclen = s.srclen := rfl
@[simp] theorem State.raiseError_dst (c : ErrCode) (a n : Nat) : (s.raiseError c a n).dst = s.dst := rfl
@[simp] theorem State.raiseError_dstlen (c : ErrCode) (a n : Nat) : (s.raiseError c a n).dstlen = s.dstlen := rfl
@[simp] theorem State.raiseError_reslen (c : ErrCode) (a n : Nat) : (s.raiseError c a n).reslen = toWord n := rfl
@[simp] theorem State.raiseError_crc (c : ErrCode) (a n : Nat) : (s.raiseError c a n).crc = s.crc := rfl
@[simp] theorem State.raiseError_btimeLo (c : ErrCode) (a n : Nat) : (s.raiseError c a n).btimeLo = s.btimeLo := rfl
@[simp] theorem State.raiseError_btimeHi (c : ErrCode) (a n : Nat) : (s.raiseError c a n).btimeHi = s.btimeHi := rfl
@[simp] theorem State.raiseError_maxv (c : ErrCode) (a n : Nat) : (s.raiseError c a n).maxv = 0#32 := rfl
@[simp] theorem State.raiseError_minv (c : ErrCode) (a n : Nat) : (s.raiseError c a n).minv = 0#32 := rfl
@[simp] theorem State.raiseError_diffcnt (c : ErrCode) (a n : Nat) : (s.raiseError c a n).diffcnt = 0#32 := rfl
@[simp] theorem State.raiseError_erraddr (c : ErrCode) (a n : Nat) : (s.raiseError c a n).erraddr = if c = .bus then toWord a else 0#32 := rfl
@[simp] theorem State.raiseError_rk (c : ErrCode) (a n : Nat) : (s.raiseError c a n).rk = s.rk := rfl
@[simp] theorem State.raiseError_latch (c : ErrCode) (a n : Nat) : (s.raiseError c a n).latch = Latch.zero := rfl
@[simp] theorem State.raiseError_wait (c : ErrCode) (a n : Nat) : (s.raiseError c a n).wait = 0 := rfl
@[simp] theorem State.raiseError_latencies (c : ErrCode) (a n : Nat) : (s.raiseError c a n).latencies = s.latencies := rfl
@[simp] theorem State.raiseError_disturbed (c : ErrCode) (a n : Nat) : (s.raiseError c a n).disturbed = false := rfl
@[simp] theorem State.raiseError_unsteady (c : ErrCode) (a n : Nat) : (s.raiseError c a n).unsteady = [] := rfl
@[simp] theorem State.raiseError_resetHeld (c : ErrCode) (a n : Nat) : (s.raiseError c a n).resetHeld = s.resetHeld := rfl
@[simp] theorem State.raiseError_endUnseen (c : ErrCode) (a n : Nat) : (s.raiseError c a n).endUnseen = !s.ie := rfl
@[simp] theorem State.raiseError_crcUnseen (c : ErrCode) (a n : Nat) : (s.raiseError c a n).crcUnseen = !s.ie := rfl
@[simp] theorem State.raiseError_unseenDest (c : ErrCode) (a n : Nat) : (s.raiseError c a n).unseenDest = (if s.ie then [] else s.latch.dest :: s.unseenDest) := rfl
@[simp] theorem State.raiseError_mem (c : ErrCode) (a n : Nat) : (s.raiseError c a n).mem = s.mem := rfl
@[simp] theorem State.raiseError_hostDirty (c : ErrCode) (a n : Nat) : (s.raiseError c a n).hostDirty = s.hostDirty := rfl
@[simp] theorem State.raiseError_hostStale (c : ErrCode) (a n : Nat) : (s.raiseError c a n).hostStale = s.hostStale := rfl
@[simp] theorem State.raiseError_inputs (c : ErrCode) (a n : Nat) : (s.raiseError c a n).inputs = s.inputs := rfl
@[simp] theorem State.raiseError_response (c : ErrCode) (a n : Nat) : (s.raiseError c a n).response = s.response := rfl
@[simp] theorem State.raiseError_draws (c : ErrCode) (a n : Nat) : (s.raiseError c a n).draws = s.draws := rfl

/-! ### `State.scramble` -/

@[simp] theorem State.scramble_cfg (r : ByteRange) : (s.scramble r).cfg = s.cfg := rfl
@[simp] theorem State.scramble_ie (r : ByteRange) : (s.scramble r).ie = s.ie := rfl
@[simp] theorem State.scramble_busy (r : ByteRange) : (s.scramble r).busy = s.busy := rfl
@[simp] theorem State.scramble_done (r : ByteRange) : (s.scramble r).done = s.done := rfl
@[simp] theorem State.scramble_keyv (r : ByteRange) : (s.scramble r).keyv = s.keyv := rfl
@[simp] theorem State.scramble_crcok (r : ByteRange) : (s.scramble r).crcok = s.crcok := rfl
@[simp] theorem State.scramble_cntok (r : ByteRange) : (s.scramble r).cntok = s.cntok := rfl
@[simp] theorem State.scramble_s24ovf (r : ByteRange) : (s.scramble r).s24ovf = s.s24ovf := rfl
@[simp] theorem State.scramble_errcode (r : ByteRange) : (s.scramble r).errcode = s.errcode := rfl
@[simp] theorem State.scramble_cmd (r : ByteRange) : (s.scramble r).cmd = s.cmd := rfl
@[simp] theorem State.scramble_src (r : ByteRange) : (s.scramble r).src = s.src := rfl
@[simp] theorem State.scramble_srclen (r : ByteRange) : (s.scramble r).srclen = s.srclen := rfl
@[simp] theorem State.scramble_dst (r : ByteRange) : (s.scramble r).dst = s.dst := rfl
@[simp] theorem State.scramble_dstlen (r : ByteRange) : (s.scramble r).dstlen = s.dstlen := rfl
@[simp] theorem State.scramble_reslen (r : ByteRange) : (s.scramble r).reslen = s.reslen := rfl
@[simp] theorem State.scramble_crc (r : ByteRange) : (s.scramble r).crc = s.crc := rfl
@[simp] theorem State.scramble_btimeLo (r : ByteRange) : (s.scramble r).btimeLo = s.btimeLo := rfl
@[simp] theorem State.scramble_btimeHi (r : ByteRange) : (s.scramble r).btimeHi = s.btimeHi := rfl
@[simp] theorem State.scramble_maxv (r : ByteRange) : (s.scramble r).maxv = s.maxv := rfl
@[simp] theorem State.scramble_minv (r : ByteRange) : (s.scramble r).minv = s.minv := rfl
@[simp] theorem State.scramble_diffcnt (r : ByteRange) : (s.scramble r).diffcnt = s.diffcnt := rfl
@[simp] theorem State.scramble_erraddr (r : ByteRange) : (s.scramble r).erraddr = s.erraddr := rfl
@[simp] theorem State.scramble_rk (r : ByteRange) : (s.scramble r).rk = s.rk := rfl
@[simp] theorem State.scramble_latch (r : ByteRange) : (s.scramble r).latch = s.latch := rfl
@[simp] theorem State.scramble_wait (r : ByteRange) : (s.scramble r).wait = s.wait := rfl
@[simp] theorem State.scramble_latencies (r : ByteRange) : (s.scramble r).latencies = s.latencies := rfl
@[simp] theorem State.scramble_disturbed (r : ByteRange) : (s.scramble r).disturbed = s.disturbed := rfl
@[simp] theorem State.scramble_unsteady (r : ByteRange) : (s.scramble r).unsteady = s.unsteady := rfl
@[simp] theorem State.scramble_resetHeld (r : ByteRange) : (s.scramble r).resetHeld = s.resetHeld := rfl
@[simp] theorem State.scramble_endUnseen (r : ByteRange) : (s.scramble r).endUnseen = s.endUnseen := rfl
@[simp] theorem State.scramble_crcUnseen (r : ByteRange) : (s.scramble r).crcUnseen = s.crcUnseen := rfl
@[simp] theorem State.scramble_unseenDest (r : ByteRange) : (s.scramble r).unseenDest = s.unseenDest := rfl
@[simp] theorem State.scramble_mem (r : ByteRange) : (s.scramble r).mem = s.mem.scramble s.draws r.base r.size := rfl
@[simp] theorem State.scramble_hostDirty (r : ByteRange) : (s.scramble r).hostDirty = s.hostDirty := rfl
@[simp] theorem State.scramble_hostStale (r : ByteRange) : (s.scramble r).hostStale = s.hostStale := rfl
@[simp] theorem State.scramble_inputs (r : ByteRange) : (s.scramble r).inputs = s.inputs := rfl
@[simp] theorem State.scramble_response (r : ByteRange) : (s.scramble r).response = s.response := rfl
@[simp] theorem State.scramble_draws (r : ByteRange) : (s.scramble r).draws = s.draws + 1 := rfl

/-! ### `State.launch` -/

@[simp] theorem State.launch_cfg : (s.launch).cfg = s.cfg := rfl
@[simp] theorem State.launch_ie : (s.launch).ie = s.ie := rfl
@[simp] theorem State.launch_busy : (s.launch).busy = true := rfl
@[simp] theorem State.launch_done : (s.launch).done = false := rfl
@[simp] theorem State.launch_keyv : (s.launch).keyv = s.keyv := rfl
@[simp] theorem State.launch_crcok : (s.launch).crcok = false := rfl
@[simp] theorem State.launch_cntok : (s.launch).cntok = false := rfl
@[simp] theorem State.launch_s24ovf : (s.launch).s24ovf = false := rfl
@[simp] theorem State.launch_errcode : (s.launch).errcode = .ok := rfl
@[simp] theorem State.launch_cmd : (s.launch).cmd = s.cmd := rfl
@[simp] theorem State.launch_src : (s.launch).src = s.src := rfl
@[simp] theorem State.launch_srclen : (s.launch).srclen = s.srclen := rfl
@[simp] theorem State.launch_dst : (s.launch).dst = s.dst := rfl
@[simp] theorem State.launch_dstlen : (s.launch).dstlen = s.dstlen := rfl
@[simp] theorem State.launch_reslen : (s.launch).reslen = s.reslen := rfl
@[simp] theorem State.launch_crc : (s.launch).crc = s.crc := rfl
@[simp] theorem State.launch_btimeLo : (s.launch).btimeLo = s.btimeLo := rfl
@[simp] theorem State.launch_btimeHi : (s.launch).btimeHi = s.btimeHi := rfl
@[simp] theorem State.launch_maxv : (s.launch).maxv = s.maxv := rfl
@[simp] theorem State.launch_minv : (s.launch).minv = s.minv := rfl
@[simp] theorem State.launch_diffcnt : (s.launch).diffcnt = s.diffcnt := rfl
@[simp] theorem State.launch_erraddr : (s.launch).erraddr = s.erraddr := rfl
@[simp] theorem State.launch_rk : (s.launch).rk = s.rk := rfl
@[simp] theorem State.launch_latch : (s.launch).latch = s.operands := rfl
@[simp] theorem State.launch_wait : (s.launch).wait = s.latencies.headD 0 := rfl
@[simp] theorem State.launch_latencies : (s.launch).latencies = s.latencies.tail := rfl
@[simp] theorem State.launch_disturbed : (s.launch).disturbed = touchesDevice s.cfg s.operands := rfl
@[simp] theorem State.launch_unsteady : (s.launch).unsteady = deviceRanges s.cfg := rfl
@[simp] theorem State.launch_resetHeld : (s.launch).resetHeld = s.resetHeld := rfl
@[simp] theorem State.launch_endUnseen : (s.launch).endUnseen = s.endUnseen := rfl
@[simp] theorem State.launch_crcUnseen : (s.launch).crcUnseen = s.crcUnseen := rfl
@[simp] theorem State.launch_unseenDest : (s.launch).unseenDest = s.unseenDest := rfl
@[simp] theorem State.launch_mem : (s.launch).mem = s.mem := rfl
@[simp] theorem State.launch_hostDirty : (s.launch).hostDirty = s.hostDirty := rfl
@[simp] theorem State.launch_hostStale : (s.launch).hostStale = s.hostStale := rfl
@[simp] theorem State.launch_inputs : (s.launch).inputs = s.inputs := rfl
@[simp] theorem State.launch_response : (s.launch).response = s.response := rfl
@[simp] theorem State.launch_draws : (s.launch).draws = s.draws := rfl

/-! ### `State.clearEngine` -/

@[simp] theorem State.clearEngine_cfg : (s.clearEngine).cfg = s.cfg := rfl
@[simp] theorem State.clearEngine_ie : (s.clearEngine).ie = false := rfl
@[simp] theorem State.clearEngine_busy : (s.clearEngine).busy = false := rfl
@[simp] theorem State.clearEngine_done : (s.clearEngine).done = false := rfl
@[simp] theorem State.clearEngine_keyv : (s.clearEngine).keyv = false := rfl
@[simp] theorem State.clearEngine_crcok : (s.clearEngine).crcok = false := rfl
@[simp] theorem State.clearEngine_cntok : (s.clearEngine).cntok = false := rfl
@[simp] theorem State.clearEngine_s24ovf : (s.clearEngine).s24ovf = false := rfl
@[simp] theorem State.clearEngine_errcode : (s.clearEngine).errcode = .ok := rfl
@[simp] theorem State.clearEngine_cmd : (s.clearEngine).cmd = 0#32 := rfl
@[simp] theorem State.clearEngine_src : (s.clearEngine).src = 0#32 := rfl
@[simp] theorem State.clearEngine_srclen : (s.clearEngine).srclen = 0#32 := rfl
@[simp] theorem State.clearEngine_dst : (s.clearEngine).dst = 0#32 := rfl
@[simp] theorem State.clearEngine_dstlen : (s.clearEngine).dstlen = 0#32 := rfl
@[simp] theorem State.clearEngine_reslen : (s.clearEngine).reslen = 0#32 := rfl
@[simp] theorem State.clearEngine_crc : (s.clearEngine).crc = 0xFFFFFFFF#32 := rfl
@[simp] theorem State.clearEngine_btimeLo : (s.clearEngine).btimeLo = 0#32 := rfl
@[simp] theorem State.clearEngine_btimeHi : (s.clearEngine).btimeHi = 0#32 := rfl
@[simp] theorem State.clearEngine_maxv : (s.clearEngine).maxv = 0#32 := rfl
@[simp] theorem State.clearEngine_minv : (s.clearEngine).minv = 0#32 := rfl
@[simp] theorem State.clearEngine_diffcnt : (s.clearEngine).diffcnt = 0#32 := rfl
@[simp] theorem State.clearEngine_erraddr : (s.clearEngine).erraddr = 0#32 := rfl
@[simp] theorem State.clearEngine_rk : (s.clearEngine).rk = RoundKeys.zero := rfl
@[simp] theorem State.clearEngine_latch : (s.clearEngine).latch = Latch.zero := rfl
@[simp] theorem State.clearEngine_wait : (s.clearEngine).wait = 0 := rfl
@[simp] theorem State.clearEngine_latencies : (s.clearEngine).latencies = s.latencies := rfl
@[simp] theorem State.clearEngine_disturbed : (s.clearEngine).disturbed = false := rfl
@[simp] theorem State.clearEngine_unsteady : (s.clearEngine).unsteady = [] := rfl
@[simp] theorem State.clearEngine_resetHeld : (s.clearEngine).resetHeld = s.resetHeld := rfl
@[simp] theorem State.clearEngine_endUnseen : (s.clearEngine).endUnseen = false := rfl
@[simp] theorem State.clearEngine_crcUnseen : (s.clearEngine).crcUnseen = false := rfl
@[simp] theorem State.clearEngine_unseenDest : (s.clearEngine).unseenDest = s.unseenDest := rfl
@[simp] theorem State.clearEngine_mem : (s.clearEngine).mem = s.mem := rfl
@[simp] theorem State.clearEngine_hostDirty : (s.clearEngine).hostDirty = s.hostDirty := rfl
@[simp] theorem State.clearEngine_hostStale : (s.clearEngine).hostStale = s.hostStale := rfl
@[simp] theorem State.clearEngine_inputs : (s.clearEngine).inputs = s.inputs := rfl
@[simp] theorem State.clearEngine_response : (s.clearEngine).response = s.response := rfl
@[simp] theorem State.clearEngine_draws : (s.clearEngine).draws = s.draws := rfl

/-! ### `State.clearKeys` -/

@[simp] theorem State.clearKeys_cfg : (s.clearKeys).cfg = s.cfg := rfl
@[simp] theorem State.clearKeys_ie : (s.clearKeys).ie = s.ie := rfl
@[simp] theorem State.clearKeys_busy : (s.clearKeys).busy = s.busy := rfl
@[simp] theorem State.clearKeys_done : (s.clearKeys).done = s.done := rfl
@[simp] theorem State.clearKeys_keyv : (s.clearKeys).keyv = false := rfl
@[simp] theorem State.clearKeys_crcok : (s.clearKeys).crcok = s.crcok := rfl
@[simp] theorem State.clearKeys_cntok : (s.clearKeys).cntok = s.cntok := rfl
@[simp] theorem State.clearKeys_s24ovf : (s.clearKeys).s24ovf = s.s24ovf := rfl
@[simp] theorem State.clearKeys_errcode : (s.clearKeys).errcode = s.errcode := rfl
@[simp] theorem State.clearKeys_cmd : (s.clearKeys).cmd = s.cmd := rfl
@[simp] theorem State.clearKeys_src : (s.clearKeys).src = s.src := rfl
@[simp] theorem State.clearKeys_srclen : (s.clearKeys).srclen = s.srclen := rfl
@[simp] theorem State.clearKeys_dst : (s.clearKeys).dst = s.dst := rfl
@[simp] theorem State.clearKeys_dstlen : (s.clearKeys).dstlen = s.dstlen := rfl
@[simp] theorem State.clearKeys_reslen : (s.clearKeys).reslen = s.reslen := rfl
@[simp] theorem State.clearKeys_crc : (s.clearKeys).crc = s.crc := rfl
@[simp] theorem State.clearKeys_btimeLo : (s.clearKeys).btimeLo = s.btimeLo := rfl
@[simp] theorem State.clearKeys_btimeHi : (s.clearKeys).btimeHi = s.btimeHi := rfl
@[simp] theorem State.clearKeys_maxv : (s.clearKeys).maxv = s.maxv := rfl
@[simp] theorem State.clearKeys_minv : (s.clearKeys).minv = s.minv := rfl
@[simp] theorem State.clearKeys_diffcnt : (s.clearKeys).diffcnt = s.diffcnt := rfl
@[simp] theorem State.clearKeys_erraddr : (s.clearKeys).erraddr = s.erraddr := rfl
@[simp] theorem State.clearKeys_rk : (s.clearKeys).rk = RoundKeys.zero := rfl
@[simp] theorem State.clearKeys_latch : (s.clearKeys).latch = s.latch := rfl
@[simp] theorem State.clearKeys_wait : (s.clearKeys).wait = s.wait := rfl
@[simp] theorem State.clearKeys_latencies : (s.clearKeys).latencies = s.latencies := rfl
@[simp] theorem State.clearKeys_disturbed : (s.clearKeys).disturbed = s.disturbed := rfl
@[simp] theorem State.clearKeys_unsteady : (s.clearKeys).unsteady = s.unsteady := rfl
@[simp] theorem State.clearKeys_resetHeld : (s.clearKeys).resetHeld = s.resetHeld := rfl
@[simp] theorem State.clearKeys_endUnseen : (s.clearKeys).endUnseen = s.endUnseen := rfl
@[simp] theorem State.clearKeys_crcUnseen : (s.clearKeys).crcUnseen = s.crcUnseen := rfl
@[simp] theorem State.clearKeys_unseenDest : (s.clearKeys).unseenDest = s.unseenDest := rfl
@[simp] theorem State.clearKeys_mem : (s.clearKeys).mem = s.mem := rfl
@[simp] theorem State.clearKeys_hostDirty : (s.clearKeys).hostDirty = s.hostDirty := rfl
@[simp] theorem State.clearKeys_hostStale : (s.clearKeys).hostStale = s.hostStale := rfl
@[simp] theorem State.clearKeys_inputs : (s.clearKeys).inputs = s.inputs := rfl
@[simp] theorem State.clearKeys_response : (s.clearKeys).response = s.response := rfl
@[simp] theorem State.clearKeys_draws : (s.clearKeys).draws = s.draws := rfl

/-! ### `State.loadKeys` -/

@[simp] theorem State.loadKeys_cfg (k : Block) : (s.loadKeys k).cfg = s.cfg := rfl
@[simp] theorem State.loadKeys_ie (k : Block) : (s.loadKeys k).ie = s.ie := rfl
@[simp] theorem State.loadKeys_busy (k : Block) : (s.loadKeys k).busy = s.busy := rfl
@[simp] theorem State.loadKeys_done (k : Block) : (s.loadKeys k).done = s.done := rfl
@[simp] theorem State.loadKeys_keyv (k : Block) : (s.loadKeys k).keyv = true := rfl
@[simp] theorem State.loadKeys_crcok (k : Block) : (s.loadKeys k).crcok = s.crcok := rfl
@[simp] theorem State.loadKeys_cntok (k : Block) : (s.loadKeys k).cntok = s.cntok := rfl
@[simp] theorem State.loadKeys_s24ovf (k : Block) : (s.loadKeys k).s24ovf = s.s24ovf := rfl
@[simp] theorem State.loadKeys_errcode (k : Block) : (s.loadKeys k).errcode = s.errcode := rfl
@[simp] theorem State.loadKeys_cmd (k : Block) : (s.loadKeys k).cmd = s.cmd := rfl
@[simp] theorem State.loadKeys_src (k : Block) : (s.loadKeys k).src = s.src := rfl
@[simp] theorem State.loadKeys_srclen (k : Block) : (s.loadKeys k).srclen = s.srclen := rfl
@[simp] theorem State.loadKeys_dst (k : Block) : (s.loadKeys k).dst = s.dst := rfl
@[simp] theorem State.loadKeys_dstlen (k : Block) : (s.loadKeys k).dstlen = s.dstlen := rfl
@[simp] theorem State.loadKeys_reslen (k : Block) : (s.loadKeys k).reslen = s.reslen := rfl
@[simp] theorem State.loadKeys_crc (k : Block) : (s.loadKeys k).crc = s.crc := rfl
@[simp] theorem State.loadKeys_btimeLo (k : Block) : (s.loadKeys k).btimeLo = s.btimeLo := rfl
@[simp] theorem State.loadKeys_btimeHi (k : Block) : (s.loadKeys k).btimeHi = s.btimeHi := rfl
@[simp] theorem State.loadKeys_maxv (k : Block) : (s.loadKeys k).maxv = s.maxv := rfl
@[simp] theorem State.loadKeys_minv (k : Block) : (s.loadKeys k).minv = s.minv := rfl
@[simp] theorem State.loadKeys_diffcnt (k : Block) : (s.loadKeys k).diffcnt = s.diffcnt := rfl
@[simp] theorem State.loadKeys_erraddr (k : Block) : (s.loadKeys k).erraddr = s.erraddr := rfl
@[simp] theorem State.loadKeys_rk (k : Block) : (s.loadKeys k).rk = expandKey k := rfl
@[simp] theorem State.loadKeys_latch (k : Block) : (s.loadKeys k).latch = s.latch := rfl
@[simp] theorem State.loadKeys_wait (k : Block) : (s.loadKeys k).wait = s.wait := rfl
@[simp] theorem State.loadKeys_latencies (k : Block) : (s.loadKeys k).latencies = s.latencies := rfl
@[simp] theorem State.loadKeys_disturbed (k : Block) : (s.loadKeys k).disturbed = s.disturbed := rfl
@[simp] theorem State.loadKeys_unsteady (k : Block) : (s.loadKeys k).unsteady = s.unsteady := rfl
@[simp] theorem State.loadKeys_resetHeld (k : Block) : (s.loadKeys k).resetHeld = s.resetHeld := rfl
@[simp] theorem State.loadKeys_endUnseen (k : Block) : (s.loadKeys k).endUnseen = s.endUnseen := rfl
@[simp] theorem State.loadKeys_crcUnseen (k : Block) : (s.loadKeys k).crcUnseen = s.crcUnseen := rfl
@[simp] theorem State.loadKeys_unseenDest (k : Block) : (s.loadKeys k).unseenDest = s.unseenDest := rfl
@[simp] theorem State.loadKeys_mem (k : Block) : (s.loadKeys k).mem = s.mem := rfl
@[simp] theorem State.loadKeys_hostDirty (k : Block) : (s.loadKeys k).hostDirty = s.hostDirty := rfl
@[simp] theorem State.loadKeys_hostStale (k : Block) : (s.loadKeys k).hostStale = s.hostStale := rfl
@[simp] theorem State.loadKeys_inputs (k : Block) : (s.loadKeys k).inputs = s.inputs := rfl
@[simp] theorem State.loadKeys_response (k : Block) : (s.loadKeys k).response = s.response := rfl
@[simp] theorem State.loadKeys_draws (k : Block) : (s.loadKeys k).draws = s.draws := rfl

/-! ### `State.markStale` -/

@[simp] theorem State.markStale_cfg (r : ByteRange) : (s.markStale r).cfg = s.cfg := by
  unfold State.markStale; split <;> rfl
@[simp] theorem State.markStale_ie (r : ByteRange) : (s.markStale r).ie = s.ie := by
  unfold State.markStale; split <;> rfl
@[simp] theorem State.markStale_busy (r : ByteRange) : (s.markStale r).busy = s.busy := by
  unfold State.markStale; split <;> rfl
@[simp] theorem State.markStale_done (r : ByteRange) : (s.markStale r).done = s.done := by
  unfold State.markStale; split <;> rfl
@[simp] theorem State.markStale_keyv (r : ByteRange) : (s.markStale r).keyv = s.keyv := by
  unfold State.markStale; split <;> rfl
@[simp] theorem State.markStale_crcok (r : ByteRange) : (s.markStale r).crcok = s.crcok := by
  unfold State.markStale; split <;> rfl
@[simp] theorem State.markStale_cntok (r : ByteRange) : (s.markStale r).cntok = s.cntok := by
  unfold State.markStale; split <;> rfl
@[simp] theorem State.markStale_s24ovf (r : ByteRange) : (s.markStale r).s24ovf = s.s24ovf := by
  unfold State.markStale; split <;> rfl
@[simp] theorem State.markStale_errcode (r : ByteRange) : (s.markStale r).errcode = s.errcode := by
  unfold State.markStale; split <;> rfl
@[simp] theorem State.markStale_cmd (r : ByteRange) : (s.markStale r).cmd = s.cmd := by
  unfold State.markStale; split <;> rfl
@[simp] theorem State.markStale_src (r : ByteRange) : (s.markStale r).src = s.src := by
  unfold State.markStale; split <;> rfl
@[simp] theorem State.markStale_srclen (r : ByteRange) : (s.markStale r).srclen = s.srclen := by
  unfold State.markStale; split <;> rfl
@[simp] theorem State.markStale_dst (r : ByteRange) : (s.markStale r).dst = s.dst := by
  unfold State.markStale; split <;> rfl
@[simp] theorem State.markStale_dstlen (r : ByteRange) : (s.markStale r).dstlen = s.dstlen := by
  unfold State.markStale; split <;> rfl
@[simp] theorem State.markStale_reslen (r : ByteRange) : (s.markStale r).reslen = s.reslen := by
  unfold State.markStale; split <;> rfl
@[simp] theorem State.markStale_crc (r : ByteRange) : (s.markStale r).crc = s.crc := by
  unfold State.markStale; split <;> rfl
@[simp] theorem State.markStale_btimeLo (r : ByteRange) : (s.markStale r).btimeLo = s.btimeLo := by
  unfold State.markStale; split <;> rfl
@[simp] theorem State.markStale_btimeHi (r : ByteRange) : (s.markStale r).btimeHi = s.btimeHi := by
  unfold State.markStale; split <;> rfl
@[simp] theorem State.markStale_maxv (r : ByteRange) : (s.markStale r).maxv = s.maxv := by
  unfold State.markStale; split <;> rfl
@[simp] theorem State.markStale_minv (r : ByteRange) : (s.markStale r).minv = s.minv := by
  unfold State.markStale; split <;> rfl
@[simp] theorem State.markStale_diffcnt (r : ByteRange) : (s.markStale r).diffcnt = s.diffcnt := by
  unfold State.markStale; split <;> rfl
@[simp] theorem State.markStale_erraddr (r : ByteRange) : (s.markStale r).erraddr = s.erraddr := by
  unfold State.markStale; split <;> rfl
@[simp] theorem State.markStale_rk (r : ByteRange) : (s.markStale r).rk = s.rk := by
  unfold State.markStale; split <;> rfl
@[simp] theorem State.markStale_latch (r : ByteRange) : (s.markStale r).latch = s.latch := by
  unfold State.markStale; split <;> rfl
@[simp] theorem State.markStale_wait (r : ByteRange) : (s.markStale r).wait = s.wait := by
  unfold State.markStale; split <;> rfl
@[simp] theorem State.markStale_latencies (r : ByteRange) : (s.markStale r).latencies = s.latencies := by
  unfold State.markStale; split <;> rfl
@[simp] theorem State.markStale_disturbed (r : ByteRange) : (s.markStale r).disturbed = s.disturbed := by
  unfold State.markStale; split <;> rfl
@[simp] theorem State.markStale_unsteady (r : ByteRange) : (s.markStale r).unsteady = s.unsteady := by
  unfold State.markStale; split <;> rfl
@[simp] theorem State.markStale_resetHeld (r : ByteRange) : (s.markStale r).resetHeld = s.resetHeld := by
  unfold State.markStale; split <;> rfl
@[simp] theorem State.markStale_endUnseen (r : ByteRange) : (s.markStale r).endUnseen = s.endUnseen := by
  unfold State.markStale; split <;> rfl
@[simp] theorem State.markStale_crcUnseen (r : ByteRange) : (s.markStale r).crcUnseen = s.crcUnseen := by
  unfold State.markStale; split <;> rfl
@[simp] theorem State.markStale_unseenDest (r : ByteRange) : (s.markStale r).unseenDest = s.unseenDest := by
  unfold State.markStale; split <;> rfl
@[simp] theorem State.markStale_mem (r : ByteRange) : (s.markStale r).mem = s.mem := by
  unfold State.markStale; split <;> rfl
@[simp] theorem State.markStale_hostDirty (r : ByteRange) : (s.markStale r).hostDirty = s.hostDirty := by
  unfold State.markStale; split <;> rfl
@[simp] theorem State.markStale_inputs (r : ByteRange) : (s.markStale r).inputs = s.inputs := by
  unfold State.markStale; split <;> rfl
@[simp] theorem State.markStale_response (r : ByteRange) : (s.markStale r).response = s.response := by
  unfold State.markStale; split <;> rfl
@[simp] theorem State.markStale_draws (r : ByteRange) : (s.markStale r).draws = s.draws := by
  unfold State.markStale; split <;> rfl

/-! ### `State.abort` -/

@[simp] theorem State.abort_cfg : (s.abort).cfg = s.cfg := by
  unfold State.abort; split <;> simp
@[simp] theorem State.abort_ie : (s.abort).ie = s.ie := by
  unfold State.abort; split <;> simp
@[simp] theorem State.abort_busy : (s.abort).busy = s.busy := by
  unfold State.abort; split <;> simp
@[simp] theorem State.abort_done : (s.abort).done = s.done := by
  unfold State.abort; split <;> simp
@[simp] theorem State.abort_keyv : (s.abort).keyv = s.keyv := by
  unfold State.abort; split <;> simp
@[simp] theorem State.abort_crcok : (s.abort).crcok = s.crcok := by
  unfold State.abort; split <;> simp
@[simp] theorem State.abort_cntok : (s.abort).cntok = s.cntok := by
  unfold State.abort; split <;> simp
@[simp] theorem State.abort_s24ovf : (s.abort).s24ovf = s.s24ovf := by
  unfold State.abort; split <;> simp
@[simp] theorem State.abort_errcode : (s.abort).errcode = s.errcode := by
  unfold State.abort; split <;> simp
@[simp] theorem State.abort_cmd : (s.abort).cmd = s.cmd := by
  unfold State.abort; split <;> simp
@[simp] theorem State.abort_src : (s.abort).src = s.src := by
  unfold State.abort; split <;> simp
@[simp] theorem State.abort_srclen : (s.abort).srclen = s.srclen := by
  unfold State.abort; split <;> simp
@[simp] theorem State.abort_dst : (s.abort).dst = s.dst := by
  unfold State.abort; split <;> simp
@[simp] theorem State.abort_dstlen : (s.abort).dstlen = s.dstlen := by
  unfold State.abort; split <;> simp
@[simp] theorem State.abort_reslen : (s.abort).reslen = s.reslen := by
  unfold State.abort; split <;> simp
@[simp] theorem State.abort_crc : (s.abort).crc = s.crc := by
  unfold State.abort; split <;> simp
@[simp] theorem State.abort_btimeLo : (s.abort).btimeLo = s.btimeLo := by
  unfold State.abort; split <;> simp
@[simp] theorem State.abort_btimeHi : (s.abort).btimeHi = s.btimeHi := by
  unfold State.abort; split <;> simp
@[simp] theorem State.abort_maxv : (s.abort).maxv = s.maxv := by
  unfold State.abort; split <;> simp
@[simp] theorem State.abort_minv : (s.abort).minv = s.minv := by
  unfold State.abort; split <;> simp
@[simp] theorem State.abort_diffcnt : (s.abort).diffcnt = s.diffcnt := by
  unfold State.abort; split <;> simp
@[simp] theorem State.abort_erraddr : (s.abort).erraddr = s.erraddr := by
  unfold State.abort; split <;> simp
@[simp] theorem State.abort_rk : (s.abort).rk = s.rk := by
  unfold State.abort; split <;> simp
@[simp] theorem State.abort_latch : (s.abort).latch = s.latch := by
  unfold State.abort; split <;> simp
@[simp] theorem State.abort_wait : (s.abort).wait = s.wait := by
  unfold State.abort; split <;> simp
@[simp] theorem State.abort_latencies : (s.abort).latencies = s.latencies := by
  unfold State.abort; split <;> simp
@[simp] theorem State.abort_disturbed : (s.abort).disturbed = s.disturbed := by
  unfold State.abort; split <;> simp
@[simp] theorem State.abort_unsteady : (s.abort).unsteady = s.unsteady := by
  unfold State.abort; split <;> simp
@[simp] theorem State.abort_resetHeld : (s.abort).resetHeld = s.resetHeld := by
  unfold State.abort; split <;> simp
@[simp] theorem State.abort_endUnseen : (s.abort).endUnseen = s.endUnseen := by
  unfold State.abort; split <;> simp
@[simp] theorem State.abort_crcUnseen : (s.abort).crcUnseen = s.crcUnseen := by
  unfold State.abort; split <;> simp
@[simp] theorem State.abort_unseenDest : (s.abort).unseenDest = s.unseenDest := by
  unfold State.abort; split <;> simp
@[simp] theorem State.abort_hostDirty : (s.abort).hostDirty = s.hostDirty := by
  unfold State.abort; split <;> simp
@[simp] theorem State.abort_inputs : (s.abort).inputs = s.inputs := by
  unfold State.abort; split <;> simp
@[simp] theorem State.abort_response : (s.abort).response = s.response := by
  unfold State.abort; split <;> simp

/-! ### `State.loseUncleaned` -/

@[simp] theorem State.loseUncleaned_cfg : (s.loseUncleaned).cfg = s.cfg := by
  unfold State.loseUncleaned; split <;> rfl
@[simp] theorem State.loseUncleaned_ie : (s.loseUncleaned).ie = s.ie := by
  unfold State.loseUncleaned; split <;> rfl
@[simp] theorem State.loseUncleaned_busy : (s.loseUncleaned).busy = s.busy := by
  unfold State.loseUncleaned; split <;> rfl
@[simp] theorem State.loseUncleaned_done : (s.loseUncleaned).done = s.done := by
  unfold State.loseUncleaned; split <;> rfl
@[simp] theorem State.loseUncleaned_keyv : (s.loseUncleaned).keyv = s.keyv := by
  unfold State.loseUncleaned; split <;> rfl
@[simp] theorem State.loseUncleaned_crcok : (s.loseUncleaned).crcok = s.crcok := by
  unfold State.loseUncleaned; split <;> rfl
@[simp] theorem State.loseUncleaned_cntok : (s.loseUncleaned).cntok = s.cntok := by
  unfold State.loseUncleaned; split <;> rfl
@[simp] theorem State.loseUncleaned_s24ovf : (s.loseUncleaned).s24ovf = s.s24ovf := by
  unfold State.loseUncleaned; split <;> rfl
@[simp] theorem State.loseUncleaned_errcode : (s.loseUncleaned).errcode = s.errcode := by
  unfold State.loseUncleaned; split <;> rfl
@[simp] theorem State.loseUncleaned_cmd : (s.loseUncleaned).cmd = s.cmd := by
  unfold State.loseUncleaned; split <;> rfl
@[simp] theorem State.loseUncleaned_src : (s.loseUncleaned).src = s.src := by
  unfold State.loseUncleaned; split <;> rfl
@[simp] theorem State.loseUncleaned_srclen : (s.loseUncleaned).srclen = s.srclen := by
  unfold State.loseUncleaned; split <;> rfl
@[simp] theorem State.loseUncleaned_dst : (s.loseUncleaned).dst = s.dst := by
  unfold State.loseUncleaned; split <;> rfl
@[simp] theorem State.loseUncleaned_dstlen : (s.loseUncleaned).dstlen = s.dstlen := by
  unfold State.loseUncleaned; split <;> rfl
@[simp] theorem State.loseUncleaned_reslen : (s.loseUncleaned).reslen = s.reslen := by
  unfold State.loseUncleaned; split <;> rfl
@[simp] theorem State.loseUncleaned_crc : (s.loseUncleaned).crc = s.crc := by
  unfold State.loseUncleaned; split <;> rfl
@[simp] theorem State.loseUncleaned_btimeLo : (s.loseUncleaned).btimeLo = s.btimeLo := by
  unfold State.loseUncleaned; split <;> rfl
@[simp] theorem State.loseUncleaned_btimeHi : (s.loseUncleaned).btimeHi = s.btimeHi := by
  unfold State.loseUncleaned; split <;> rfl
@[simp] theorem State.loseUncleaned_maxv : (s.loseUncleaned).maxv = s.maxv := by
  unfold State.loseUncleaned; split <;> rfl
@[simp] theorem State.loseUncleaned_minv : (s.loseUncleaned).minv = s.minv := by
  unfold State.loseUncleaned; split <;> rfl
@[simp] theorem State.loseUncleaned_diffcnt : (s.loseUncleaned).diffcnt = s.diffcnt := by
  unfold State.loseUncleaned; split <;> rfl
@[simp] theorem State.loseUncleaned_erraddr : (s.loseUncleaned).erraddr = s.erraddr := by
  unfold State.loseUncleaned; split <;> rfl
@[simp] theorem State.loseUncleaned_rk : (s.loseUncleaned).rk = s.rk := by
  unfold State.loseUncleaned; split <;> rfl
@[simp] theorem State.loseUncleaned_latch : (s.loseUncleaned).latch = s.latch := by
  unfold State.loseUncleaned; split <;> rfl
@[simp] theorem State.loseUncleaned_wait : (s.loseUncleaned).wait = s.wait := by
  unfold State.loseUncleaned; split <;> rfl
@[simp] theorem State.loseUncleaned_latencies : (s.loseUncleaned).latencies = s.latencies := by
  unfold State.loseUncleaned; split <;> rfl
@[simp] theorem State.loseUncleaned_disturbed : (s.loseUncleaned).disturbed = s.disturbed := by
  unfold State.loseUncleaned; split <;> rfl
@[simp] theorem State.loseUncleaned_unsteady : (s.loseUncleaned).unsteady = s.unsteady := by
  unfold State.loseUncleaned; split <;> rfl
@[simp] theorem State.loseUncleaned_resetHeld : (s.loseUncleaned).resetHeld = s.resetHeld := by
  unfold State.loseUncleaned; split <;> rfl
@[simp] theorem State.loseUncleaned_endUnseen : (s.loseUncleaned).endUnseen = s.endUnseen := by
  unfold State.loseUncleaned; split <;> rfl
@[simp] theorem State.loseUncleaned_crcUnseen : (s.loseUncleaned).crcUnseen = s.crcUnseen := by
  unfold State.loseUncleaned; split <;> rfl
@[simp] theorem State.loseUncleaned_unseenDest : (s.loseUncleaned).unseenDest = s.unseenDest := by
  unfold State.loseUncleaned; split <;> rfl
@[simp] theorem State.loseUncleaned_hostDirty : (s.loseUncleaned).hostDirty = s.hostDirty := by
  unfold State.loseUncleaned; split <;> rfl
@[simp] theorem State.loseUncleaned_hostStale : (s.loseUncleaned).hostStale = s.hostStale := by
  unfold State.loseUncleaned; split <;> rfl
@[simp] theorem State.loseUncleaned_inputs : (s.loseUncleaned).inputs = s.inputs := by
  unfold State.loseUncleaned; split <;> rfl
@[simp] theorem State.loseUncleaned_response : (s.loseUncleaned).response = s.response := by
  unfold State.loseUncleaned; split <;> rfl

/-! ### `State.disturb` -/

@[simp] theorem State.disturb_cfg (l : List Nat) : (s.disturb l).cfg = s.cfg := rfl
@[simp] theorem State.disturb_ie (l : List Nat) : (s.disturb l).ie = s.ie := rfl
@[simp] theorem State.disturb_busy (l : List Nat) : (s.disturb l).busy = s.busy := rfl
@[simp] theorem State.disturb_done (l : List Nat) : (s.disturb l).done = s.done := rfl
@[simp] theorem State.disturb_keyv (l : List Nat) : (s.disturb l).keyv = s.keyv := rfl
@[simp] theorem State.disturb_crcok (l : List Nat) : (s.disturb l).crcok = s.crcok := rfl
@[simp] theorem State.disturb_cntok (l : List Nat) : (s.disturb l).cntok = s.cntok := rfl
@[simp] theorem State.disturb_s24ovf (l : List Nat) : (s.disturb l).s24ovf = s.s24ovf := rfl
@[simp] theorem State.disturb_errcode (l : List Nat) : (s.disturb l).errcode = s.errcode := rfl
@[simp] theorem State.disturb_cmd (l : List Nat) : (s.disturb l).cmd = s.cmd := rfl
@[simp] theorem State.disturb_src (l : List Nat) : (s.disturb l).src = s.src := rfl
@[simp] theorem State.disturb_srclen (l : List Nat) : (s.disturb l).srclen = s.srclen := rfl
@[simp] theorem State.disturb_dst (l : List Nat) : (s.disturb l).dst = s.dst := rfl
@[simp] theorem State.disturb_dstlen (l : List Nat) : (s.disturb l).dstlen = s.dstlen := rfl
@[simp] theorem State.disturb_reslen (l : List Nat) : (s.disturb l).reslen = s.reslen := rfl
@[simp] theorem State.disturb_crc (l : List Nat) : (s.disturb l).crc = s.crc := rfl
@[simp] theorem State.disturb_btimeLo (l : List Nat) : (s.disturb l).btimeLo = s.btimeLo := rfl
@[simp] theorem State.disturb_btimeHi (l : List Nat) : (s.disturb l).btimeHi = s.btimeHi := rfl
@[simp] theorem State.disturb_maxv (l : List Nat) : (s.disturb l).maxv = s.maxv := rfl
@[simp] theorem State.disturb_minv (l : List Nat) : (s.disturb l).minv = s.minv := rfl
@[simp] theorem State.disturb_diffcnt (l : List Nat) : (s.disturb l).diffcnt = s.diffcnt := rfl
@[simp] theorem State.disturb_erraddr (l : List Nat) : (s.disturb l).erraddr = s.erraddr := rfl
@[simp] theorem State.disturb_rk (l : List Nat) : (s.disturb l).rk = s.rk := rfl
@[simp] theorem State.disturb_latch (l : List Nat) : (s.disturb l).latch = s.latch := rfl
@[simp] theorem State.disturb_wait (l : List Nat) : (s.disturb l).wait = s.wait := rfl
@[simp] theorem State.disturb_latencies (l : List Nat) : (s.disturb l).latencies = s.latencies := rfl
@[simp] theorem State.disturb_disturbed (l : List Nat) : (s.disturb l).disturbed = (s.disturbed || l.any s.inUse) := rfl
@[simp] theorem State.disturb_unsteady (l : List Nat) : (s.disturb l).unsteady = (l.filter s.inUse).map (fun a => ⟨a, 1⟩) ++ s.unsteady := rfl
@[simp] theorem State.disturb_resetHeld (l : List Nat) : (s.disturb l).resetHeld = s.resetHeld := rfl
@[simp] theorem State.disturb_endUnseen (l : List Nat) : (s.disturb l).endUnseen = s.endUnseen := rfl
@[simp] theorem State.disturb_crcUnseen (l : List Nat) : (s.disturb l).crcUnseen = s.crcUnseen := rfl
@[simp] theorem State.disturb_unseenDest (l : List Nat) : (s.disturb l).unseenDest = s.unseenDest := rfl
@[simp] theorem State.disturb_mem (l : List Nat) : (s.disturb l).mem = s.mem := rfl
@[simp] theorem State.disturb_hostDirty (l : List Nat) : (s.disturb l).hostDirty = s.hostDirty := rfl
@[simp] theorem State.disturb_hostStale (l : List Nat) : (s.disturb l).hostStale = s.hostStale := rfl
@[simp] theorem State.disturb_inputs (l : List Nat) : (s.disturb l).inputs = s.inputs := rfl
@[simp] theorem State.disturb_response (l : List Nat) : (s.disturb l).response = s.response := rfl
@[simp] theorem State.disturb_draws (l : List Nat) : (s.disturb l).draws = s.draws := rfl

/-! ### `State.touch` -/

@[simp] theorem State.touch_cfg (a : Nat) : (s.touch a).cfg = s.cfg := by simp [State.touch]
@[simp] theorem State.touch_ie (a : Nat) : (s.touch a).ie = s.ie := by simp [State.touch]
@[simp] theorem State.touch_busy (a : Nat) : (s.touch a).busy = s.busy := by simp [State.touch]
@[simp] theorem State.touch_done (a : Nat) : (s.touch a).done = s.done := by simp [State.touch]
@[simp] theorem State.touch_keyv (a : Nat) : (s.touch a).keyv = s.keyv := by simp [State.touch]
@[simp] theorem State.touch_crcok (a : Nat) : (s.touch a).crcok = s.crcok := by simp [State.touch]
@[simp] theorem State.touch_cntok (a : Nat) : (s.touch a).cntok = s.cntok := by simp [State.touch]
@[simp] theorem State.touch_s24ovf (a : Nat) : (s.touch a).s24ovf = s.s24ovf := by simp [State.touch]
@[simp] theorem State.touch_errcode (a : Nat) : (s.touch a).errcode = s.errcode := by simp [State.touch]
@[simp] theorem State.touch_cmd (a : Nat) : (s.touch a).cmd = s.cmd := by simp [State.touch]
@[simp] theorem State.touch_src (a : Nat) : (s.touch a).src = s.src := by simp [State.touch]
@[simp] theorem State.touch_srclen (a : Nat) : (s.touch a).srclen = s.srclen := by simp [State.touch]
@[simp] theorem State.touch_dst (a : Nat) : (s.touch a).dst = s.dst := by simp [State.touch]
@[simp] theorem State.touch_dstlen (a : Nat) : (s.touch a).dstlen = s.dstlen := by simp [State.touch]
@[simp] theorem State.touch_reslen (a : Nat) : (s.touch a).reslen = s.reslen := by simp [State.touch]
@[simp] theorem State.touch_crc (a : Nat) : (s.touch a).crc = s.crc := by simp [State.touch]
@[simp] theorem State.touch_btimeLo (a : Nat) : (s.touch a).btimeLo = s.btimeLo := by simp [State.touch]
@[simp] theorem State.touch_btimeHi (a : Nat) : (s.touch a).btimeHi = s.btimeHi := by simp [State.touch]
@[simp] theorem State.touch_maxv (a : Nat) : (s.touch a).maxv = s.maxv := by simp [State.touch]
@[simp] theorem State.touch_minv (a : Nat) : (s.touch a).minv = s.minv := by simp [State.touch]
@[simp] theorem State.touch_diffcnt (a : Nat) : (s.touch a).diffcnt = s.diffcnt := by simp [State.touch]
@[simp] theorem State.touch_erraddr (a : Nat) : (s.touch a).erraddr = s.erraddr := by simp [State.touch]
@[simp] theorem State.touch_rk (a : Nat) : (s.touch a).rk = s.rk := by simp [State.touch]
@[simp] theorem State.touch_latch (a : Nat) : (s.touch a).latch = s.latch := by simp [State.touch]
@[simp] theorem State.touch_wait (a : Nat) : (s.touch a).wait = s.wait := by simp [State.touch]
@[simp] theorem State.touch_latencies (a : Nat) : (s.touch a).latencies = s.latencies := by simp [State.touch]
@[simp] theorem State.touch_disturbed (a : Nat) : (s.touch a).disturbed = (s.disturbed || s.inUse a) := by simp [State.touch]
@[simp] theorem State.touch_unsteady (a : Nat) : (s.touch a).unsteady = ([a].filter s.inUse).map (fun a => ⟨a, 1⟩) ++ s.unsteady := by simp [State.touch]
@[simp] theorem State.touch_resetHeld (a : Nat) : (s.touch a).resetHeld = s.resetHeld := by simp [State.touch]
@[simp] theorem State.touch_endUnseen (a : Nat) : (s.touch a).endUnseen = s.endUnseen := by simp [State.touch]
@[simp] theorem State.touch_crcUnseen (a : Nat) : (s.touch a).crcUnseen = s.crcUnseen := by simp [State.touch]
@[simp] theorem State.touch_unseenDest (a : Nat) : (s.touch a).unseenDest = s.unseenDest := by simp [State.touch]
@[simp] theorem State.touch_mem (a : Nat) : (s.touch a).mem = s.mem.scramble s.draws a 1 := by simp [State.touch, State.scramble, State.disturb]
@[simp] theorem State.touch_hostDirty (a : Nat) : (s.touch a).hostDirty = s.hostDirty := by simp [State.touch]
@[simp] theorem State.touch_inputs (a : Nat) : (s.touch a).inputs = s.inputs := by simp [State.touch]
@[simp] theorem State.touch_response (a : Nat) : (s.touch a).response = s.response := by simp [State.touch]
@[simp] theorem State.touch_draws (a : Nat) : (s.touch a).draws = s.draws + 1 := by simp [State.touch]

/-! ### `State.see` -/

@[simp] theorem State.see_cfg : (s.see).cfg = s.cfg := rfl
@[simp] theorem State.see_ie : (s.see).ie = s.ie := rfl
@[simp] theorem State.see_busy : (s.see).busy = s.busy := rfl
@[simp] theorem State.see_done : (s.see).done = s.done := rfl
@[simp] theorem State.see_keyv : (s.see).keyv = s.keyv := rfl
@[simp] theorem State.see_crcok : (s.see).crcok = s.crcok := rfl
@[simp] theorem State.see_cntok : (s.see).cntok = s.cntok := rfl
@[simp] theorem State.see_s24ovf : (s.see).s24ovf = s.s24ovf := rfl
@[simp] theorem State.see_errcode : (s.see).errcode = s.errcode := rfl
@[simp] theorem State.see_cmd : (s.see).cmd = s.cmd := rfl
@[simp] theorem State.see_src : (s.see).src = s.src := rfl
@[simp] theorem State.see_srclen : (s.see).srclen = s.srclen := rfl
@[simp] theorem State.see_dst : (s.see).dst = s.dst := rfl
@[simp] theorem State.see_dstlen : (s.see).dstlen = s.dstlen := rfl
@[simp] theorem State.see_reslen : (s.see).reslen = s.reslen := rfl
@[simp] theorem State.see_crc : (s.see).crc = s.crc := rfl
@[simp] theorem State.see_btimeLo : (s.see).btimeLo = s.btimeLo := rfl
@[simp] theorem State.see_btimeHi : (s.see).btimeHi = s.btimeHi := rfl
@[simp] theorem State.see_maxv : (s.see).maxv = s.maxv := rfl
@[simp] theorem State.see_minv : (s.see).minv = s.minv := rfl
@[simp] theorem State.see_diffcnt : (s.see).diffcnt = s.diffcnt := rfl
@[simp] theorem State.see_erraddr : (s.see).erraddr = s.erraddr := rfl
@[simp] theorem State.see_rk : (s.see).rk = s.rk := rfl
@[simp] theorem State.see_latch : (s.see).latch = s.latch := rfl
@[simp] theorem State.see_wait : (s.see).wait = s.wait := rfl
@[simp] theorem State.see_latencies : (s.see).latencies = s.latencies := rfl
@[simp] theorem State.see_disturbed : (s.see).disturbed = s.disturbed := rfl
@[simp] theorem State.see_unsteady : (s.see).unsteady = s.unsteady := rfl
@[simp] theorem State.see_resetHeld : (s.see).resetHeld = s.resetHeld := rfl
@[simp] theorem State.see_endUnseen : (s.see).endUnseen = false := rfl
@[simp] theorem State.see_crcUnseen : (s.see).crcUnseen = false := rfl
@[simp] theorem State.see_unseenDest : (s.see).unseenDest = [] := rfl
@[simp] theorem State.see_mem : (s.see).mem = s.mem := rfl
@[simp] theorem State.see_hostDirty : (s.see).hostDirty = s.hostDirty := rfl
@[simp] theorem State.see_hostStale : (s.see).hostStale = s.hostStale := rfl
@[simp] theorem State.see_inputs : (s.see).inputs = s.inputs := rfl
@[simp] theorem State.see_response : (s.see).response = s.response := rfl
@[simp] theorem State.see_draws : (s.see).draws = s.draws := rfl

/-! ### `State.seeIrq` -/

@[simp] theorem State.seeIrq_cfg : (s.seeIrq).cfg = s.cfg := by
  unfold State.seeIrq; split <;> rfl
@[simp] theorem State.seeIrq_ie : (s.seeIrq).ie = s.ie := by
  unfold State.seeIrq; split <;> rfl
@[simp] theorem State.seeIrq_busy : (s.seeIrq).busy = s.busy := by
  unfold State.seeIrq; split <;> rfl
@[simp] theorem State.seeIrq_done : (s.seeIrq).done = s.done := by
  unfold State.seeIrq; split <;> rfl
@[simp] theorem State.seeIrq_keyv : (s.seeIrq).keyv = s.keyv := by
  unfold State.seeIrq; split <;> rfl
@[simp] theorem State.seeIrq_crcok : (s.seeIrq).crcok = s.crcok := by
  unfold State.seeIrq; split <;> rfl
@[simp] theorem State.seeIrq_cntok : (s.seeIrq).cntok = s.cntok := by
  unfold State.seeIrq; split <;> rfl
@[simp] theorem State.seeIrq_s24ovf : (s.seeIrq).s24ovf = s.s24ovf := by
  unfold State.seeIrq; split <;> rfl
@[simp] theorem State.seeIrq_errcode : (s.seeIrq).errcode = s.errcode := by
  unfold State.seeIrq; split <;> rfl
@[simp] theorem State.seeIrq_cmd : (s.seeIrq).cmd = s.cmd := by
  unfold State.seeIrq; split <;> rfl
@[simp] theorem State.seeIrq_src : (s.seeIrq).src = s.src := by
  unfold State.seeIrq; split <;> rfl
@[simp] theorem State.seeIrq_srclen : (s.seeIrq).srclen = s.srclen := by
  unfold State.seeIrq; split <;> rfl
@[simp] theorem State.seeIrq_dst : (s.seeIrq).dst = s.dst := by
  unfold State.seeIrq; split <;> rfl
@[simp] theorem State.seeIrq_dstlen : (s.seeIrq).dstlen = s.dstlen := by
  unfold State.seeIrq; split <;> rfl
@[simp] theorem State.seeIrq_reslen : (s.seeIrq).reslen = s.reslen := by
  unfold State.seeIrq; split <;> rfl
@[simp] theorem State.seeIrq_crc : (s.seeIrq).crc = s.crc := by
  unfold State.seeIrq; split <;> rfl
@[simp] theorem State.seeIrq_btimeLo : (s.seeIrq).btimeLo = s.btimeLo := by
  unfold State.seeIrq; split <;> rfl
@[simp] theorem State.seeIrq_btimeHi : (s.seeIrq).btimeHi = s.btimeHi := by
  unfold State.seeIrq; split <;> rfl
@[simp] theorem State.seeIrq_maxv : (s.seeIrq).maxv = s.maxv := by
  unfold State.seeIrq; split <;> rfl
@[simp] theorem State.seeIrq_minv : (s.seeIrq).minv = s.minv := by
  unfold State.seeIrq; split <;> rfl
@[simp] theorem State.seeIrq_diffcnt : (s.seeIrq).diffcnt = s.diffcnt := by
  unfold State.seeIrq; split <;> rfl
@[simp] theorem State.seeIrq_erraddr : (s.seeIrq).erraddr = s.erraddr := by
  unfold State.seeIrq; split <;> rfl
@[simp] theorem State.seeIrq_rk : (s.seeIrq).rk = s.rk := by
  unfold State.seeIrq; split <;> rfl
@[simp] theorem State.seeIrq_latch : (s.seeIrq).latch = s.latch := by
  unfold State.seeIrq; split <;> rfl
@[simp] theorem State.seeIrq_wait : (s.seeIrq).wait = s.wait := by
  unfold State.seeIrq; split <;> rfl
@[simp] theorem State.seeIrq_latencies : (s.seeIrq).latencies = s.latencies := by
  unfold State.seeIrq; split <;> rfl
@[simp] theorem State.seeIrq_disturbed : (s.seeIrq).disturbed = s.disturbed := by
  unfold State.seeIrq; split <;> rfl
@[simp] theorem State.seeIrq_unsteady : (s.seeIrq).unsteady = s.unsteady := by
  unfold State.seeIrq; split <;> rfl
@[simp] theorem State.seeIrq_resetHeld : (s.seeIrq).resetHeld = s.resetHeld := by
  unfold State.seeIrq; split <;> rfl
@[simp] theorem State.seeIrq_endUnseen : (s.seeIrq).endUnseen = (s.endUnseen && !s.irq) := by
  unfold State.seeIrq; split <;> simp_all [State.see]
@[simp] theorem State.seeIrq_crcUnseen : (s.seeIrq).crcUnseen = (s.crcUnseen && !s.irq) := by
  unfold State.seeIrq; split <;> simp_all [State.see]
@[simp] theorem State.seeIrq_unseenDest : (s.seeIrq).unseenDest = if s.irq then [] else s.unseenDest := by
  unfold State.seeIrq; split <;> simp_all [State.see]
@[simp] theorem State.seeIrq_mem : (s.seeIrq).mem = s.mem := by
  unfold State.seeIrq; split <;> rfl
@[simp] theorem State.seeIrq_hostDirty : (s.seeIrq).hostDirty = s.hostDirty := by
  unfold State.seeIrq; split <;> rfl
@[simp] theorem State.seeIrq_hostStale : (s.seeIrq).hostStale = s.hostStale := by
  unfold State.seeIrq; split <;> rfl
@[simp] theorem State.seeIrq_inputs : (s.seeIrq).inputs = s.inputs := by
  unfold State.seeIrq; split <;> rfl
@[simp] theorem State.seeIrq_response : (s.seeIrq).response = s.response := by
  unfold State.seeIrq; split <;> rfl
@[simp] theorem State.seeIrq_draws : (s.seeIrq).draws = s.draws := by
  unfold State.seeIrq; split <;> rfl

/-! ### `State.readUnsteady` -/

@[simp] theorem State.readUnsteady_cfg (r : ByteRange) : (s.readUnsteady r).cfg = s.cfg := rfl
@[simp] theorem State.readUnsteady_ie (r : ByteRange) : (s.readUnsteady r).ie = s.ie := rfl
@[simp] theorem State.readUnsteady_busy (r : ByteRange) : (s.readUnsteady r).busy = s.busy := rfl
@[simp] theorem State.readUnsteady_done (r : ByteRange) : (s.readUnsteady r).done = s.done := rfl
@[simp] theorem State.readUnsteady_keyv (r : ByteRange) : (s.readUnsteady r).keyv = s.keyv := rfl
@[simp] theorem State.readUnsteady_crcok (r : ByteRange) : (s.readUnsteady r).crcok = s.crcok := rfl
@[simp] theorem State.readUnsteady_cntok (r : ByteRange) : (s.readUnsteady r).cntok = s.cntok := rfl
@[simp] theorem State.readUnsteady_s24ovf (r : ByteRange) : (s.readUnsteady r).s24ovf = s.s24ovf := rfl
@[simp] theorem State.readUnsteady_errcode (r : ByteRange) : (s.readUnsteady r).errcode = s.errcode := rfl
@[simp] theorem State.readUnsteady_cmd (r : ByteRange) : (s.readUnsteady r).cmd = s.cmd := rfl
@[simp] theorem State.readUnsteady_src (r : ByteRange) : (s.readUnsteady r).src = s.src := rfl
@[simp] theorem State.readUnsteady_srclen (r : ByteRange) : (s.readUnsteady r).srclen = s.srclen := rfl
@[simp] theorem State.readUnsteady_dst (r : ByteRange) : (s.readUnsteady r).dst = s.dst := rfl
@[simp] theorem State.readUnsteady_dstlen (r : ByteRange) : (s.readUnsteady r).dstlen = s.dstlen := rfl
@[simp] theorem State.readUnsteady_reslen (r : ByteRange) : (s.readUnsteady r).reslen = s.reslen := rfl
@[simp] theorem State.readUnsteady_crc (r : ByteRange) : (s.readUnsteady r).crc = s.crc := rfl
@[simp] theorem State.readUnsteady_btimeLo (r : ByteRange) : (s.readUnsteady r).btimeLo = s.btimeLo := rfl
@[simp] theorem State.readUnsteady_btimeHi (r : ByteRange) : (s.readUnsteady r).btimeHi = s.btimeHi := rfl
@[simp] theorem State.readUnsteady_maxv (r : ByteRange) : (s.readUnsteady r).maxv = s.maxv := rfl
@[simp] theorem State.readUnsteady_minv (r : ByteRange) : (s.readUnsteady r).minv = s.minv := rfl
@[simp] theorem State.readUnsteady_diffcnt (r : ByteRange) : (s.readUnsteady r).diffcnt = s.diffcnt := rfl
@[simp] theorem State.readUnsteady_erraddr (r : ByteRange) : (s.readUnsteady r).erraddr = s.erraddr := rfl
@[simp] theorem State.readUnsteady_rk (r : ByteRange) : (s.readUnsteady r).rk = s.rk := rfl
@[simp] theorem State.readUnsteady_latch (r : ByteRange) : (s.readUnsteady r).latch = s.latch := rfl
@[simp] theorem State.readUnsteady_wait (r : ByteRange) : (s.readUnsteady r).wait = s.wait := rfl
@[simp] theorem State.readUnsteady_latencies (r : ByteRange) : (s.readUnsteady r).latencies = s.latencies := rfl
@[simp] theorem State.readUnsteady_disturbed (r : ByteRange) : (s.readUnsteady r).disturbed = s.disturbed := rfl
@[simp] theorem State.readUnsteady_unsteady (r : ByteRange) : (s.readUnsteady r).unsteady = s.unsteady := rfl
@[simp] theorem State.readUnsteady_resetHeld (r : ByteRange) : (s.readUnsteady r).resetHeld = s.resetHeld := rfl
@[simp] theorem State.readUnsteady_endUnseen (r : ByteRange) : (s.readUnsteady r).endUnseen = s.endUnseen := rfl
@[simp] theorem State.readUnsteady_crcUnseen (r : ByteRange) : (s.readUnsteady r).crcUnseen = s.crcUnseen := rfl
@[simp] theorem State.readUnsteady_unseenDest (r : ByteRange) : (s.readUnsteady r).unseenDest = s.unseenDest := rfl
@[simp] theorem State.readUnsteady_mem (r : ByteRange) : (s.readUnsteady r).mem = s.mem.scrambleWithin s.draws r s.unsteady := rfl
@[simp] theorem State.readUnsteady_hostDirty (r : ByteRange) : (s.readUnsteady r).hostDirty = s.hostDirty := rfl
@[simp] theorem State.readUnsteady_hostStale (r : ByteRange) : (s.readUnsteady r).hostStale = s.hostStale := rfl
@[simp] theorem State.readUnsteady_inputs (r : ByteRange) : (s.readUnsteady r).inputs = s.inputs := rfl
@[simp] theorem State.readUnsteady_response (r : ByteRange) : (s.readUnsteady r).response = s.response := rfl
@[simp] theorem State.readUnsteady_draws (r : ByteRange) : (s.readUnsteady r).draws = s.draws + 1 := rfl

/-! ### `State.freeResults` -/

@[simp] theorem State.freeResults_cfg (u : State) (r : ByteRange) : (s.freeResults u r).cfg = s.cfg := rfl
@[simp] theorem State.freeResults_ie (u : State) (r : ByteRange) : (s.freeResults u r).ie = s.ie := rfl
@[simp] theorem State.freeResults_busy (u : State) (r : ByteRange) : (s.freeResults u r).busy = s.busy := rfl
@[simp] theorem State.freeResults_done (u : State) (r : ByteRange) : (s.freeResults u r).done = s.done := rfl
@[simp] theorem State.freeResults_keyv (u : State) (r : ByteRange) : (s.freeResults u r).keyv = s.keyv := rfl
@[simp] theorem State.freeResults_crcok (u : State) (r : ByteRange) : (s.freeResults u r).crcok = s.crcok := rfl
@[simp] theorem State.freeResults_cntok (u : State) (r : ByteRange) : (s.freeResults u r).cntok = s.cntok := rfl
@[simp] theorem State.freeResults_s24ovf (u : State) (r : ByteRange) : (s.freeResults u r).s24ovf = s.s24ovf := rfl
@[simp] theorem State.freeResults_errcode (u : State) (r : ByteRange) : (s.freeResults u r).errcode = s.errcode := rfl
@[simp] theorem State.freeResults_cmd (u : State) (r : ByteRange) : (s.freeResults u r).cmd = s.cmd := rfl
@[simp] theorem State.freeResults_src (u : State) (r : ByteRange) : (s.freeResults u r).src = s.src := rfl
@[simp] theorem State.freeResults_srclen (u : State) (r : ByteRange) : (s.freeResults u r).srclen = s.srclen := rfl
@[simp] theorem State.freeResults_dst (u : State) (r : ByteRange) : (s.freeResults u r).dst = s.dst := rfl
@[simp] theorem State.freeResults_dstlen (u : State) (r : ByteRange) : (s.freeResults u r).dstlen = s.dstlen := rfl
@[simp] theorem State.freeResults_reslen (u : State) (r : ByteRange) : (s.freeResults u r).reslen = Config.freeWord s.draws 0 := rfl
@[simp] theorem State.freeResults_crc (u : State) (r : ByteRange) : (s.freeResults u r).crc = s.crc := rfl
@[simp] theorem State.freeResults_btimeLo (u : State) (r : ByteRange) : (s.freeResults u r).btimeLo = s.btimeLo := rfl
@[simp] theorem State.freeResults_btimeHi (u : State) (r : ByteRange) : (s.freeResults u r).btimeHi = s.btimeHi := rfl
@[simp] theorem State.freeResults_maxv (u : State) (r : ByteRange) : (s.freeResults u r).maxv = Config.freeWord s.draws 1 := rfl
@[simp] theorem State.freeResults_minv (u : State) (r : ByteRange) : (s.freeResults u r).minv = Config.freeWord s.draws 2 := rfl
@[simp] theorem State.freeResults_diffcnt (u : State) (r : ByteRange) : (s.freeResults u r).diffcnt = Config.freeWord s.draws 3 := rfl
@[simp] theorem State.freeResults_erraddr (u : State) (r : ByteRange) : (s.freeResults u r).erraddr = Config.freeWord s.draws 4 := rfl
@[simp] theorem State.freeResults_rk (u : State) (r : ByteRange) : (s.freeResults u r).rk = s.rk := rfl
@[simp] theorem State.freeResults_latch (u : State) (r : ByteRange) : (s.freeResults u r).latch = s.latch := rfl
@[simp] theorem State.freeResults_wait (u : State) (r : ByteRange) : (s.freeResults u r).wait = s.wait := rfl
@[simp] theorem State.freeResults_latencies (u : State) (r : ByteRange) : (s.freeResults u r).latencies = s.latencies := rfl
@[simp] theorem State.freeResults_disturbed (u : State) (r : ByteRange) : (s.freeResults u r).disturbed = s.disturbed := rfl
@[simp] theorem State.freeResults_unsteady (u : State) (r : ByteRange) : (s.freeResults u r).unsteady = s.unsteady := rfl
@[simp] theorem State.freeResults_resetHeld (u : State) (r : ByteRange) : (s.freeResults u r).resetHeld = s.resetHeld := rfl
@[simp] theorem State.freeResults_endUnseen (u : State) (r : ByteRange) : (s.freeResults u r).endUnseen = s.endUnseen := rfl
@[simp] theorem State.freeResults_crcUnseen (u : State) (r : ByteRange) : (s.freeResults u r).crcUnseen = s.crcUnseen := rfl
@[simp] theorem State.freeResults_unseenDest (u : State) (r : ByteRange) : (s.freeResults u r).unseenDest = s.unseenDest := rfl
@[simp] theorem State.freeResults_mem (u : State) (r : ByteRange) : (s.freeResults u r).mem = u.mem.scramble s.draws r.base r.size := rfl
@[simp] theorem State.freeResults_hostDirty (u : State) (r : ByteRange) : (s.freeResults u r).hostDirty = s.hostDirty := rfl
@[simp] theorem State.freeResults_hostStale (u : State) (r : ByteRange) : (s.freeResults u r).hostStale = s.hostStale := rfl
@[simp] theorem State.freeResults_inputs (u : State) (r : ByteRange) : (s.freeResults u r).inputs = s.inputs := rfl
@[simp] theorem State.freeResults_response (u : State) (r : ByteRange) : (s.freeResults u r).response = s.response := rfl
@[simp] theorem State.freeResults_draws (u : State) (r : ByteRange) : (s.freeResults u r).draws = s.draws + 1 := rfl

/-! ### `State.hardwareReset` -/

@[simp] theorem State.hardwareReset_cfg : (s.hardwareReset).cfg = s.cfg := by simp [State.hardwareReset]
@[simp] theorem State.hardwareReset_ie : (s.hardwareReset).ie = false := by simp [State.hardwareReset]
@[simp] theorem State.hardwareReset_busy : (s.hardwareReset).busy = false := by simp [State.hardwareReset]
@[simp] theorem State.hardwareReset_done : (s.hardwareReset).done = false := by simp [State.hardwareReset]
@[simp] theorem State.hardwareReset_keyv : (s.hardwareReset).keyv = false := by simp [State.hardwareReset]
@[simp] theorem State.hardwareReset_crcok : (s.hardwareReset).crcok = false := by simp [State.hardwareReset]
@[simp] theorem State.hardwareReset_cntok : (s.hardwareReset).cntok = false := by simp [State.hardwareReset]
@[simp] theorem State.hardwareReset_s24ovf : (s.hardwareReset).s24ovf = false := by simp [State.hardwareReset]
@[simp] theorem State.hardwareReset_errcode : (s.hardwareReset).errcode = .ok := by simp [State.hardwareReset]
@[simp] theorem State.hardwareReset_cmd : (s.hardwareReset).cmd = 0#32 := by simp [State.hardwareReset]
@[simp] theorem State.hardwareReset_src : (s.hardwareReset).src = 0#32 := by simp [State.hardwareReset]
@[simp] theorem State.hardwareReset_srclen : (s.hardwareReset).srclen = 0#32 := by simp [State.hardwareReset]
@[simp] theorem State.hardwareReset_dst : (s.hardwareReset).dst = 0#32 := by simp [State.hardwareReset]
@[simp] theorem State.hardwareReset_dstlen : (s.hardwareReset).dstlen = 0#32 := by simp [State.hardwareReset]
@[simp] theorem State.hardwareReset_reslen : (s.hardwareReset).reslen = 0#32 := by simp [State.hardwareReset]
@[simp] theorem State.hardwareReset_crc : (s.hardwareReset).crc = 0xFFFFFFFF#32 := by simp [State.hardwareReset]
@[simp] theorem State.hardwareReset_btimeLo : (s.hardwareReset).btimeLo = 0#32 := by simp [State.hardwareReset]
@[simp] theorem State.hardwareReset_btimeHi : (s.hardwareReset).btimeHi = 0#32 := by simp [State.hardwareReset]
@[simp] theorem State.hardwareReset_maxv : (s.hardwareReset).maxv = 0#32 := by simp [State.hardwareReset]
@[simp] theorem State.hardwareReset_minv : (s.hardwareReset).minv = 0#32 := by simp [State.hardwareReset]
@[simp] theorem State.hardwareReset_diffcnt : (s.hardwareReset).diffcnt = 0#32 := by simp [State.hardwareReset]
@[simp] theorem State.hardwareReset_erraddr : (s.hardwareReset).erraddr = 0#32 := by simp [State.hardwareReset]
@[simp] theorem State.hardwareReset_rk : (s.hardwareReset).rk = RoundKeys.zero := by simp [State.hardwareReset]
@[simp] theorem State.hardwareReset_latch : (s.hardwareReset).latch = Latch.zero := by simp [State.hardwareReset]
@[simp] theorem State.hardwareReset_wait : (s.hardwareReset).wait = 0 := by simp [State.hardwareReset]
@[simp] theorem State.hardwareReset_latencies : (s.hardwareReset).latencies = s.latencies := by simp [State.hardwareReset]
@[simp] theorem State.hardwareReset_disturbed : (s.hardwareReset).disturbed = false := by simp [State.hardwareReset]
@[simp] theorem State.hardwareReset_unsteady : (s.hardwareReset).unsteady = [] := by simp [State.hardwareReset]
@[simp] theorem State.hardwareReset_resetHeld : (s.hardwareReset).resetHeld = s.resetHeld := by simp [State.hardwareReset]
@[simp] theorem State.hardwareReset_endUnseen : (s.hardwareReset).endUnseen = false := by simp [State.hardwareReset]
@[simp] theorem State.hardwareReset_crcUnseen : (s.hardwareReset).crcUnseen = false := by simp [State.hardwareReset]
@[simp] theorem State.hardwareReset_unseenDest : (s.hardwareReset).unseenDest = s.unseenDest := by simp [State.hardwareReset]
@[simp] theorem State.hardwareReset_mem : (s.hardwareReset).mem = s.abort.mem := by simp [State.hardwareReset]
@[simp] theorem State.hardwareReset_hostDirty : (s.hardwareReset).hostDirty = s.hostDirty := by simp [State.hardwareReset]
@[simp] theorem State.hardwareReset_hostStale : (s.hardwareReset).hostStale = s.abort.hostStale := by simp [State.hardwareReset]
@[simp] theorem State.hardwareReset_inputs : (s.hardwareReset).inputs = s.inputs := by simp [State.hardwareReset]
@[simp] theorem State.hardwareReset_response : (s.hardwareReset).response = s.response := by simp [State.hardwareReset]
@[simp] theorem State.hardwareReset_draws : (s.hardwareReset).draws = s.abort.draws := by simp [State.hardwareReset]

/-! ### `State.assertReset` -/

@[simp] theorem State.assertReset_cfg : (s.assertReset).cfg = s.cfg := by simp [State.assertReset]
@[simp] theorem State.assertReset_ie : (s.assertReset).ie = false := by simp [State.assertReset]
@[simp] theorem State.assertReset_busy : (s.assertReset).busy = false := by simp [State.assertReset]
@[simp] theorem State.assertReset_done : (s.assertReset).done = false := by simp [State.assertReset]
@[simp] theorem State.assertReset_keyv : (s.assertReset).keyv = false := by simp [State.assertReset]
@[simp] theorem State.assertReset_crcok : (s.assertReset).crcok = false := by simp [State.assertReset]
@[simp] theorem State.assertReset_cntok : (s.assertReset).cntok = false := by simp [State.assertReset]
@[simp] theorem State.assertReset_s24ovf : (s.assertReset).s24ovf = false := by simp [State.assertReset]
@[simp] theorem State.assertReset_errcode : (s.assertReset).errcode = .ok := by simp [State.assertReset]
@[simp] theorem State.assertReset_cmd : (s.assertReset).cmd = 0#32 := by simp [State.assertReset]
@[simp] theorem State.assertReset_src : (s.assertReset).src = 0#32 := by simp [State.assertReset]
@[simp] theorem State.assertReset_srclen : (s.assertReset).srclen = 0#32 := by simp [State.assertReset]
@[simp] theorem State.assertReset_dst : (s.assertReset).dst = 0#32 := by simp [State.assertReset]
@[simp] theorem State.assertReset_dstlen : (s.assertReset).dstlen = 0#32 := by simp [State.assertReset]
@[simp] theorem State.assertReset_reslen : (s.assertReset).reslen = 0#32 := by simp [State.assertReset]
@[simp] theorem State.assertReset_crc : (s.assertReset).crc = 0xFFFFFFFF#32 := by simp [State.assertReset]
@[simp] theorem State.assertReset_btimeLo : (s.assertReset).btimeLo = 0#32 := by simp [State.assertReset]
@[simp] theorem State.assertReset_btimeHi : (s.assertReset).btimeHi = 0#32 := by simp [State.assertReset]
@[simp] theorem State.assertReset_maxv : (s.assertReset).maxv = 0#32 := by simp [State.assertReset]
@[simp] theorem State.assertReset_minv : (s.assertReset).minv = 0#32 := by simp [State.assertReset]
@[simp] theorem State.assertReset_diffcnt : (s.assertReset).diffcnt = 0#32 := by simp [State.assertReset]
@[simp] theorem State.assertReset_erraddr : (s.assertReset).erraddr = 0#32 := by simp [State.assertReset]
@[simp] theorem State.assertReset_rk : (s.assertReset).rk = RoundKeys.zero := by simp [State.assertReset]
@[simp] theorem State.assertReset_latch : (s.assertReset).latch = Latch.zero := by simp [State.assertReset]
@[simp] theorem State.assertReset_wait : (s.assertReset).wait = 0 := by simp [State.assertReset]
@[simp] theorem State.assertReset_latencies : (s.assertReset).latencies = s.latencies := by simp [State.assertReset]
@[simp] theorem State.assertReset_disturbed : (s.assertReset).disturbed = false := by simp [State.assertReset]
@[simp] theorem State.assertReset_unsteady : (s.assertReset).unsteady = [] := by simp [State.assertReset]
@[simp] theorem State.assertReset_resetHeld : (s.assertReset).resetHeld = true := by simp [State.assertReset]
@[simp] theorem State.assertReset_endUnseen : (s.assertReset).endUnseen = false := by simp [State.assertReset]
@[simp] theorem State.assertReset_crcUnseen : (s.assertReset).crcUnseen = false := by simp [State.assertReset]
@[simp] theorem State.assertReset_unseenDest : (s.assertReset).unseenDest = s.unseenDest := by simp [State.assertReset]
@[simp] theorem State.assertReset_mem : (s.assertReset).mem = s.abort.mem := by simp [State.assertReset]
@[simp] theorem State.assertReset_hostDirty : (s.assertReset).hostDirty = s.hostDirty := by simp [State.assertReset]
@[simp] theorem State.assertReset_hostStale : (s.assertReset).hostStale = s.abort.hostStale := by simp [State.assertReset]
@[simp] theorem State.assertReset_inputs : (s.assertReset).inputs = s.inputs := by simp [State.assertReset]
@[simp] theorem State.assertReset_response : (s.assertReset).response = s.response := by simp [State.assertReset]
@[simp] theorem State.assertReset_draws : (s.assertReset).draws = s.abort.draws := by simp [State.assertReset]

/-! ### `State.releaseReset` -/

@[simp] theorem State.releaseReset_cfg : (s.releaseReset).cfg = s.cfg := rfl
@[simp] theorem State.releaseReset_ie : (s.releaseReset).ie = s.ie := rfl
@[simp] theorem State.releaseReset_busy : (s.releaseReset).busy = s.busy := rfl
@[simp] theorem State.releaseReset_done : (s.releaseReset).done = s.done := rfl
@[simp] theorem State.releaseReset_keyv : (s.releaseReset).keyv = s.keyv := rfl
@[simp] theorem State.releaseReset_crcok : (s.releaseReset).crcok = s.crcok := rfl
@[simp] theorem State.releaseReset_cntok : (s.releaseReset).cntok = s.cntok := rfl
@[simp] theorem State.releaseReset_s24ovf : (s.releaseReset).s24ovf = s.s24ovf := rfl
@[simp] theorem State.releaseReset_errcode : (s.releaseReset).errcode = s.errcode := rfl
@[simp] theorem State.releaseReset_cmd : (s.releaseReset).cmd = s.cmd := rfl
@[simp] theorem State.releaseReset_src : (s.releaseReset).src = s.src := rfl
@[simp] theorem State.releaseReset_srclen : (s.releaseReset).srclen = s.srclen := rfl
@[simp] theorem State.releaseReset_dst : (s.releaseReset).dst = s.dst := rfl
@[simp] theorem State.releaseReset_dstlen : (s.releaseReset).dstlen = s.dstlen := rfl
@[simp] theorem State.releaseReset_reslen : (s.releaseReset).reslen = s.reslen := rfl
@[simp] theorem State.releaseReset_crc : (s.releaseReset).crc = s.crc := rfl
@[simp] theorem State.releaseReset_btimeLo : (s.releaseReset).btimeLo = s.btimeLo := rfl
@[simp] theorem State.releaseReset_btimeHi : (s.releaseReset).btimeHi = s.btimeHi := rfl
@[simp] theorem State.releaseReset_maxv : (s.releaseReset).maxv = s.maxv := rfl
@[simp] theorem State.releaseReset_minv : (s.releaseReset).minv = s.minv := rfl
@[simp] theorem State.releaseReset_diffcnt : (s.releaseReset).diffcnt = s.diffcnt := rfl
@[simp] theorem State.releaseReset_erraddr : (s.releaseReset).erraddr = s.erraddr := rfl
@[simp] theorem State.releaseReset_rk : (s.releaseReset).rk = s.rk := rfl
@[simp] theorem State.releaseReset_latch : (s.releaseReset).latch = s.latch := rfl
@[simp] theorem State.releaseReset_wait : (s.releaseReset).wait = s.wait := rfl
@[simp] theorem State.releaseReset_latencies : (s.releaseReset).latencies = s.latencies := rfl
@[simp] theorem State.releaseReset_disturbed : (s.releaseReset).disturbed = s.disturbed := rfl
@[simp] theorem State.releaseReset_unsteady : (s.releaseReset).unsteady = s.unsteady := rfl
@[simp] theorem State.releaseReset_resetHeld : (s.releaseReset).resetHeld = false := rfl
@[simp] theorem State.releaseReset_endUnseen : (s.releaseReset).endUnseen = s.endUnseen := rfl
@[simp] theorem State.releaseReset_crcUnseen : (s.releaseReset).crcUnseen = s.crcUnseen := rfl
@[simp] theorem State.releaseReset_unseenDest : (s.releaseReset).unseenDest = s.unseenDest := rfl
@[simp] theorem State.releaseReset_mem : (s.releaseReset).mem = s.mem := rfl
@[simp] theorem State.releaseReset_hostDirty : (s.releaseReset).hostDirty = s.hostDirty := rfl
@[simp] theorem State.releaseReset_hostStale : (s.releaseReset).hostStale = s.hostStale := rfl
@[simp] theorem State.releaseReset_inputs : (s.releaseReset).inputs = s.inputs := rfl
@[simp] theorem State.releaseReset_response : (s.releaseReset).response = s.response := rfl
@[simp] theorem State.releaseReset_draws : (s.releaseReset).draws = s.draws := rfl

end Sys2Proof.Machine
end

