-- ==== Sys2Proof/Laws/Ops.lean ====
section
/-!
SUPPORT. One lemma for each shared operation that says once what it can do: the DMA checks and accesses, the
segment loop, the abort and the reset.
-/

namespace Sys2Proof.Machine

/-- No byte fails exactly when every access completes. -/
theorem firstFailing_none_iff (cfg : Config) (kind : AccessKind) (n : Nat) :
    ∀ a, firstFailing cfg kind a n = none ↔ AllDmaOK cfg kind a n := by
  induction n with
  | zero => intro a; simp [firstFailing, AllDmaOK]; omega
  | succ n ih =>
    intro a
    unfold firstFailing
    by_cases h : dmaOK cfg kind a = true
    · simp only [h, if_true, ih]
      constructor
      · intro H x h1 h2
        rcases Nat.eq_or_lt_of_le h1 with rfl | h3
        · exact h
        · exact H x (by omega) (by omega)
      · intro H x h1 h2; exact H x (by omega) (by omega)
    · simp only [h]
      constructor
      · intro H; cases H
      · intro H; exact absurd (H a (by omega) (by omega)) h

/-- The failing byte found is the first one. -/
theorem firstFailing_some_iff (cfg : Config) (kind : AccessKind) (n : Nat) :
    ∀ a e, firstFailing cfg kind a n = some e ↔ FirstBad cfg kind a n e := by
  induction n with
  | zero => intro a e; simp [firstFailing, FirstBad]; omega
  | succ n ih =>
    intro a e
    unfold firstFailing
    by_cases h : dmaOK cfg kind a = true
    · simp only [h, if_true, ih]
      constructor
      · rintro ⟨h1, h2, h3, h4⟩
        refine ⟨by omega, by omega, h3, fun x h5 h6 => ?_⟩
        rcases Nat.eq_or_lt_of_le h5 with rfl | h7
        · exact h
        · exact h4 x (by omega) (by omega)
      · rintro ⟨h1, h2, h3, h4⟩
        have : a ≠ e := by rintro rfl; rw [h] at h3; cases h3
        exact ⟨by omega, by omega, h3, fun x h5 h6 => h4 x (by omega) (by omega)⟩
    · have h' : dmaOK cfg kind a = false := by simpa using h
      simp only [h', Bool.false_eq_true, if_false, Option.some.injEq]
      constructor
      · rintro rfl; exact ⟨by omega, by omega, h', fun x h1 h2 => by omega⟩
      · rintro ⟨h1, h2, h3, h4⟩
        rcases Nat.eq_or_lt_of_le h1 with rfl | h5
        · rfl
        · have := h4 a (by omega) (by omega); rw [h'] at this; cases this

/-- A DMA read gives the bytes in memory, or the first address that fails. -/
theorem dmaRead_cases (cfg : Config) (m : Memory) (a n : Nat) :
    (AllDmaOK cfg .read a n ∧ dmaRead cfg m a n = .ok (m.readBytes a n)) ∨
      ∃ e, FirstBad cfg .read a n e ∧ dmaRead cfg m a n = .error e := by
  unfold dmaRead
  cases h : firstFailing cfg .read a n with
  | none => exact .inl ⟨(firstFailing_none_iff _ _ _ _).1 h, rfl⟩
  | some e => exact .inr ⟨e, (firstFailing_some_iff _ _ _ _ _).1 h, rfl⟩

/-- A DMA write stores all its bytes, or those before the first address that fails. -/
theorem dmaWrite_cases (cfg : Config) (m : Memory) (a : Nat) (bytes : List Byte) :
    (AllDmaOK cfg .write a bytes.length ∧ dmaWrite cfg m a bytes = (m.writeBytes a bytes, none)) ∨
      ∃ e, FirstBad cfg .write a bytes.length e ∧
        dmaWrite cfg m a bytes = (m.writeBytes a (bytes.take (e - a)), some e) := by
  unfold dmaWrite
  cases h : firstFailing cfg .write a bytes.length with
  | none => exact .inl ⟨(firstFailing_none_iff _ _ _ _).1 h, rfl⟩
  | some e => exact .inr ⟨e, (firstFailing_some_iff _ _ _ _ _).1 h, rfl⟩

/-- A DMA write, complete or not, leaves every byte outside its range alone. -/
theorem dmaWrite_read_other (cfg : Config) (m : Memory) (a x : Nat) (bytes : List Byte)
    (hx : ¬ (a ≤ x ∧ x < a + bytes.length)) : Memory.read (dmaWrite cfg m a bytes).1 x = m.read x := by
  rcases dmaWrite_cases cfg m a bytes with ⟨-, h⟩ | ⟨e, -, h⟩ <;> rw [h]
  · exact Memory.read_writeBytes_other _ _ _ _ hx
  · refine Memory.read_writeBytes_other _ _ _ _ fun hc => hx ⟨hc.1, ?_⟩
    have := List.length_take_le' (e - a) bytes
    omega

/-- A DMA write in the address space keeps the canonical form. -/
theorem dmaWrite_wf (cfg : Config) (m : Memory) (hm : m.wf = true) (a : Nat) (bytes : List Byte)
    (ha : a + bytes.length ≤ addressLimit) : Memory.wf (dmaWrite cfg m a bytes).1 = true := by
  rcases dmaWrite_cases cfg m a bytes with ⟨-, h⟩ | ⟨e, -, h⟩ <;> rw [h]
  · exact Memory.wf_writeBytes _ _ _ hm ha
  · have := List.length_take_le' (e - a) bytes
    exact Memory.wf_writeBytes _ _ _ hm (by omega)

/-- The 16 bytes of a block. -/
@[simp] theorem Block.length_toList (b : Block) : b.toList.length = 16 := rfl

/-- A block of its own bytes. -/
@[simp] theorem Block.ofList_toList (b : Block) : Block.ofList b.toList = b := rfl

/-- The segment loop stores in its own segments only. -/
theorem segmentLoop_read_other (cfg : Config) (f : Block → Block) (k : Nat) :
    ∀ (src dst j : Nat) (m : Memory) (x : Nat), ¬ (dst ≤ x ∧ x < dst + 16 * k) →
      Memory.read (segmentLoop cfg f k src dst j m).mem x = m.read x := by
  induction k with
  | zero => intro src dst j m x _; rfl
  | succ k ih =>
    intro src dst j m x hx
    unfold segmentLoop
    rcases dmaRead_cases cfg m src 16 with ⟨-, h⟩ | ⟨e, -, h⟩ <;> rw [h]
    rcases hw : dmaWrite cfg m dst (f (Block.ofList (m.readBytes src 16))).toList with ⟨m', o⟩
    have hm' : Memory.read m' x = m.read x := by
      have := dmaWrite_read_other cfg m dst x (f (Block.ofList (m.readBytes src 16))).toList
        (by rw [Block.length_toList]; omega)
      rwa [hw] at this
    cases o with
    | none => simp only [hw]; rw [ih _ _ _ _ _ (by omega), hm']
    | some e => simp only [hw]; exact hm'

/-- The segment loop keeps the canonical form. -/
theorem segmentLoop_wf (cfg : Config) (f : Block → Block) (k : Nat) :
    ∀ (src dst j : Nat) (m : Memory), m.wf = true → dst + 16 * k ≤ addressLimit →
      Memory.wf (segmentLoop cfg f k src dst j m).mem = true := by
  induction k with
  | zero => intro src dst j m hm _; exact hm
  | succ k ih =>
    intro src dst j m hm hd
    unfold segmentLoop
    rcases dmaRead_cases cfg m src 16 with ⟨-, h⟩ | ⟨e, -, h⟩ <;> rw [h]
    · rcases hw : dmaWrite cfg m dst (f (Block.ofList (m.readBytes src 16))).toList with ⟨m', o⟩
      have hm' : Memory.wf m' = true := by
        have := dmaWrite_wf cfg m hm dst (f (Block.ofList (m.readBytes src 16))).toList
          (by rw [Block.length_toList]; omega)
        rwa [hw] at this
      cases o with
      | none => simp only [hw]; exact ih _ _ _ _ hm' (by omega)
      | some e => simp only [hw]; exact hm'
    · exact hm

/-- The part of a range that is clipped lies in the address space. -/
theorem clippedRange_end (a : Word) (n : Nat) :
    (clippedRange a n).base + (clippedRange a n).size ≤ addressLimit := by
  have := a.isLt
  simp only [clippedRange, addressLimit]; omega

/-- A range in the address space is not clipped. -/
theorem clippedRange_eq (a : Word) (n : Nat) (h : a.toNat + n ≤ addressLimit) :
    clippedRange a n = ⟨a.toNat, n⟩ := by
  simp only [clippedRange, addressLimit] at *; congr; omega

/-- Every destination range lies in the address space. -/
theorem Latch.dest_end (l : Latch) : l.dest.base + l.dest.size ≤ addressLimit := by
  unfold Latch.dest
  split
  · rename_i i h
    cases i <;> first | exact clippedRange_end _ _ | simp [destRange, emptyRange]
  · simp [emptyRange]

/-- An address lies in the common part of two ranges exactly when it lies in both. -/
@[simp] theorem ByteRange.contains_inter (r q : ByteRange) (x : Nat) :
    (r.inter q).contains x = (r.contains x && q.contains x) := by
  rw [Bool.eq_iff_iff]
  simp only [ByteRange.inter, ByteRange.contains, Bool.and_eq_true, decide_eq_true_eq]
  constructor
  · rintro ⟨h1, h2⟩
    have h1 := of_decide_eq_true h1
    have h2 := of_decide_eq_true h2
    omega
  · rintro ⟨⟨h1, h2⟩, h3, h4⟩
    exact ⟨decide_eq_true (by omega), decide_eq_true (by omega)⟩

/-- The common part of a range that lies in the address space lies there too, or has no byte. -/
theorem ByteRange.inter_end (r q : ByteRange) (h : r.base + r.size ≤ addressLimit) :
    (r.inter q).size = 0 ∨ (r.inter q).base + (r.inter q).size ≤ addressLimit := by
  simp only [ByteRange.inter, addressLimit] at *; omega

/-- Unspecified values within a range, at the listed ranges of it: the draw's byte there, the old byte
elsewhere. -/
theorem Memory.read_scrambleWithin (draw : Nat) (r : ByteRange) (x : Nat) (ranges : List ByteRange) :
    ∀ m : Memory, (m.Pairwise fun p q => p.1 < q.1) →
      Memory.read (m.scrambleWithin draw r ranges) x
        = if r.contains x && ranges.any (fun q => q.contains x) then Config.freeByte draw x else m.read x := by
  induction ranges with
  | nil => intro m _; simp [Memory.scrambleWithin]
  | cons q rest ih =>
    intro m h
    rw [Memory.scrambleWithin, ih _ (Memory.rising_scramble _ _ _ _ h), Memory.read_scramble _ _ _ _ _ h]
    have hc : ((r.inter q).base ≤ x ∧ x < (r.inter q).base + (r.inter q).size)
        ↔ (r.contains x && q.contains x) = true := by
      rw [← ByteRange.contains_inter]; simp [ByteRange.contains]
    simp only [hc, List.any_cons]
    by_cases h1 : r.contains x = true <;> by_cases h2 : q.contains x = true <;> simp [h1, h2]

/-- Unspecified values within a range, at the listed ranges of it, leave every other byte alone, in canonical
form or not. -/
theorem Memory.read_scrambleWithin_other (draw : Nat) (r : ByteRange) (x : Nat) (ranges : List ByteRange)
    (hx : (r.contains x && ranges.any fun q => q.contains x) = false) :
    ∀ m : Memory, Memory.read (m.scrambleWithin draw r ranges) x = m.read x := by
  induction ranges with
  | nil => intro m; rfl
  | cons q rest ih =>
    intro m
    have h : (r.inter q).contains x = false ∧ (r.contains x && rest.any fun q => q.contains x) = false := by
      rw [ByteRange.contains_inter]
      cases h1 : r.contains x <;> simp_all
    rw [Memory.scrambleWithin, ih h.2, Memory.read_scramble_other]
    simpa [ByteRange.contains] using h.1

/-- Unspecified values within a range of the address space keep the canonical form. -/
theorem Memory.wf_scrambleWithin (draw : Nat) (r : ByteRange) (hr : r.base + r.size ≤ addressLimit)
    (ranges : List ByteRange) :
    ∀ m : Memory, m.wf = true → Memory.wf (m.scrambleWithin draw r ranges) = true := by
  induction ranges with
  | nil => intro m h; exact h
  | cons q rest ih =>
    intro m h
    refine ih _ ?_
    rcases r.inter_end q hr with h0 | h1
    · rw [h0]; exact h
    · exact Memory.wf_scramble _ _ _ _ h h1

/-- Every source range lies in the address space. -/
theorem sourceRange_end (i : Instr) (l : Latch) :
    (sourceRange i l).base + (sourceRange i l).size ≤ addressLimit := by
  cases i <;> first | exact clippedRange_end _ _ | simp [sourceRange, emptyRange]

/-- Every destination range lies in the address space. -/
theorem destRange_end (i : Instr) (l : Latch) :
    (destRange i l).base + (destRange i l).size ≤ addressLimit := by
  cases i <;> first | exact clippedRange_end _ _ | simp [destRange, emptyRange]

/-- What the outcome of a changed outcome is. -/
@[simp] theorem mapNext_next (f : State → State) (t : State) : mapNext f (.next t) = .next (f t) := rfl

/-- Without coherence the destination of an ended command is stale. -/
@[simp] theorem markStaleAfter_next (r : ByteRange) (t : State) :
    markStaleAfter r (.next t) = .next (t.markStale r) := rfl

/-- The end of a disturbed command, from that of its meaning on what it reads. -/
theorem State.disturbedEnd_next (s t : State) (i : Instr)
    (h : exec i (s.readUnsteady (sourceRange i s.latch)) = .next t) :
    s.disturbedEnd i = .next (t.freeResults s (writtenRange i s.latch)) := by
  rw [State.disturbedEnd, h, mapNext_next]

/-- The end of a disturbed command leaves every byte outside its destination alone. -/
theorem State.freeResults_read_other (t s : State) (r : ByteRange) (x : Nat) (hx : r.contains x = false) :
    Memory.read (t.freeResults s r).mem x = s.mem.read x := by
  rw [State.freeResults_mem]
  exact Memory.read_scramble_other _ _ _ _ _ (by simpa [ByteRange.contains] using hx)

/-- No byte is in use when no command runs. -/
theorem State.inUse_idle (s : State) (h : s.busy = false) (a : Nat) : s.inUse a = false := by
  simp [State.inUse, h]

/-- Writes by others disturb no command when none runs. -/
theorem State.disturb_idle (s : State) (h : s.busy = false) (l : List Nat) : s.disturb l = s := by
  have h1 : (l.any s.inUse) = false := by simp [State.inUse_idle s h]
  have h2 : l.filter s.inUse = [] := by simp [State.inUse_idle s h]
  simp [State.disturb, h1, h2]

/-- A touched byte leaves every other byte alone. -/
theorem State.touch_read_other (s : State) (a x : Nat) (hx : x ≠ a) :
    Memory.read (s.touch a).mem x = s.mem.read x := by
  rw [State.touch_mem]
  exact Memory.read_scramble_other _ _ _ _ _ (by omega)

/-- A touched byte keeps the canonical form. -/
theorem State.touch_wf (s : State) (a : Nat) (h : s.mem.wf = true) (ha : a < addressLimit) :
    Memory.wf (s.touch a).mem = true := by
  rw [State.touch_mem]
  exact Memory.wf_scramble _ _ _ _ h (by omega)

/-- Without DMA coherence a touched byte is stale in the host's cache. -/
theorem State.touch_stale (s : State) (a : Nat) (h : s.cfg.dmaCoherent = false) :
    (s.touch a).hostStale = ⟨a, 1⟩ :: s.hostStale := by
  simp [State.touch, State.markStale, h]

/-- A write by another bus master: nothing in the register window, a touched byte when the running command
uses it, else the byte written. -/
theorem State.otherWrite_cases (s : State) (addr : Word) (b : Byte) :
    ((window s.cfg).contains addr.toNat = true ∧ s.otherWrite addr b = s) ∨
    ((window s.cfg).contains addr.toNat = false ∧ s.inUse addr.toNat = true ∧
      s.otherWrite addr b = s.touch addr.toNat) ∨
    ((window s.cfg).contains addr.toNat = false ∧ s.inUse addr.toNat = false ∧
      s.otherWrite addr b
        = State.markStale
            { s with
              mem := s.mem.write addr.toNat b, unseenDest := subtractRange ⟨addr.toNat, 1⟩ s.unseenDest }
            ⟨addr.toNat, 1⟩) := by
  unfold State.otherWrite
  cases h : (window s.cfg).contains addr.toNat <;> cases h' : s.inUse addr.toNat <;> simp [h, h']

/-- A read by another engine instance: a touched byte when the running command uses it, else nothing. -/
theorem State.otherRead_cases (s : State) (addr : Word) :
    ((window s.cfg).contains addr.toNat = false ∧ s.inUse addr.toNat = true ∧
      s.otherRead addr = s.touch addr.toNat) ∨
    (((window s.cfg).contains addr.toNat = true ∨ s.inUse addr.toNat = false) ∧ s.otherRead addr = s) := by
  unfold State.otherRead
  cases h : (window s.cfg).contains addr.toNat <;> cases h' : s.inUse addr.toNat <;> simp [h, h']

/-- A host write of the register window while the reset input is asserted has no effect on the engine. -/
theorem State.writeRegister_held (s : State) (h : s.resetHeld = true) (offset : BitVec 8) (width : AccessWidth)
    (v : Word) : ∃ r, s.writeRegister offset width v = { s with response := r } := by
  unfold State.writeRegister
  split
  · exact ⟨_, rfl⟩
  · exact ⟨.done, by simp [h]⟩

/-- The ranges without one range have the addresses that they had and that range does not. -/
theorem subtractRange_any (r : ByteRange) (stale : List ByteRange) (a : Nat) :
    ((subtractRange r stale).any fun q => q.contains a)
      = (!r.contains a && stale.any fun q => q.contains a) := by
  have key : ∀ q : ByteRange,
      (([⟨q.base, min (q.base + q.size) r.base - q.base⟩,
        ⟨max q.base (r.base + r.size), (q.base + q.size) - max q.base (r.base + r.size)⟩].filter
          fun p : ByteRange => p.size != 0).any fun p => p.contains a) = (!r.contains a && q.contains a) := by
    intro q
    rw [Bool.eq_iff_iff]
    simp only [List.any_filter, List.any_cons, List.any_nil, ByteRange.contains, Bool.and_eq_true,
      Bool.or_eq_true, bne_iff_ne, decide_eq_true_eq, Bool.not_eq_true', Bool.or_false,
      Bool.and_eq_false_imp, decide_eq_false_iff_not]
    omega
  induction stale with
  | nil => simp [subtractRange]
  | cons q rest ih =>
    rw [subtractRange, List.flatMap_cons, List.any_append, key, List.any_cons]
    rw [subtractRange] at ih
    rw [ih]
    cases r.contains a <;> simp

/-- The host reads back the byte it stored last, of its uncleaned ones. -/
theorem find_dirtyWrite (d : List Host.Cell) (a : Nat) (b : Byte) :
    (dirtyWrite d a b).find? (fun p => p.1 == a) = some (a, b) := by
  induction d with
  | nil => simp [dirtyWrite]
  | cons p rest ih =>
    obtain ⟨x, c⟩ := p
    unfold dirtyWrite
    split
    · simp
    · split
      · simp
      · have : x ≠ a := by omega
        simp [this, ih]

/-- What it is to be in the reset state: each of the engine's fields has the value of rule R46. -/
theorem State.clearEngine_eq_iff (s : State) : s.clearEngine = s ↔
    s.ie = false ∧ s.busy = false ∧ s.done = false ∧ s.keyv = false ∧ s.crcok = false ∧ s.cntok = false
      ∧ s.s24ovf = false ∧ s.errcode = .ok ∧ s.cmd = 0#32 ∧ s.src = 0#32 ∧ s.srclen = 0#32 ∧ s.dst = 0#32
      ∧ s.dstlen = 0#32 ∧ s.reslen = 0#32 ∧ s.crc = crcSeed ∧ s.btimeLo = 0#32 ∧ s.btimeHi = 0#32
      ∧ s.maxv = 0#32 ∧ s.minv = 0#32 ∧ s.diffcnt = 0#32 ∧ s.erraddr = 0#32 ∧ s.rk = RoundKeys.zero
      ∧ s.latch = Latch.zero ∧ s.wait = 0 ∧ s.disturbed = false ∧ s.unsteady = []
      ∧ s.endUnseen = false ∧ s.crcUnseen = false := by
  cases s
  simp only [State.clearEngine, State.mk.injEq, eq_comm, and_true, true_and]

/-- A launch's uncleaned source bytes are uncleaned bytes in its source, without coherence. -/
theorem State.mem_uncleanedSource (s : State) (p : Host.Cell) : p ∈ s.uncleanedSource ↔
    s.cfg.dmaCoherent = false ∧ p ∈ s.hostDirty ∧ s.operands.source.contains p.1 = true := by
  unfold State.uncleanedSource
  cases s.cfg.dmaCoherent <;> simp

/-- What a launch finds in memory differs from before at most in uncleaned source bytes. -/
theorem State.loseUncleaned_read_other (s : State) (x : Nat) (hx : ∀ p ∈ s.uncleanedSource, p.1 ≠ x) :
    Memory.read s.loseUncleaned.mem x = s.mem.read x := by
  unfold State.loseUncleaned
  split
  · rfl
  · exact Memory.read_scrambleListed_other _ _ _ _ hx

/-- Where no source byte is uncleaned, a launch finds memory as it is. -/
theorem State.loseUncleaned_of_clean (s : State) (h : s.uncleanedSource = []) : s.loseUncleaned = s := by
  simp [State.loseUncleaned, h]

/-- What a launch finds in memory is canonical. -/
theorem State.loseUncleaned_wf (s : State) (h : s.mem.wf = true) (hd : ∀ p ∈ s.hostDirty, p.1 < addressLimit) :
    Memory.wf s.loseUncleaned.mem = true := by
  unfold State.loseUncleaned
  split
  · exact h
  · exact Memory.wf_scrambleListed _ _ _ h fun p hp => hd p ((s.mem_uncleanedSource p).1 hp).2.1

/-- An abort leaves every byte outside the running command's destination alone. -/
theorem State.abort_read_other (s : State) (x : Nat) (hx : s.latch.dest.contains x = false) :
    Memory.read s.abort.mem x = s.mem.read x := by
  unfold State.abort
  split
  · rw [State.markStale_mem]
    exact Memory.read_scramble_other _ _ _ _ _ (by simpa [ByteRange.contains] using hx)
  · rfl

/-- An abort keeps the canonical form. -/
theorem State.abort_wf (s : State) (h : s.mem.wf = true) : Memory.wf s.abort.mem = true := by
  unfold State.abort
  split
  · rw [State.markStale_mem]; exact Memory.wf_scramble _ _ _ _ h s.latch.dest_end
  · exact h

/-- An abort of no command leaves all of memory as it was. -/
theorem State.abort_mem_idle (s : State) (h : s.busy = false) : s.abort = s := by
  simp [State.abort, h]

end Sys2Proof.Machine
end

