-- ==== Sys2Proof/Laws/PerInstr.lean ====
section
/-!
SUPPORT. A fact about each command as syntax: its word is well formed and holds the fields the encoder was
given (rules R80 to R84).
-/

namespace Sys2Proof.Laws.EncodedFields

/-- The command's word is a command word, and its fields are the command's. -/
def Statement (i : Instr) : Prop :=
  commandWordWellFormed (encode i) = true ∧ commandFields (encode i) = encodeFields i

theorem nop : Statement .nop := ⟨by decide, by decide⟩

theorem crcInit : Statement .crcInit := ⟨by decide, by decide⟩

theorem crcUpdate : Statement .crcUpdate := ⟨by decide, by decide⟩

theorem keyLoad : Statement .keyLoad := ⟨by decide, by decide⟩

theorem keyClear : Statement .keyClear := ⟨by decide, by decide⟩

theorem aesEnc : Statement .aesEnc := ⟨by decide, by decide⟩

theorem aesDec : Statement .aesDec := ⟨by decide, by decide⟩

theorem redEnc (crypt disc : Bool) : Statement (.redEnc crypt disc) := by
  cases crypt <;> cases disc <;> exact ⟨by decide, by decide⟩

theorem redDec (crypt validate : Bool) : Statement (.redDec crypt validate) := by
  cases crypt <;> cases validate <;> exact ⟨by decide, by decide⟩

end Sys2Proof.Laws.EncodedFields
end

