-- ==== Sys2Proof/Tests/Slice0.lean ====
section
/-!
SUPPORT. Tests of the model on the values of 95_test_vectors.md and of the rules' own examples; the smoke
tests of WellFormed; and, for every obligation with hypotheses, a state and operands that meet them.
-/

namespace Sys2Proof.Tests

open Sys2Proof Sys2Proof.Machine

/-! ## Helpers -/

/-- A running command with its word and operands, the CRC seed latched, over a memory. -/
def running (w src srclen dst dstlen : Nat) (m : Memory) : State :=
  { State.reset with
    busy := true, mem := m
    latch := ⟨toWord w, toWord src, toWord srclen, toWord dst, toWord dstlen, crcSeed, 0#32, 0#32⟩ }

/-- The key of V-KEY-1. -/
def passwordKey : Block :=
  Block.ofList [0x70#8, 0x61#8, 0x73#8, 0x73#8, 0x77#8, 0x6F#8, 0x72#8, 0x64#8]

/-- A state with the key of V-KEY-1 loaded. -/
def keyed (s : State) : State := s.loadKeys passwordKey

/-- A state with `MemOK` true for reads below a limit and for writes below another. -/
def limited (readable writable : Nat) (s : State) : State :=
  { s with cfg := { s.cfg with
      regions := [⟨0, readable, true, false, false⟩, ⟨0, writable, false, true, false⟩] } }

/-- A memory of bytes from an address on. -/
def memoryAt (a : Nat) (bytes : List Nat) : Memory :=
  Memory.writeBytes [] a (bytes.map fun b => BitVec.ofNat 8 b)

/-- The next state, or reset when there is none. -/
def after (o : Host.Outcome State Fault Refusal) : State :=
  match o with
  | .next t => t
  | .fault _ => State.reset
  | .refused _ => State.reset

/-- The outcome is a next state. -/
def answersNext (o : Host.Outcome State Fault Refusal) : Bool :=
  match o with
  | .next _ => true
  | .fault _ => false
  | .refused _ => false

/-- The state after some steps from an idle state with inputs. -/
def afterRun (n : Nat) (s : State) : State :=
  match n with
  | 0 => s
  | n + 1 => afterRun n (after (step s))

/-- Every byte that the check finds reachable is reachable. -/
theorem allOK {cfg : Config} {kind : AccessKind} {a n : Nat} (h : firstFailing cfg kind a n = none) :
    AllDmaOK cfg kind a n := (firstFailing_none_iff _ _ _ _).1 h

/-- The byte that the check finds is the first that fails. -/
theorem bad {cfg : Config} {kind : AccessKind} {a n e : Nat} (h : firstFailing cfg kind a n = some e) :
    FirstBad cfg kind a n e := (firstFailing_some_iff _ _ _ _ _).1 h

/-! ## WellFormed refuses -/

theorem test_refuses_reserved_bit_4 : cmdReservedClear 0x00000010#32 = false := by decide
theorem test_refuses_reserved_bit_31 : cmdReservedClear 0x80000000#32 = false := by decide
theorem test_refuses_reserved_opcode : commandWordWellFormed 0x00000009#32 = false := by decide
theorem test_refuses_word_with_reserved_bit : commandWordWellFormed 0x00000807#32 = false := by decide
theorem test_refuses_base_not_multiple :
    Config.wellFormed { Config.default with engineBase := 0x80000080#32 } = false := by decide
theorem test_refuses_scale_target_zero :
    Config.wellFormed { Config.default with scaleTarget := 0 } = false := by decide
theorem test_refuses_scale_target_256 :
    Config.wellFormed { Config.default with scaleTarget := 256 } = false := by decide
theorem test_refuses_region_past_the_end :
    Region.wellFormed ⟨0xFFFFFFFF, 2, true, true, false⟩ = false := by decide
theorem test_accepts_default : Config.wellFormed Config.default = true := by decide
/-- Every command is well formed (rule R82: "There is no flag a command requires"). -/
theorem test_wellFormed (c v : Bool) : (Instr.redEnc c v).wellFormed = true := by revert c v; decide

/-! ## Decoding: words written out from the encodings of rules R80, R81 -/

theorem test_decode_nop : decode 0x00000000#32 = .ok .nop := by decide
theorem test_decode_crcInit : decode 0x00000001#32 = .ok .crcInit := by decide
theorem test_decode_crcUpdate : decode 0x00000002#32 = .ok .crcUpdate := by decide
theorem test_decode_keyLoad : decode 0x00000003#32 = .ok .keyLoad := by decide
theorem test_decode_keyClear : decode 0x00000004#32 = .ok .keyClear := by decide
theorem test_decode_aesEnc : decode 0x00000005#32 = .ok .aesEnc := by decide
theorem test_decode_aesDec : decode 0x00000006#32 = .ok .aesDec := by decide
theorem test_decode_redEnc : decode 0b010100000111#32 = .ok (.redEnc true true) := by decide
theorem test_decode_redEnc_disc : decode 0b010000000111#32 = .ok (.redEnc false true) := by decide
theorem test_decode_redDec : decode 0b001100001000#32 = .ok (.redDec true true) := by decide
theorem test_decode_redDec_validate : decode 0b001000001000#32 = .ok (.redDec false true) := by decide
theorem test_decode_reserved : decode 0x0000000F#32 = .error (.reservedOpcode 0xF#4) := by decide
/-- V-CTL-6. -/
theorem test_decode_ignores_flags : decode 0x00000701#32 = .ok .crcInit := by decide
theorem test_encode_redEnc : encode (.redEnc true true) = 0x00000507#32 := by decide
theorem test_encode_redDec : encode (.redDec true true) = 0x00000308#32 := by decide
theorem test_table_word : decodeTableWord 32 0x208 = some (.redDec false true) := by decide
theorem test_table_word_reserved : decodeTableWord 32 0x9 = none := by decide

/-! ## Control -/

/-- V-CTL-2: after reset, `CTRL = 0x5` launches `NOP`; it ends with `STATUS = 2` and `IRQ = 1`. -/
theorem test_nop_interrupt :
    let t := afterRun 2 { State.reset with inputs := [.writeReg 0x04#8 .word 5#32] }
    t.statusWord = 0x00000002#32 ∧ t.irq = true ∧ t.reslen = 0#32 := by decide +kernel

/-- V-CTL-4: a reserved opcode. -/
theorem test_reserved_opcode :
    let t := afterRun 3 { State.reset with
      inputs := [.writeReg 0x0C#8 .word 9#32, .writeReg 0x04#8 .word 1#32] }
    t.statusWord = 0x00000102#32 := by decide +kernel

/-- V-CTL-7: `SRST` with `START` and `IE`. -/
theorem test_soft_reset :
    let t := afterRun 1 { keyed State.reset with
      crc := 0x12345678#32, inputs := [.writeReg 0x04#8 .word 7#32] }
    t.statusWord = 0#32 ∧ t.ctrlWord = 0#32 ∧ t.crc = 0xFFFFFFFF#32 ∧ t.busy = false := by
  decide +kernel

/-- `withFetchWord` places a command that the very next step ends. -/
theorem test_withFetchWord :
    step (State.reset.withFetchWord 32 4) = exec .keyClear (State.reset.withFetchWord 32 4) := by rfl

/-! ## Commands -/

/-- V-CRC-14. -/
theorem test_crcInit : (after (exec .crcInit (running 1 0 0 0 0 []))).crc = 0xFFFFFFFF#32 := by decide

/-- V-CRC-5: "123456789". -/
theorem test_crcUpdate :
    let t := after (exec .crcUpdate (running 2 0x1000 9 0 0
      (memoryAt 0x1000 [0x31, 0x32, 0x33, 0x34, 0x35, 0x36, 0x37, 0x38, 0x39])))
    t.crc = 0xD2C22F51#32 ∧ t.reslen = 9#32 := by decide +kernel

/-- V-CRC-12: a bus error after eight bytes. -/
theorem test_crcUpdate_bus :
    let t := after (exec .crcUpdate (running 2 0xFFF8 16 0 0 (memoryAt 0xFFF8 [0, 1, 2, 3, 4, 5, 6, 7])))
    t.statusWord = 0x00000702#32 ∧ t.erraddr = 0x00010000#32 ∧ t.crc = 0xFE13A1BA#32
      ∧ t.reslen = 8#32 := by decide +kernel

/-- V-KEY-1. -/
theorem test_keyLoad :
    let t := after (exec .keyLoad (running 3 0x2000 8 0 0
      (memoryAt 0x2000 [0x70, 0x61, 0x73, 0x73, 0x77, 0x6F, 0x72, 0x64])))
    t.rk[10].toList.map BitVec.toNat = [0xC0, 0xCA, 0x7E, 0x92, 0x66, 0x0B, 0x19, 0x65,
      0x78, 0x59, 0x56, 0x04, 0x70, 0x4B, 0xA9, 0xBB] ∧ t.reslen = 8#32 ∧ t.keyv = true := by
  decide +kernel

/-- V-KEY-4: a 0x00 byte ends the password. -/
theorem test_keyLoad_stops :
    let t := after (exec .keyLoad (running 3 0x2000 5 0 0 (memoryAt 0x2000 [0x61, 0x62, 0, 0x63, 0x64])))
    t.rk[0].toList.map BitVec.toNat = [0x61, 0x62, 0, 0, 0, 0, 0, 0, 0, 0, 0, 0, 0, 0, 0, 0]
      ∧ t.reslen = 2#32 := by decide +kernel

/-- The example of rule R133. -/
theorem test_keyClear :
    (after (exec .keyClear (keyed (running 4 0 0 0 0 [])))).statusWord = 0x00000002#32 := by decide +kernel

/-- The example of rule R134. -/
theorem test_aesEnc :
    let t := after (exec .aesEnc (keyed (running 5 0x3000 16 0x3100 16 [])))
    (t.mem.readBytes 0x3100 16).map BitVec.toNat = [0x63, 0xBC, 0x5E, 0x2C, 0x7A, 0x81, 0x30, 0x95,
      0xDE, 0x4C, 0xDB, 0xF2, 0x6F, 0xDE, 0xAD, 0x73] ∧ t.reslen = 16#32 := by decide +kernel

/-- V-AES-7. -/
theorem test_aesEnc_overlap :
    (after (exec .aesEnc (keyed (running 5 0x3000 16 0x3008 16 [])))).statusWord = 0x00000406#32 := by
  decide +kernel

/-- The example of rule R135. -/
theorem test_aesDec :
    let t := after (exec .aesDec (keyed (running 6 0x3000 16 0x3100 16 (memoryAt 0x3000
      [0x63, 0xBC, 0x5E, 0x2C, 0x7A, 0x81, 0x30, 0x95, 0xDE, 0x4C, 0xDB, 0xF2, 0x6F, 0xDE, 0xAD, 0x73]))))
    t.mem.readBytes 0x3100 16 = List.replicate 16 0x00#8 ∧ t.statusWord = 0x00000006#32 := by decide +kernel

/-- V-AES-5. -/
theorem test_aesDec_length :
    (after (exec .aesDec (keyed (running 6 0x3000 15 0x3100 16 [])))).statusWord = 0x00000306#32 := by
  decide +kernel

/-- The samples of V-RED-2, `100, 227, 99, -29`, at 0x4000. -/
def samples2 : Memory :=
  memoryAt 0x4000 [0x64, 0, 0, 0, 0xE3, 0, 0, 0, 0x63, 0, 0, 0, 0xE3, 0xFF, 0xFF, 0xFF]

/-- The block of V-RED-2 at 0x5000: its bytes 0 to 30, its table's entries, its payload. -/
def block2 : Memory :=
  let m := memoryAt 0x5000 [0xA6, 0x35, 0xA7, 0xE0, 0x28, 0x01, 0, 0, 0x00, 0xE1, 0xF5, 0x05, 0, 0, 0, 0,
    0x0C, 0, 0, 0, 0x04, 0, 0, 0, 0xE3, 0, 0, 0xE3, 0xFF, 0xFF, 0x01]
  let m := (m.write 0x501F 4#8).writeBytes (0x501F + 99) [1#8, 1#8]
  let m := ((m.write (0x501F + 127) 1#8).write (0x501F + 128) 2#8).write (0x501F + 227) 1#8
  (m.write (0x501F + 255) 2#8).writeBytes 0x511F [0x00#8, 0x6B#8, 0xFA#8, 0x6F#8, 0xF8#8]

/-- V-RED-2, `RED_ENC` with `DISC`: the result registers, and the block after its checksum. -/
theorem test_redEnc :
    let s := running 0x407 0x4000 16 0x5000 0x200 samples2
    let t := after (exec (.redEnc false true) { s with latch := { s.latch with btimeLo := 0x05F5E100#32 } })
    t.statusWord = 0x00000002#32 ∧ t.reslen = 0x128#32 ∧ t.maxv = 0xE3#32 ∧ t.minv = 0xFFFFFFE3#32
      ∧ t.diffcnt = 12#32 ∧ blockBody s.cfg (samplesOf (samples2.readBytes 0x4000 16)) 0x05F5E100 true none
        = block2.readBytes 0x5004 292 := by decide +kernel

/-- V-RED-15. -/
theorem test_redEnc_overlap :
    (after (exec (.redEnc false false) (running 7 0x4000 16 0x400C 400 []))).statusWord = 0x00000402#32 := by
  decide +kernel

/-- V-RED-10c: `RED_DEC` of V-RED-2 without `VALIDATE`. -/
theorem test_redDec :
    let t := after (exec (.redDec false false) (running 8 0x5000 296 0x6000 16 block2))
    t.mem.readBytes 0x6000 16 = samples2.readBytes 0x4000 16 ∧ t.statusWord = 0x00000012#32
      ∧ t.reslen = 16#32 ∧ t.maxv = 0xE3#32 ∧ t.minv = 0xFFFFFFE3#32 ∧ t.diffcnt = 12#32 := by
  decide +kernel

/-- V-RED-18. -/
theorem test_redDec_length :
    (after (exec (.redDec false false) (running 8 0x5000 295 0x6000 16 block2))).statusWord
      = 0x00000302#32 := by decide +kernel

/-! ## Witnesses: states and operands that meet the hypotheses of each obligation, clause by clause -/

theorem witness_DecodeEncodeAgree :
    (Instr.redDec true true).wellFormed = true ∧ decode 0xFFFFFFF8#32 = .ok (.redDec true true) := by decide

theorem witness_UnreadFlagsAreIgnored :
    decode (running 0x701 0 0 0 0 []).latch.cmd = .ok .crcInit
      ∧ decode (running 0x708 0 0 0 0 []).latch.cmd = .ok (.redDec true true)
      ∧ (0x00000708#32 &&& 0xF#32).toNat ≤ 8 := by decide

theorem witness_ReservedOpcodeEndsWithErrOp (op : Fin 7) :
    let s := running (9 + op.val) 0 0 0 0 []
    s.inputs = [] ∧ s.busy = true ∧ s.wait = 0 ∧ 9 ≤ (s.latch.cmd &&& 0xF#32).toNat
      ∧ { s with inputs := [Input.engine] }.inputs = .engine :: []
      ∧ { s with inputs := [Input.waitIdle] }.inputs = .waitIdle :: [] := by
  revert op; decide

theorem witness_StepRunsTheDecodedCommand :
    let s := running 5 0x3000 16 0x3000 16 []
    let u := { running 0 0 0 0 0 [] with disturbed := true, inputs := [Input.engine, .waitIdle] }
    let w := { s with inputs := [Input.waitIdle] }
    (s.busy = true ∧ s.wait = 0 ∧ decode s.latch.cmd = .ok .aesEnc ∧ s.disturbed = false ∧ s.inputs = []
      ∧ s.cfg.dmaCoherent = true) ∧
    (u.busy = true ∧ u.wait = 0 ∧ decode u.latch.cmd = .ok .nop ∧ usesDma .nop = false
      ∧ u.inputs = .engine :: [.waitIdle]) ∧
    (w.busy = true ∧ w.wait = 0 ∧ decode w.latch.cmd = .ok .aesEnc ∧ w.disturbed = false
      ∧ w.inputs = .waitIdle :: []) := by decide

theorem witness_EveryCommandEnds (n : Nat) :
    let s := { running 2 0x1000 9 0 0 [] with wait := n }
    (s.inputs = [] ∧ s.busy = true ∧ s.wait = n) ∧ State.reset.busy = false ∧ State.reset.inputs = []
      ∧ { State.reset with inputs := [Input.engine] }.inputs = .engine :: []
      ∧ { State.reset with inputs := [Input.waitIdle] }.inputs = .waitIdle :: [] :=
  ⟨⟨rfl, rfl, rfl⟩, rfl, rfl, rfl, rfl⟩

/-- A running command over a memory, with the key loaded, meets every invariant, and its step answers next. -/
theorem witness_invariants :
    let s := keyed (running 4 0x5000 296 0x6000 16 [(0x5000, 1#8)])
    s.memoryCanonical ∧ s.keysConsistent ∧ s.phaseConsistent ∧ s.reservedBitsClear
      ∧ ∃ t, step s = .next t := by
  refine ⟨⟨by decide, List.Pairwise.nil, fun p h => by cases h⟩, ⟨passwordKey, rfl⟩,
    ⟨⟨rfl, rfl, rfl, rfl, rfl⟩, nofun, nofun⟩, ⟨by decide, by decide⟩, ?_⟩
  exact ⟨_, rfl⟩

theorem witness_invariants_uncoherent :
    let s := { State.reset with
      cfg := { Config.default with dmaCoherent := false }, hostDirty := [(0, 0#8), (0xFFFFFFFF, 1#8)]
      inputs := [Input.clean ⟨0, 2⟩] }
    s.memoryCanonical ∧ s.phaseConsistent ∧ ∃ t, step s = .next t := by
  refine ⟨⟨by decide, by decide, by decide⟩, ⟨⟨rfl, rfl, rfl, rfl⟩, nofun, nofun⟩, ⟨_, rfl⟩⟩

theorem witness_invariants_held :
    let s := { State.reset with resetHeld := true, inputs := [Input.writeReg 0x04#8 .word 1#32] }
    s.memoryCanonical ∧ s.phaseConsistent ∧ ∃ t, step s = .next t := by
  refine ⟨⟨by decide, by decide, by decide⟩, ⟨⟨rfl, rfl, rfl, rfl⟩, fun _ => rfl, nofun⟩, ⟨_, rfl⟩⟩

theorem witness_LaunchLatchesTheOperands :
    let s := { State.reset with inputs := [.writeReg 0x04#8 .word 5#32, .waitIdle] }
    s.inputs = .writeReg 0x04#8 .word 5#32 :: [.waitIdle] ∧ (5#32).getLsbD 0 = true
      ∧ (5#32).getLsbD 1 = false ∧ s.busy = false ∧ s.resetHeld = false ∧ s.cfg.dmaCoherent = true
      ∧ decode s.cmd = .ok .nop ∧ usesDma .nop = false ∧ decode 0x0000000F#32 = .error (.reservedOpcode 0xF#4) := by
  decide

/-- Rules R71, R87: without coherence a launch leaves the uncleaned bytes of memory that are not in the source; the
last byte of the source is one that it may find in change. -/
theorem test_launch_uncleaned :
    let s (cmd : Word) : State := { State.reset with
      cfg := { Config.default with dmaCoherent := false }
      cmd := cmd, src := 0x10#32, srclen := 2#32, mem := [(0x11, 5#8), (0x12, 6#8)]
      hostDirty := [(0x11, 1#8), (0x12, 2#8)], inputs := [.writeReg 0x04#8 .word 1#32] }
    (afterRun 1 (s 0#32)).mem = [(0x11, 5#8), (0x12, 6#8)]
      ∧ (afterRun 1 (s 9#32)).mem = [(0x11, 5#8), (0x12, 6#8)]
      ∧ (s 2#32).uncleanedSource = [(0x11, 1#8)] := by decide +kernel

theorem witness_WritesWhileBusyAreIgnored :
    let s (offset : BitVec 8) := { running 2 0 0 0 0 [] with inputs := [.writeReg offset .word 5#32] }
    (∀ offset : BitVec 8, (s offset).inputs = .writeReg offset .word 5#32 :: [] ∧ (s offset).busy = true
      ∧ (s offset).phaseConsistent) ∧
      (0x04#8).toNat % 4 = 0 ∧ (5#32).getLsbD 1 = false ∧ (0x00#8).toNat % 4 = 0 ∧ (0x0C#8).toNat % 4 = 0
      ∧ (0xFC#8).toNat % 4 = 0 :=
  ⟨fun _ => ⟨rfl, rfl, ⟨rfl, rfl, rfl, rfl, rfl⟩, nofun, nofun⟩, by decide⟩

/-- A state for each of the three groups of clauses, at any offset; the offsets of the lists; a `CTRL` word. -/
theorem witness_RegistersReadBack :
    let s (offset : BitVec 8) := { State.reset with
      inputs := [.writeReg offset .word 0xFFFFFFFF#32, .readReg offset .word, .waitIdle] }
    (∀ offset, (s offset).busy = false ∧ (s offset).resetHeld = false ∧ (s offset).inputs =
      .writeReg offset .word 0xFFFFFFFF#32 :: .readReg offset .word :: [.waitIdle]) ∧
      (∀ offset, { s offset with inputs := [.readReg offset .word] }.inputs = .readReg offset .word :: []) ∧
      (0x10#8).toNat ∈ [0x10, 0x14, 0x18, 0x1C, 0x24, 0x28, 0x2C]
      ∧ (0x2C#8).toNat ∈ [0x10, 0x14, 0x18, 0x1C, 0x24, 0x28, 0x2C]
      ∧ State.reset.crcUnseen = false ∧ State.reset.endUnseen = false
      ∧ (0x20#8).toNat ∈ [0x20, 0x30, 0x34, 0x38, 0x3C] ∧ (0x3C#8).toNat ∈ [0x20, 0x30, 0x34, 0x38, 0x3C]
      ∧ (4#32).getLsbD 0 = false ∧ (4#32).getLsbD 1 = false :=
  ⟨fun _ => ⟨rfl, rfl, rfl⟩, fun _ => rfl, by decide⟩

/-- Rule R20: each register at its own offset, told apart by their values. -/
theorem test_register_offsets :
    let s := { State.reset with
      ie := true, reslen := 1#32, maxv := 2#32, minv := 3#32, diffcnt := 4#32, erraddr := 5#32
      inputs := [.readReg 0x04#8 .word, .readReg 0x20#8 .word, .readReg 0x30#8 .word, .readReg 0x34#8 .word,
        .readReg 0x38#8 .word, .readReg 0x3C#8 .word] }
    [1, 2, 3, 4, 5, 6].map (fun n => (afterRun n s).response)
      = [.word 4#32, .word 1#32, .word 2#32, .word 3#32, .word 4#32, .word 5#32] := by decide +kernel

theorem witness_IdReadsItsConstant :
    { State.reset with inputs := [Input.readReg 0x00#8 .word] }.inputs = .readReg 0x00#8 .word :: [] ∧
      { State.reset with inputs := [Input.writeReg 0x00#8 .word 7#32] }.inputs
        = .writeReg 0x00#8 .word 7#32 :: [] := ⟨rfl, rfl⟩

theorem witness_BadRegisterAccessesChangeNothing :
    (AccessWidth.half ≠ .word ∧ (0x08#8).toNat % 4 = 0) ∧ (0x09#8).toNat % 4 ≠ 0 ∧
      ((0x40#8).toNat % 4 = 0 ∧ 0x40 ≤ (0x40#8).toNat) ∧ ((0xFC#8).toNat % 4 = 0 ∧ 0x40 ≤ (0xFC#8).toNat) ∧
      { State.reset with inputs := [Input.readReg 0x08#8 .half] }.inputs = .readReg 0x08#8 .half :: [] ∧
      { State.reset with inputs := [Input.writeReg 0xFC#8 .word 1#32] }.inputs
        = .writeReg 0xFC#8 .word 1#32 :: [] := by decide

theorem witness_StatusRegisterFields :
    (State.reset.resetHeld = true → State.reset.clearEngine = State.reset) ∧ { State.reset with inputs := [Input.readReg 0x08#8 .word] }.inputs = .readReg 0x08#8 .word :: [] ∧
      { State.reset with inputs := [Input.writeReg 0x08#8 .word 2#32] }.inputs
        = .writeReg 0x08#8 .word 2#32 :: [] := ⟨nofun, rfl, rfl⟩

theorem witness_ReadsWhileBusy :
    let s (offset : BitVec 8) := { running 2 0 0 0 0 [] with inputs := [.readReg offset .word] }
    (∀ offset, (s offset).busy = true ∧ (s offset).phaseConsistent
      ∧ (s offset).inputs = .readReg offset .word :: []) ∧
      (0x20#8).toNat ∈ [0x20, 0x24, 0x30, 0x34, 0x38, 0x3C]
      ∧ (0x3C#8).toNat ∈ [0x20, 0x24, 0x30, 0x34, 0x38, 0x3C]
      ∧ (let u := (afterRun 1 (running 2 0 0 0 0 []))
         u.busy = false ∧ u.endUnseen = true ∧ u.crcUnseen = true)
      ∧ (0x20#8).toNat ∈ [0x20, 0x30, 0x34, 0x38, 0x3C] ∧ (0x3C#8).toNat ∈ [0x20, 0x30, 0x34, 0x38, 0x3C] :=
  ⟨fun _ => ⟨rfl, ⟨⟨rfl, rfl, rfl, rfl, rfl⟩, nofun, nofun⟩, rfl⟩, by decide +kernel⟩

/-- Rule R274: the host sees an end by a read of `STATUS`, and by `IRQ`. -/
theorem test_end_seen :
    let s := { running 5 0x3000 16 0x3100 16 [] with inputs := [.engine, .readReg 0x08#8 .word] }
    (afterRun 1 s).endUnseen = true ∧ (afterRun 1 s).loadUnspecified 0x310F = true
      ∧ (afterRun 2 s).endUnseen = false ∧ (afterRun 2 s).loadUnspecified 0x310F = false
      ∧ (afterRun 1 { s with ie := true }).endUnseen = false
      ∧ (afterRun 2 { s with inputs := [.engine, .writeReg 0x04#8 .word 4#32] }).endUnseen = false := by
  decide +kernel

/-- The next state of every clause's state, and the clause's own hypotheses. -/
theorem witness_InterruptEnableAndPending :
    (∃ t, step { State.reset with done := true } = .next t ∧ t.ie = false) ∧
    (∃ t, step { running 0 0 0 0 0 [] with ie := true } = .next t) ∧
    (∃ t, step { State.reset with done := true, ie := true, inputs := [.writeReg 0x08#8 .word 2#32] }
      = .next t) ∧
    (∃ t, step { State.reset with done := true, inputs := [.writeReg 0x04#8 .word 5#32] } = .next t) ∧
    (∃ t, step { State.reset with done := true, inputs := [.resetAssert] } = .next t) ∧
    (∃ t, step { State.reset with done := true, inputs := [.writeReg 0x04#8 .word 2#32] } = .next t) ∧
    (∃ t, step { State.reset with done := true, inputs := [.writeReg 0x04#8 .word 4#32] } = .next t) ∧
      (2#32).getLsbD 1 = true ∧ (5#32).getLsbD 1 = false ∧ (5#32).getLsbD 0 = true
      ∧ (4#32).getLsbD 1 = false ∧ (4#32).getLsbD 0 = false
      ∧ (State.reset.resetHeld = true → State.reset.clearEngine = State.reset) :=
  ⟨⟨_, rfl, rfl⟩, ⟨_, rfl⟩, ⟨_, rfl⟩, ⟨_, rfl⟩, ⟨_, rfl⟩, ⟨_, rfl⟩, ⟨_, rfl⟩, by decide, by decide, by decide,
    by decide, by decide, nofun⟩

/-- The assertion, a soft reset, and a held reset with a host write and with its release. -/
theorem witness_HardwareResetValues :
    { State.reset with inputs := [Input.resetAssert] }.inputs = .resetAssert :: []
      ∧ { State.reset with inputs := [Input.resetAssert] }.busy = false
      ∧ { State.reset with inputs := [Input.writeReg 0x04#8 .word 2#32] }.inputs
        = .writeReg 0x04#8 .word 2#32 :: [] ∧ (2#32).getLsbD 1 = true
        ∧ (State.reset.resetHeld = true → State.reset.clearEngine = State.reset)
      ∧ (let s := { State.reset with resetHeld := true, inputs := [Input.resetRelease] }
         s.resetHeld = true ∧ s.phaseConsistent ∧ s.inputs = .resetRelease :: [] ∧ ∃ t, step s = .next t)
      ∧ { State.reset with inputs := [Input.writeReg 0x0C#8 .word 2#32] }.inputs
        = .writeReg 0x0C#8 .word 2#32 :: [] :=
  ⟨rfl, rfl, rfl, by decide, nofun, ⟨rfl, ⟨⟨rfl, rfl, rfl, rfl⟩, fun _ => rfl, nofun⟩, rfl, _, rfl⟩, rfl⟩

/-- Rule R271: a `START` while the reset input is asserted launches nothing; after the release it does. -/
theorem test_held_reset :
    let s := { keyed (running 2 0 0 0 0 []) with
      inputs := [.resetAssert, .writeReg 0x04#8 .word 5#32, .writeReg 0x10#8 .word 7#32, .resetRelease,
        .writeReg 0x04#8 .word 5#32] }
    [2, 3, 4, 5].map (fun n => ((afterRun n s).busy, (afterRun n s).ie, (afterRun n s).src, (afterRun n s).keyv))
      = [(false, false, 0#32, false), (false, false, 0#32, false), (false, false, 0#32, false),
         (true, true, 0#32, false)] := by decide +kernel

theorem witness_SoftResetAbortsTheCommand :
    let s (w : Nat) := { running w 0x3000 16 0x3100 16 [] with inputs := [.writeReg 0x04#8 .word 7#32] }
    (∀ w, (s w).inputs = .writeReg 0x04#8 .word 7#32 :: [] ∧ (s w).busy = true) ∧
      (7#32).getLsbD 1 = true ∧ decode (s 5).latch.cmd = .ok .aesEnc ∧ decode (s 6).latch.cmd = .ok .aesDec
      ∧ decode (s 0x507).latch.cmd = .ok (.redEnc true true)
      ∧ decode (s 8).latch.cmd = .ok (.redDec false false) ∧ decode (s 2).latch.cmd = .ok .crcUpdate
      ∧ { s 2 with busy := false }.busy = false ∧ (∀ w, (s w).resetHeld = true → (s w).clearEngine = s w) :=
  ⟨fun _ => ⟨rfl, rfl⟩, by decide, by decide, by decide, by decide, by decide, by decide, rfl, fun _ => nofun⟩

/-- The three clauses: the last byte of the address space's reachable part and no byte at all; a range that
ends one byte past 2^32; a range whose last byte cannot be read. -/
theorem witness_CrcUpdateFoldsTheRange :
    (let s := running 2 0xFFFF 1 0 0 []
     s.latch.src.toNat + s.latch.srclen.toNat ≤ 2 ^ 32
       ∧ AllDmaOK s.cfg .read s.latch.src.toNat s.latch.srclen.toNat) ∧
    (let s := running 2 0xFFFFFFFF 2 0 0 []
     2 ^ 32 < s.latch.src.toNat + s.latch.srclen.toNat) ∧
    (let s := running 2 0xFFFF 2 0 0 []
     s.latch.src.toNat + s.latch.srclen.toNat ≤ 2 ^ 32
       ∧ FirstBad s.cfg .read s.latch.src.toNat s.latch.srclen.toNat 0x10000) :=
  ⟨⟨by decide, allOK (by decide)⟩, by decide, by decide, bad (by decide)⟩

theorem witness_CrcDetectsOneChangedByte :
    let normal := { Config.default with crcPoly := 0x741B8CD7#32, crcReflected := false }
    Config.default.crcPoly.getLsbD (if Config.default.crcReflected then 31 else 0) = true
      ∧ normal.crcPoly.getLsbD (if normal.crcReflected then 31 else 0) = true ∧ (0x6B#8 : Byte) ≠ 0x6A#8 := by
  decide

theorem witness_SboxIsAffineInverse :
    gmul 0x53#8 0xCA#8 = 1#8 ∧ gmul 0x01#8 0x01#8 = 1#8 ∧ (0x53#8 : Byte) ≠ 0#8 := by decide +kernel

theorem witness_KeyExpansionRecurrence : (4 ≤ 4 ∧ 4 < 44) ∧ 4 ≤ 43 ∧ 43 < 44 := by decide

/-- The clauses: a password of three bytes and its 0x00 as the last readable ones; an empty one at the end
of the space; a range that wraps by one byte; a failing byte among those read. -/
theorem witness_KeyLoadDerivesTheKey :
    (let s := limited 0x2004 0 (running 3 0x2000 8 0 0 (memoryAt 0x2000 [0x61, 0x62, 0x63, 0, 0x64]))
     let a := s.latch.src.toNat
     let m := min s.latch.srclen.toNat 16
     let password := (s.mem.readBytes a m).takeWhile fun b => b != 0x00#8
     a + m ≤ 2 ^ 32 ∧ AllDmaOK s.cfg .read a (min (password.length + 1) m) ∧ password.length = 3) ∧
    (let s := running 3 0xFFFFFFFF 0 0 0 []
     s.latch.src.toNat + min s.latch.srclen.toNat 16 ≤ 2 ^ 32) ∧
    (let s := running 3 0xFFFFFFF1 100 0 0 []
     2 ^ 32 < s.latch.src.toNat + min s.latch.srclen.toNat 16) ∧
    (let s := limited 0x2003 0 (running 3 0x2000 8 0 0 (memoryAt 0x2000 [0x61, 0x62, 0x63, 0, 0x64]))
     let a := s.latch.src.toNat
     let m := min s.latch.srclen.toNat 16
     let password := (s.mem.readBytes a m).takeWhile fun b => b != 0x00#8
     a + m ≤ 2 ^ 32 ∧ FirstBad s.cfg .read a (min (password.length + 1) m) 0x2003) :=
  ⟨⟨by decide, allOK (by decide +kernel), by decide +kernel⟩, by decide, by decide, by decide,
    bad (by decide +kernel)⟩

/-- For `AES_ENC` and `AES_DEC`, in place at the last segment that can be reached. -/
theorem witness_AesStoresTheSegments :
    let s := keyed (running 5 0xFFF0 16 0xFFF0 16 [])
    let a := s.latch.src.toNat
    let n := s.latch.srclen.toNat
    let d := s.latch.dst.toNat
    s.mem.wf = true ∧ s.keyv = true ∧ n % 16 = 0 ∧ a + n ≤ 2 ^ 32 ∧ n ≤ s.latch.dstlen.toNat ∧ d + n ≤ 2 ^ 32
      ∧ (n = 0 ∨ a = d ∨ a + n ≤ d ∨ d + n ≤ a) ∧ AllDmaOK s.cfg .read a n ∧ AllDmaOK s.cfg .write d n :=
  ⟨by decide, rfl, by decide, by decide, by decide, by decide, .inr (.inl rfl),
    allOK (a := 0xFFF0) (n := 16) (by decide), allOK (a := 0xFFF0) (n := 16) (by decide)⟩

/-- One state for each static error, at the boundary of its check; each check's values fail no check
before it. -/
theorem witness_AesStaticErrorsInOrder :
    (running 5 0 15 0 0 []).keyv = false ∧
    (let l := (keyed (running 5 0xFFFFFFFF 15 0 0 [])).latch; l.srclen.toNat % 16 ≠ 0) ∧
    (let l := (keyed (running 5 0xFFFFFFF1 16 0 0 [])).latch
     l.srclen.toNat % 16 = 0 ∧ 2 ^ 32 < l.src.toNat + l.srclen.toNat) ∧
    (let l := (keyed (running 5 0xFFFFFFF0 16 0xFFFFFFF1 15 [])).latch
     l.srclen.toNat % 16 = 0 ∧ l.src.toNat + l.srclen.toNat ≤ 2 ^ 32 ∧ l.dstlen.toNat < l.srclen.toNat) ∧
    (let l := (keyed (running 5 0xFFFFFFF0 16 0xFFFFFFF1 16 [])).latch
     l.srclen.toNat % 16 = 0 ∧ l.src.toNat + l.srclen.toNat ≤ 2 ^ 32 ∧ l.srclen.toNat ≤ l.dstlen.toNat
       ∧ 2 ^ 32 < l.dst.toNat + l.srclen.toNat) ∧
    (let l := (keyed (running 6 0x3000 16 0x300F 16 [])).latch
     l.srclen.toNat % 16 = 0 ∧ l.src.toNat + l.srclen.toNat ≤ 2 ^ 32 ∧ l.srclen.toNat ≤ l.dstlen.toNat
       ∧ l.dst.toNat + l.srclen.toNat ≤ 2 ^ 32 ∧ l.src.toNat ≠ l.dst.toNat
       ∧ l.src.toNat < l.dst.toNat + l.srclen.toNat ∧ l.dst.toNat < l.src.toNat + l.srclen.toNat) ∧
    (keyed (running 6 0 0 0 0 [])).keyv = true := by decide

/-- Segment 1 of two: its last byte cannot be read; its fifth byte cannot be written (V-AES-10). -/
theorem witness_AesBusErrorKeepsDoneSegments :
    (let s := limited 0x301F 0x8000 (keyed (running 5 0x3000 32 0x4000 32 []))
     s.mem.wf = true ∧ s.keyv = true ∧ 16 * 1 < s.latch.srclen.toNat ∧ AllDmaOK s.cfg .read 0x3000 (16 * 1)
       ∧ AllDmaOK s.cfg .write 0x4000 (16 * 1) ∧ FirstBad s.cfg .read (0x3000 + 16 * 1) 16 0x301F) ∧
    (let s := limited 0x8000 0x4014 (keyed (running 6 0x3000 32 0x4000 32 []))
     s.mem.wf = true ∧ s.keyv = true ∧ 16 * 1 < s.latch.srclen.toNat ∧ AllDmaOK s.cfg .read 0x3000 (16 * 1)
       ∧ AllDmaOK s.cfg .write 0x4000 (16 * 1) ∧ AllDmaOK s.cfg .read (0x3000 + 16 * 1) 16
       ∧ FirstBad s.cfg .write (0x4000 + 16 * 1) 16 0x4014
       ∧ s.latch.srclen.toNat % 16 = 0 ∧ s.latch.srclen.toNat ≤ s.latch.dstlen.toNat
       ∧ s.latch.src.toNat + s.latch.srclen.toNat ≤ s.latch.dst.toNat) :=
  ⟨⟨by decide, rfl, by decide, allOK (by decide), allOK (by decide), bad (by decide)⟩,
    by decide, rfl, by decide, allOK (by decide), allOK (by decide), allOK (by decide), bad (by decide),
    by decide, by decide, by decide⟩

theorem witness_AesRoundTripInPlace :
    let s := keyed (running 5 0x3000 16 0x3000 16 (memoryAt 0x3000 [1, 2, 3]))
    let a := s.latch.src.toNat
    let n := s.latch.srclen.toNat
    s.mem.wf = true ∧ s.keyv = true ∧ n % 16 = 0 ∧ a + n ≤ 2 ^ 32 ∧ n ≤ s.latch.dstlen.toNat
      ∧ s.latch.dst = s.latch.src ∧ AllDmaOK s.cfg .read a n ∧ AllDmaOK s.cfg .write a n :=
  ⟨by decide +kernel, rfl, by decide, by decide, by decide, rfl,
    allOK (a := 0x3000) (n := 16) (by decide), allOK (a := 0x3000) (n := 16) (by decide)⟩

theorem witness_DeltaDecodeInvertsEncode :
    ∀ x ∈ [-2 ^ 23, (2 ^ 23 - 1 : Int), 0, 127, -1], -2 ^ 23 ≤ x ∧ x ≤ 2 ^ 23 - 1 := by decide

theorem witness_DifferenceCountFormula : [(0 : Int), 127, -1, -128, 0] ≠ [] := by decide

/-- The peak is 256, the least that is scaled; the position is the last. -/
theorem witness_ScaledCountsFitAByte :
    Config.default.wellFormed = true ∧ 256 ∈ [0, 1, 256] ∧ (∀ x ∈ [0, 1, 256], x ≤ 256) ∧ 255 < 256
      ∧ 2 < [0, 1, 256].length ∧ 255 ∈ [255, 3] ∧ (∀ x ∈ [255, 3], x ≤ 255) := by decide

theorem witness_TotalCountBounds :
    Config.wellFormed { Config.default with scaleTarget := 1 } = true ∧ [0x80#8] ≠ ([] : List Byte) := by decide

theorem witness_RenormalisationFinishes :
    (let e : EncState := ⟨0#32, 1#32, 0#8, 0#32, []⟩; 1 ≤ e.range.toNat ∧ e.range.toNat ≤ 2 ^ 31) ∧
    (let d : DecState := ⟨0#32, 0x80000000#32, 0#8, []⟩; 1 ≤ d.range.toNat ∧ d.range.toNat ≤ 2 ^ 31) := by
  decide

theorem witness_SymbolDecodingIsDefined :
    let cnt := List.replicate 256 255
    let d := decStart [0xFF#8, 0xFF#8, 0xFF#8]
    cnt.length = 256 ∧ 1 ≤ totalCount cnt ∧ totalCount cnt ≤ 65280 ∧ 1 ≤ d.range.toNat
      ∧ d.range.toNat ≤ 2 ^ 31 := by decide +kernel

theorem witness_RangeDecodeInvertsEncode :
    let z := [0x00#8, 0x00#8, 0x00#8, 0x80#8]
    Config.default.wellFormed = true ∧ z ≠ [] ∧ 17 * z.length + 16 ≤ 2 ^ 35 := by decide

theorem witness_BlockSizeBounds : Config.default.wellFormed = true ∧ [(0 : Int)] ≠ [] := by decide

/-- One sample, room for exactly its block, both ranges at the end of what can be reached. -/
theorem witness_RedEncStoresTheBlock :
    let s := keyed (running 0x507 0x4000 4 0xFED8 296 [])
    s.mem.wf = true ∧ s.keyv = true ∧ 0 < s.latch.srclen.toNat ∧ s.latch.srclen.toNat % 4 = 0
      ∧ 0x4000 + 4 ≤ 2 ^ 32 ∧ 0xFED8 + s.latch.dstlen.toNat ≤ 2 ^ 32 ∧ 0x4000 + 4 ≤ 0xFED8
      ∧ AllDmaOK s.cfg .read 0x4000 4
      ∧ (encodeBlock s.cfg [0] 0 true (some s.rk)).length = s.latch.dstlen.toNat
      ∧ AllDmaOK s.cfg .write 0xFED8 296 :=
  ⟨by decide, rfl, by decide, by decide, by decide, by decide, by decide, allOK (by decide),
    by decide +kernel, allOK (by decide +kernel)⟩

/-- One state for each error: no key; a length of 0, one not a multiple of 4, a wrapping source, a wrapping
destination; an overlap by one byte; a sample byte that cannot be read; one byte too little room; a
block byte that cannot be written. -/
theorem witness_RedEncErrors :
    (running 0x107 0 4 0 0 []).keyv = false ∧
    (running 7 0 0 0 0 []).latch.srclen.toNat = 0 ∧ (running 7 0 6 0 0 []).latch.srclen.toNat % 4 ≠ 0 ∧
    2 ^ 32 < (running 7 0xFFFFFFFD 4 0 0 []).latch.src.toNat + 4 ∧
    2 ^ 32 < (running 7 0 4 0xFFFFFFFF 2 []).latch.dst.toNat + 2 ∧
    (let l := (running 7 0x4000 16 0x400F 1 []).latch
     0 < l.dstlen.toNat ∧ l.src.toNat < l.dst.toNat + l.dstlen.toNat ∧ l.dst.toNat < l.src.toNat + l.srclen.toNat) ∧
    FirstBad (limited 0x4003 0x8000 (running 7 0x4000 4 0x5000 296 [])).cfg .read 0x4000 4 0x4003 ∧
    (let s := running 7 0x4000 4 0x5000 295 []
     AllDmaOK s.cfg .read 0x4000 4 ∧ s.latch.dstlen.toNat < (encodeBlock s.cfg [0] 0 false none).length) ∧
    (let s := limited 0x8000 0x5127 (running 7 0x4000 4 0x5000 296 [])
     AllDmaOK s.cfg .read 0x4000 4 ∧ (encodeBlock s.cfg [0] 0 false none).length ≤ s.latch.dstlen.toNat
       ∧ FirstBad s.cfg .write 0x5000 296 0x5127) :=
  ⟨rfl, by decide, by decide, by decide, by decide, by decide, bad (by decide),
    ⟨allOK (by decide), by decide +kernel⟩, allOK (by decide), by decide +kernel, bad (by decide +kernel)⟩

/-- A block of 287 bytes with a length field, a difference count, a sample count and one table entry. -/
def smallBlock (l diffs count entry : Nat) : Memory :=
  (((Memory.writeBytes [] 0x5004 (leBytes 4 l)).writeBytes 0x5010 (leBytes 4 diffs)).writeBytes 0x5014
    (leBytes 4 count)).write 0x501F (BitVec.ofNat 8 entry)

/-- The header alone, whose payload reads as zeros: three symbols, one sample, room for exactly it; and a block
with no symbol, no count and no room (V-RED-20). -/
theorem witness_RedDecStoresTheSamples :
    (let s := running 8 0x5000 287 0x6000 4 (smallBlock 287 3 1 255)
     let stored := s.mem.readBytes (0x5000 + 31) 256
     let out := deltaDecode (rangeDecode (s.mem.readBytes (0x5000 + 287) 0) (stored.map BitVec.toNat) 3)
     s.mem.wf = true ∧ 287 ≤ s.latch.srclen.toNat ∧ leNat (s.mem.readBytes (0x5000 + 4) 4) = 287
       ∧ leNat (s.mem.readBytes (0x5000 + 16) 4) = 3 ∧ leNat (s.mem.readBytes (0x5000 + 20) 4) = 1
       ∧ 4 * 1 ≤ s.latch.dstlen.toNat ∧ AllDmaOK s.cfg .read 0x5000 287
       ∧ 0 < totalCount (stored.map BitVec.toNat) ∧ min out.length 1 = 1
       ∧ AllDmaOK s.cfg .write 0x6000 (4 * 1)) ∧
    (let s := running 8 0x5000 288 0xFFFFFFFF 0 (smallBlock 288 0 0 0)
     leNat (s.mem.readBytes (0x5000 + 4) 4) = 288 ∧ leNat (s.mem.readBytes (0x5000 + 16) 4) = 0
       ∧ leNat (s.mem.readBytes (0x5000 + 20) 4) = 0 ∧ s.latch.dstlen.toNat = 0
       ∧ AllDmaOK s.cfg .read 0x5000 288) :=
  ⟨⟨by decide +kernel, by decide, by decide +kernel, by decide +kernel, by decide +kernel, by decide,
      allOK (by decide +kernel), by decide +kernel, by decide +kernel, allOK (by decide)⟩,
    by decide +kernel, by decide +kernel, by decide +kernel, by decide, allOK (by decide +kernel)⟩

/-- One state for each error, at the boundary of its check. -/
theorem witness_RedDecErrors :
    (running 0x108 0 0 0 0 []).keyv = false ∧
    (running 8 0 286 0 0 []).latch.srclen.toNat < 287 ∧
    2 ^ 32 < (running 8 0xFFFFFEE2 287 0 0 []).latch.src.toNat + 287 ∧
    (let l := (running 8 0x5000 287 0x511E 1 []).latch
     0 < l.dstlen.toNat ∧ l.src.toNat < l.dst.toNat + l.dstlen.toNat ∧ l.dst.toNat < l.src.toNat + l.srclen.toNat) ∧
    FirstBad (limited 0x511E 0x8000 (running 8 0x5000 287 0x6000 4 [])).cfg .read 0x5000 287 0x511E ∧
    (let s := running 8 0x5000 287 0x6000 4 (smallBlock 288 0 0 0)
     AllDmaOK s.cfg .read 0x5000 287 ∧ s.latch.srclen.toNat < leNat (s.mem.readBytes (0x5000 + 4) 4)) ∧
    (let s := running 8 0x5000 287 0x6000 4 (smallBlock 286 0 0 0)
     leNat (s.mem.readBytes (0x5000 + 4) 4) < 287) ∧
    (let s := running 8 0x5000 287 0x6000 3 (smallBlock 287 0 1 0)
     s.latch.dstlen.toNat < 4 * leNat (s.mem.readBytes (0x5000 + 20) 4)) ∧
    (let s := limited 0x511F 0x8000 (running 8 0x5000 288 0x6000 4 (smallBlock 288 0 1 0))
     AllDmaOK s.cfg .read 0x5000 287 ∧ FirstBad s.cfg .read (0x5000 + 287) (288 - 287) 0x511F) ∧
    (let s := running 8 0x5000 288 0x6000 4 (smallBlock 288 1 1 0)
     AllDmaOK s.cfg .read 0x5000 288 ∧ 0 < leNat (s.mem.readBytes (0x5000 + 16) 4)
       ∧ totalCount ((s.mem.readBytes (0x5000 + 31) 256).map BitVec.toNat) = 0) ∧
    (let s := limited 0x8000 0x6003 (running 8 0x5000 287 0x6000 4 (smallBlock 287 3 1 255))
     AllDmaOK s.cfg .read 0x5000 287 ∧ FirstBad s.cfg .write 0x6000 (4 * 1) 0x6003) :=
  ⟨rfl, by decide, by decide, by decide, bad (by decide +kernel), ⟨allOK (by decide +kernel), by decide +kernel⟩,
    by decide +kernel, by decide +kernel, ⟨allOK (by decide +kernel), bad (by decide)⟩,
    ⟨allOK (by decide +kernel), by decide +kernel, by decide +kernel⟩, allOK (by decide +kernel),
    bad (by decide)⟩

/-- One sample of -1, with the least room that rule R208 asks for. -/
theorem witness_RedRoundTrip :
    let s := keyed (running 0x507 0x4000 4 0x5000 304 (memoryAt 0x4000 [0xFF, 0xFF, 0xFF, 0xFF]))
    let dst2 := 0x6000#32
    s.mem.wf = true ∧ s.cfg.wellFormed = true ∧ s.keyv = true ∧ s.latch.srclen.toNat = 4
      ∧ 297 + (17 * (4 - 1) + 7) / 8 ≤ s.latch.dstlen.toNat ∧ 0x4000 + 4 ≤ s.latch.dst.toNat
      ∧ 0x5000 + s.latch.dstlen.toNat ≤ dst2.toNat ∧ AllDmaOK s.cfg .read 0x4000 4
      ∧ AllDmaOK s.cfg .read 0x5000 304 ∧ AllDmaOK s.cfg .write 0x5000 304 ∧ AllDmaOK s.cfg .write 0x6000 4
      ∧ (BitVec.ofNat 32 (leNat (s.mem.readBytes (0x4000 + 4 * 0) 4))).toInt = -1 :=
  ⟨by decide +kernel, by decide, rfl, by decide, by decide, by decide, by decide, allOK (by decide),
    allOK (by decide +kernel), allOK (by decide +kernel), allOK (by decide), by decide +kernel⟩

/-- Every command answers next, from every state, so the frames' hypothesis can be met; here for one that
stores, in place, and for one that changes a byte. -/
theorem witness_frames :
    answersNext (exec .aesEnc (keyed (running 5 0x3000 16 0x3000 16 []))) = true ∧
    (let s := keyed (running 5 0x3000 16 0x3000 16 [])
     (after (exec .aesEnc s)).mem.read 0x3000 ≠ s.mem.read 0x3000) ∧
    (let o := exec (.redDec false true) (running 0x208 0x5000 296 0x6000 16 [])
     answersNext o = true ∧ (after o).errcode ≠ .ok ∧ (after o).errcode ≠ .bus) ∧
    (let o := exec .crcUpdate (running 2 0xFFFF 2 0 0 [])
     answersNext o = true ∧ (after o).errcode = .bus) ∧
    (let o := exec .crcUpdate (running 2 0xFFFE 2 0 0 [])
     answersNext o = true ∧ (after o).errcode = .ok) ∧
    (running 5 0x3000 16 0x3100 16 []).latch.src ≠ (running 5 0x3000 16 0x3100 16 []).latch.dst ∧
    (Instr.redEnc true true ≠ .aesEnc ∧ Instr.redEnc true true ≠ .aesDec) := by decide +kernel

theorem witness_RoundKeysCannotBeReadBack :
    let s := keyed { State.reset with inputs := [.readReg 0x24#8 .word] }
    s.inputs = .readReg 0x24#8 .word :: [] ∧ (∃ t, step s = .next t)
      ∧ ∃ t, step { s with rk := RoundKeys.zero } = .next t := ⟨rfl, ⟨_, rfl⟩, ⟨_, rfl⟩⟩

/-- The last byte before the window, the first and the last byte in it; a byte in the destination of a running
command; a byte that no running command uses. -/
theorem witness_HostStoresReachMemory :
    let s (i : Input) := { State.reset with inputs := [i] }
    let u := running 5 0x3000 16 0x3100 16 []
    (∀ i, (s i).inputs = i :: [] ∧ (s i).cfg.dmaCoherent = true ∧ (s i).mem.wf = true) ∧
      ¬ (window Config.default).contains (0x7FFFFFFF#32).toNat = true
      ∧ (window Config.default).contains (0x80000000#32).toNat = true
      ∧ (window Config.default).contains (0x800000FF#32).toNat = true
      ∧ u.busy = true ∧ u.latch.dest.contains (0x310F#32).toNat = true
      ∧ ¬ u.latch.dest.contains (0x3110#32).toNat = true ∧ u.inUse (0x3110#32).toNat = false
      ∧ u.inUse (0x310F#32).toNat = true ∧ (u.unseenDest.any fun r => r.contains (0x3110#32).toNat) = false
      ∧ (([⟨0x3100, 16⟩] : List ByteRange).any fun r => r.contains (0x310F#32).toNat) = true :=
  ⟨fun _ => ⟨rfl, rfl, rfl⟩, by decide⟩

/-- The last byte of the source, the last byte of the destination; a cleaning of the source's last byte; a launch
on a device region; and the disturbed command at its end, without a key, with a wrapping range, and with a
range it can read. -/
theorem witness_DisturbedCommandEnds :
    (let s := running 5 0x3000 16 0x3100 16 []
     decode s.latch.cmd = .ok .aesEnc ∧ s.busy = true
      ∧ (sourceRange .aesEnc s.latch).contains (0x300F#32).toNat = true
      ∧ (destRange .aesEnc s.latch).contains (0x310F#32).toNat = true
      ∧ ¬ (window s.cfg).contains (0x310F#32).toNat = true
      ∧ { s with inputs := [Input.store 0x300F#32 1#8] }.inputs = .store 0x300F#32 1#8 :: []
      ∧ { s with inputs := [Input.busWrite 0x310F#32 1#8] }.inputs = .busWrite 0x310F#32 1#8 :: []
      ∧ { s with inputs := [Input.busRead 0x310F#32] }.inputs = .busRead 0x310F#32 :: []
      ∧ (0x300F, 1#8) ∈ { s with hostDirty := [(0x300F, 1#8)] }.hostDirty
      ∧ (⟨0x300F, 1⟩ : ByteRange).contains 0x300F = true
      ∧ usesDma .aesEnc = true ∧ { s with disturbed := true }.disturbed = true ∧ s.wait = 0 ∧ s.inputs = []
      ∧ s.keyv = false) ∧
    (let s := { State.reset with
       cmd := 2#32, src := 0x4FFF#32, srclen := 2#32, inputs := [.writeReg 0x04#8 .word 1#32]
       cfg := { Config.default with regions := [⟨0x5000, 0x100, true, true, true⟩] } }
     decode s.cmd = .ok .crcUpdate ∧ s.busy = false ∧ s.resetHeld = false
      ∧ s.inputs = .writeReg 0x04#8 .word 1#32 :: [] ∧ (1#32).getLsbD 0 = true ∧ (1#32).getLsbD 1 = false
      ∧ (afterRun 1 s).disturbed = true) ∧
    (let l := (running 2 0xFFFFFFFF 2 0 0 []).latch; 2 ^ 32 < l.src.toNat + l.srclen.toNat) ∧
    (let l := (running 2 0xFFFFFFFE 2 0 0 []).latch; l.src.toNat + l.srclen.toNat ≤ 2 ^ 32) := by
  decide

/-- Rules R66, R69, R244: a disturbed command reports the error of its checks; a disturbed `CRC_UPDATE` of readable
bytes completes. -/
theorem test_disturbed_checks :
    let disturbed (w src srclen dst dstlen : Nat) : State := afterRun 2
      { running w src srclen dst dstlen [] with inputs := [Input.store (toWord src) 1#8] }
    (disturbed 5 0x3000 16 0x3100 16).errcode = .noKey
      ∧ (disturbed 2 0xFFFFFFFF 2 0 0).errcode = .len ∧ (disturbed 2 0xFFFFFFFF 2 0 0).crc = crcSeed
      ∧ (disturbed 2 0x3000 2 0 0).errcode = .ok ∧ (disturbed 2 0xFFFF 2 0 0).errcode = .bus := by
  decide +kernel

/-- A state for each clause: idle with the three inputs; a running command whose destination ends with the byte; a
stale byte; an invalidation whose range ends with the byte; another master's write. -/
theorem witness_UncoherentStoresNeedACleaning :
    let s := { State.reset with
      cfg := { Config.default with dmaCoherent := false }
      inputs := [.store 0x10#32 1#8, .load 0x10#32, .clean ⟨0x10, 1⟩] }
    let u := { running 5 0x3000 16 1 16 [] with cfg := s.cfg }
    (s.cfg.dmaCoherent = false ∧ s.memoryCanonical ∧ s.busy = false
      ∧ ¬ (window s.cfg).contains (0x10#32).toNat = true
      ∧ s.inputs = .store 0x10#32 1#8 :: .load 0x10#32 :: .clean ⟨(0x10#32).toNat, 1⟩ :: []) ∧
    (u.memoryCanonical ∧ decode u.latch.cmd = .ok .aesEnc ∧ u.busy = true ∧ u.wait = 0 ∧ u.inputs = []
      ∧ (∃ t, step u = .next t) ∧ (destRange .aesEnc u.latch).contains (0x10#32).toNat = true) ∧
    (([⟨0x10, 1⟩] : List ByteRange).any fun r => r.contains (0x10#32).toNat) = true
      ∧ (⟨0, 0x11⟩ : ByteRange).contains (0x10#32).toNat = true ∧ s.inUse (0x10#32).toNat = false
      ∧ (s.unseenDest.any fun r => r.contains (0x10#32).toNat) = false :=
  ⟨⟨rfl, ⟨by decide, List.Pairwise.nil, fun p h => by cases h⟩, rfl, by decide, rfl⟩,
    ⟨⟨by decide, List.Pairwise.nil, fun p h => by cases h⟩, by decide, rfl, rfl, rfl, ⟨_, rfl⟩, by decide⟩,
    by decide⟩

end Sys2Proof.Tests
end

section
/-!
PROOF. The register window, one rule per access: the step that takes a listed input, a read of a register whose
value is specified, a write that rules R20, R22 and R38 say is ignored.
-/

namespace Sys2Proof.Machine

theorem step_of_inputs_cons {s : State} {input : Input} {rest : List Input} (h : s.inputs = input :: rest) :
    step s = State.takeInput { s with inputs := rest } input := by
  simp only [step, h]

@[simp] theorem State.takeInput_readReg (s : State) (offset : BitVec 8) (width : AccessWidth) :
    s.takeInput (.readReg offset width) = .next (s.readRegister offset width) := rfl

@[simp] theorem State.takeInput_writeReg (s : State) (offset : BitVec 8) (width : AccessWidth) (v : Word) :
    s.takeInput (.writeReg offset width v) = .next (s.writeRegister offset width v) := rfl

/-- The value is specified in every state, while a command runs too, at each offset but those of the result
registers and `CRC`. -/
theorem State.registerUnspecified_other (s : State) {offset : BitVec 8} (hresult : resultOffset offset = false)
    (hcrc : offset.toNat ≠ 0x24) : s.registerUnspecified offset = false := by
  simp [State.registerUnspecified, hresult, hcrc]

/-- `STATUS` is left out: by a read of it the host may see a command's end. -/
theorem State.readRegister_specified (s : State) {offset : BitVec 8} {width : AccessWidth}
    (hok : registerAccessOK offset width = true) (hspec : s.registerUnspecified offset = false)
    (hstatus : offset.toNat ≠ 0x08) :
    s.readRegister offset width = { s with response := .word (s.register offset) } := by
  simp [State.readRegister, hok, hspec, hstatus]

/-- The offsets whose register takes a host write (rule R20): `CTRL` and `STATUS`, then the operands and `CRC`. -/
def writableOffsets : List Nat := [0x04, 0x08, 0x0C, 0x10, 0x14, 0x18, 0x1C, 0x24, 0x28, 0x2C]

/-- Each named branch of `writeOperand` is at a writable offset; the one left keeps the state. -/
theorem State.writeOperand_ignored (s : State) {offset : BitVec 8} (hro : offset.toNat ∉ writableOffsets)
    (v : Word) : s.writeOperand offset v = s := by
  unfold State.writeOperand
  split
  · rfl
  · split <;> simp_all [writableOffsets]

theorem State.writeRegister_ignored (s : State) {offset : BitVec 8} {width : AccessWidth}
    (hok : registerAccessOK offset width = true) (hro : offset.toNat ∉ writableOffsets) (v : Word) :
    s.writeRegister offset width v = { s with response := .done } := by
  cases hheld : s.resetHeld with
  | true => simp [State.writeRegister, hok, hheld]
  | false =>
    have hoperand := State.writeOperand_ignored { s with response := .done } hro v
    simp only [State.writeRegister, hok, hheld]
    split <;> simp_all [writableOffsets]

end Sys2Proof.Machine
end

section
/-!
PROOF. The register `ID` (rule R22).
-/

namespace Sys2Proof.Proofs.Identification

open Sys2Proof Sys2Proof.Machine

/-- Settles O17: of `ID` the value is specified in every state, and its offset is none that takes a write. -/
theorem idReadsItsConstant : Obligations.IdReadsItsConstant := by
  intro s rest
  have hok : registerAccessOK 0x00#8 .word = true := by decide
  constructor
  · intro hin
    have hread := State.readRegister_specified { s with inputs := rest } hok
      (State.registerUnspecified_other _ (by decide) (by decide)) (by decide)
    rw [step_of_inputs_cons hin, State.takeInput_readReg, hread]
    rfl
  · intro v hin
    rw [step_of_inputs_cons hin, State.takeInput_writeReg, State.writeRegister_ignored _ hok (by decide)]

end Sys2Proof.Proofs.Identification
end

section
/-!
PROOF. The decoder by its fields (rules R80 to R83, R86): what the low bits of a word decide, and which words decode
alike.
-/

namespace Sys2Proof

theorem commandFields_op_toNat (w : Word) : (commandFields w).op.toNat = (w &&& 0xF#32).toNat := by
  have hmask : w.toNat &&& 15 = w.toNat % 2 ^ 4 := Nat.and_two_pow_sub_one_eq_mod w.toNat 4
  simp [commandFields, hmask]

theorem commandFields_and (w m : Word) :
    commandFields (w &&& m) =
      ⟨(commandFields w).op &&& (commandFields m).op, (commandFields w).crypt && (commandFields m).crypt,
        (commandFields w).validate && (commandFields m).validate,
        (commandFields w).disc && (commandFields m).disc⟩ := by
  simp [commandFields, BitVec.extractLsb'_and]

/-- The two things the decoder can do: the map of rule R81 on 0 to 8, the rejection of rule R83 on the rest. -/
theorem decode_cases (w : Word) :
    (w &&& 0xF#32).toNat ≤ 8 ∧ (∃ i, decode w = .ok i) ∨
      9 ≤ (w &&& 0xF#32).toNat ∧ decode w = .error (.reservedOpcode (commandFields w).op) := by
  rw [← commandFields_op_toNat]
  unfold decode
  dsimp only
  split <;> simp_all
  -- What is left is the decoder's last arm, whose `OP` is none of 0 to 8.
  omega

theorem decode_ok_of_op_le {w : Word} (hop : (w &&& 0xF#32).toNat ≤ 8) : ∃ i, decode w = .ok i := by
  rcases decode_cases w with ⟨_, hdec⟩ | ⟨hres, _⟩
  · exact hdec
  · omega

theorem decode_reserved {w : Word} (hop : 9 ≤ (w &&& 0xF#32).toNat) :
    decode w = .error (.reservedOpcode (commandFields w).op) := by
  rcases decode_cases w with ⟨hle, _⟩ | ⟨_, hdec⟩
  · omega
  · exact hdec

/-- The mask keeps `OP` and the flags that the decoder looks at for that `OP`. -/
theorem decode_and_readMask {w : Word} {i : Instr} (h : decode w = .ok i) :
    decode (w &&& i.readMask) = .ok i := by
  have hop : (commandFields w).op &&& 0xF#4 = (commandFields w).op := BitVec.and_allOnes
  unfold decode at h ⊢
  rw [commandFields_and]
  dsimp only at h ⊢
  split at h <;> cases h <;> simp_all [Instr.readMask, commandFields]

end Sys2Proof
end

section
/-!
PROOF. What an end of a command leaves and what it keeps (rules R42, R242, R243).
-/

namespace Sys2Proof.Machine

theorem State.finish_endedWith (s : State) (out : Outputs) (code : ErrCode) (addr : Word) :
    (s.finish out code addr).EndedWith code addr :=
  ⟨rfl, rfl, rfl, rfl⟩

theorem State.finish_resultsAre (s : State) (out : Outputs) (code : ErrCode) (addr : Word) :
    (s.finish out code addr).ResultsAre out.reslen out.maxv out.minv out.diffcnt :=
  ⟨rfl, rfl, rfl, rfl⟩

theorem State.finish_flagsAre (s : State) (out : Outputs) (code : ErrCode) (addr : Word) :
    (s.finish out code addr).FlagsAre out.crcok out.cntok out.s24ovf :=
  ⟨rfl, rfl, rfl⟩

theorem State.finish_sameMemory (s : State) (out : Outputs) (code : ErrCode) (addr : Word) :
    SameMemory s (s.finish out code addr) := fun _ => rfl

theorem State.finish_sameKeys (s : State) (out : Outputs) (code : ErrCode) (addr : Word) :
    SameKeys s (s.finish out code addr) :=
  ⟨rfl, rfl⟩

theorem State.finish_sameRest (s : State) (out : Outputs) (code : ErrCode) (addr : Word) :
    SameRest s (s.finish out code addr) := by
  simp [SameRest]

end Sys2Proof.Machine
end

section
/-!
PROOF. The step in which the engine takes its turn: with no input listed, by `.engine`, and after the read of
`STATUS` of `.waitIdle` (rules R88, R248).
-/

namespace Sys2Proof.Machine

theorem step_of_inputs_nil {s : State} (h : s.inputs = []) : step s = s.engineStep := by
  simp only [step, h]

theorem step_of_inputs_engine {s : State} {rest : List Input} (h : s.inputs = .engine :: rest) :
    step s = State.engineStep { s with inputs := rest } :=
  step_of_inputs_cons h

/-- The wait stays the next input. -/
theorem step_of_inputs_waitIdle {s : State} {rest : List Input} (h : s.inputs = .waitIdle :: rest)
    (hbusy : s.busy = true) :
    step s = State.engineStep { s with response := .word s.statusWord } := by
  rw [step_of_inputs_cons h, State.takeInput, State.waitStep, if_pos hbusy, ← h]
  rfl

theorem State.engineStep_of_wait_zero {s : State} (hbusy : s.busy = true) (hwait : s.wait = 0) :
    s.engineStep = s.commandEnd := by
  simp [State.engineStep, hbusy, hwait]

theorem State.engineStep_reserved {s : State} (hbusy : s.busy = true) (hwait : s.wait = 0)
    (hop : 9 ≤ (s.latch.cmd &&& 0xF#32).toNat) : s.engineStep = .next (s.raiseError .op 0 0) := by
  rw [State.engineStep_of_wait_zero hbusy hwait, State.commandEnd, decode_reserved hop]

end Sys2Proof.Machine
end

section
/-!
PROOF. The word of the latched command: a command's end looks at it through the decoder only (rules R24, R82).
-/

namespace Sys2Proof.Machine

/-- The state with another word latched for the running command. -/
def State.withLatchedCmd (s : State) (w : Word) : State := { s with latch := { s.latch with cmd := w } }

section Fields

variable (s : State) (w : Word)

@[simp] theorem State.withLatchedCmd_cfg : (s.withLatchedCmd w).cfg = s.cfg := rfl
@[simp] theorem State.withLatchedCmd_mem : (s.withLatchedCmd w).mem = s.mem := rfl
@[simp] theorem State.withLatchedCmd_disturbed : (s.withLatchedCmd w).disturbed = s.disturbed := rfl
@[simp] theorem State.withLatchedCmd_latch : (s.withLatchedCmd w).latch = { s.latch with cmd := w } := rfl
@[simp] theorem State.withLatchedCmd_tableKey (crypt : Bool) :
    (s.withLatchedCmd w).tableKey crypt = s.tableKey crypt := rfl
@[simp] theorem State.withLatchedCmd_clearKeys :
    (s.withLatchedCmd w).clearKeys = s.clearKeys.withLatchedCmd w := rfl
@[simp] theorem State.withLatchedCmd_loadKeys (k : Block) :
    (s.withLatchedCmd w).loadKeys k = (s.loadKeys k).withLatchedCmd w := rfl
theorem State.withLatchedCmd_crc_update (c : Word) :
    { s.withLatchedCmd w with crc := c } = State.withLatchedCmd { s with crc := c } w := rfl
theorem State.withLatchedCmd_mem_update (m : Memory) :
    { s.withLatchedCmd w with mem := m } = State.withLatchedCmd { s with mem := m } w := rfl
@[simp] theorem State.withLatchedCmd_readUnsteady (r : ByteRange) :
    (s.withLatchedCmd w).readUnsteady r = (s.readUnsteady r).withLatchedCmd w := rfl
@[simp] theorem segmentCheck_withLatchedCmd : segmentCheck (s.withLatchedCmd w) = segmentCheck s := rfl
@[simp] theorem redEncCheck_withLatchedCmd (crypt : Bool) :
    redEncCheck crypt (s.withLatchedCmd w) = redEncCheck crypt s := rfl
@[simp] theorem redDecCheck_withLatchedCmd (crypt : Bool) :
    redDecCheck crypt (s.withLatchedCmd w) = redDecCheck crypt s := rfl
@[simp] theorem Latch.blockTime_cmd (l : Latch) : Latch.blockTime { l with cmd := w } = l.blockTime := rfl
@[simp] theorem sourceRange_cmd (i : Instr) (l : Latch) :
    sourceRange i { l with cmd := w } = sourceRange i l := by cases i <;> rfl
@[simp] theorem destRange_cmd (i : Instr) (l : Latch) :
    destRange i { l with cmd := w } = destRange i l := by cases i <;> rfl
@[simp] theorem writtenRange_cmd (i : Instr) (l : Latch) :
    writtenRange i { l with cmd := w } = writtenRange i l := by simp [writtenRange]

end Fields

/-- The word names the same destination for the command, the one thing that the end keeps of it (rule R274). -/
def State.SameDest (s : State) (w : Word) : Prop := (s.withLatchedCmd w).latch.dest = s.latch.dest

section Ends

variable {s : State} {w : Word}

theorem State.sameDest_of_decode {i : Instr} (hs : decode s.latch.cmd = .ok i) (hw : decode w = .ok i) :
    s.SameDest w := by
  simp [State.SameDest, Latch.dest, hs, hw]

theorem State.finish_withLatchedCmd (h : s.SameDest w) (out : Outputs) (code : ErrCode) (addr : Word) :
    (s.withLatchedCmd w).finish out code addr = s.finish out code addr := by
  unfold State.finish
  rw [h]
  rfl

theorem State.complete_withLatchedCmd (h : s.SameDest w) (out : Outputs) :
    (s.withLatchedCmd w).complete out = s.complete out :=
  State.finish_withLatchedCmd h _ _ _

theorem State.raiseError_withLatchedCmd (h : s.SameDest w) (code : ErrCode) (addr reslen : Nat) :
    (s.withLatchedCmd w).raiseError code addr reslen = s.raiseError code addr reslen :=
  State.finish_withLatchedCmd h _ _ _

theorem State.failScrambled_withLatchedCmd (h : s.SameDest w) (code : ErrCode) (addr : Nat) :
    (s.withLatchedCmd w).failScrambled code addr = s.failScrambled code addr :=
  State.raiseError_withLatchedCmd (s := s.scramble ⟨s.latch.dst.toNat, s.latch.dstlen.toNat⟩) h _ _ _

theorem execCrcUpdate_withLatchedCmd (h : s.SameDest w) :
    execCrcUpdate (s.withLatchedCmd w) = execCrcUpdate s := by
  have hcrc (c : Word) : State.SameDest { s with crc := c } w := h
  simp only [execCrcUpdate, ↓State.withLatchedCmd_crc_update, State.raiseError_withLatchedCmd h,
    State.raiseError_withLatchedCmd (hcrc _), State.complete_withLatchedCmd (hcrc _),
    State.withLatchedCmd_cfg, State.withLatchedCmd_mem, State.withLatchedCmd_latch]

theorem execKeyLoad_withLatchedCmd (h : s.SameDest w) :
    execKeyLoad (s.withLatchedCmd w) = execKeyLoad s := by
  have hclear : s.clearKeys.SameDest w := h
  have hload (k : Block) : (s.loadKeys k).SameDest w := h
  simp only [execKeyLoad, State.withLatchedCmd_clearKeys, State.withLatchedCmd_loadKeys,
    State.raiseError_withLatchedCmd h, State.raiseError_withLatchedCmd hclear,
    State.complete_withLatchedCmd (hload _), State.withLatchedCmd_cfg, State.withLatchedCmd_mem,
    State.withLatchedCmd_latch]

theorem segmentCommand_withLatchedCmd (h : s.SameDest w) (f : Block → Block) :
    segmentCommand f (s.withLatchedCmd w) = segmentCommand f s := by
  have hmem (m : Memory) : State.SameDest { s with mem := m } w := h
  simp only [segmentCommand, segmentCheck_withLatchedCmd, ↓State.withLatchedCmd_mem_update,
    State.raiseError_withLatchedCmd h, State.raiseError_withLatchedCmd (hmem _),
    State.complete_withLatchedCmd (hmem _), State.withLatchedCmd_cfg, State.withLatchedCmd_mem,
    State.withLatchedCmd_latch]

theorem execRedEnc_withLatchedCmd (h : s.SameDest w) (crypt disc : Bool) :
    execRedEnc crypt disc (s.withLatchedCmd w) = execRedEnc crypt disc s := by
  have hmem (m : Memory) : State.SameDest { s with mem := m } w := h
  simp only [execRedEnc, redEncCheck_withLatchedCmd, ↓State.withLatchedCmd_mem_update,
    State.raiseError_withLatchedCmd h, State.failScrambled_withLatchedCmd h,
    State.complete_withLatchedCmd (hmem _), State.withLatchedCmd_cfg, State.withLatchedCmd_mem,
    State.withLatchedCmd_latch, State.withLatchedCmd_tableKey, Latch.blockTime_cmd]

theorem redDecBlock_withLatchedCmd (h : s.SameDest w) (validate : Bool) (blk : List Byte) (cnt : List Nat) :
    redDecBlock validate blk cnt (s.withLatchedCmd w) = redDecBlock validate blk cnt s := by
  have hmem (m : Memory) : State.SameDest { s with mem := m } w := h
  simp only [redDecBlock, ↓State.withLatchedCmd_mem_update, State.raiseError_withLatchedCmd h,
    State.failScrambled_withLatchedCmd h, State.complete_withLatchedCmd (hmem _),
    State.withLatchedCmd_cfg, State.withLatchedCmd_mem, State.withLatchedCmd_latch]

theorem execRedDec_withLatchedCmd (h : s.SameDest w) (crypt validate : Bool) :
    execRedDec crypt validate (s.withLatchedCmd w) = execRedDec crypt validate s := by
  simp only [execRedDec, redDecCheck_withLatchedCmd, State.raiseError_withLatchedCmd h,
    redDecBlock_withLatchedCmd h, State.withLatchedCmd_cfg, State.withLatchedCmd_mem,
    State.withLatchedCmd_latch, State.withLatchedCmd_tableKey]

/-- The meaning of a command does not look at the word it was decoded from. -/
theorem exec_withLatchedCmd (h : s.SameDest w) (i : Instr) : exec i (s.withLatchedCmd w) = exec i s := by
  cases i with
  | nop => exact congrArg Host.Outcome.next (State.complete_withLatchedCmd h _)
  | crcInit => exact congrArg Host.Outcome.next (State.complete_withLatchedCmd (s := { s with crc := crcSeed }) h _)
  | crcUpdate => exact execCrcUpdate_withLatchedCmd h
  | keyLoad => exact execKeyLoad_withLatchedCmd h
  | keyClear => exact congrArg Host.Outcome.next (State.complete_withLatchedCmd (s := s.clearKeys) h _)
  | aesEnc => exact congrArg Host.Outcome.next (segmentCommand_withLatchedCmd h _)
  | aesDec => exact congrArg Host.Outcome.next (segmentCommand_withLatchedCmd h _)
  | redEnc crypt disc => exact execRedEnc_withLatchedCmd h crypt disc
  | redDec crypt validate => exact execRedDec_withLatchedCmd h crypt validate

theorem State.disturbedEnd_withLatchedCmd (h : s.SameDest w) (i : Instr) :
    (s.withLatchedCmd w).disturbedEnd i = s.disturbedEnd i := by
  have hread : (s.readUnsteady (sourceRange i s.latch)).SameDest w := h
  simp only [State.disturbedEnd, State.withLatchedCmd_latch, sourceRange_cmd, writtenRange_cmd,
    State.withLatchedCmd_readUnsteady, exec_withLatchedCmd hread]
  rfl

/-- Words that decode alike end alike. -/
theorem State.commandEnd_withLatchedCmd {i : Instr} (hs : decode s.latch.cmd = .ok i) (hw : decode w = .ok i) :
    (s.withLatchedCmd w).commandEnd = s.commandEnd := by
  have hdest : s.SameDest w := State.sameDest_of_decode hs hw
  simp only [State.commandEnd, State.withLatchedCmd_latch, State.withLatchedCmd_disturbed, hs, hw,
    destRange_cmd, State.disturbedEnd_withLatchedCmd hdest, exec_withLatchedCmd hdest]

end Ends

end Sys2Proof.Machine
end

section
/-!
PROOF. The encoding's statements about the machine: ignored flags, reserved opcodes, `NOP` (rules R82, R83, R87).
-/

namespace Sys2Proof.Proofs.Encoding

open Sys2Proof Sys2Proof.Machine

theorem readMask_flags (i : Instr) :
    (i.readMask.getLsbD 8 = true ↔ (∃ c d, i = .redEnc c d) ∨ ∃ c v, i = .redDec c v) ∧
    (i.readMask.getLsbD 9 = true ↔ ∃ c v, i = .redDec c v) ∧
    (i.readMask.getLsbD 10 = true ↔ ∃ c d, i = .redEnc c d) := by
  cases i <;> simp [Instr.readMask]

/-- Settles O4: the masked word decodes to the same command, and the end looks at the word through the decoder
only. -/
theorem unreadFlagsAreIgnored : Obligations.UnreadFlagsAreIgnored :=
  ⟨readMask_flags, fun _ _ h => State.commandEnd_withLatchedCmd h (decode_and_readMask h),
    fun _ => decode_ok_of_op_le⟩

/-- Settles O5: in each of the three forms the engine takes its turn in `u`, which has the latch of `s`. -/
theorem reservedOpcodeEndsWithErrOp : Obligations.ReservedOpcodeEndsWithErrOp := by
  intro s u hinputs hbusy hwait hop
  have hend : step s = .next (u.raiseError .op 0 0) := by
    rcases hinputs with ⟨hnil, rfl⟩ | ⟨rest, hengine, rfl⟩ | ⟨rest, hidle, rfl⟩
    · exact (step_of_inputs_nil hnil).trans (State.engineStep_reserved hbusy hwait hop)
    · exact (step_of_inputs_engine hengine).trans (State.engineStep_reserved hbusy hwait hop)
    · exact (step_of_inputs_waitIdle hidle hbusy).trans (State.engineStep_reserved hbusy hwait hop)
  exact ⟨_, hend, State.finish_endedWith .., State.finish_resultsAre .., State.finish_flagsAre ..,
    State.finish_sameMemory _ _ _ _, State.finish_sameKeys .., rfl, State.finish_sameRest ..⟩

/-- Settles O24: `NOP` is the successful end and nothing else; the rule's example is run. -/
theorem nopCompletes : Obligations.NopCompletes := by
  constructor
  · intro s
    exact ⟨_, rfl, State.finish_endedWith .., State.finish_resultsAre .., State.finish_flagsAre ..,
      State.finish_sameMemory _ _ _ _, State.finish_sameKeys .., rfl, State.finish_sameRest ..⟩
  · exact ⟨_, rfl, by decide, rfl⟩

end Sys2Proof.Proofs.Encoding
end

section
/-!
PROOF. `CRC_INIT` and `CRC_UPDATE` (rules R104, R105): each way the command ends, and what that end leaves.
-/

namespace Sys2Proof.Machine

theorem rangeOK_iff (a n : Nat) : rangeOK a n = true ↔ a + n ≤ 2 ^ 32 := by
  simp [rangeOK, addressLimit]

section Ends

variable {s : State}

theorem execCrcUpdate_of_wraps (h : 2 ^ 32 < s.latch.src.toNat + s.latch.srclen.toNat) :
    execCrcUpdate s = .next (s.raiseError .len 0 0) := by
  have hrange : rangeOK s.latch.src.toNat s.latch.srclen.toNat = false :=
    Bool.eq_false_iff.2 fun hok => Nat.not_le.2 h ((rangeOK_iff _ _).1 hok)
  simp [execCrcUpdate, hrange]

theorem execCrcUpdate_of_allDmaOK (h : s.latch.src.toNat + s.latch.srclen.toNat ≤ 2 ^ 32)
    (hread : AllDmaOK s.cfg .read s.latch.src.toNat s.latch.srclen.toNat) :
    execCrcUpdate s = .next (State.complete
      { s with crc := crcUpdate s.cfg s.latch.crc (s.mem.readBytes s.latch.src.toNat s.latch.srclen.toNat) }
      { reslen := s.latch.srclen }) := by
  simp [execCrcUpdate, (rangeOK_iff _ _).2 h, (firstFailing_none_iff _ _ _ _).2 hread, Outputs.bytes, toWord]

theorem execCrcUpdate_of_firstBad {e : Nat} (h : s.latch.src.toNat + s.latch.srclen.toNat ≤ 2 ^ 32)
    (hbad : FirstBad s.cfg .read s.latch.src.toNat s.latch.srclen.toNat e) :
    execCrcUpdate s = .next (State.raiseError
      { s with crc := crcUpdate s.cfg s.latch.crc (s.mem.readBytes s.latch.src.toNat (e - s.latch.src.toNat)) }
      .bus e (e - s.latch.src.toNat)) := by
  simp [execCrcUpdate, (rangeOK_iff _ _).2 h, (firstFailing_some_iff _ _ _ _ _).2 hbad]

end Ends

/-- Each end of the two commands writes `CRC`, `RESLEN`, the outcome and the error address, and nothing else. -/
theorem State.finish_crc_reslen (s : State) (c n : Word) (code : ErrCode) (addr : Word) :
    let t := State.finish { s with crc := c } { reslen := n } code addr
    t.crc = c ∧ t.EndedWith code addr ∧ t.ResultsAre n 0#32 0#32 0#32 ∧ t.FlagsAre false false false
      ∧ SameMemory s t ∧ SameKeys s t ∧ SameRest s t :=
  ⟨rfl, State.finish_endedWith .., State.finish_resultsAre .., State.finish_flagsAre ..,
    State.finish_sameMemory { s with crc := c } _ _ _, State.finish_sameKeys { s with crc := c } ..,
    State.finish_sameRest { s with crc := c } ..⟩

end Sys2Proof.Machine
end

section
/-!
PROOF. The CRC as eight turns a byte (rules R101, R102). A turn is linear over exclusive or, so the table lookup of
`crc_step` is eight turns of the CRC with the byte put into its outgoing end; and a turn loses nothing when the
polynomial has its `x^0` bit.
-/

namespace Sys2Proof.Machine

theorem ite_xor_poly_xor (poly u v : Word) (p q : Bool) :
    (if p ^^ q then u ^^^ v ^^^ poly else u ^^^ v)
      = (if p then u ^^^ poly else u) ^^^ (if q then v ^^^ poly else v) := by
  have hcancel : u ^^^ poly ^^^ (v ^^^ poly) = u ^^^ v ^^^ (poly ^^^ poly) := by ac_rfl
  cases p <;> cases q <;> simp [hcancel] <;> ac_rfl

theorem ite_xor_poly_inj (poly u v : Word) (p : Bool) :
    ((if p then u ^^^ poly else u) = if p then v ^^^ poly else v) ↔ u = v := by
  cases p <;> simp

theorem crcTurnReflected_xor (poly a b : Word) :
    crcTurnReflected poly (a ^^^ b) = crcTurnReflected poly a ^^^ crcTurnReflected poly b := by
  simp only [crcTurnReflected, BitVec.getLsbD_xor, BitVec.ushiftRight_xor_distrib, ite_xor_poly_xor]

theorem crcTurnNormal_xor (poly a b : Word) :
    crcTurnNormal poly (a ^^^ b) = crcTurnNormal poly a ^^^ crcTurnNormal poly b := by
  simp only [crcTurnNormal, BitVec.getLsbD_xor, BitVec.shiftLeft_xor_distrib, ite_xor_poly_xor]

/-- The shift clears bit 31, so the `x^0` bit of the polynomial records there the bit that was shifted out. -/
theorem getLsbD_crcTurnReflected {poly : Word} (hpoly : poly.getLsbD 31 = true) (c : Word) :
    (crcTurnReflected poly c).getLsbD 31 = c.getLsbD 0 := by
  unfold crcTurnReflected
  split <;> simp_all

theorem getLsbD_crcTurnNormal {poly : Word} (hpoly : poly.getLsbD 0 = true) (c : Word) :
    (crcTurnNormal poly c).getLsbD 0 = c.getLsbD 31 := by
  unfold crcTurnNormal
  split <;> simp_all

theorem crcTurnReflected_injective {poly : Word} (hpoly : poly.getLsbD 31 = true) :
    Function.Injective (crcTurnReflected poly) := by
  intro a b h
  have hout : a.getLsbD 0 = b.getLsbD 0 := by
    rw [← getLsbD_crcTurnReflected hpoly, h, getLsbD_crcTurnReflected hpoly]
  have hrest : a >>> 1 = b >>> 1 := by
    rwa [crcTurnReflected, crcTurnReflected, hout, ite_xor_poly_inj] at h
  refine BitVec.eq_of_getLsbD_eq fun i hi => ?_
  cases i with
  | zero => exact hout
  | succ i =>
    have hbit := congrArg (BitVec.getLsbD · i) hrest
    rwa [BitVec.getLsbD_ushiftRight, BitVec.getLsbD_ushiftRight, Nat.add_comm] at hbit

theorem crcTurnNormal_injective {poly : Word} (hpoly : poly.getLsbD 0 = true) :
    Function.Injective (crcTurnNormal poly) := by
  intro a b h
  have hout : a.getLsbD 31 = b.getLsbD 31 := by
    rw [← getLsbD_crcTurnNormal hpoly, h, getLsbD_crcTurnNormal hpoly]
  have hrest : a <<< 1 = b <<< 1 := by
    rwa [crcTurnNormal, crcTurnNormal, hout, ite_xor_poly_inj] at h
  refine BitVec.eq_of_getElem_eq fun i hi => ?_
  rcases Nat.lt_or_eq_of_le (Nat.le_of_lt_succ hi) with hlt | rfl
  · have hbit := congrArg (BitVec.getLsbD · (i + 1)) hrest
    simpa [show i + 1 < 32 by omega] using hbit
  · simpa using hout

theorem repeatTurns_xor {body : Word → Word} (hbody : ∀ a b, body (a ^^^ b) = body a ^^^ body b) (n : Nat) :
    ∀ a b, repeatTurns n body (a ^^^ b) = repeatTurns n body a ^^^ repeatTurns n body b := by
  induction n with
  | zero => intro a b; rfl
  | succ n ih => intro a b; simp only [repeatTurns, hbody, ih]

theorem repeatTurns_injective {body : Word → Word} (hbody : Function.Injective body) (n : Nat) :
    Function.Injective (repeatTurns n body) := by
  induction n with
  | zero => exact Function.injective_id
  | succ n ih => exact ih.comp hbody

/-- While only zeros leave the word, its turns are shifts. -/
theorem repeatTurns_crcTurnReflected_of_low_zero (poly : Word) (n : Nat) :
    ∀ c : Word, (∀ i < n, c.getLsbD i = false) → repeatTurns n (crcTurnReflected poly) c = c >>> n := by
  induction n with
  | zero => intro c _; simp [repeatTurns]
  | succ n ih =>
    intro c h
    have hturn : crcTurnReflected poly c = c >>> 1 := if_neg (by simpa using h 0 (by omega))
    have hnext : ∀ i < n, (c >>> 1).getLsbD i = false := fun i hi => by
      rw [BitVec.getLsbD_ushiftRight, Nat.add_comm]
      exact h (i + 1) (by omega)
    rw [repeatTurns, hturn, ih _ hnext, ← BitVec.shiftRight_add, Nat.add_comm]

theorem repeatTurns_crcTurnNormal_of_high_zero (poly : Word) (n : Nat) :
    ∀ c : Word, (∀ i < n, c.getMsbD i = false) → repeatTurns n (crcTurnNormal poly) c = c <<< n := by
  induction n with
  | zero => intro c _; simp [repeatTurns]
  | succ n ih =>
    intro c h
    have hturn : crcTurnNormal poly c = c <<< 1 := if_neg (by simpa [BitVec.getMsbD] using h 0 (by omega))
    have hnext : ∀ i < n, (c <<< 1).getMsbD i = false := fun i hi => by
      rw [BitVec.getMsbD_shiftLeft]
      exact h (i + 1) (by omega)
    rw [repeatTurns, hturn, ih _ hnext, ← BitVec.shiftLeft_add, Nat.add_comm]

/-- The turn of the table loop in the configured orientation. -/
def crcTurn (cfg : Config) : Word → Word :=
  if cfg.crcReflected then crcTurnReflected cfg.crcPoly else crcTurnNormal cfg.crcPoly

/-- The byte placed where the turns shift bits out: at the low end if reflected, at the high end if not. -/
def crcAlign (cfg : Config) (b : Byte) : Word :=
  if cfg.crcReflected then b.zeroExtend 32 else b.zeroExtend 32 <<< 24

theorem crcAlign_injective (cfg : Config) : Function.Injective (crcAlign cfg) := by
  intro b b' h
  refine BitVec.eq_of_getLsbD_eq fun i hi => ?_
  unfold crcAlign at h
  split at h
  · have hbit := congrArg (BitVec.getLsbD · i) h
    simpa [hi, show i < 32 by omega] using hbit
  · have hbit := congrArg (BitVec.getLsbD · (i + 24)) h
    simpa [hi, show i + 24 < 32 by omega] using hbit

theorem crcTurn_injective {cfg : Config}
    (hpoly : cfg.crcPoly.getLsbD (if cfg.crcReflected then 31 else 0) = true) :
    Function.Injective (crcTurn cfg) := by
  cases hcfg : cfg.crcReflected with
  | true =>
    rw [hcfg] at hpoly
    simpa [crcTurn, hcfg] using crcTurnReflected_injective hpoly
  | false =>
    rw [hcfg] at hpoly
    simpa [crcTurn, hcfg] using crcTurnNormal_injective hpoly

theorem repeatTurns_xor_low_byte (poly c : Word) :
    repeatTurns 8 (crcTurnReflected poly) (c ^^^ (c.truncate 8).zeroExtend 32) = c >>> 8 := by
  have hlow : ∀ i < 8, (c ^^^ (c.truncate 8).zeroExtend 32).getLsbD i = false := fun i hi => by
    simp [hi, show i < 32 by omega]
  have hbyte : (c.truncate 8).zeroExtend 32 >>> 8 = 0#32 := BitVec.eq_of_getLsbD_eq fun i _ => by simp
  rw [repeatTurns_crcTurnReflected_of_low_zero _ _ _ hlow, BitVec.ushiftRight_xor_distrib, hbyte, BitVec.xor_zero]

theorem repeatTurns_xor_high_byte (poly c : Word) :
    repeatTurns 8 (crcTurnNormal poly) (c ^^^ ((c >>> 24).truncate 8).zeroExtend 32 <<< 24) = c <<< 8 := by
  have hhigh : ∀ i < 8, (c ^^^ ((c >>> 24).truncate 8).zeroExtend 32 <<< 24).getMsbD i = false := fun i hi => by
    have hindex : 24 + (31 - i - 24) = 31 - i := by omega
    have hrange : ¬ 31 - i < 24 ∧ 31 - i - 24 < 8 := by omega
    simp [BitVec.getMsbD, hindex, hrange, show 31 - i < 32 by omega, show 31 - i - 24 < 32 by omega]
  have hbyte : ((c >>> 24).truncate 8).zeroExtend 32 <<< 24 <<< 8 = 0#32 :=
    BitVec.eq_of_getLsbD_eq fun i _ => by simp
  rw [repeatTurns_crcTurnNormal_of_high_zero _ _ _ hhigh, BitVec.shiftLeft_xor_distrib, hbyte, BitVec.xor_zero]

/-- What was split off the word for the lookup is taken back in by linearity. -/
theorem repeatTurns_split {body : Word → Word} (hbody : ∀ a b, body (a ^^^ b) = body a ^^^ body b) (n : Nat)
    (c out x : Word) :
    repeatTurns n body (out ^^^ x) ^^^ repeatTurns n body (c ^^^ out) = repeatTurns n body (c ^^^ x) := by
  have hcancel : out ^^^ x ^^^ (c ^^^ out) = c ^^^ x ^^^ (out ^^^ out) := by ac_rfl
  rw [← repeatTurns_xor hbody, hcancel, BitVec.xor_self, BitVec.xor_zero]

/-- The CRC is its outgoing byte, whose turns are looked up together with `b`, and the rest, whose eight turns are a
shift. -/
theorem crcStep_eq_repeatTurns (cfg : Config) (c : Word) (b : Byte) :
    crcStep cfg c b = repeatTurns 8 (crcTurn cfg) (c ^^^ crcAlign cfg b) := by
  cases hcfg : cfg.crcReflected with
  | true =>
    simp only [crcStep, crcTable, crcTurn, crcAlign, hcfg, if_true]
    rw [← repeatTurns_xor_low_byte cfg.crcPoly c]
    simp only [BitVec.zeroExtend_eq_setWidth, BitVec.setWidth_xor]
    exact repeatTurns_split (crcTurnReflected_xor _) 8 c _ _
  | false =>
    simp only [crcStep, crcTable, crcTurn, crcAlign, hcfg, Bool.false_eq_true, if_false]
    rw [← repeatTurns_xor_high_byte cfg.crcPoly c]
    simp only [BitVec.zeroExtend_eq_setWidth, BitVec.setWidth_xor, BitVec.shiftLeft_xor_distrib]
    exact repeatTurns_split (crcTurnNormal_xor _) 8 c _ _

theorem crcStep_left_injective {cfg : Config} (hturn : Function.Injective (crcTurn cfg)) (b : Byte) :
    Function.Injective (crcStep cfg · b) := by
  intro c c' h
  simp only [crcStep_eq_repeatTurns] at h
  exact (BitVec.xor_left_inj _).1 (repeatTurns_injective hturn 8 h)

theorem crcStep_right_injective {cfg : Config} (hturn : Function.Injective (crcTurn cfg)) (c : Word) :
    Function.Injective (crcStep cfg c) := by
  intro b b' h
  simp only [crcStep_eq_repeatTurns] at h
  exact crcAlign_injective cfg ((BitVec.xor_right_inj _).1 (repeatTurns_injective hturn 8 h))

theorem crcUpdate_left_injective {cfg : Config} (hturn : Function.Injective (crcTurn cfg)) (bytes : List Byte) :
    Function.Injective (crcUpdate cfg · bytes) := by
  induction bytes with
  | nil => exact Function.injective_id
  | cons b bytes ih => exact ih.comp (crcStep_left_injective hturn b)

theorem crc32_append_cons (cfg : Config) (before after : List Byte) (b : Byte) :
    crc32 cfg (before ++ b :: after) = crcUpdate cfg (crcStep cfg (crc32 cfg before) b) after := by
  simp [crc32, crcUpdate]

end Sys2Proof.Machine
end

section
/-!
PROOF. The checksum engine's statements (rules R104, R105, R107, R108).
-/

namespace Sys2Proof.Proofs.Checksum

open Sys2Proof Sys2Proof.Machine

/-- Settles O26: the check of the range, then the search for a byte that cannot be read, decides between three ends. -/
theorem crcUpdateFoldsTheRange : Obligations.CrcUpdateFoldsTheRange := by
  refine ⟨by decide, fun s => ⟨fun hrange hread => ?_, fun hwraps => ?_, fun e hrange hbad => ?_⟩⟩
  · exact ⟨_, execCrcUpdate_of_allDmaOK hrange hread, State.finish_crc_reslen s _ s.latch.srclen .ok 0#32⟩
  · exact ⟨_, execCrcUpdate_of_wraps hwraps, State.finish_crc_reslen s s.crc 0#32 .len 0#32⟩
  · exact ⟨_, execCrcUpdate_of_firstBad hrange hbad, State.finish_crc_reslen s _ _ .bus (toWord e)⟩

/-- Settles O27: up to the changed byte the CRCs agree, that byte's step tells them apart, and the steps after it keep
them apart. -/
theorem crcDetectsOneChangedByte : Obligations.CrcDetectsOneChangedByte := by
  intro cfg before after b b' hpoly hne hsame
  have hturn := crcTurn_injective hpoly
  rw [crc32_append_cons, crc32_append_cons] at hsame
  exact hne (crcStep_right_injective hturn _ (crcUpdate_left_injective hturn after hsame))

/-- Settles O25: `CRC_INIT` is the successful end with the seed in `CRC`. -/
theorem crcInitSeedsTheRegister : Obligations.CrcInitSeedsTheRegister :=
  ⟨by decide, fun s => ⟨_, rfl, State.finish_crc_reslen s crcSeed 0#32 .ok 0#32⟩⟩

/-- Settles O28: the values are closed, and the kernel evaluates the model's table and checksums to them. -/
theorem defaultCrcTable : Obligations.DefaultCrcTable := by
  refine ⟨?table, ?checkValues⟩
  case table => decide +kernel
  case checkValues => decide +kernel

end Sys2Proof.Proofs.Checksum
end

section
/-!
PROOF. `KEY_LOAD` and `KEY_CLEAR` (rules R131 to R133): the password in memory, the key it is padded to, each way the
commands end, and what that end leaves.
-/

namespace Sys2Proof.Machine

/-- The bytes before the first 0x00 among the `m` bytes from `a` on (rule R131). -/
def Memory.password (mem : Memory) (a m : Nat) : List Byte :=
  (mem.readBytes a m).takeWhile fun b => b != 0x00#8

/-- The number of bytes that rule R131 reads: the password and, if it is there, the 0x00 that ends it. -/
def Memory.passwordReads (mem : Memory) (a m : Nat) : Nat := min ((mem.password a m).length + 1) m

theorem Memory.password_succ_of_zero {mem : Memory} {a : Nat} (h : mem.read a = 0x00#8) (m : Nat) :
    mem.password a (m + 1) = [] := by
  simp [password, readBytes, h]

theorem Memory.password_succ_of_ne_zero {mem : Memory} {a : Nat} (h : mem.read a ≠ 0x00#8) (m : Nat) :
    mem.password a (m + 1) = mem.read a :: mem.password (a + 1) m := by
  simp [password, readBytes, h]

theorem Memory.passwordReads_succ_of_zero {mem : Memory} {a : Nat} (h : mem.read a = 0x00#8) (m : Nat) :
    mem.passwordReads a (m + 1) = 1 := by
  simp [passwordReads, password_succ_of_zero h]

theorem Memory.passwordReads_succ_of_ne_zero {mem : Memory} {a : Nat} (h : mem.read a ≠ 0x00#8) (m : Nat) :
    mem.passwordReads a (m + 1) = mem.passwordReads (a + 1) m + 1 := by
  simp [passwordReads, password_succ_of_ne_zero h]

theorem Memory.length_password_le (mem : Memory) (a m : Nat) : (mem.password a m).length ≤ m :=
  (List.takeWhile_prefix _).length_le.trans_eq (mem.length_readBytes m a)

/-- The byte by byte search of rule R131 fails where the first of the bytes it reads fails. -/
theorem passwordBytes_eq (cfg : Config) (mem : Memory) (m : Nat) : ∀ a,
    passwordBytes cfg mem a m
      = (firstFailing cfg .read a (mem.passwordReads a m)).elim (.ok (mem.password a m)) .error := by
  induction m with
  | zero => intro a; rfl
  | succ m ih =>
    intro a
    by_cases hzero : mem.read a = 0x00#8
    · rw [Memory.passwordReads_succ_of_zero hzero, Memory.password_succ_of_zero hzero]
      cases hok : dmaOK cfg .read a <;> simp [passwordBytes, firstFailing, hok, hzero]
    · rw [Memory.passwordReads_succ_of_ne_zero hzero, Memory.password_succ_of_ne_zero hzero]
      cases hok : dmaOK cfg .read a with
      | false => simp [passwordBytes, firstFailing, hok]
      | true =>
        cases hrest : firstFailing cfg .read (a + 1) (mem.passwordReads (a + 1) m) <;>
          simp [passwordBytes, firstFailing, hok, hzero, ih, hrest]

theorem deriveKey_of_allDmaOK {cfg : Config} {mem : Memory} {a n : Nat}
    (h : AllDmaOK cfg .read a (mem.passwordReads a (min n 16))) :
    deriveKey cfg mem a n
      = .ok (Block.ofList (mem.password a (min n 16)), (mem.password a (min n 16)).length) := by
  simp [deriveKey, passwordBytes_eq, (firstFailing_none_iff _ _ _ _).2 h]

theorem deriveKey_of_firstBad {cfg : Config} {mem : Memory} {a n e : Nat}
    (h : FirstBad cfg .read a (mem.passwordReads a (min n 16)) e) : deriveKey cfg mem a n = .error e := by
  simp [deriveKey, passwordBytes_eq, (firstFailing_some_iff _ _ _ _ _).2 h]

/-- `load` and `store` of rule R121 pad a short byte string with 0x00. -/
theorem Block.toList_ofList {l : List Byte} (h : l.length ≤ 16) :
    (Block.ofList l).toList = l ++ List.replicate (16 - l.length) 0x00#8 := by
  have hgetD : (Block.ofList l).toList = (List.range 16).map fun j => l.getD j 0x00#8 := rfl
  rw [hgetD]
  refine List.ext_getElem (by simp; omega) fun j _ _ => ?_
  by_cases hj : j < l.length <;> simp [List.getElem_append, hj]

section Ends

variable {s : State}

theorem execKeyLoad_of_wraps (h : 2 ^ 32 < s.latch.src.toNat + min s.latch.srclen.toNat 16) :
    execKeyLoad s = .next (s.raiseError .len 0 0) := by
  have hrange : rangeOK s.latch.src.toNat (min s.latch.srclen.toNat 16) = false :=
    Bool.eq_false_iff.2 fun hok => Nat.not_le.2 h ((rangeOK_iff _ _).1 hok)
  simp [execKeyLoad, hrange]

theorem execKeyLoad_of_allDmaOK (h : s.latch.src.toNat + min s.latch.srclen.toNat 16 ≤ 2 ^ 32)
    (hread : AllDmaOK s.cfg .read s.latch.src.toNat
      (s.mem.passwordReads s.latch.src.toNat (min s.latch.srclen.toNat 16))) :
    let password := s.mem.password s.latch.src.toNat (min s.latch.srclen.toNat 16)
    execKeyLoad s
      = .next ((s.loadKeys (Block.ofList password)).complete (Outputs.bytes password.length)) := by
  simp [execKeyLoad, (rangeOK_iff _ _).2 h, deriveKey_of_allDmaOK hread]

theorem execKeyLoad_of_firstBad {e : Nat} (h : s.latch.src.toNat + min s.latch.srclen.toNat 16 ≤ 2 ^ 32)
    (hbad : FirstBad s.cfg .read s.latch.src.toNat
      (s.mem.passwordReads s.latch.src.toNat (min s.latch.srclen.toNat 16)) e) :
    execKeyLoad s = .next (s.clearKeys.raiseError .bus e 0) := by
  simp [execKeyLoad, (rangeOK_iff _ _).2 h, deriveKey_of_firstBad hbad]

end Ends

/-- Each end of the two commands writes the key store, `KEYV`, `RESLEN`, the outcome and the error address, and nothing
else. -/
theorem State.finish_keys_reslen (s : State) (rk : RoundKeys) (keyv : Bool) (n : Word) (code : ErrCode)
    (addr : Word) :
    let t := State.finish { s with rk := rk, keyv := keyv } { reslen := n } code addr
    t.rk = rk ∧ t.keyv = keyv ∧ t.EndedWith code addr ∧ t.ResultsAre n 0#32 0#32 0#32
      ∧ t.FlagsAre false false false ∧ SameMemory s t ∧ t.crc = s.crc ∧ SameRest s t :=
  ⟨rfl, rfl, State.finish_endedWith .., State.finish_resultsAre .., State.finish_flagsAre ..,
    State.finish_sameMemory { s with rk := rk, keyv := keyv } _ _ _, rfl,
    State.finish_sameRest { s with rk := rk, keyv := keyv } ..⟩

theorem RoundKeys.mem_zero_toList {k : Fin 11} {b : Byte} (h : b ∈ RoundKeys.zero[k].toList) : b = 0x00#8 := by
  have hblock : RoundKeys.zero[k] = Block.zero := by simp [RoundKeys.zero]
  have hbytes : Block.zero.toList = List.replicate 16 0x00#8 := rfl
  rw [hblock, hbytes] at h
  exact List.eq_of_mem_replicate h

end Sys2Proof.Machine
end

section
/-!
PROOF. The key schedule by its 44 words (rule R128): word `4j + c` is column `c` of round key `j`, and each round key
is made of the one before it.
-/

namespace Sys2Proof.Machine

/-- The four words of a round key, in the order of rule R128. -/
def Block.words (b : Block) : List Col := [b.c0, b.c1, b.c2, b.c3]

theorem getD_flatMap_words (blocks : List Block) {c : Nat} (hc : c < 4) : ∀ j,
    (blocks.flatMap Block.words).getD (4 * j + c) Col.zero
      = ((blocks.getD j Block.zero).words).getD c Col.zero := by
  induction blocks with
  | nil => intro j; interval_cases c <;> rfl
  | cons b rest ih =>
    intro j
    cases j with
    | zero => interval_cases c <;> rfl
    | succ j =>
      have hskip : 4 * (j + 1) + c = 4 * j + c + 4 := by omega
      rw [hskip]
      exact ih j

/-- `RCON[1..10]` of rule R128. -/
def roundConstants : List Byte :=
  [0x01#8, 0x02#8, 0x04#8, 0x08#8, 0x10#8, 0x20#8, 0x40#8, 0x80#8, 0x1B#8, 0x36#8]

/-- `RK[j]` of the schedule of a key. -/
def roundKey (k : Block) (j : Nat) : Block := (expandKey k).toList.getD j Block.zero

theorem roundKey_succ (k : Block) {j : Nat} (hj : j < 10) :
    roundKey k (j + 1) = nextRoundKey (roundConstants.getD j 0#8) (roundKey k j) := by
  interval_cases j <;> rfl

/-- `w[i]` of rule R128. -/
def keyWord (k : Block) (i : Nat) : Col := ((expandKey k).toList.flatMap Block.words).getD i Col.zero

theorem keyWord_eq (k : Block) (j : Nat) {c : Nat} (hc : c < 4) :
    keyWord k (4 * j + c) = (roundKey k j).words.getD c Col.zero :=
  getD_flatMap_words _ hc j

/-- Word `c` of a round key: the word four back in the round key before it, with the turned last word of that key if it
is the first word and with its left neighbour if not. -/
theorem keyWord_succ (k : Block) {j c : Nat} (hj : j < 10) (hc : c < 4) :
    keyWord k (4 * (j + 1) + c) = (keyWord k (4 * j + c)).xor
      (if c = 0 then keyTurn (roundConstants.getD j 0#8) (keyWord k (4 * j + 3))
        else keyWord k (4 * (j + 1) + (c - 1))) := by
  rw [keyWord_eq k _ hc, keyWord_eq k _ hc, keyWord_eq k j (c := 3) (by decide),
    keyWord_eq k (j + 1) (c := c - 1) (by omega), roundKey_succ k hj]
  interval_cases c <;> rfl

end Sys2Proof.Machine
end

section
/-!
PROOF. Multiplication in GF(2^8) (rule R126): it is additive in the second factor and associative, so an inverse from
the right is the one from the left; and the inverse that the affine map of rule R122 hides in `SBOX`.
-/

namespace Sys2Proof.Machine

@[simp] theorem xtime_zero : xtime 0#8 = 0#8 := rfl

theorem ite_xor_ite_zero (p q : Bool) (a : Byte) :
    (if p ^^ q then a else 0#8) = (if p then a else 0#8) ^^^ (if q then a else 0#8) := by
  cases p <;> cases q <;> simp

theorem xtime_xor (a b : Byte) : xtime (a ^^^ b) = xtime a ^^^ xtime b := by
  simp only [xtime, BitVec.shiftLeft_xor_distrib, BitVec.getLsbD_xor, ite_xor_ite_zero]
  ac_rfl

theorem xtime_gmulBits (n : Nat) : ∀ a b, xtime (gmulBits n a b) = gmulBits n (xtime a) b := by
  induction n with
  | zero => intro a b; exact xtime_zero
  | succ n ih => intro a b; simp only [gmulBits, xtime_xor, ih, apply_ite xtime, xtime_zero]

theorem gmulBits_xor (n : Nat) : ∀ a b c, gmulBits n a (b ^^^ c) = gmulBits n a b ^^^ gmulBits n a c := by
  induction n with
  | zero => intro a b c; simp [gmulBits]
  | succ n ih =>
    intro a b c
    simp only [gmulBits, BitVec.getLsbD_xor, ite_xor_ite_zero, BitVec.ushiftRight_xor_distrib, ih]
    ac_rfl

theorem gmul_xor (a b c : Byte) : gmul a (b ^^^ c) = gmul a b ^^^ gmul a c := gmulBits_xor 8 a b c

@[simp] theorem gmul_zero (a : Byte) : gmul a 0#8 = 0#8 := by simp [gmul, gmulBits]

@[simp] theorem gmul_one (a : Byte) : gmul a 1#8 = a := by simp [gmul, gmulBits]

@[simp] theorem zero_gmul (x : Byte) : gmul 0#8 x = 0#8 := by simp [gmul, gmulBits]

theorem one_gmul : ∀ a, gmul 1#8 a = a := by decide

/-- `x^8 = x^4 + x^3 + x + 1` in GF(2^8). -/
theorem gmul_reduction : ∀ a, gmul a 0x1B#8 = xtime^[8] a := by decide

/-- The shift moves each bit of the second factor up by one, and loses bit 7. -/
theorem gmul_xtime_left (a b : Byte) :
    gmul (xtime a) b = gmul a (b <<< 1) ^^^ (if b.getLsbD 7 then xtime^[8] a else 0#8) := by
  simp [gmul, gmulBits, BitVec.xor_assoc]

theorem gmul_xtime_right (a b : Byte) : gmul a (xtime b) = xtime (gmul a b) := by
  have hlost : gmul a (if b.getLsbD 7 then 0x1B#8 else 0#8) = if b.getLsbD 7 then xtime^[8] a else 0#8 := by
    rw [apply_ite (gmul a), gmul_reduction, gmul_zero]
  calc gmul a (xtime b)
      = gmul a (b <<< 1) ^^^ gmul a (if b.getLsbD 7 then 0x1B#8 else 0#8) := gmul_xor a _ _
    _ = gmul (xtime a) b := by rw [hlost, gmul_xtime_left]
    _ = xtime (gmul a b) := (xtime_gmulBits 8 a b).symm

theorem gmul_gmulBits (n : Nat) : ∀ a b c, gmul a (gmulBits n b c) = gmulBits n (gmul a b) c := by
  induction n with
  | zero => intro a b c; exact gmul_zero a
  | succ n ih =>
    intro a b c
    simp only [gmulBits, gmul_xor, apply_ite (gmul a), gmul_zero, ih, gmul_xtime_right]

theorem gmul_assoc (a b c : Byte) : gmul (gmul a b) c = gmul a (gmul b c) := (gmul_gmulBits 8 a b c).symm

theorem eq_of_gmul_eq_one {b x y : Byte} (hy : gmul y b = 1#8) (hx : gmul b x = 1#8) : x = y :=
  calc x = gmul (gmul y b) x := by rw [hy, one_gmul]
    _ = y := by rw [gmul_assoc, hx, gmul_one]

/-- The affine map of rule R122. -/
def affineMap (x : Byte) : Byte :=
  x ^^^ x.rotateLeft 1 ^^^ x.rotateLeft 2 ^^^ x.rotateLeft 3 ^^^ x.rotateLeft 4 ^^^ 0x63#8

/-- The affine map that undoes the one of rule R122. -/
def invAffineMap (y : Byte) : Byte := y.rotateLeft 1 ^^^ y.rotateLeft 3 ^^^ y.rotateLeft 6 ^^^ 0x05#8

theorem affineMap_invAffineMap : ∀ y, affineMap (invAffineMap y) = y := by decide

theorem invAffineMap_sbox_gmul : ∀ b, b ≠ 0#8 → gmul (invAffineMap (sbox b)) b = 1#8 := by decide

/-- The left inverse of the left inverse of `b` is `b`. -/
theorem gmul_invAffineMap_sbox {b : Byte} (hb : b ≠ 0#8) : gmul b (invAffineMap (sbox b)) = 1#8 := by
  have hleft := invAffineMap_sbox_gmul b hb
  have hne : invAffineMap (sbox b) ≠ 0#8 := by
    intro h0
    simp [h0] at hleft
  have hleftTwice := invAffineMap_sbox_gmul _ hne
  rwa [← eq_of_gmul_eq_one hleftTwice hleft] at hleftTwice

theorem invSbox_sbox : ∀ b, invSbox (sbox b) = b := by decide

end Sys2Proof.Machine
end

section
/-!
PROOF. The cipher engine's statements (rules R122, R123, R128, R131 to R133, R138).
-/

namespace Sys2Proof.Proofs.Cipher

open Sys2Proof Sys2Proof.Machine

/-- Settles O30: word `i` is word `i % 4` of round key `i / 4`, which is made of the round key before it. -/
theorem keyExpansionRecurrence : Obligations.KeyExpansionRecurrence := by
  intro k
  refine ⟨rfl, rfl, fun i h4 h44 => ?_⟩
  obtain ⟨j, c, hc, rfl⟩ : ∃ j c, c < 4 ∧ i = 4 * (j + 1) + c := ⟨i / 4 - 1, i % 4, by omega, by omega⟩
  have hprev : 4 * (j + 1) + c - 4 = 4 * j + c := by omega
  have hindex : (4 * (j + 1) + c) / 4 - 1 = j := by omega
  have hmod : (4 * (j + 1) + c) % 4 = c := by omega
  have hsucc := keyWord_succ k (j := j) (by omega) hc
  simp only [hprev, hindex, hmod]
  by_cases h0 : c = 0
  · subst h0
    exact hsucc
  · have hleft : 4 * (j + 1) + c - 1 = 4 * (j + 1) + (c - 1) := by omega
    rw [if_neg h0] at hsucc ⊢
    rw [hleft]
    exact hsucc

/-- Settles O33: the check of the range, then the search for a byte that cannot be read, decides between three ends. -/
theorem keyLoadDerivesTheKey : Obligations.KeyLoadDerivesTheKey := by
  refine ⟨by decide, fun s => ⟨fun hrange hread => ?_, fun hwraps => ?_, fun e hrange hbad => ?_⟩⟩
  · have hlength := (s.mem.length_password_le s.latch.src.toNat _).trans (min_le_right s.latch.srclen.toNat 16)
    exact ⟨_, _, execKeyLoad_of_allDmaOK hrange hread, Block.toList_ofList hlength,
      State.finish_keys_reslen s _ true _ .ok 0#32⟩
  · obtain ⟨hrk, hkeyv, hend⟩ := State.finish_keys_reslen s s.rk s.keyv 0#32 .len 0#32
    exact ⟨_, execKeyLoad_of_wraps hwraps, ⟨hrk, hkeyv⟩, hend⟩
  · exact ⟨_, execKeyLoad_of_firstBad hrange hbad, State.finish_keys_reslen s _ false 0#32 .bus (toWord e)⟩

/-- Settles O29: an inverse of `b` is the one that the affine map takes to `SBOX[b]`, for there is no other. -/
theorem sboxIsAffineInverse : Obligations.SboxIsAffineInverse := by
  refine ⟨fun b x h => ?affine, fun b hb => ⟨_, gmul_invAffineMap_sbox hb⟩, invSbox_sbox⟩
  case affine =>
    change sbox b = affineMap x
    obtain ⟨rfl, rfl⟩ | hinv := h
    · decide
    · have hb : b ≠ 0#8 := by
        rintro rfl
        simp at hinv
      rw [eq_of_gmul_eq_one (invAffineMap_sbox_gmul b hb) hinv, affineMap_invAffineMap]

/-- Settles O32: the values are closed, and the kernel evaluates the model's cipher and key expansion to them. -/
theorem cipherReproducesFipsVectors : Obligations.CipherReproducesFipsVectors := by
  refine ⟨?vector1, ?vector2, ?zeros, ?roundKeys⟩
  case vector1 => decide +kernel
  case vector2 => decide +kernel
  case zeros => decide +kernel
  case roundKeys => decide +kernel

/-- Settles O34: `KEY_CLEAR` is the successful end with the empty store. -/
theorem keyClearEmptiesTheStore : Obligations.KeyClearEmptiesTheStore := by
  refine ⟨by decide, fun s => ?_⟩
  obtain ⟨hrk, hend⟩ := State.finish_keys_reslen s RoundKeys.zero false 0#32 .ok 0#32
  exact ⟨_, rfl, fun k b hb => RoundKeys.mem_zero_toList (hrk ▸ hb), hend⟩

end Sys2Proof.Proofs.Cipher
end

section
/-!
PROOF. The byte strings that a block is made of have the lengths that rules R8 and R136 say.
-/

namespace Sys2Proof.Machine

@[simp] theorem length_leBytes (n : Nat) : ∀ v, (leBytes n v).length = n := by
  induction n with
  | zero => exact fun _ => rfl
  | succ n ih => exact fun v => by rw [leBytes, List.length_cons, ih]

@[simp] theorem length_wordBytes (w : Word) : (wordBytes w).length = 4 := length_leBytes 4 _

@[simp] theorem length_lowBytes3 (x : Int) : (lowBytes3 x).length = 3 := length_leBytes 3 _

theorem ecb_toList_append (f : Block → Block) (b : Block) (rest : List Byte) :
    ecb f (b.toList ++ rest) = (f b).toList ++ ecb f rest := rfl

/-- Each segment gives a segment. -/
theorem length_ecb (f : Block → Block) (n : Nat) :
    ∀ {bytes : List Byte}, bytes.length = 16 * n → (ecb f bytes).length = 16 * n := by
  induction n with
  | zero =>
    intro bytes h
    rw [List.eq_nil_of_length_eq_zero h]
    rfl
  | succ n ih =>
    intro bytes h
    have htake : (bytes.take 16).length = 16 := by
      rw [List.length_take]
      omega
    have hdrop : (bytes.drop 16).length = 16 * n := by
      rw [List.length_drop]
      omega
    have hfirst : (Block.ofList (bytes.take 16)).toList = bytes.take 16 := by
      rw [Block.toList_ofList htake.le, htake]
      exact List.append_nil _
    rw [← List.take_append_drop 16 bytes, ← hfirst, ecb_toList_append, List.length_append, Block.length_toList,
      ih hdrop]
    omega

end Sys2Proof.Machine
end

section
/-!
PROOF. The length of the delta stream (rule R174).
-/

namespace Sys2Proof.Machine

/-- The second of two samples in a row is escaped: their difference does not fit the signed byte of rule R173. -/
def isEscaped (p : Int × Int) : Bool := decide (p.2 - p.1 < -127 ∨ 127 < p.2 - p.1)

theorem length_deltaBytes (prev cur : Int) :
    (deltaBytes prev cur).length = if isEscaped (prev, cur) then 4 else 1 := by
  have hescaped : isEscaped (prev, cur) = true ↔ ¬ (-127 ≤ cur - prev ∧ cur - prev ≤ 127) := by
    rw [isEscaped, decide_eq_true_iff]
    omega
  by_cases hfits : -127 ≤ cur - prev ∧ cur - prev ≤ 127
  · rw [deltaBytes, if_pos hfits, if_neg (fun h => hescaped.1 h hfits), List.length_singleton]
  · rw [deltaBytes, if_neg hfits, if_pos (hescaped.2 hfits), List.length_cons, length_lowBytes3]

/-- One byte a sample, and three more for each that is escaped. -/
theorem length_deltaTail (v : List Int) : ∀ prev,
    (deltaTail prev v).length = v.length + 3 * ((prev :: v).zip v).countP isEscaped := by
  induction v with
  | nil => exact fun _ => rfl
  | cons cur rest ih =>
    intro prev
    rw [deltaTail, List.length_append, length_deltaBytes, ih cur, List.zip_cons_cons, List.countP_cons,
      List.length_cons]
    split <;> omega

theorem length_deltaEncode {v : List Int} (hv : v ≠ []) :
    (deltaEncode v).length = v.length + 2 + 3 * (v.zip v.tail).countP isEscaped := by
  obtain ⟨first, rest, rfl⟩ := List.exists_cons_of_ne_nil hv
  rw [deltaEncode, List.length_append, length_lowBytes3, length_deltaTail, List.length_cons, List.tail_cons]
  omega

/-- The first sample is stored without an escape. -/
theorem countP_isEscaped_lt {v : List Int} (hv : v ≠ []) : (v.zip v.tail).countP isEscaped < v.length := by
  have hle := List.countP_le_length (p := isEscaped) (l := v.zip v.tail)
  have hpos := List.length_pos_iff.2 hv
  rw [List.length_zip, List.length_tail] at hle
  omega

theorem length_deltaEncode_le {v : List Int} (hv : v ≠ []) : (deltaEncode v).length ≤ 4 * v.length - 1 := by
  have hlength := length_deltaEncode hv
  have hescaped := countP_isEscaped_lt hv
  omega

end Sys2Proof.Machine
end

section
/-!
PROOF. The byte-frequency model (rules R177 to R179): the histogram, the peak of a list of counts, one count scaled
by a peak, and the sums of the counts.
-/

namespace Sys2Proof.Machine

@[simp] theorem length_histogram (z : List Byte) : (histogram z).length = 256 := by
  rw [histogram, List.length_map, List.length_range]

theorem countOf_histogram (z : List Byte) (b : Byte) : countOf (histogram z) b.toNat = z.count b := by
  have hb : b.toNat < (histogram z).length := by
    rw [length_histogram]
    exact b.isLt
  rw [countOf, List.getD_eq_getElem _ _ hb]
  simp [histogram]

theorem foldl_max_eq_iff (h : List Nat) (m : Nat) :
    h.foldl max 0 = m ↔ m ∈ 0 :: h ∧ ∀ x ∈ 0 :: h, x ≤ m := by
  rw [← List.max?_eq_some_iff, List.max?_cons', Option.some.injEq]

theorem le_foldl_max {h : List Nat} {x : Nat} (hx : x ∈ h) : x ≤ h.foldl max 0 :=
  ((foldl_max_eq_iff h _).1 rfl).2 x (List.mem_cons_of_mem 0 hx)

/-- The peak of rule R178 is the greatest count. -/
theorem foldl_max_eq_of_mem {h : List Nat} {peak : Nat} (hmem : peak ∈ h) (hle : ∀ x ∈ h, x ≤ peak) :
    h.foldl max 0 = peak := by
  refine (foldl_max_eq_iff h peak).2 ⟨List.mem_cons_of_mem 0 hmem, fun x hx => ?_⟩
  obtain rfl | hx := List.mem_cons.1 hx
  · exact Nat.zero_le peak
  · exact hle x hx

/-- One count `x` scaled by a peak (rule R178). -/
def scaledCount (cfg : Config) (peak x : Nat) : Nat :=
  if peak ≤ 255 then x else (x * cfg.scaleTarget) ⌈/⌉ peak

theorem scale_eq_map (cfg : Config) (h : List Nat) : scale cfg h = h.map (scaledCount cfg (h.foldl max 0)) := by
  by_cases hpeak : h.foldl max 0 ≤ 255
  · have hid : scaledCount cfg (h.foldl max 0) = id := by
      funext x
      exact if_pos hpeak
    rw [scale, hid, List.map_id]
    exact if_pos hpeak
  · have hceil : scaledCount cfg (h.foldl max 0)
        = fun x => (x * cfg.scaleTarget + h.foldl max 0 - 1) / h.foldl max 0 := by
      funext x
      exact if_neg hpeak
    rw [scale, hceil]
    exact if_neg hpeak

@[simp] theorem length_scale (cfg : Config) (h : List Nat) : (scale cfg h).length = h.length := by
  rw [scale_eq_map, List.length_map]

/-- A bucket past the last one counts 0, before and after. -/
theorem countOf_scale (cfg : Config) (h : List Nat) (b : Nat) :
    countOf (scale cfg h) b = scaledCount cfg (h.foldl max 0) (countOf h b) := by
  have hzero : scaledCount cfg (h.foldl max 0) 0 = 0 := by simp [scaledCount]
  rw [countOf, countOf, scale_eq_map]
  exact (congrArg _ hzero.symm).trans (List.getD_map _ _ _)

theorem scaledCount_of_le {peak : Nat} (h : peak ≤ 255) (cfg : Config) (x : Nat) : scaledCount cfg peak x = x :=
  if_pos h

/-- The Galois connection of the ceiling, from which rule R178's bounds follow. -/
theorem scaledCount_le_iff {peak : Nat} (h : 255 < peak) (cfg : Config) (x n : Nat) :
    scaledCount cfg peak x ≤ n ↔ x * cfg.scaleTarget ≤ peak * n := by
  rw [scaledCount, if_neg (by omega)]
  exact ceilDiv_le_iff_le_mul (by omega)

theorem scaledCount_mul_lt {peak : Nat} (h : 255 < peak) (cfg : Config) (x : Nat) :
    scaledCount cfg peak x * peak < x * cfg.scaleTarget + peak := by
  rw [scaledCount, if_neg (by omega), Nat.ceilDiv_eq_add_pred_div]
  have hle := Nat.div_mul_le_self (x * cfg.scaleTarget + peak - 1) peak
  omega

theorem Config.scaleTarget_bounds {cfg : Config} (h : cfg.wellFormed = true) :
    1 ≤ cfg.scaleTarget ∧ cfg.scaleTarget ≤ 255 := by
  simp only [Config.wellFormed, Bool.and_eq_true, decide_eq_true_eq] at h
  obtain ⟨⟨⟨-, hlow⟩, hhigh⟩, -⟩ := h
  exact ⟨hlow, hhigh⟩

theorem scaledCount_eq_zero_iff {cfg : Config} (hcfg : cfg.wellFormed = true) (peak x : Nat) :
    scaledCount cfg peak x = 0 ↔ x = 0 := by
  obtain ⟨htarget, -⟩ := Config.scaleTarget_bounds hcfg
  obtain hsmall | hlarge := le_or_gt peak 255
  · rw [scaledCount_of_le hsmall]
  · rw [← Nat.le_zero, scaledCount_le_iff hlarge, Nat.mul_zero, Nat.le_zero, Nat.mul_eq_zero]
    omega

theorem scaledCount_le_255 {cfg : Config} (hcfg : cfg.wellFormed = true) {peak x : Nat} (hx : x ≤ peak) :
    scaledCount cfg peak x ≤ 255 := by
  obtain ⟨-, htarget⟩ := Config.scaleTarget_bounds hcfg
  obtain hsmall | hlarge := le_or_gt peak 255
  · rw [scaledCount_of_le hsmall]
    omega
  · exact (scaledCount_le_iff hlarge cfg x 255).2 (Nat.mul_le_mul hx htarget)

theorem scaledCount_peak {peak : Nat} (h : 255 < peak) (cfg : Config) :
    scaledCount cfg peak peak = cfg.scaleTarget := by
  refine le_antisymm ((scaledCount_le_iff h cfg peak _).2 le_rfl) ?_
  have hle := (scaledCount_le_iff h cfg peak _).1 le_rfl
  exact Nat.le_of_mul_le_mul_left hle (by omega)

theorem le_255_of_mem_scale {cfg : Config} (hcfg : cfg.wellFormed = true) {h : List Nat} {c : Nat}
    (hc : c ∈ scale cfg h) : c ≤ 255 := by
  rw [scale_eq_map] at hc
  obtain ⟨x, hx, rfl⟩ := List.mem_map.1 hc
  exact scaledCount_le_255 hcfg (le_foldl_max hx)

/-- Every byte of a stream stays encodable under the stream's own scaled counts (rule R178). -/
theorem countOf_scale_histogram_pos {cfg : Config} (hcfg : cfg.wellFormed = true) {z : List Byte} {b : Byte}
    (hb : b ∈ z) : 0 < countOf (scale cfg (histogram z)) b.toNat := by
  rw [countOf_scale, countOf_histogram, Nat.pos_iff_ne_zero, Ne, scaledCount_eq_zero_iff hcfg]
  exact (List.count_pos_iff.2 hb).ne'

theorem cumulative_succ (cnt : List Nat) (b : Nat) :
    cumulative cnt (b + 1) = cumulative cnt b + countOf cnt b := by
  rw [cumulative, List.take_add_one, List.sum_append, cumulative, countOf, List.getD_eq_getElem?_getD]
  cases cnt[b]? <;> simp

theorem cumulative_mono (cnt : List Nat) {a b : Nat} (h : a ≤ b) : cumulative cnt a ≤ cumulative cnt b :=
  (List.take_sublist_take_left h).sum_le_sum fun _ _ => Nat.zero_le _

/-- The interval that a symbol takes lies below the total. -/
theorem cumulative_add_countOf_le (cnt : List Nat) (b : Byte) :
    cumulative cnt b.toNat + countOf cnt b.toNat ≤ totalCount cnt := by
  rw [← cumulative_succ]
  exact cumulative_mono cnt b.isLt

/-- 256 counts of at most 255 each (rule R179). -/
theorem totalCount_le {cnt : List Nat} (h : ∀ c ∈ cnt, c ≤ 255) : totalCount cnt ≤ 65280 := by
  have hsum := List.sum_le_card_nsmul (cnt.take 256) 255 fun c hc => h c (List.mem_of_mem_take hc)
  have hlength := List.length_take_le 256 cnt
  rw [smul_eq_mul] at hsum
  rw [totalCount, cumulative]
  omega

end Sys2Proof.Machine
end

section
/-!
PROOF. The size of the payload (rules R185, R208). Each turn of a renormalisation adds at most one byte and gives
`range` a factor 2^8; each symbol takes less than a factor 2^17 from it.
-/

namespace Sys2Proof.Machine

/-- The bytes given out and those waiting behind the held byte. -/
def EncState.size (e : EncState) : Nat := e.out.length + e.help.toNat

@[simp] theorem EncState.length_settle (e : EncState) (carry : Bool) : (e.settle carry).length = e.size + 1 := by
  rw [settle]
  split <;>
    simp only [List.length_append, List.length_singleton, List.length_replicate, size] <;>
    omega

/-- In the first two branches the held byte joins the output; in the third one more byte waits (or the count of
those that wait wraps). -/
theorem encTurn_size_le (e : EncState) : (encTurn e).size ≤ e.size + 1 := by
  change (encTurnOut e).size ≤ e.size + 1
  unfold encTurnOut
  split
  · simp [EncState.size]
  · split
    · simp [EncState.size]
    · simp only [EncState.size]
      bv_omega

theorem encTurn_range {e : EncState} (h : e.range.toNat ≤ 2 ^ 23) :
    (encTurn e).range.toNat = e.range.toNat * 2 ^ 8 := by
  change (e.range <<< 8).toNat = _
  rw [BitVec.toNat_shiftLeft, Nat.shiftLeft_eq]
  omega

/-- What holds after `k` symbols: `range` is in the coder's bounds, and it pays for every byte so far. -/
structure EncState.Paid (k : Nat) (e : EncState) : Prop where
  range_pos : 1 ≤ e.range.toNat
  range_le : e.range.toNat ≤ 2 ^ 31
  bytes_le : 2 ^ 31 * 2 ^ (8 * e.size) ≤ e.range.toNat * 2 ^ (17 * k)

theorem encStart_paid : encStart.Paid 0 := ⟨by decide, by decide, by decide⟩

theorem EncState.Paid.turn {k : Nat} {e : EncState} (h : e.Paid k) (hlow : e.range.toNat ≤ 2 ^ 23) :
    (encTurn e).Paid k := by
  obtain ⟨hpos, -, hbytes⟩ := h
  have hrange := encTurn_range hlow
  refine ⟨by omega, by omega, ?_⟩
  calc 2 ^ 31 * 2 ^ (8 * (encTurn e).size)
      ≤ 2 ^ 31 * 2 ^ (8 * (e.size + 1)) := by
        gcongr
        · norm_num
        · exact encTurn_size_le e
    _ = 2 ^ 31 * 2 ^ (8 * e.size) * 2 ^ 8 := by ring
    _ ≤ e.range.toNat * 2 ^ (17 * k) * 2 ^ 8 := Nat.mul_le_mul_right _ hbytes
    _ = (encTurn e).range.toNat * 2 ^ (17 * k) := by
        rw [hrange]
        ring

theorem EncState.Paid.normalize {k : Nat} (n : Nat) : ∀ {e : EncState}, e.Paid k → (encNormalize n e).Paid k := by
  induction n with
  | zero => exact id
  | succ n ih =>
    intro e h
    rw [encNormalize]
    split
    next hlow => exact ih (h.turn hlow)
    next => exact h

/-- Each turn multiplies `range` by 2^8, so enough turns bring it over `BOTTOM` (rules R182, R189). -/
theorem encNormalize_range_gt (n : Nat) : ∀ {e : EncState}, 2 ^ 23 < e.range.toNat * 2 ^ (8 * n) →
    2 ^ 23 < (encNormalize n e).range.toNat := by
  induction n with
  | zero =>
    intro e h
    rwa [Nat.mul_zero, pow_zero, Nat.mul_one] at h
  | succ n ih =>
    intro e h
    rw [encNormalize]
    split
    next hlow =>
      refine ih ?_
      rw [encTurn_range hlow]
      calc 2 ^ 23 < e.range.toNat * 2 ^ (8 * (n + 1)) := h
        _ = e.range.toNat * 2 ^ 8 * 2 ^ (8 * n) := by ring
    next hhigh => exact Nat.lt_of_not_le hhigh

theorem EncState.Paid.bottom_lt_range {k : Nat} {e : EncState} (h : e.Paid k) :
    2 ^ 23 < (encNormalize coderTurns e).range.toNat := by
  have hpos := h.range_pos
  refine encNormalize_range_gt coderTurns ?_
  rw [coderTurns]
  omega

theorem encodeSymbol_size (cnt : List Nat) (e : EncState) (b : Byte) :
    (encodeSymbol cnt e b).size = (encNormalize coderTurns e).size := rfl

/-- A symbol leaves at least one unit `R div T` of the renormalised range `R`, and at most all of it (rule R183). -/
theorem encodeSymbol_range_bounds {cnt : List Nat} {b : Byte} (hb : 0 < countOf cnt b.toNat) (e : EncState) :
    let R := (encNormalize coderTurns e).range.toNat
    R / totalCount cnt ≤ (encodeSymbol cnt e b).range.toNat ∧ (encodeSymbol cnt e b).range.toNat ≤ R := by
  intro R
  have hR : R < 2 ^ 32 := (encNormalize coderTurns e).range.isLt
  have hcum := cumulative_add_countOf_le cnt b
  have hunits : R / totalCount cnt * cumulative cnt b.toNat + R / totalCount cnt * countOf cnt b.toNat ≤ R := by
    rw [← Nat.mul_add]
    exact (Nat.mul_le_mul_left _ hcum).trans (Nat.div_mul_le_self R _)
  have hunit : R / totalCount cnt ≤ R / totalCount cnt * countOf cnt b.toNat := Nat.le_mul_of_pos_right _ hb
  have hrange : (encodeSymbol cnt e b).range
      = if cumulative cnt b.toNat + countOf cnt b.toNat < totalCount cnt
        then toWord (R / totalCount cnt * countOf cnt b.toNat)
        else toWord (R - R / totalCount cnt * cumulative cnt b.toNat) := rfl
  rw [hrange]
  split
  · rw [toWord, BitVec.toNat_ofNat, Nat.mod_eq_of_lt (by omega)]
    omega
  · rw [toWord, BitVec.toNat_ofNat, Nat.mod_eq_of_lt (by omega)]
    omega

/-- Rule R208's factor: a unit `R div T` is at least 128, so rounding it down loses little. -/
theorem le_mul_div_of_total {R T : Nat} (hR : 2 ^ 23 < R) (hpos : 0 < T) (hT : T ≤ 65280) :
    1 ≤ R / T ∧ R ≤ R / T * 2 ^ 17 := by
  have hunit : 128 ≤ R / T := (Nat.le_div_iff_mul_le hpos).2 (by omega)
  have hlt : R < T * (R / T + 1) := Nat.lt_mul_div_succ R hpos
  have hmul : T * (R / T + 1) ≤ 65280 * (R / T + 1) := Nat.mul_le_mul_right _ hT
  omega

theorem EncState.Paid.symbol {k : Nat} {e : EncState} (h : e.Paid k) {cnt : List Nat}
    (hT : totalCount cnt ≤ 65280) {b : Byte} (hb : 0 < countOf cnt b.toNat) :
    (encodeSymbol cnt e b).Paid (k + 1) := by
  have hpos : 0 < totalCount cnt := by
    have hcum := cumulative_add_countOf_le cnt b
    omega
  obtain ⟨-, hle, hbytes⟩ := h.normalize coderTurns
  obtain ⟨hunit, hfactor⟩ := le_mul_div_of_total h.bottom_lt_range hpos hT
  obtain ⟨hlow, hhigh⟩ := encodeSymbol_range_bounds hb e
  refine ⟨hunit.trans hlow, hhigh.trans hle, ?_⟩
  rw [encodeSymbol_size]
  refine hbytes.trans ?_
  calc (encNormalize coderTurns e).range.toNat * 2 ^ (17 * k)
      ≤ (encodeSymbol cnt e b).range.toNat * 2 ^ 17 * 2 ^ (17 * k) :=
        Nat.mul_le_mul_right _ (hfactor.trans (Nat.mul_le_mul_right _ hlow))
    _ = (encodeSymbol cnt e b).range.toNat * 2 ^ (17 * (k + 1)) := by ring

theorem EncState.Paid.stream {cnt : List Nat} (hT : totalCount cnt ≤ 65280) (z : List Byte) :
    ∀ {k : Nat} {e : EncState}, e.Paid k → (∀ b ∈ z, 0 < countOf cnt b.toNat) →
      (z.foldl (encodeSymbol cnt) e).Paid (k + z.length) := by
  induction z with
  | nil => exact fun h _ => h
  | cons b rest ih =>
    intro k e h hz
    have hrest := ih (h.symbol hT (hz b List.mem_cons_self)) fun c hc => hz c (List.mem_cons_of_mem b hc)
    rw [List.foldl_cons, List.length_cons]
    convert hrest using 1
    omega

theorem EncState.Paid.size_le {k : Nat} {e : EncState} (h : e.Paid k) : 8 * e.size ≤ 17 * k := by
  have hmul : 2 ^ 31 * 2 ^ (8 * e.size) ≤ 2 ^ 31 * 2 ^ (17 * k) :=
    h.bytes_le.trans (Nat.mul_le_mul_right _ h.range_le)
  exact (Nat.pow_le_pow_iff_right (by norm_num)).1 (Nat.le_of_mul_le_mul_left hmul (by norm_num))

/-- The end of a payload gives out the held byte, those that wait, and one more (rule R184). -/
theorem length_encFinish (e : EncState) : (encFinish e).length = (encNormalize coderTurns e).size + 2 := by
  simp [encFinish]

theorem two_le_length_rangeEncode (z : List Byte) (cnt : List Nat) : 2 ≤ (rangeEncode z cnt).length := by
  rw [rangeEncode, length_encFinish]
  omega

theorem length_rangeEncode_le {cnt : List Nat} (hT : totalCount cnt ≤ 65280) {z : List Byte}
    (hz : ∀ b ∈ z, 0 < countOf cnt b.toNat) : (rangeEncode z cnt).length ≤ 2 + 17 * z.length / 8 := by
  have hpaid := (encStart_paid.stream hT z hz).normalize coderTurns
  have hsize := hpaid.size_le
  rw [rangeEncode, length_encFinish]
  omega

end Sys2Proof.Machine
end

section
/-!
PROOF. The layout of a block (rules R170, R171): its parts in order, the offset of each, the length of the whole.
-/

namespace Sys2Proof.Machine

/-- The payload of the samples `v`: their delta stream, coded with its own scaled counts (rules R185, R200). -/
def samplesPayload (cfg : Config) (v : List Int) : List Byte :=
  rangeEncode (deltaEncode v) (scale cfg (histogram (deltaEncode v)))

/-- The fields of rule R171 in order, with the payload and the filler. -/
def blockParts (cfg : Config) (v : List Int) (blockTime : Nat) (disc : Bool) (key : Option RoundKeys) :
    List (List Byte) :=
  let payload := samplesPayload cfg v
  [wordBytes (crc32 cfg (blockBody cfg v blockTime disc key)), leBytes 4 (blockLength payload.length),
    leBytes 8 blockTime, leBytes 4 (deltaEncode v).length, leBytes 4 v.length, lowBytes3 (greatest v),
    lowBytes3 (least v), [if disc then 0x01#8 else 0x00#8],
    storedTable key (scale cfg (histogram (deltaEncode v))), payload,
    List.replicate (fillerCount payload.length) 0x00#8]

/-- The sizes of rule R171, in the same order. -/
def partSizes (payloadLength : Nat) : List Nat :=
  [4, 4, 8, 4, 4, 3, 3, 1, 256, payloadLength, fillerCount payloadLength]

theorem encodeBlock_eq_flatten (cfg : Config) (v : List Int) (blockTime : Nat) (disc : Bool)
    (key : Option RoundKeys) :
    encodeBlock cfg v blockTime disc key = (blockParts cfg v blockTime disc key).flatten := by
  simp [encodeBlock, blockParts, blockBody, headerFields, samplesPayload]

/-- A table of 256 counts is 16 whole segments, encrypted or not (rule R202). -/
theorem length_storedTable (key : Option RoundKeys) {cnt : List Nat} (h : cnt.length = 256) :
    (storedTable key cnt).length = 256 := by
  cases key with
  | none => rw [storedTable, List.length_map, h]
  | some rk => exact length_ecb (cipher rk) 16 (by rw [List.length_map, h])

section Layout

variable (cfg : Config) (v : List Int) (blockTime : Nat) (disc : Bool) (key : Option RoundKeys)

theorem map_length_blockParts :
    (blockParts cfg v blockTime disc key).map List.length = partSizes (samplesPayload cfg v).length := by
  simp [blockParts, partSizes, length_storedTable]

theorem length_encodeBlock :
    (encodeBlock cfg v blockTime disc key).length = blockLength (samplesPayload cfg v).length := by
  rw [encodeBlock_eq_flatten, List.length_flatten, map_length_blockParts]
  simp only [partSizes, List.sum_cons, List.sum_nil, blockLength, headerSize]
  omega

theorem drop_four_encodeBlock :
    (encodeBlock cfg v blockTime disc key).drop 4 = blockBody cfg v blockTime disc key :=
  List.drop_left' (length_wordBytes _)

/-- The offset of a part is the sum of the sizes before it (rule R171). -/
theorem drop_encodeBlock (i : Nat) {offset : Nat}
    (hoffset : ((partSizes (samplesPayload cfg v).length).take i).sum = offset) :
    (encodeBlock cfg v blockTime disc key).drop offset = ((blockParts cfg v blockTime disc key).drop i).flatten := by
  rw [encodeBlock_eq_flatten, ← hoffset, ← map_length_blockParts cfg v blockTime disc key, List.drop_sum_flatten]

theorem take_drop_encodeBlock (i : Nat) {offset size : Nat}
    (hoffset : ((partSizes (samplesPayload cfg v).length).take i).sum = offset)
    {part : List Byte} (hpart : (blockParts cfg v blockTime disc key)[i]? = some part) (hsize : part.length = size) :
    ((encodeBlock cfg v blockTime disc key).drop offset).take size = part := by
  obtain ⟨hi, rfl⟩ := List.getElem?_eq_some_iff.1 hpart
  rw [drop_encodeBlock cfg v blockTime disc key i hoffset, List.drop_eq_getElem_cons hi, List.flatten_cons]
  exact List.take_left' hsize

end Layout

end Sys2Proof.Machine
end

section
/-!
PROOF. The obligations about the size and the layout of a RED block, and about the models it is coded with.
-/

namespace Sys2Proof.Proofs.RedBlock

open Sys2Proof Sys2Proof.Machine

/-- Settles O41: three bytes for the first sample, one for each later one, three more for each that is escaped. -/
theorem differenceCountFormula : Obligations.DifferenceCountFormula := by
  intro v hv escaped count
  have hcount : count = v.length + 2 + 3 * escaped := length_deltaEncode hv
  have hle : count ≤ 4 * v.length - 1 := length_deltaEncode_le hv
  have hpos := List.length_pos_iff.2 hv
  exact ⟨hcount, by omega, hle, by omega⟩

/-- Settles O42: the scaled list is one function of a count and the peak, mapped over the counts. -/
theorem scaledCountsFitAByte : Obligations.ScaledCountsFitAByte := by
  intro cfg h hcfg
  refine ⟨length_scale cfg h, fun peak hmem hle => ?_⟩
  have hpeak := foldl_max_eq_of_mem hmem hle
  refine ⟨fun hsmall => if_pos (hpeak.trans_le hsmall), fun b hb => ?_⟩
  intro x c
  have hc : c = scaledCount cfg peak x := hpeak ▸ countOf_scale cfg h b
  have hx : x ≤ peak := by
    refine hle x ?_
    rw [show x = h[b] from List.getD_eq_getElem h 0 hb]
    exact List.getElem_mem hb
  rw [hc]
  refine ⟨scaledCount_le_255 hcfg hx, scaledCount_eq_zero_iff hcfg peak x, fun hlarge => ⟨?_, ?_, ?_⟩⟩
  · rw [Nat.mul_comm _ peak]
    exact (scaledCount_le_iff hlarge cfg x _).1 le_rfl
  · exact scaledCount_mul_lt hlarge cfg x
  · intro hxpeak
    rw [hxpeak, scaledCount_peak hlarge]

/-- Settles O47: a stream's own counts reach its every byte, so the bound on the payload applies. -/
theorem blockSizeBounds : Obligations.BlockSizeBounds := by
  intro cfg v blockTime disc key hcfg hv z payload block
  have hz : z.length ≤ 4 * v.length - 1 := length_deltaEncode_le hv
  have hpayload : payload.length ≤ 2 + 17 * z.length / 8 :=
    length_rangeEncode_le (totalCount_le fun _ => le_255_of_mem_scale hcfg) fun _ => countOf_scale_histogram_pos hcfg
  have hnonempty : 2 ≤ payload.length := two_le_length_rangeEncode z _
  have hblock : block.length = headerSize + payload.length + fillerCount payload.length :=
    length_encodeBlock cfg v blockTime disc key
  have hfiller : fillerCount payload.length < 8 := Nat.mod_lt _ (by norm_num)
  rw [headerSize] at hblock
  exact ⟨hz, by omega, by omega, by omega⟩

/-- Settles O48: each field is a part of the block, at the offset that the sizes before it add up to. -/
theorem blockHeaderFields : Obligations.BlockHeaderFields := by
  intro cfg v blockTime disc key z cnt payload block field
  have hblock : block.length = blockLength payload.length := length_encodeBlock cfg v blockTime disc key
  have hpart := take_drop_encodeBlock cfg v blockTime disc key
  have htable : field 31 256 = storedTable key cnt := hpart 8 rfl rfl (length_storedTable key (by simp [cnt]))
  refine ⟨?checksum, ?length, ?time, ?diffs, ?count, ?max, ?min, ?disc, ?plain, ?encrypted, ?payload, ?filler, ?mul⟩
  case checksum =>
    rw [drop_four_encodeBlock]
    exact hpart 0 rfl rfl rfl
  case length =>
    rw [hblock]
    exact hpart 1 rfl rfl rfl
  case time => exact hpart 2 rfl rfl rfl
  case diffs => exact hpart 3 rfl rfl rfl
  case count => exact hpart 4 rfl rfl rfl
  case max => exact hpart 5 rfl rfl rfl
  case min => exact hpart 6 rfl rfl rfl
  case disc => exact hpart 7 rfl rfl rfl
  case plain =>
    rintro rfl
    exact htable
  case encrypted =>
    rintro rk rfl
    exact htable
  case payload => exact hpart 9 rfl rfl rfl
  case filler =>
    refine (drop_encodeBlock cfg v blockTime disc key 10 ?_).trans (List.append_nil _)
    simp [partSizes, ← Nat.add_assoc, samplesPayload, payload, z, cnt]
  case mul =>
    rw [hblock, blockLength, fillerCount, headerSize]
    omega

end Sys2Proof.Proofs.RedBlock
end

section
/-!
PROOF. A host access to the register window, by its offset: the accesses that rule R21 does not allow, the reserved
offsets (rules R20, R249), the writes of `CTRL` and `STATUS` (rules R23 to R27), and the output `IRQ` (rule R26).
-/

namespace Sys2Proof.Machine

theorem State.irq_of_ie_false {t : State} (hie : t.ie = false) : t.irq = false := by
  simp [State.irq, hie]

theorem State.irq_of_done_false {t : State} (hdone : t.done = false) : t.irq = false := by
  simp [State.irq, hdone]

section Accesses

variable (s : State) {offset : BitVec 8} {width : AccessWidth}

theorem registerAccessOK_iff :
    registerAccessOK offset width = true ↔ width = .word ∧ offset.toNat % 4 = 0 := by
  simp [registerAccessOK]

theorem registerAccessOK_eq_false_iff :
    registerAccessOK offset width = false ↔ width ≠ .word ∨ offset.toNat % 4 ≠ 0 := by
  rw [Bool.eq_false_iff, Ne, registerAccessOK_iff, not_and_or]

theorem State.readRegister_refused (hbad : registerAccessOK offset width = false) :
    s.readRegister offset width = { s with response := .error } := by
  simp [State.readRegister, hbad]

theorem State.writeRegister_refused (hbad : registerAccessOK offset width = false) (v : Word) :
    s.writeRegister offset width v = { s with response := .error } := by
  simp [State.writeRegister, hbad]

/-- Each named register is below offset 0x40. -/
theorem State.register_reserved (hres : 0x40 ≤ offset.toNat) : s.register offset = 0#32 := by
  unfold State.register
  split <;> simp_all

theorem resultOffset_reserved (hres : 0x40 ≤ offset.toNat) : resultOffset offset = false := by
  simp only [resultOffset, List.contains_eq_mem, decide_eq_false_iff_not, List.mem_cons, List.not_mem_nil, or_false]
  omega

theorem not_mem_writableOffsets_reserved (hres : 0x40 ≤ offset.toNat) : offset.toNat ∉ writableOffsets := by
  simp only [writableOffsets, List.mem_cons, List.not_mem_nil, or_false]
  omega

end Accesses

section Writes

variable {s : State} {rest : List Input} {v : Word}

theorem step_writeCtrl (hin : s.inputs = .writeReg 0x04#8 .word v :: rest) (hfree : s.resetHeld = false) :
    step s = .next (State.writeCtrl { s with inputs := rest, response := .done } v) := by
  rw [step_of_inputs_cons hin]
  simp [State.writeRegister, registerAccessOK, hfree]

theorem step_writeStatus (hin : s.inputs = .writeReg 0x08#8 .word v :: rest) (hfree : s.resetHeld = false) :
    step s = .next (State.writeStatus { s with inputs := rest, response := .done } v) := by
  rw [step_of_inputs_cons hin]
  simp [State.writeRegister, registerAccessOK, hfree]

theorem State.writeCtrl_srst (hsrst : v.getLsbD 1 = true) : s.writeCtrl v = s.hardwareReset := by
  simp [State.writeCtrl, hsrst]

theorem State.writeCtrl_start (hsrst : v.getLsbD 1 = false) (hstart : v.getLsbD 0 = true) (hidle : s.busy = false) :
    s.writeCtrl v = (State.loseUncleaned { s with ie := v.getLsbD 2 }).launch := by
  simp only [State.writeCtrl, hsrst, hstart, hidle, Bool.false_eq_true, if_false, Bool.not_false,
    Bool.and_self, if_true]

theorem State.writeCtrl_ie (hsrst : v.getLsbD 1 = false) (hstart : v.getLsbD 0 = false) :
    s.writeCtrl v = State.seeIrq { s with ie := v.getLsbD 2 } := by
  simp only [State.writeCtrl, hsrst, hstart, Bool.false_and, Bool.false_eq_true, if_false]

theorem State.writeStatus_done (hdone : v.getLsbD 1 = true) : s.writeStatus v = { s with done := false } := by
  simp [State.writeStatus, hdone]

end Writes

end Sys2Proof.Machine
end

section
/-!
PROOF. How a command ends, whatever it is: it works on the CRC, the keys, memory and the draws of unspecified bytes,
and its end is one of the two of rules R242 and R243. It leaves the rest of the state, `IE` among it, to that end.
-/

namespace Sys2Proof.Machine

/-- `u` is `s` but for the state that a command's rule may write before its end. -/
def State.WorksTo (s u : State) : Prop :=
  ∃ crc rk keyv mem draws, u = { s with crc := crc, rk := rk, keyv := keyv, mem := mem, draws := draws }

/-- The outcome is the end of a command (rules R242, R243), after work on `s`. -/
def State.EndsIn (s : State) (o : Host.Outcome State Fault Refusal) : Prop :=
  ∃ u out code addr, s.WorksTo u ∧ o = .next (u.finish out code addr)

section Work

variable (s : State)

theorem State.worksTo_refl : s.WorksTo s := ⟨_, _, _, _, _, rfl⟩

theorem State.worksTo_crc (crc : Word) : s.WorksTo { s with crc := crc } := ⟨_, _, _, _, _, rfl⟩

theorem State.worksTo_mem (mem : Memory) : s.WorksTo { s with mem := mem } := ⟨_, _, _, _, _, rfl⟩

theorem State.worksTo_clearKeys : s.WorksTo s.clearKeys := ⟨_, _, _, _, _, rfl⟩

theorem State.worksTo_loadKeys (key : Block) : s.WorksTo (s.loadKeys key) := ⟨_, _, _, _, _, rfl⟩

theorem State.worksTo_scramble (r : ByteRange) : s.WorksTo (s.scramble r) := ⟨_, _, _, _, _, rfl⟩

variable {s} {u : State}

theorem State.WorksTo.ie (h : s.WorksTo u) : u.ie = s.ie := by
  obtain ⟨_, _, _, _, _, rfl⟩ := h
  rfl

theorem State.WorksTo.complete (h : s.WorksTo u) (out : Outputs) : s.EndsIn (.next (u.complete out)) :=
  ⟨u, _, _, _, h, rfl⟩

theorem State.WorksTo.raiseError (h : s.WorksTo u) (code : ErrCode) (addr reslen : Nat) :
    s.EndsIn (.next (u.raiseError code addr reslen)) :=
  ⟨u, _, _, _, h, rfl⟩

end Work

section Commands

variable (s : State)

theorem State.endsIn_raiseError (code : ErrCode) (addr reslen : Nat) :
    s.EndsIn (.next (s.raiseError code addr reslen)) :=
  s.worksTo_refl.raiseError code addr reslen

theorem State.endsIn_failScrambled (code : ErrCode) (addr : Nat) : s.EndsIn (.next (s.failScrambled code addr)) :=
  (s.worksTo_scramble _).raiseError code addr 0

theorem execCrcUpdate_endsIn : s.EndsIn (execCrcUpdate s) := by
  unfold execCrcUpdate
  dsimp only
  split
  · exact s.endsIn_raiseError _ _ _
  split
  · exact (s.worksTo_crc _).raiseError _ _ _
  · exact (s.worksTo_crc _).complete _

theorem execKeyLoad_endsIn : s.EndsIn (execKeyLoad s) := by
  unfold execKeyLoad
  dsimp only
  split
  · exact s.endsIn_raiseError _ _ _
  split
  · exact s.worksTo_clearKeys.raiseError _ _ _
  · exact (s.worksTo_loadKeys _).complete _

theorem segmentCommand_endsIn (f : Block → Block) : s.EndsIn (.next (segmentCommand f s)) := by
  unfold segmentCommand
  split
  · exact s.endsIn_raiseError _ _ _
  dsimp only
  split
  · exact (s.worksTo_mem _).raiseError _ _ _
  · exact (s.worksTo_mem _).complete _

theorem execRedEnc_endsIn (crypt disc : Bool) : s.EndsIn (execRedEnc crypt disc s) := by
  unfold execRedEnc
  split
  · exact s.endsIn_raiseError _ _ _
  split
  · exact s.endsIn_failScrambled _ _
  dsimp only
  split
  · exact s.endsIn_failScrambled _ _
  split
  · exact s.endsIn_failScrambled _ _
  · exact (s.worksTo_mem _).complete _

theorem redDecBlock_endsIn (validate : Bool) (blk : List Byte) (cnt : List Nat) :
    s.EndsIn (.next (redDecBlock validate blk cnt s)) := by
  unfold redDecBlock
  dsimp only
  split
  · exact s.endsIn_raiseError _ _ _
  split
  · exact s.endsIn_failScrambled _ _
  · exact (s.worksTo_mem _).complete _

theorem execRedDec_endsIn (crypt validate : Bool) : s.EndsIn (execRedDec crypt validate s) := by
  unfold execRedDec
  split
  · exact s.endsIn_raiseError _ _ _
  dsimp only
  split
  · exact s.endsIn_raiseError _ _ _
  split
  · exact s.endsIn_raiseError _ _ _
  split
  · exact s.endsIn_raiseError _ _ _
  split
  · exact s.endsIn_raiseError _ _ _
  · exact redDecBlock_endsIn s validate _ _

/-- Every command ends in the step that gives it its meaning, from every state. -/
theorem exec_endsIn (i : Instr) : s.EndsIn (exec i s) := by
  cases i with
  | nop => exact s.worksTo_refl.complete _
  | crcInit => exact (s.worksTo_crc _).complete _
  | crcUpdate => exact execCrcUpdate_endsIn s
  | keyLoad => exact execKeyLoad_endsIn s
  | keyClear => exact s.worksTo_clearKeys.complete _
  | aesEnc => exact segmentCommand_endsIn s _
  | aesDec => exact segmentCommand_endsIn s _
  | redEnc crypt disc => exact execRedEnc_endsIn s crypt disc
  | redDec crypt validate => exact execRedDec_endsIn s crypt validate

theorem exec_done_ie (i : Instr) : ∃ t, exec i s = .next t ∧ t.done = true ∧ t.ie = s.ie := by
  obtain ⟨u, out, code, addr, hwork, hend⟩ := exec_endsIn s i
  exact ⟨_, hend, rfl, hwork.ie⟩

/-- A reserved opcode and a disturbed command make `DONE` pending too (rules R69, R83, R247). -/
theorem State.commandEnd_done_ie : ∃ t, s.commandEnd = .next t ∧ t.done = true ∧ t.ie = s.ie := by
  unfold State.commandEnd
  split
  next => exact ⟨_, rfl, rfl, rfl⟩
  next i _ =>
    split
    · obtain ⟨u, hexec, hdone, hie⟩ := exec_done_ie (s.readUnsteady (sourceRange i s.latch)) i
      rw [State.disturbedEnd_next s u i hexec, markStaleAfter_next]
      exact ⟨_, rfl, by simp [hdone], by simp [hie]⟩
    · obtain ⟨u, hexec, hdone, hie⟩ := exec_done_ie s i
      rw [hexec, markStaleAfter_next]
      exact ⟨_, rfl, by simp [hdone], by simp [hie]⟩

end Commands

section Turn

variable {s : State}

theorem State.engineStep_done_ie (hbusy : s.busy = true) (hwait : s.wait = 0) :
    ∃ t, s.engineStep = .next t ∧ t.done = true ∧ t.ie = s.ie := by
  rw [State.engineStep_of_wait_zero hbusy hwait]
  exact s.commandEnd_done_ie

/-- The three forms of the step in which the engine takes its turn differ in the inputs left and in the host's
response. -/
theorem step_engineTurn {rest : List Input}
    (hinputs : s.inputs = [] ∨ s.inputs = .engine :: rest ∨ s.inputs = .waitIdle :: rest) (hbusy : s.busy = true) :
    ∃ inputs response, step s = State.engineStep { s with inputs := inputs, response := response } := by
  rcases hinputs with hnil | hengine | hidle
  · exact ⟨s.inputs, s.response, step_of_inputs_nil hnil⟩
  · exact ⟨rest, s.response, step_of_inputs_engine hengine⟩
  · exact ⟨s.inputs, _, step_of_inputs_waitIdle hidle hbusy⟩

end Turn

end Sys2Proof.Machine
end

section
/-!
PROOF. The statements about the exceptions: the bus errors of the register window, and the interrupt (rules R247,
R249).
-/

namespace Sys2Proof.Proofs.Exceptions

open Sys2Proof Sys2Proof.Machine

/-- Settles O18: an access that rule R21 does not allow is refused; a reserved offset names no register to read or to
write, and no value there is left unspecified. -/
theorem badRegisterAccessesChangeNothing : Obligations.BadRegisterAccessesChangeNothing := by
  intro s offset width rest
  constructor
  · intro hbad
    have hrefused := registerAccessOK_eq_false_iff.2 hbad
    constructor
    · intro hin
      rw [step_of_inputs_cons hin, State.takeInput_readReg, State.readRegister_refused _ hrefused]
    · intro v hin
      rw [step_of_inputs_cons hin, State.takeInput_writeReg, State.writeRegister_refused _ hrefused]
  · rintro ⟨hwidth, halign, hres⟩
    have hok := registerAccessOK_iff.2 ⟨hwidth, halign⟩
    constructor
    · intro hin
      have hspec : State.registerUnspecified { s with inputs := rest } offset = false :=
        State.registerUnspecified_other _ (resultOffset_reserved hres) (by omega)
      rw [step_of_inputs_cons hin, State.takeInput_readReg, State.readRegister_specified _ hok hspec (by omega),
        State.register_reserved _ hres]
    · intro v hin
      rw [step_of_inputs_cons hin, State.takeInput_writeReg,
        State.writeRegister_ignored _ hok (not_mem_writableOffsets_reserved hres)]

/-- Every command end makes `DONE` pending, and `IE` alone decides whether it raises `IRQ`. -/
theorem commandEnd_raises_irq {s t : State} {rest : List Input} (hstep : step s = .next t)
    (hinputs : s.inputs = [] ∨ s.inputs = .engine :: rest ∨ s.inputs = .waitIdle :: rest)
    (hbusy : s.busy = true) (hwait : s.wait = 0) : t.done = true ∧ t.irq = s.ie := by
  obtain ⟨inputs, response, hturn⟩ := step_engineTurn hinputs hbusy
  obtain ⟨u, hend, hdone, hie⟩ :=
    State.engineStep_done_ie (s := { s with inputs := inputs, response := response }) hbusy hwait
  cases hstep.symm.trans (hturn.trans hend)
  exact ⟨hdone, by simp [State.irq, hdone, hie]⟩

/-- While the reset input is held, the host's write finds `DONE` clear and leaves it so (rule R271). -/
theorem heldWrite_done {s t : State} {offset : BitVec 8} {width : AccessWidth} {v : Word} {rest : List Input}
    (hstep : step s = .next t) (hin : s.inputs = .writeReg offset width v :: rest) (hheld : s.resetHeld = true)
    (hclear : s.clearEngine = s) : s.done = false ∧ t.done = false := by
  obtain ⟨r, hwrite⟩ := State.writeRegister_held { s with inputs := rest } hheld offset width v
  rw [step_of_inputs_cons hin, State.takeInput_writeReg, hwrite] at hstep
  cases hstep
  have hdone : s.done = false := by rw [← hclear, State.clearEngine_done]
  exact ⟨hdone, hdone⟩

/-- Settles O21: `IRQ` is `DONE` where `IE` is 1, so each clause is about `DONE`, and the last about `IE`. While the
reset input is held both are 0 already. -/
theorem interruptEnableAndPending : Obligations.InterruptEnableAndPending := by
  intro s t hstep
  have cleared (h : t.done = false) : t.done = false ∧ t.irq = false := ⟨h, State.irq_of_done_false h⟩
  refine ⟨State.irq_of_ie_false, fun rest => commandEnd_raises_irq hstep, ?reset, fun hclear => ?writes⟩
  case reset =>
    intro rest hin
    rw [step_of_inputs_cons hin] at hstep
    cases hstep
    exact cleared (State.assertReset_done _)
  case writes =>
    cases hheld : s.resetHeld with
    | true =>
      have held {offset width v rest} (hin : s.inputs = .writeReg offset width v :: rest) :=
        heldWrite_done hstep hin hheld (hclear hheld)
      refine ⟨fun v rest hin _ => cleared (held hin).2, fun v rest hin _ _ _ => cleared (held hin).2,
        fun v rest hin _ => cleared (held hin).2, fun v rest hin _ _ => ?_⟩
      obtain ⟨hs, ht⟩ := held hin
      rw [State.irq_of_done_false ht, hs, Bool.false_and]
    | false =>
      have ctrl {v rest} (hin : s.inputs = .writeReg 0x04#8 .word v :: rest) :
          t = State.writeCtrl { s with inputs := rest, response := .done } v := by
        cases hstep.symm.trans (step_writeCtrl hin hheld)
        rfl
      refine ⟨fun v rest hin hdone => cleared ?status,
        fun v rest hin hsrst hstart hidle => cleared ?launch, fun v rest hin hsrst => cleared ?softReset,
        fun v rest hin hsrst hstart => ?enable⟩
      case status =>
        cases hstep.symm.trans (step_writeStatus hin hheld)
        rw [State.writeStatus_done hdone]
      case launch =>
        have hlaunch :=
          State.writeCtrl_start (s := { s with inputs := rest, response := .done }) hsrst hstart hidle
        rw [ctrl hin, hlaunch, State.launch_done]
      case softReset => rw [ctrl hin, State.writeCtrl_srst hsrst, State.hardwareReset_done]
      case enable =>
        rw [ctrl hin, State.writeCtrl_ie hsrst hstart, State.irq, State.seeIrq_done, State.seeIrq_ie]

end Sys2Proof.Proofs.Exceptions
end

section
/-!
PROOF. A host write of the register window while a command runs (rules R24, R39): what is left of it is the bus
response, and of a write of `CTRL` without `SRST` the new `IE`.
-/

namespace Sys2Proof.Machine

section BusyWrites

variable {s : State} {offset : BitVec 8} {v : Word}

theorem State.seeIrq_of_irq_false (hirq : s.irq = false) : s.seeIrq = s := by
  simp [State.seeIrq, hirq]

theorem State.writeOperand_busy (hbusy : s.busy = true) : s.writeOperand offset v = s :=
  if_pos hbusy

/-- `START` is not looked at: bit 0 of the word is not in the statement. With `DONE` clear the new `IE` raises no
`IRQ`, so the host sees no end. -/
theorem State.writeCtrl_busy (hsrst : v.getLsbD 1 = false) (hbusy : s.busy = true) (hdone : s.done = false) :
    s.writeCtrl v = { s with ie := v.getLsbD 2 } := by
  have hirq : State.irq { s with ie := v.getLsbD 2 } = false := State.irq_of_done_false hdone
  calc s.writeCtrl v = State.seeIrq { s with ie := v.getLsbD 2 } := by
        simp only [State.writeCtrl, hsrst, hbusy, Bool.not_true, Bool.and_false, Bool.false_eq_true, if_false]
    _ = { s with ie := v.getLsbD 2 } := State.seeIrq_of_irq_false hirq

/-- Whether the reset input is held or not, for then the write has no effect either (rule R271). -/
theorem State.writeRegister_busy {width : AccessWidth} (hok : registerAccessOK offset width = true)
    (hbusy : s.busy = true) (hctrl : offset ≠ 0x04#8) (hstatus : offset ≠ 0x08#8) :
    s.writeRegister offset width v = { s with response := .done } := by
  have hoperand : State.writeOperand { s with response := .done } offset v = { s with response := .done } :=
    State.writeOperand_busy hbusy
  simp only [State.writeRegister, hok, Bool.not_true, Bool.false_eq_true, if_false]
  split
  next => rfl
  next =>
    split
    next h => exact absurd (BitVec.eq_of_toNat_eq h) hctrl
    next h => exact absurd (BitVec.eq_of_toNat_eq h) hstatus
    next => exact hoperand

theorem State.phaseConsistent.done_of_busy (h : s.phaseConsistent) (hbusy : s.busy = true) : s.done = false := by
  obtain ⟨hphase, -, -⟩ := h
  rw [if_pos hbusy] at hphase
  exact hphase.1

/-- No command runs in the reset state. -/
theorem State.phaseConsistent.resetHeld_of_busy (h : s.phaseConsistent) (hbusy : s.busy = true) :
    s.resetHeld = false := by
  obtain ⟨-, hheld, -⟩ := h
  refine Bool.eq_false_iff.2 fun hreset => ?_
  have hidle : s.busy = false := by rw [← hheld hreset, State.clearEngine_busy]
  exact Bool.false_ne_true (hidle.symm.trans hbusy)

end BusyWrites

end Sys2Proof.Machine
end

section
/-!
PROOF. The statement about the hazards of the register window: no queue of commands (rule R275).
-/

namespace Sys2Proof.Proofs.Hazards

open Sys2Proof Sys2Proof.Machine

/-- Settles O15: while a command runs `DONE` is clear and the reset input is not held, which is what a write of `CTRL`
turns on; the writes of the other registers need no more than `BUSY`. -/
theorem writesWhileBusyAreIgnored : Obligations.WritesWhileBusyAreIgnored := by
  intro s offset v rest hin hbusy halign
  constructor
  · rintro rfl hsrst hphase
    have hctrl := State.writeCtrl_busy (s := { s with inputs := rest, response := .done }) hsrst hbusy
      (hphase.done_of_busy hbusy)
    rw [step_writeCtrl hin (hphase.resetHeld_of_busy hbusy), hctrl]
  · intro hctrl hstatus
    have hok := registerAccessOK_iff.2 ⟨rfl, halign⟩
    have hwrite := State.writeRegister_busy (s := { s with inputs := rest }) (v := v) hok hbusy hctrl hstatus
    rw [step_of_inputs_cons hin, State.takeInput_writeReg, hwrite]

end Sys2Proof.Proofs.Hazards
end

section
/-!
PROOF. The encoder against the decoder (rules R80 to R83, R86): a command's word holds exactly the fields that the
command reads.
-/

namespace Sys2Proof

theorem commandWord_commandFields (w : Word) : commandWord (commandFields w) = w &&& cmdMask := by
  have hflag (k : Nat) : (if w.getLsbD k then 1#32 <<< k else 0#32) = w &&& (1#32 <<< k) := by
    refine BitVec.eq_of_getLsbD_eq fun i hi => ?_
    rw [BitVec.getLsbD_and]
    by_cases hik : i = k
    · subst hik
      cases w.getLsbD i <;> simp
    · have hbit : (1#32 <<< k).getLsbD i = false := by
        simp only [BitVec.getLsbD_shiftLeft, BitVec.getLsbD_one]
        simp
        omega
      cases w.getLsbD k <;> simp [hbit]
  have hop : (w.extractLsb' 0 4).zeroExtend 32 = w &&& 0xF#32 := by
    refine BitVec.eq_of_toNat_eq ?_
    have hmask : w.toNat &&& 15 = w.toNat % 2 ^ 4 := Nat.and_two_pow_sub_one_eq_mod w.toNat 4
    simp [hmask]
    omega
  have hcrypt : (if w.getLsbD 8 then 0x100#32 else 0#32) = w &&& 0x100#32 := hflag 8
  have hvalidate : (if w.getLsbD 9 then 0x200#32 else 0#32) = w &&& 0x200#32 := hflag 9
  have hdisc : (if w.getLsbD 10 then 0x400#32 else 0#32) = w &&& 0x400#32 := hflag 10
  calc commandWord (commandFields w)
      = (w &&& 0xF#32) ||| (w &&& 0x100#32) ||| (w &&& 0x200#32) ||| (w &&& 0x400#32) := by
        rw [← hop, ← hcrypt, ← hvalidate, ← hdisc]
        rfl
    _ = w &&& cmdMask := by
        simp only [← BitVec.and_or_distrib_left]
        rfl

/-- The fields that a decoded command reads are those of its encoding, the others 0 there. -/
theorem commandFields_and_readMask {w : Word} {i : Instr} (h : decode w = .ok i) :
    commandFields (w &&& i.readMask) = encodeFields i := by
  have hop : (commandFields w).op &&& 0xF#4 = (commandFields w).op := BitVec.and_allOnes
  rw [commandFields_and]
  unfold decode at h
  dsimp only at h
  split at h <;> cases h <;>
    simp_all [Instr.readMask, commandFields, encodeFields, ← BitVec.toNat_inj]

theorem readMask_and_cmdMask (i : Instr) : i.readMask &&& cmdMask = i.readMask := by
  cases i <;> simp [Instr.readMask, cmdMask]

theorem encode_of_decode {w : Word} {i : Instr} (h : decode w = .ok i) : encode i = w &&& i.readMask := by
  rw [encode, ← commandFields_and_readMask h, commandWord_commandFields, BitVec.and_assoc, readMask_and_cmdMask]

theorem decode_encode (i : Instr) : decode (encode i) = .ok i := by
  cases i with
  | redEnc crypt disc => cases crypt <;> cases disc <;> rfl
  | redDec crypt validate => cases crypt <;> cases validate <;> rfl
  | _ => rfl

theorem commandWordWellFormed_encode (i : Instr) : commandWordWellFormed (encode i) = true := by
  cases i with
  | redEnc crypt disc => cases crypt <;> cases disc <;> rfl
  | redDec crypt validate => cases crypt <;> cases validate <;> rfl
  | _ => rfl

end Sys2Proof

namespace Sys2Proof.Proofs.Decoder

open Sys2Proof Sys2Proof.Machine

/-- Settles O1: the bits that a command reads are the fields that its encoding is made of. -/
theorem decodeEncodeAgree : Obligations.DecodeEncodeAgree :=
  ⟨fun i _ => ⟨decode_encode i, commandWordWellFormed_encode i⟩, fun _ _ => encode_of_decode⟩

/-- Settles O2: of the two things the decoder can do, the rejection is that of the words with `OP` 0x9 to 0xF. -/
theorem decoderRejectsReservedOpcodes : Obligations.DecoderRejectsReservedOpcodes := by
  intro w e
  constructor
  · intro herr
    rcases decode_cases w with ⟨-, i, hok⟩ | ⟨hres, hdec⟩
    · cases herr.symm.trans hok
    · cases herr.symm.trans hdec
      exact ⟨hres, rfl⟩
  · rintro ⟨hres, rfl⟩
    exact decode_reserved hres

/-- Settles O3: each word is closed, and the decoder evaluates to its command. -/
theorem decodedWordsOfTheOpcodeMap : Obligations.DecodedWordsOfTheOpcodeMap :=
  ⟨rfl, rfl, rfl, rfl, rfl, rfl, rfl, rfl, rfl, rfl, rfl, rfl⟩

end Sys2Proof.Proofs.Decoder
end

section
/-!
PROOF. DMA accesses to neighbouring ranges, byte strings stored one after the other, and the segments of a byte string
(rules R62, R136).
-/

namespace Sys2Proof.Machine

theorem allDmaOK_add_iff (cfg : Config) (kind : AccessKind) (a n m : Nat) :
    AllDmaOK cfg kind a (n + m) ↔ AllDmaOK cfg kind a n ∧ AllDmaOK cfg kind (a + n) m := by
  constructor
  · intro h
    exact ⟨fun x hlow hhigh => h x hlow (by omega), fun x hlow hhigh => h x (by omega) (by omega)⟩
  · rintro ⟨hfirst, hsecond⟩ x hlow hhigh
    rcases Nat.lt_or_ge x (a + n) with hx | hx
    · exact hfirst x hlow hx
    · exact hsecond x hx (by omega)

theorem AllDmaOK.mono {cfg : Config} {kind : AccessKind} {a n b m : Nat} (h : AllDmaOK cfg kind a n) (hlow : a ≤ b)
    (hhigh : b + m ≤ a + n) : AllDmaOK cfg kind b m :=
  fun x hx hx' => h x (by omega) (by omega)

/-- The first byte that fails is in no range that is reachable. -/
theorem FirstBad.not_allDmaOK {cfg : Config} {kind : AccessKind} {a n e b m : Nat} (h : FirstBad cfg kind a n e)
    (hlow : b ≤ e) (hhigh : e < b + m) : ¬ AllDmaOK cfg kind b m := by
  obtain ⟨-, -, hbad, -⟩ := h
  intro hok
  have hgood := hok e hlow hhigh
  simp [hbad] at hgood

theorem FirstBad.unique {cfg : Config} {kind : AccessKind} {a n e e' : Nat} (h : FirstBad cfg kind a n e)
    (h' : FirstBad cfg kind a n e') : e = e' := by
  obtain ⟨hlow, hhigh, -, hbefore⟩ := id h
  obtain ⟨hlow', hhigh', -, hbefore'⟩ := id h'
  rcases Nat.lt_trichotomy e e' with hlt | heq | hgt
  · exact absurd hbefore' (h.not_allDmaOK hlow (by omega))
  · exact heq
  · exact absurd hbefore (h'.not_allDmaOK hlow' (by omega))

theorem dmaRead_of_allDmaOK {cfg : Config} {m : Memory} {a n : Nat} (h : AllDmaOK cfg .read a n) :
    dmaRead cfg m a n = .ok (m.readBytes a n) := by
  rw [dmaRead, (firstFailing_none_iff _ _ _ _).2 h]

theorem dmaRead_of_firstBad {cfg : Config} {m : Memory} {a n e : Nat} (h : FirstBad cfg .read a n e) :
    dmaRead cfg m a n = .error e := by
  rw [dmaRead, (firstFailing_some_iff _ _ _ _ _).2 h]

theorem dmaWrite_of_allDmaOK {cfg : Config} {m : Memory} {a : Nat} {bytes : List Byte}
    (h : AllDmaOK cfg .write a bytes.length) : dmaWrite cfg m a bytes = (m.writeBytes a bytes, none) := by
  rw [dmaWrite, (firstFailing_none_iff _ _ _ _).2 h]

theorem dmaWrite_of_firstBad {cfg : Config} {m : Memory} {a e : Nat} {bytes : List Byte}
    (h : FirstBad cfg .write a bytes.length e) :
    dmaWrite cfg m a bytes = (m.writeBytes a (bytes.take (e - a)), some e) := by
  rw [dmaWrite, (firstFailing_some_iff _ _ _ _ _).2 h]

theorem Memory.writeBytes_append (bytes rest : List Byte) : ∀ (m : Memory) (a : Nat),
    m.writeBytes a (bytes ++ rest) = (m.writeBytes a bytes).writeBytes (a + bytes.length) rest := by
  induction bytes with
  | nil => intro m a; rfl
  | cons b bytes ih =>
    intro m a
    rw [List.cons_append, Memory.writeBytes, Memory.writeBytes, ih, List.length_cons, Nat.add_assoc,
      Nat.add_comm 1]

theorem Memory.writeBytes_block (m : Memory) (a : Nat) (b : Block) (rest : List Byte) :
    (m.writeBytes a b.toList).writeBytes (a + 16) rest = m.writeBytes a (b.toList ++ rest) :=
  (Memory.writeBytes_append b.toList rest m a).symm

theorem Memory.readBytes_add (m : Memory) (n k : Nat) : ∀ a,
    m.readBytes a (n + k) = m.readBytes a n ++ m.readBytes (a + n) k := by
  induction n with
  | zero => intro a; simp [Memory.readBytes]
  | succ n ih =>
    intro a
    rw [Nat.succ_add, Memory.readBytes, ih, Memory.readBytes, List.cons_append, Nat.add_assoc, Nat.add_comm 1]

theorem Memory.drop_readBytes (m : Memory) (a n k : Nat) (h : k ≤ n) :
    (m.readBytes a n).drop k = m.readBytes (a + k) (n - k) := by
  obtain ⟨j, rfl⟩ := Nat.exists_eq_add_of_le h
  rw [Memory.readBytes_add, Nat.add_sub_cancel_left, List.drop_left' (m.length_readBytes k a)]

theorem Memory.take_readBytes (m : Memory) (a n k : Nat) (h : k ≤ n) :
    (m.readBytes a n).take k = m.readBytes a k := by
  obtain ⟨j, rfl⟩ := Nat.exists_eq_add_of_le h
  rw [Memory.readBytes_add, List.take_left' (m.length_readBytes k a)]

theorem ecb_readBytes_succ (f : Block → Block) (m : Memory) (a k : Nat) :
    ecb f (m.readBytes a (16 * (k + 1)))
      = (f (Block.ofList (m.readBytes a 16))).toList ++ ecb f (m.readBytes (a + 16) (16 * k)) := by
  have hfirst : (Block.ofList (m.readBytes a 16)).toList = m.readBytes a 16 := by
    rw [Block.toList_ofList (by simp)]
    simp
  rw [Nat.mul_add, Nat.mul_one, Nat.add_comm, Memory.readBytes_add]
  conv_lhs => rw [← hfirst]
  exact ecb_toList_append f _ _

theorem length_ecb_readBytes (f : Block → Block) (m : Memory) (a k : Nat) :
    (ecb f (m.readBytes a (16 * k))).length = 16 * k :=
  length_ecb f k (m.length_readBytes _ _)

end Sys2Proof.Machine
end

section
/-!
PROOF. The segment loop of `AES_ENC` and `AES_DEC` (rule R134): the three ways it ends, and the byte string that it has
stored then.
-/

namespace Sys2Proof.Machine

/-- The source and the destination of a segment command are the same range, or share no byte (rule R134). -/
def InPlaceOrApart (a d n : Nat) : Prop := a = d ∨ a + n ≤ d ∨ d + n ≤ a

/-- How the segment loop ends over `k` segments from `src` to `dst`, with memory `m` before it. -/
inductive SegmentLoopEnd (cfg : Config) (f : Block → Block) (k src dst : Nat) (m : Memory) :
    Memory → Nat → Option Nat → Prop where
  | complete (hread : AllDmaOK cfg .read src (16 * k)) (hwrite : AllDmaOK cfg .write dst (16 * k)) :
    SegmentLoopEnd cfg f k src dst m (m.writeBytes dst (ecb f (m.readBytes src (16 * k)))) k none
  | readFails (j e : Nat) (hj : j < k) (hread : AllDmaOK cfg .read src (16 * j))
    (hwrite : AllDmaOK cfg .write dst (16 * j)) (hbad : FirstBad cfg .read (src + 16 * j) 16 e) :
    SegmentLoopEnd cfg f k src dst m (m.writeBytes dst (ecb f (m.readBytes src (16 * j)))) j (some e)
  | writeFails (j e : Nat) (hj : j < k) (hread : AllDmaOK cfg .read src (16 * (j + 1)))
    (hwrite : AllDmaOK cfg .write dst (16 * j)) (hbad : FirstBad cfg .write (dst + 16 * j) 16 e) :
    SegmentLoopEnd cfg f k src dst m
      (m.writeBytes dst ((ecb f (m.readBytes src (16 * (j + 1)))).take (e - dst))) j (some e)

/-- The loop ends as it does after its first segment, with that segment before what is stored then. -/
theorem SegmentLoopEnd.cons {cfg : Config} {f : Block → Block} {k src dst : Nat} {m m' : Memory} {j : Nat}
    {failing : Option Nat} (happart : InPlaceOrApart src dst (16 * (k + 1))) (hread : AllDmaOK cfg .read src 16)
    (hwrite : AllDmaOK cfg .write dst 16)
    (h : SegmentLoopEnd cfg f k (src + 16) (dst + 16)
      (m.writeBytes dst (f (Block.ofList (m.readBytes src 16))).toList) m' j failing) :
    SegmentLoopEnd cfg f (k + 1) src dst m m' (j + 1) failing := by
  have hextend {kind : AccessKind} {a i : Nat} (hfirst : AllDmaOK cfg kind a 16)
      (hrest : AllDmaOK cfg kind (a + 16) (16 * i)) : AllDmaOK cfg kind a (16 * (i + 1)) := by
    rw [Nat.mul_add, Nat.mul_one, Nat.add_comm]
    exact (allDmaOK_add_iff _ _ _ _ _).2 ⟨hfirst, hrest⟩
  have hsource {i : Nat} (hi : i ≤ k) :
      (m.writeBytes dst (f (Block.ofList (m.readBytes src 16))).toList).readBytes (src + 16) (16 * i)
        = m.readBytes (src + 16) (16 * i) := by
    refine Memory.readBytes_congr _ _ _ _ fun x _ _ => Memory.read_writeBytes_other _ _ _ _ ?_
    rw [Block.length_toList]
    rcases happart with heq | hbelow | habove <;> omega
  have hbase (a i : Nat) : a + 16 + 16 * i = a + 16 * (i + 1) := by omega
  cases h with
  | complete hread' hwrite' =>
    rw [hsource le_rfl, Memory.writeBytes_block, ← ecb_readBytes_succ]
    exact .complete (hextend hread hread') (hextend hwrite hwrite')
  | readFails j e hj hread' hwrite' hbad =>
    rw [hbase] at hbad
    rw [hsource hj.le, Memory.writeBytes_block, ← ecb_readBytes_succ]
    exact .readFails (j + 1) e (by omega) (hextend hread hread') (hextend hwrite hwrite') hbad
  | writeFails j e hj hread' hwrite' hbad =>
    rw [hbase] at hbad
    have htake : (f (Block.ofList (m.readBytes src 16))).toList
        ++ (ecb f (m.readBytes (src + 16) (16 * (j + 1)))).take (e - (dst + 16))
        = (ecb f (m.readBytes src (16 * (j + 1 + 1)))).take (e - dst) := by
      obtain ⟨hlow, -, -, -⟩ := hbad
      have hsplit : e - dst = 16 + (e - (dst + 16)) := by omega
      rw [ecb_readBytes_succ, hsplit]
      exact (List.take_length_add_append _).symm
    rw [hsource hj, Memory.writeBytes_block, htake]
    exact .writeFails (j + 1) e (by omega) (hextend hread hread') (hextend hwrite hwrite') hbad

/-- The loop's counter starts at any number. -/
theorem segmentLoop_end (cfg : Config) (f : Block → Block) (k : Nat) : ∀ (src dst start : Nat) (m : Memory),
    InPlaceOrApart src dst (16 * k) →
    ∃ m' j failing, SegmentLoopEnd cfg f k src dst m m' j failing ∧
      segmentLoop cfg f k src dst start m = ⟨m', start + j, failing⟩ := by
  induction k with
  | zero =>
    intro src dst start m _
    exact ⟨_, _, _, .complete (fun x _ _ => by omega) (fun x _ _ => by omega), rfl⟩
  | succ k ih =>
    intro src dst start m happart
    have hlength : (f (Block.ofList (m.readBytes src 16))).toList.length = 16 := Block.length_toList _
    rw [segmentLoop]
    rcases dmaRead_cases cfg m src 16 with ⟨hread, hok⟩ | ⟨e, hbad, herror⟩
    · rw [hok]
      dsimp only
      rcases dmaWrite_cases cfg m dst (f (Block.ofList (m.readBytes src 16))).toList with
        ⟨hwrite, hstored⟩ | ⟨e, hbad, hpart⟩
      · rw [hlength] at hwrite
        rw [hstored]
        have hnext : InPlaceOrApart (src + 16) (dst + 16) (16 * k) := by
          unfold InPlaceOrApart at happart ⊢
          omega
        obtain ⟨m', j, failing, hend, hloop⟩ := ih (src + 16) (dst + 16) (start + 1)
          (m.writeBytes dst (f (Block.ofList (m.readBytes src 16))).toList) hnext
        refine ⟨m', j + 1, failing, hend.cons happart hread hwrite, hloop.trans ?_⟩
        rw [Nat.add_right_comm, Nat.add_assoc]
      · rw [hlength] at hbad
        rw [hpart]
        have hfirst : (f (Block.ofList (m.readBytes src 16))).toList = ecb f (m.readBytes src (16 * (0 + 1))) := by
          rw [ecb_readBytes_succ]
          exact (List.append_nil _).symm
        rw [hfirst]
        exact ⟨_, 0, _, .writeFails 0 e (Nat.succ_pos k) hread (fun x _ _ => by omega) hbad, rfl⟩
    · rw [herror]
      exact ⟨_, 0, _, .readFails 0 e (Nat.succ_pos k) (fun x _ _ => by omega) (fun x _ _ => by omega) hbad, rfl⟩

end Sys2Proof.Machine
end

section
/-!
PROOF. The static checks of the commands with a destination, and each way that these commands end (rules R134, R135,
R204, R205).
-/

namespace Sys2Proof.Machine

theorem rangeOK_eq_false_iff (a n : Nat) : rangeOK a n = false ↔ 2 ^ 32 < a + n := by
  simp [rangeOK, addressLimit]

theorem overlap_iff (a n b m : Nat) : overlap a n b m = true ↔ 0 < n ∧ 0 < m ∧ a < b + m ∧ b < a + n := by
  simp [overlap, and_assoc]

/-- A chain of checks passes when its first check does and the rest passes. -/
theorem check_eq_none_iff {c : Prop} [Decidable c] (code : ErrCode) (rest : Option ErrCode) :
    (if c then some code else rest) = none ↔ ¬ c ∧ rest = none := by
  split <;> simp_all

section Segments

variable {s : State} {f : Block → Block}

theorem segmentCheck_eq_none_iff :
    segmentCheck s = none ↔ s.keyv = true ∧ s.latch.srclen.toNat % 16 = 0
      ∧ s.latch.src.toNat + s.latch.srclen.toNat ≤ 2 ^ 32 ∧ s.latch.srclen.toNat ≤ s.latch.dstlen.toNat
      ∧ s.latch.dst.toNat + s.latch.srclen.toNat ≤ 2 ^ 32
      ∧ InPlaceOrApart s.latch.src.toNat s.latch.dst.toNat s.latch.srclen.toNat := by
  have hapart (a d n : Nat) : ¬ (decide (a ≠ d) && overlap a n d n) = true ↔ InPlaceOrApart a d n := by
    rw [Bool.and_eq_true, overlap_iff, decide_eq_true_iff, InPlaceOrApart]
    omega
  simp only [segmentCheck, check_eq_none_iff, Bool.not_eq_true', Bool.not_eq_false, rangeOK_iff, hapart,
    not_lt, ne_eq, not_not, and_true]

/-- The codes that the checks of rule R134 give. -/
theorem segmentCheck_mem {code : ErrCode} (h : segmentCheck s = some code) :
    code ∈ [ErrCode.noKey, .len, .overlap, .dst] := by
  unfold segmentCheck at h
  dsimp only at h
  split_ifs at h <;> cases h <;> simp

theorem segmentCommand_of_check {code : ErrCode} (h : segmentCheck s = some code) :
    segmentCommand f s = s.raiseError code 0 0 := by
  rw [segmentCommand, h]

theorem segmentCommand_end (h : segmentCheck s = none) :
    ∃ m j failing, SegmentLoopEnd s.cfg f (s.latch.srclen.toNat / 16) s.latch.src.toNat s.latch.dst.toNat s.mem
        m j failing ∧
      segmentCommand f s = failing.elim (State.complete { s with mem := m } { reslen := s.latch.srclen })
        fun e => State.raiseError { s with mem := m } .bus e (16 * j) := by
  obtain ⟨-, hmul, -, -, -, happart⟩ := segmentCheck_eq_none_iff.1 h
  have hsize : 16 * (s.latch.srclen.toNat / 16) = s.latch.srclen.toNat := by omega
  obtain ⟨m, j, failing, hend, hloop⟩ := segmentLoop_end s.cfg f (s.latch.srclen.toNat / 16) s.latch.src.toNat
    s.latch.dst.toNat 0 s.mem (by rwa [hsize])
  refine ⟨m, j, failing, hend, ?_⟩
  have hreslen : Outputs.bytes s.latch.srclen.toNat = { reslen := s.latch.srclen } := by
    simp [Outputs.bytes, toWord]
  rw [segmentCommand, h]
  dsimp only
  rw [hloop, Nat.zero_add, hreslen]
  cases failing <;> rfl

end Segments

/-- The source of a RED command and its destination share no byte (rules R204, R205); the source has a byte. -/
def RangesApart (a n d cap : Nat) : Prop := ¬ (0 < cap ∧ a < d + cap ∧ d < a + n)

theorem not_overlap_iff_rangesApart {a n d cap : Nat} (hn : 0 < n) :
    ¬ overlap a n d cap = true ↔ RangesApart a n d cap := by
  rw [overlap_iff, RangesApart]
  omega

section RedEncode

variable {s : State} {crypt : Bool}

/-- What rule R204 asks of the operands of `RED_ENC` before the check of an overlap. -/
def State.RedEncShape (s : State) : Prop :=
  0 < s.latch.srclen.toNat ∧ s.latch.srclen.toNat % 4 = 0
    ∧ s.latch.src.toNat + s.latch.srclen.toNat ≤ 2 ^ 32 ∧ s.latch.dst.toNat + s.latch.dstlen.toNat ≤ 2 ^ 32

theorem redEncCheck_noKey (hkey : ¬ (crypt = true → s.keyv = true)) : redEncCheck crypt s = some .noKey := by
  have hfails : (crypt && !s.keyv) = true := by simp_all
  simp [redEncCheck, hfails]

theorem redEncCheck_len (hkey : crypt = true → s.keyv = true) (hshape : ¬ s.RedEncShape) :
    redEncCheck crypt s = some .len := by
  have hpasses : (crypt && !s.keyv) = false := by simpa using hkey
  unfold State.RedEncShape at hshape
  simp only [redEncCheck, hpasses, Bool.false_eq_true, if_false, Bool.not_eq_true', rangeOK_eq_false_iff]
  rw [← ite_or, ← ite_or, if_pos (by omega)]

theorem redEncCheck_of_shape (hkey : crypt = true → s.keyv = true) (hshape : s.RedEncShape) :
    redEncCheck crypt s
      = if overlap s.latch.src.toNat s.latch.srclen.toNat s.latch.dst.toNat s.latch.dstlen.toNat then some .overlap
        else none := by
  have hpasses : (crypt && !s.keyv) = false := by simpa using hkey
  obtain ⟨hpos, hmul, hsource, hdest⟩ := hshape
  have hlength : ¬ (s.latch.srclen.toNat = 0 ∨ s.latch.srclen.toNat % 4 ≠ 0) := by omega
  simp only [redEncCheck, hpasses, Bool.false_eq_true, if_false, hlength, (rangeOK_iff _ _).2 hsource,
    (rangeOK_iff _ _).2 hdest, Bool.not_true]

theorem redEncCheck_overlap (hkey : crypt = true → s.keyv = true) (hshape : s.RedEncShape)
    (hmeet : ¬ RangesApart s.latch.src.toNat s.latch.srclen.toNat s.latch.dst.toNat s.latch.dstlen.toNat) :
    redEncCheck crypt s = some .overlap := by
  rw [redEncCheck_of_shape hkey hshape, if_pos]
  rwa [← not_overlap_iff_rangesApart hshape.1, not_not] at hmeet

theorem redEncCheck_none (hkey : crypt = true → s.keyv = true) (hshape : s.RedEncShape)
    (happart : RangesApart s.latch.src.toNat s.latch.srclen.toNat s.latch.dst.toNat s.latch.dstlen.toNat) :
    redEncCheck crypt s = none := by
  rw [redEncCheck_of_shape hkey hshape, if_neg ((not_overlap_iff_rangesApart hshape.1).2 happart)]

/-- The checks of rule R204 are these, in its order. -/
theorem redEncCheck_cases (crypt : Bool) (s : State) :
    (¬ (crypt = true → s.keyv = true) ∧ redEncCheck crypt s = some .noKey) ∨
      ((crypt = true → s.keyv = true) ∧ redEncCheck crypt s = some .len) ∨
      ((crypt = true → s.keyv = true) ∧ redEncCheck crypt s = some .overlap) ∨
      ((crypt = true → s.keyv = true) ∧ s.RedEncShape
        ∧ RangesApart s.latch.src.toNat s.latch.srclen.toNat s.latch.dst.toNat s.latch.dstlen.toNat
        ∧ redEncCheck crypt s = none) := by
  by_cases hkey : crypt = true → s.keyv = true
  · by_cases hshape : s.RedEncShape
    · by_cases happart : RangesApart s.latch.src.toNat s.latch.srclen.toNat s.latch.dst.toNat s.latch.dstlen.toNat
      · exact .inr (.inr (.inr ⟨hkey, hshape, happart, redEncCheck_none hkey hshape happart⟩))
      · exact .inr (.inr (.inl ⟨hkey, redEncCheck_overlap hkey hshape happart⟩))
    · exact .inr (.inl ⟨hkey, redEncCheck_len hkey hshape⟩)
  · exact .inl ⟨hkey, redEncCheck_noKey hkey⟩

end RedEncode

section RedDecode

variable {s : State} {crypt : Bool}

/-- What rule R205 asks of the operands of `RED_DEC` before the check of an overlap. -/
def State.RedDecShape (s : State) : Prop :=
  287 ≤ s.latch.srclen.toNat ∧ s.latch.src.toNat + s.latch.srclen.toNat ≤ 2 ^ 32
    ∧ s.latch.dst.toNat + s.latch.dstlen.toNat ≤ 2 ^ 32

theorem redDecCheck_noKey (hkey : ¬ (crypt = true → s.keyv = true)) : redDecCheck crypt s = some .noKey := by
  have hfails : (crypt && !s.keyv) = true := by simp_all
  simp [redDecCheck, hfails]

theorem redDecCheck_len (hkey : crypt = true → s.keyv = true) (hshape : ¬ s.RedDecShape) :
    redDecCheck crypt s = some .len := by
  have hpasses : (crypt && !s.keyv) = false := by simpa using hkey
  unfold State.RedDecShape at hshape
  simp only [redDecCheck, hpasses, Bool.false_eq_true, if_false, Bool.not_eq_true', rangeOK_eq_false_iff, headerSize]
  rw [← ite_or, ← ite_or, if_pos (by omega)]

theorem redDecCheck_of_shape (hkey : crypt = true → s.keyv = true) (hshape : s.RedDecShape) :
    redDecCheck crypt s
      = if overlap s.latch.src.toNat s.latch.srclen.toNat s.latch.dst.toNat s.latch.dstlen.toNat then some .overlap
        else none := by
  have hpasses : (crypt && !s.keyv) = false := by simpa using hkey
  obtain ⟨hheader, hsource, hdest⟩ := hshape
  have hlength : ¬ s.latch.srclen.toNat < headerSize := not_lt.2 hheader
  simp only [redDecCheck, hpasses, Bool.false_eq_true, if_false, hlength, (rangeOK_iff _ _).2 hsource,
    (rangeOK_iff _ _).2 hdest, Bool.not_true]

theorem State.RedDecShape.srclen_pos (h : s.RedDecShape) : 0 < s.latch.srclen.toNat :=
  Nat.lt_of_lt_of_le (by norm_num) h.1

theorem redDecCheck_overlap (hkey : crypt = true → s.keyv = true) (hshape : s.RedDecShape)
    (hmeet : ¬ RangesApart s.latch.src.toNat s.latch.srclen.toNat s.latch.dst.toNat s.latch.dstlen.toNat) :
    redDecCheck crypt s = some .overlap := by
  rw [redDecCheck_of_shape hkey hshape, if_pos]
  rwa [← not_overlap_iff_rangesApart hshape.srclen_pos, not_not] at hmeet

theorem redDecCheck_none (hkey : crypt = true → s.keyv = true) (hshape : s.RedDecShape)
    (happart : RangesApart s.latch.src.toNat s.latch.srclen.toNat s.latch.dst.toNat s.latch.dstlen.toNat) :
    redDecCheck crypt s = none := by
  rw [redDecCheck_of_shape hkey hshape, if_neg ((not_overlap_iff_rangesApart hshape.srclen_pos).2 happart)]

/-- The checks of rule R205 are these, in its order. -/
theorem redDecCheck_cases (crypt : Bool) (s : State) :
    (¬ (crypt = true → s.keyv = true) ∧ redDecCheck crypt s = some .noKey) ∨
      ((crypt = true → s.keyv = true) ∧ redDecCheck crypt s = some .len) ∨
      ((crypt = true → s.keyv = true) ∧ redDecCheck crypt s = some .overlap) ∨
      ((crypt = true → s.keyv = true) ∧ s.RedDecShape
        ∧ RangesApart s.latch.src.toNat s.latch.srclen.toNat s.latch.dst.toNat s.latch.dstlen.toNat
        ∧ redDecCheck crypt s = none) := by
  by_cases hkey : crypt = true → s.keyv = true
  · by_cases hshape : s.RedDecShape
    · by_cases happart : RangesApart s.latch.src.toNat s.latch.srclen.toNat s.latch.dst.toNat s.latch.dstlen.toNat
      · exact .inr (.inr (.inr ⟨hkey, hshape, happart, redDecCheck_none hkey hshape happart⟩))
      · exact .inr (.inr (.inl ⟨hkey, redDecCheck_overlap hkey hshape happart⟩))
    · exact .inr (.inl ⟨hkey, redDecCheck_len hkey hshape⟩)
  · exact .inl ⟨hkey, redDecCheck_noKey hkey⟩

end RedDecode

end Sys2Proof.Machine
end

section
/-!
PROOF. Each way that `RED_ENC` and `RED_DEC` end after their static checks (rules R204, R205).
-/

namespace Sys2Proof.Machine

section RedEncode

variable {s : State} {crypt disc : Bool}

/-- The bytes of the samples of the running `RED_ENC` (rule R204). -/
def State.sourceBytes (s : State) : List Byte := s.mem.readBytes s.latch.src.toNat s.latch.srclen.toNat

/-- The block that the running `RED_ENC` makes (rule R204). -/
def State.redEncBlock (s : State) (crypt disc : Bool) : List Byte :=
  encodeBlock s.cfg (samplesOf s.sourceBytes) s.latch.blockTime disc (s.tableKey crypt)

/-- What a successful `RED_ENC` reports (rule R204). -/
def State.redEncOutputs (s : State) (crypt disc : Bool) : Outputs :=
  let v := samplesOf s.sourceBytes
  { reslen := toWord (s.redEncBlock crypt disc).length
    diffcnt := toWord (deltaEncode v).length
    maxv := BitVec.ofInt 32 (greatest v)
    minv := BitVec.ofInt 32 (least v)
    s24ovf := v.any fun x => !in24 x }

theorem execRedEnc_of_check {code : ErrCode} (h : redEncCheck crypt s = some code) :
    execRedEnc crypt disc s = .next (s.raiseError code 0 0) := by
  rw [execRedEnc, h]

theorem execRedEnc_of_readFails {e : Nat} (h : redEncCheck crypt s = none)
    (hbad : FirstBad s.cfg .read s.latch.src.toNat s.latch.srclen.toNat e) :
    execRedEnc crypt disc s = .next (s.failScrambled .bus e) := by
  rw [execRedEnc, h, dmaRead_of_firstBad hbad]

theorem execRedEnc_of_noRoom (h : redEncCheck crypt s = none)
    (hread : AllDmaOK s.cfg .read s.latch.src.toNat s.latch.srclen.toNat)
    (hroom : s.latch.dstlen.toNat < (s.redEncBlock crypt disc).length) :
    execRedEnc crypt disc s = .next (s.failScrambled .dst 0) := by
  rw [execRedEnc, h, dmaRead_of_allDmaOK hread]
  exact if_pos hroom

theorem execRedEnc_of_writeFails {e : Nat} (h : redEncCheck crypt s = none)
    (hread : AllDmaOK s.cfg .read s.latch.src.toNat s.latch.srclen.toNat)
    (hroom : (s.redEncBlock crypt disc).length ≤ s.latch.dstlen.toNat)
    (hbad : FirstBad s.cfg .write s.latch.dst.toNat (s.redEncBlock crypt disc).length e) :
    execRedEnc crypt disc s = .next (s.failScrambled .bus e) := by
  rw [execRedEnc, h, dmaRead_of_allDmaOK hread]
  refine (if_neg (not_lt.2 hroom)).trans ?_
  rw [State.redEncBlock, State.sourceBytes] at hbad
  rw [dmaWrite_of_firstBad hbad]

theorem execRedEnc_of_allDmaOK (h : redEncCheck crypt s = none)
    (hread : AllDmaOK s.cfg .read s.latch.src.toNat s.latch.srclen.toNat)
    (hroom : (s.redEncBlock crypt disc).length ≤ s.latch.dstlen.toNat)
    (hwrite : AllDmaOK s.cfg .write s.latch.dst.toNat (s.redEncBlock crypt disc).length) :
    execRedEnc crypt disc s
      = .next (State.complete { s with mem := s.mem.writeBytes s.latch.dst.toNat (s.redEncBlock crypt disc) }
          (s.redEncOutputs crypt disc)) := by
  rw [execRedEnc, h, dmaRead_of_allDmaOK hread]
  refine (if_neg (not_lt.2 hroom)).trans ?_
  rw [State.redEncBlock, State.sourceBytes] at hwrite
  rw [dmaWrite_of_allDmaOK hwrite]
  rfl

end RedEncode

section RedDecode

variable {s : State} {crypt validate : Bool}

/-- The field of `n` bytes at offset `k` of the block that the running `RED_DEC` reads (rule R171). -/
def State.blockField (s : State) (k n : Nat) : Nat := leNat (s.mem.readBytes (s.latch.src.toNat + k) n)

/-- The block that the running `RED_DEC` reads, of the length in its header (rule R205). -/
def State.redDecBytes (s : State) : List Byte := s.mem.readBytes s.latch.src.toNat (s.blockField 4 4)

/-- The counts of that block's table (rule R205). -/
def State.redDecCounts (s : State) (crypt : Bool) : List Nat := tableOf s.redDecBytes (s.tableKey crypt)

/-- The samples of that block, all that its difference count gives (rule R205). -/
def State.redDecSamples (s : State) (crypt : Bool) : List Word :=
  decodeBlock s.redDecBytes (s.blockField 16 4) (s.redDecCounts crypt)

/-- The samples that are stored: at most the header's count (rule R205). -/
def State.redDecKept (s : State) (crypt : Bool) : List Word := (s.redDecSamples crypt).take (s.blockField 20 4)

/-- What a successful `RED_DEC` reports (rule R205). -/
def State.redDecOutputs (s : State) (crypt validate : Bool) : Outputs :=
  { reslen := toWord (4 * (s.redDecKept crypt).length)
    diffcnt := toWord (s.blockField 16 4)
    maxv := BitVec.ofInt 32 (greatest ((s.redDecKept crypt).map BitVec.toInt))
    minv := BitVec.ofInt 32 (least ((s.redDecKept crypt).map BitVec.toInt))
    crcok := validate && checksumOK s.cfg s.redDecBytes
    cntok := (s.redDecSamples crypt).length == s.blockField 20 4 }

/-- The header and the rest of the block are readable, and its fields are such that rule R205 goes on to decode it. -/
structure State.RedDecReadable (s : State) : Prop where
  header_le : 287 ≤ s.blockField 4 4
  le_srclen : s.blockField 4 4 ≤ s.latch.srclen.toNat
  room : 4 * s.blockField 20 4 ≤ s.latch.dstlen.toNat
  read : AllDmaOK s.cfg .read s.latch.src.toNat (s.blockField 4 4)

theorem fieldAt_readBytes (m : Memory) (a : Nat) {size k n : Nat} (h : k + n ≤ size) :
    fieldAt (m.readBytes a size) k n = leNat (m.readBytes (a + k) n) := by
  rw [fieldAt, Memory.drop_readBytes _ _ _ _ (by omega), Memory.take_readBytes _ _ _ _ (by omega)]

theorem execRedDec_of_check {code : ErrCode} (h : redDecCheck crypt s = some code) :
    execRedDec crypt validate s = .next (s.raiseError code 0 0) := by
  rw [execRedDec, h]

theorem execRedDec_of_headerFails {e : Nat} (h : redDecCheck crypt s = none)
    (hbad : FirstBad s.cfg .read s.latch.src.toNat 287 e) :
    execRedDec crypt validate s = .next (s.raiseError .bus e 0) := by
  rw [execRedDec, h]
  dsimp only
  rw [headerSize, dmaRead_of_firstBad hbad]

theorem execRedDec_of_badLength (h : redDecCheck crypt s = none)
    (hread : AllDmaOK s.cfg .read s.latch.src.toNat 287)
    (hlength : s.blockField 4 4 < 287 ∨ s.latch.srclen.toNat < s.blockField 4 4) :
    execRedDec crypt validate s = .next (s.raiseError .len 0 0) := by
  rw [execRedDec, h]
  dsimp only
  rw [headerSize, dmaRead_of_allDmaOK hread]
  dsimp only
  rw [fieldAt_readBytes _ _ (by norm_num)]
  exact if_pos hlength

theorem execRedDec_of_noRoom (h : redDecCheck crypt s = none)
    (hread : AllDmaOK s.cfg .read s.latch.src.toNat 287)
    (hlength : ¬ (s.blockField 4 4 < 287 ∨ s.latch.srclen.toNat < s.blockField 4 4))
    (hroom : s.latch.dstlen.toNat < 4 * s.blockField 20 4) :
    execRedDec crypt validate s = .next (s.raiseError .dst 0 0) := by
  rw [execRedDec, h]
  dsimp only
  rw [headerSize, dmaRead_of_allDmaOK hread]
  dsimp only
  rw [fieldAt_readBytes _ _ (by norm_num), fieldAt_readBytes _ _ (by norm_num)]
  exact (if_neg hlength).trans (if_pos hroom)

theorem execRedDec_of_bodyFails {e : Nat} (h : redDecCheck crypt s = none)
    (hread : AllDmaOK s.cfg .read s.latch.src.toNat 287)
    (hlength : ¬ (s.blockField 4 4 < 287 ∨ s.latch.srclen.toNat < s.blockField 4 4))
    (hroom : ¬ s.latch.dstlen.toNat < 4 * s.blockField 20 4)
    (hbad : FirstBad s.cfg .read (s.latch.src.toNat + 287) (s.blockField 4 4 - 287) e) :
    execRedDec crypt validate s = .next (s.raiseError .bus e 0) := by
  rw [execRedDec, h]
  dsimp only
  rw [headerSize, dmaRead_of_allDmaOK hread]
  dsimp only
  rw [fieldAt_readBytes _ _ (by norm_num), fieldAt_readBytes _ _ (by norm_num)]
  refine (if_neg hlength).trans ((if_neg hroom).trans ?_)
  rw [State.blockField] at hbad
  rw [dmaRead_of_firstBad hbad]

theorem execRedDec_of_readable (h : redDecCheck crypt s = none) (hblock : s.RedDecReadable) :
    execRedDec crypt validate s = .next (redDecBlock validate s.redDecBytes (s.redDecCounts crypt) s) := by
  obtain ⟨hheader, hsize, hroom, hread⟩ := hblock
  have hlength : ¬ (s.blockField 4 4 < 287 ∨ s.latch.srclen.toNat < s.blockField 4 4) := by omega
  have hbytes : s.mem.readBytes s.latch.src.toNat 287
      ++ s.mem.readBytes (s.latch.src.toNat + 287) (s.blockField 4 4 - 287) = s.redDecBytes := by
    rw [← Memory.readBytes_add, Nat.add_sub_cancel' hheader, State.redDecBytes]
  have hrest := hread.mono (b := s.latch.src.toNat + 287) (m := s.blockField 4 4 - 287) (by omega) (by omega)
  rw [execRedDec, h]
  dsimp only
  rw [headerSize, dmaRead_of_allDmaOK (hread.mono le_rfl (by omega))]
  dsimp only
  rw [fieldAt_readBytes _ _ (by norm_num), fieldAt_readBytes _ _ (by norm_num)]
  refine (if_neg hlength).trans ((if_neg (not_lt.2 hroom)).trans ?_)
  rw [State.blockField] at hrest hbytes
  rw [dmaRead_of_allDmaOK hrest]
  dsimp only
  rw [hbytes, State.redDecCounts]

theorem fieldAt_redDecBytes (hblock : s.RedDecReadable) {k n : Nat} (hk : k + n ≤ 287) :
    fieldAt s.redDecBytes k n = s.blockField k n :=
  fieldAt_readBytes _ _ (hk.trans hblock.header_le)

theorem length_flatMap_wordBytes (l : List Word) : (l.flatMap wordBytes).length = 4 * l.length := by
  rw [List.length_flatMap]
  simp [Nat.mul_comm]

theorem execRedDec_of_noModel (h : redDecCheck crypt s = none) (hblock : s.RedDecReadable)
    (hmodel : totalCount (s.redDecCounts crypt) = 0 ∧ 0 < s.blockField 16 4) :
    execRedDec crypt validate s = .next (s.raiseError .model 0 0) := by
  rw [execRedDec_of_readable h hblock, redDecBlock, fieldAt_redDecBytes hblock (by norm_num),
    fieldAt_redDecBytes hblock (by norm_num)]
  exact congrArg _ (if_pos hmodel)

theorem execRedDec_of_writeFails {e : Nat} (h : redDecCheck crypt s = none) (hblock : s.RedDecReadable)
    (hmodel : ¬ (totalCount (s.redDecCounts crypt) = 0 ∧ 0 < s.blockField 16 4))
    (hbad : FirstBad s.cfg .write s.latch.dst.toNat (4 * (s.redDecKept crypt).length) e) :
    execRedDec crypt validate s = .next (s.failScrambled .bus e) := by
  rw [← length_flatMap_wordBytes, State.redDecKept, State.redDecSamples] at hbad
  rw [execRedDec_of_readable h hblock, redDecBlock, fieldAt_redDecBytes hblock (by norm_num),
    fieldAt_redDecBytes hblock (by norm_num)]
  refine congrArg _ ((if_neg hmodel).trans ?_)
  dsimp only
  rw [dmaWrite_of_firstBad hbad]

theorem execRedDec_of_allDmaOK (h : redDecCheck crypt s = none) (hblock : s.RedDecReadable)
    (hmodel : ¬ (totalCount (s.redDecCounts crypt) = 0 ∧ 0 < s.blockField 16 4))
    (hwrite : AllDmaOK s.cfg .write s.latch.dst.toNat (4 * (s.redDecKept crypt).length)) :
    execRedDec crypt validate s
      = .next (State.complete
          { s with mem := s.mem.writeBytes s.latch.dst.toNat ((s.redDecKept crypt).flatMap wordBytes) }
          (s.redDecOutputs crypt validate)) := by
  rw [← length_flatMap_wordBytes, State.redDecKept, State.redDecSamples] at hwrite
  rw [execRedDec_of_readable h hblock, redDecBlock, fieldAt_redDecBytes hblock (by norm_num),
    fieldAt_redDecBytes hblock (by norm_num)]
  refine congrArg _ ((if_neg hmodel).trans ?_)
  dsimp only
  rw [dmaWrite_of_allDmaOK hwrite]
  rfl

theorem length_redDecKept_le (s : State) (crypt : Bool) : (s.redDecKept crypt).length ≤ s.blockField 20 4 :=
  List.length_take_le _ _

end RedDecode

end Sys2Proof.Machine
end

section
/-!
PROOF. What a command's end is made of, for every command (rules R45, R241 to R245): what it did to the keys and to
memory, the code it reports, and the results it writes.
-/

namespace Sys2Proof.Machine

/-- `AES_ENC` or `AES_DEC`. -/
def IsSegment (i : Instr) : Prop := i = .aesEnc ∨ i = .aesDec

/-- `RED_ENC` or `RED_DEC`. -/
def IsRed (i : Instr) : Prop := ∃ c f, i = .redEnc c f ∨ i = .redDec c f

/-- The commands whose `RESLEN` counts source bytes. -/
def IsCounted (i : Instr) : Prop := i = .crcUpdate ∨ i = .aesEnc ∨ i = .aesDec

theorem IsRed.not_isCounted {i : Instr} (h : IsRed i) : ¬ IsCounted i := by
  obtain ⟨c, f, rfl | rfl⟩ := h <;> simp [IsCounted]

/-- What the command `i` did to the round-key store of `s`, up to the state `u`. -/
inductive KeysEnd (i : Instr) (s u : State) : Prop where
  | same (hrk : u.rk = s.rk) (hkeyv : u.keyv = s.keyv)
  | loaded (key : Block) (hi : i = .keyLoad) (hrk : u.rk = expandKey key) (hkeyv : u.keyv = true)
  | cleared (hi : i = .keyLoad ∨ i = .keyClear) (hrk : u.rk = RoundKeys.zero) (hkeyv : u.keyv = false)

/-- The source of the latched operands shares none of the `size` bytes from `DST` on with them, but for a segment
command in place. -/
def State.SourceSpared (s : State) (i : Instr) (size : Nat) : Prop :=
  ∀ x, s.latch.src.toNat ≤ x → x < s.latch.src.toNat + s.latch.srclen.toNat → s.latch.dst.toNat ≤ x →
    x < s.latch.dst.toNat + size → IsSegment i ∧ s.latch.src = s.latch.dst

/-- What the command `i` did to DMA space: nothing; or it stored bytes from `DST` on, each where a DMA write completes;
or, in an error end of a RED command, it left the destination range unspecified (rule R245). -/
inductive MemoryEnd (i : Instr) (s : State) (m : Memory) (code : ErrCode) : Prop where
  | same (hmem : m = s.mem)
  | stored (bytes : List Byte) (hmem : m = s.mem.writeBytes s.latch.dst.toNat bytes)
    (hwrite : AllDmaOK s.cfg .write s.latch.dst.toNat bytes.length) (hroom : bytes.length ≤ s.latch.dstlen.toNat)
    (hend : s.latch.dst.toNat + bytes.length ≤ 2 ^ 32) (hi : IsSegment i ∨ IsRed i ∧ code = .ok)
    (hsource : s.SourceSpared i bytes.length)
  | unspecified (draw : Nat) (hmem : m = s.mem.scramble draw s.latch.dst.toNat s.latch.dstlen.toNat)
    (hend : s.latch.dst.toNat + s.latch.dstlen.toNat ≤ 2 ^ 32) (hi : IsRed i) (hcode : code = .bus ∨ code = .dst)
    (hsource : s.SourceSpared i s.latch.dstlen.toNat)

/-- The results and flags that a successful end writes. -/
def SuccessOutputs (i : Instr) (s : State) (out : Outputs) : Prop :=
  match i with
  | .nop => out = {}
  | .crcInit => out = {}
  | .crcUpdate => out = { reslen := s.latch.srclen }
  | .keyLoad => ∃ n ≤ 16, out = Outputs.bytes n
  | .keyClear => out = {}
  | .aesEnc => out = { reslen := s.latch.srclen }
  | .aesDec => out = { reslen := s.latch.srclen }
  | .redEnc _ _ => out.crcok = false ∧ out.cntok = false ∧ out.reslen.toNat ≤ s.latch.dstlen.toNat
  | .redDec _ _ => out.s24ovf = false ∧ out.reslen.toNat ≤ s.latch.dstlen.toNat

/-- The results and flags that an error end writes: a count of the source bytes before a bus error, or nothing. -/
def ErrorOutputs (i : Instr) (s : State) (code : ErrCode) (out : Outputs) : Prop :=
  out = {} ∧ (code = .bus → ¬ IsCounted i) ∨ IsCounted i ∧ code = .bus ∧ ∃ n < s.latch.srclen.toNat, out = Outputs.bytes n

/-- The command `i` ends from `s` with these outputs, this code and this error address, after work up to `u`. -/
structure State.CommandEnds (i : Instr) (s u : State) (out : Outputs) (code : ErrCode) (addr : Word) : Prop where
  work : s.WorksTo u
  keys : KeysEnd i s u
  crc : u.crc = s.crc ∨ i = .crcInit ∨ i = .crcUpdate
  memory : MemoryEnd i s u.mem code
  code_mem : code ∈ outcomeCodes i
  addr_zero : code ≠ .bus → addr = 0#32
  success : code = .ok → SuccessOutputs i s out
  error : code ≠ .ok → ErrorOutputs i s code out

/-- The command's outcome is an end of it as `State.CommandEnds` describes. -/
def State.EndsAs (s : State) (i : Instr) (o : Host.Outcome State Fault Refusal) : Prop :=
  ∃ u out code addr, State.CommandEnds i s u out code addr ∧ o = .next (u.finish out code addr)

section Ends

variable {i : Instr} {s u : State}

theorem State.EndsAs.complete {out : Outputs} (work : s.WorksTo u) (keys : KeysEnd i s u)
    (crc : u.crc = s.crc ∨ i = .crcInit ∨ i = .crcUpdate) (memory : MemoryEnd i s u.mem .ok)
    (hcode : ErrCode.ok ∈ outcomeCodes i) (hout : SuccessOutputs i s out) : s.EndsAs i (.next (u.complete out)) :=
  ⟨u, out, .ok, 0#32, ⟨work, keys, crc, memory, hcode, fun _ => rfl, fun _ => hout, fun hne => absurd rfl hne⟩, rfl⟩

theorem State.EndsAs.raiseError {code : ErrCode} {addr reslen : Nat} (work : s.WorksTo u) (keys : KeysEnd i s u)
    (crc : u.crc = s.crc ∨ i = .crcInit ∨ i = .crcUpdate) (memory : MemoryEnd i s u.mem code)
    (hcode : code ∈ outcomeCodes i) (hne : code ≠ .ok) (hout : ErrorOutputs i s code (Outputs.bytes reslen)) :
    s.EndsAs i (.next (u.raiseError code addr reslen)) :=
  ⟨u, Outputs.bytes reslen, code, if code = .bus then toWord addr else 0#32,
    ⟨work, keys, crc, memory, hcode, fun h => if_neg h, fun h => absurd h hne, fun _ => hout⟩, rfl⟩

/-- An error end that changes nothing but the end state. -/
theorem State.EndsAs.refused {code : ErrCode} (addr : Nat) (hcode : code ∈ outcomeCodes i) (hne : code ≠ .ok)
    (hbus : code = .bus → ¬ IsCounted i) : s.EndsAs i (.next (s.raiseError code addr 0)) :=
  .raiseError s.worksTo_refl (.same rfl rfl) (.inl rfl) (.same rfl) hcode hne (.inl ⟨rfl, hbus⟩)

end Ends

section Commands

variable (s : State)

theorem execCrcUpdate_endsAs : s.EndsAs .crcUpdate (execCrcUpdate s) := by
  rcases Nat.lt_or_ge (2 ^ 32) (s.latch.src.toNat + s.latch.srclen.toNat) with hwraps | hrange
  · rw [execCrcUpdate_of_wraps hwraps]
    exact .refused 0 (by simp [outcomeCodes]) (by simp) (by simp)
  · rcases dmaRead_cases s.cfg s.mem s.latch.src.toNat s.latch.srclen.toNat with ⟨hread, -⟩ | ⟨e, hbad, -⟩
    · rw [execCrcUpdate_of_allDmaOK hrange hread]
      exact .complete (s.worksTo_crc _) (.same rfl rfl) (.inr (.inr rfl)) (.same rfl)
        (by simp [outcomeCodes]) rfl
    · rw [execCrcUpdate_of_firstBad hrange hbad]
      have hcount : e - s.latch.src.toNat < s.latch.srclen.toNat := by
        obtain ⟨hlow, hhigh, -, -⟩ := hbad
        omega
      exact .raiseError (s.worksTo_crc _) (.same rfl rfl) (.inr (.inr rfl)) (.same rfl)
        (by simp [outcomeCodes]) (by simp) (.inr ⟨.inl rfl, rfl, _, hcount, rfl⟩)

theorem execKeyLoad_endsAs : s.EndsAs .keyLoad (execKeyLoad s) := by
  rcases Nat.lt_or_ge (2 ^ 32) (s.latch.src.toNat + min s.latch.srclen.toNat 16) with hwraps | hrange
  · rw [execKeyLoad_of_wraps hwraps]
    exact .refused 0 (by simp [outcomeCodes]) (by simp) (by simp)
  · rcases dmaRead_cases s.cfg s.mem s.latch.src.toNat
        (s.mem.passwordReads s.latch.src.toNat (min s.latch.srclen.toNat 16)) with ⟨hread, -⟩ | ⟨e, hbad, -⟩
    · rw [execKeyLoad_of_allDmaOK hrange hread]
      have hlength := (s.mem.length_password_le s.latch.src.toNat _).trans (min_le_right s.latch.srclen.toNat 16)
      exact .complete (s.worksTo_loadKeys _) (.loaded _ rfl rfl rfl) (.inl rfl) (.same rfl)
        (by simp [outcomeCodes]) ⟨_, hlength, rfl⟩
    · rw [execKeyLoad_of_firstBad hrange hbad]
      exact .raiseError s.worksTo_clearKeys (.cleared (.inl rfl) rfl rfl) (.inl rfl) (.same rfl)
        (by simp [outcomeCodes]) (by simp) (.inl ⟨rfl, by simp [IsCounted]⟩)

/-- The segment loop stores a prefix of its results, and no more of them than `DSTLEN` and `SRCLEN` allow. -/
theorem memoryEnd_of_segmentLoopEnd {s : State} {i : Instr} {f : Block → Block} {m : Memory} {j : Nat}
    {failing : Option Nat} {code : ErrCode} (hi : IsSegment i) (hcheck : segmentCheck s = none)
    (hend : SegmentLoopEnd s.cfg f (s.latch.srclen.toNat / 16) s.latch.src.toNat s.latch.dst.toNat s.mem m j failing) :
    MemoryEnd i s m code := by
  obtain ⟨-, hmul, -, hroom, hrange, happart⟩ := segmentCheck_eq_none_iff.1 hcheck
  have stored {bytes : List Byte} (hlength : bytes.length ≤ s.latch.srclen.toNat)
      (hwrite : AllDmaOK s.cfg .write s.latch.dst.toNat bytes.length) :
      MemoryEnd i s (s.mem.writeBytes s.latch.dst.toNat bytes) code := by
    refine .stored bytes rfl hwrite (hlength.trans hroom) (by omega) (.inl hi) fun x _ _ _ _ => ⟨hi, ?_⟩
    rcases happart with heq | hbelow | habove
    · exact BitVec.eq_of_toNat_eq heq
    · omega
    · omega
  cases hend with
  | complete hread hwrite =>
    refine stored ?_ ?_ <;> rw [length_ecb_readBytes]
    · omega
    · exact hwrite
  | readFails j e hj hread hwrite hbad =>
    refine stored ?_ ?_ <;> rw [length_ecb_readBytes]
    · omega
    · exact hwrite
  | writeFails j e hj hread hwrite hbad =>
    obtain ⟨hlow, hhigh, -, hbefore⟩ := hbad
    refine stored ?_ ?_ <;> rw [List.length_take, length_ecb_readBytes]
    · omega
    · intro x hx hx'
      rcases Nat.lt_or_ge x (s.latch.dst.toNat + 16 * j) with hdone | hlast
      · exact hwrite x hx hdone
      · exact hbefore x hlast (by omega)

theorem segmentCommand_endsAs {i : Instr} (f : Block → Block) (hi : IsSegment i) :
    s.EndsAs i (.next (segmentCommand f s)) := by
  have hcodes : outcomeCodes i = [.ok, .noKey, .len, .overlap, .dst, .bus] := by
    rcases hi with rfl | rfl <;> rfl
  have hcounted : IsCounted i := .inr hi
  rcases hcheck : segmentCheck s with _ | code
  · obtain ⟨m, j, failing, hend, hcommand⟩ := segmentCommand_end (f := f) hcheck
    have hmemory {code : ErrCode} := memoryEnd_of_segmentLoopEnd (code := code) hi hcheck hend
    rw [hcommand]
    rcases failing with _ | e
    · have hout : SuccessOutputs i s { reslen := s.latch.srclen } := by
        rcases hi with rfl | rfl <;> rfl
      exact .complete (s.worksTo_mem m) (.same rfl rfl) (.inl rfl) hmemory (by simp [hcodes]) hout
    · have hj : 16 * j < s.latch.srclen.toNat := by
        cases hend <;> omega
      exact .raiseError (s.worksTo_mem m) (.same rfl rfl) (.inl rfl) hmemory (by simp [hcodes]) (by simp)
        (.inr ⟨hcounted, rfl, _, hj, rfl⟩)
  · rw [segmentCommand_of_check hcheck]
    have hmem := segmentCheck_mem hcheck
    refine .refused 0 ?_ ?_ ?_
    · rw [hcodes]
      simp only [List.mem_cons, List.not_mem_nil, or_false] at hmem ⊢
      tauto
    · rintro rfl
      simp at hmem
    · rintro rfl
      simp at hmem

/-- Where the source is apart from the destination range, no stored byte is a source byte. -/
theorem State.sourceSpared_of_rangesApart {s : State} {i : Instr} {size : Nat}
    (happart : RangesApart s.latch.src.toNat s.latch.srclen.toNat s.latch.dst.toNat s.latch.dstlen.toNat)
    (hsize : size ≤ s.latch.dstlen.toNat) : s.SourceSpared i size := by
  intro x _ _ _ _
  unfold RangesApart at happart
  omega

theorem State.EndsAs.failScrambled {s : State} {i : Instr} {code : ErrCode} (addr : Nat) (hi : IsRed i)
    (hcode : code = .bus ∨ code = .dst) (hrange : s.latch.dst.toNat + s.latch.dstlen.toNat ≤ 2 ^ 32)
    (happart : RangesApart s.latch.src.toNat s.latch.srclen.toNat s.latch.dst.toNat s.latch.dstlen.toNat) :
    s.EndsAs i (.next (s.failScrambled code addr)) := by
  have hmem : code ∈ outcomeCodes i ∧ code ≠ .ok := by
    obtain ⟨c, f, rfl | rfl⟩ := hi <;> rcases hcode with rfl | rfl <;> simp [outcomeCodes]
  exact .raiseError (s.worksTo_scramble _) (.same rfl rfl) (.inl rfl)
    (.unspecified _ rfl hrange hi hcode (State.sourceSpared_of_rangesApart happart le_rfl)) hmem.1 hmem.2
    (.inl ⟨rfl, fun _ => hi.not_isCounted⟩)

/-- A successful RED command, with what it stores from `DST` on. -/
theorem State.EndsAs.redStored {s : State} {i : Instr} {bytes : List Byte} {out : Outputs} (hi : IsRed i)
    (hwrite : AllDmaOK s.cfg .write s.latch.dst.toNat bytes.length) (hroom : bytes.length ≤ s.latch.dstlen.toNat)
    (hrange : s.latch.dst.toNat + s.latch.dstlen.toNat ≤ 2 ^ 32)
    (happart : RangesApart s.latch.src.toNat s.latch.srclen.toNat s.latch.dst.toNat s.latch.dstlen.toNat)
    (hout : SuccessOutputs i s out) :
    s.EndsAs i (.next (State.complete { s with mem := s.mem.writeBytes s.latch.dst.toNat bytes } out)) := by
  have hmemory : MemoryEnd i s (s.mem.writeBytes s.latch.dst.toNat bytes) .ok :=
    .stored bytes rfl hwrite hroom (by omega) (.inr ⟨hi, rfl⟩) (State.sourceSpared_of_rangesApart happart hroom)
  have hcode : ErrCode.ok ∈ outcomeCodes i := by
    obtain ⟨c, f, rfl | rfl⟩ := hi <;> simp [outcomeCodes]
  exact .complete (s.worksTo_mem _) (.same rfl rfl) (.inl rfl) hmemory hcode hout

theorem toNat_toWord_le {n : Nat} {w : Word} (h : n ≤ w.toNat) : (toWord n).toNat ≤ w.toNat := by
  rw [toWord, BitVec.toNat_ofNat]
  exact (Nat.mod_le _ _).trans h

theorem State.redEncOutputs_success {s : State} {crypt disc : Bool}
    (hroom : (s.redEncBlock crypt disc).length ≤ s.latch.dstlen.toNat) :
    SuccessOutputs (.redEnc crypt disc) s (s.redEncOutputs crypt disc) := by
  have hreslen : (s.redEncOutputs crypt disc).reslen = toWord (s.redEncBlock crypt disc).length := rfl
  refine ⟨rfl, rfl, ?_⟩
  rw [hreslen]
  exact toNat_toWord_le hroom

theorem State.redDecOutputs_success {s : State} {crypt validate : Bool}
    (hroom : 4 * (s.redDecKept crypt).length ≤ s.latch.dstlen.toNat) :
    SuccessOutputs (.redDec crypt validate) s (s.redDecOutputs crypt validate) := by
  have hreslen : (s.redDecOutputs crypt validate).reslen = toWord (4 * (s.redDecKept crypt).length) := rfl
  refine ⟨rfl, ?_⟩
  rw [hreslen]
  exact toNat_toWord_le hroom

theorem execRedEnc_endsAs (crypt disc : Bool) : s.EndsAs (.redEnc crypt disc) (execRedEnc crypt disc s) := by
  have hi : IsRed (.redEnc crypt disc) := ⟨crypt, disc, .inl rfl⟩
  rcases redEncCheck_cases crypt s with ⟨hkey, hcheck⟩ | ⟨-, hcheck⟩ | ⟨-, hcheck⟩ |
    ⟨-, ⟨-, -, -, hrange⟩, happart, hcheck⟩
  · rw [execRedEnc_of_check hcheck]
    refine .refused 0 ?_ (by simp) (by simp)
    cases crypt <;> simp_all [outcomeCodes]
  · rw [execRedEnc_of_check hcheck]
    exact .refused 0 (by simp [outcomeCodes]) (by simp) (by simp)
  · rw [execRedEnc_of_check hcheck]
    exact .refused 0 (by simp [outcomeCodes]) (by simp) (by simp)
  rcases dmaRead_cases s.cfg s.mem s.latch.src.toNat s.latch.srclen.toNat with ⟨hread, -⟩ | ⟨e, hbad, -⟩
  · rcases Nat.lt_or_ge s.latch.dstlen.toNat (s.redEncBlock crypt disc).length with hsmall | hroom
    · rw [execRedEnc_of_noRoom hcheck hread hsmall]
      exact .failScrambled 0 hi (.inr rfl) hrange happart
    · rcases dmaWrite_cases s.cfg s.mem s.latch.dst.toNat (s.redEncBlock crypt disc) with
        ⟨hwrite, -⟩ | ⟨e, hbad, -⟩
      · rw [execRedEnc_of_allDmaOK hcheck hread hroom hwrite]
        exact .redStored hi hwrite hroom hrange happart (State.redEncOutputs_success hroom)
      · rw [execRedEnc_of_writeFails hcheck hread hroom hbad]
        exact .failScrambled e hi (.inl rfl) hrange happart
  · rw [execRedEnc_of_readFails hcheck hbad]
    exact .failScrambled e hi (.inl rfl) hrange happart

theorem execRedDec_endsAs (crypt validate : Bool) :
    s.EndsAs (.redDec crypt validate) (execRedDec crypt validate s) := by
  have hi : IsRed (.redDec crypt validate) := ⟨crypt, validate, .inr rfl⟩
  rcases redDecCheck_cases crypt s with ⟨hkey, hcheck⟩ | ⟨-, hcheck⟩ | ⟨-, hcheck⟩ |
    ⟨-, ⟨-, -, hrange⟩, happart, hcheck⟩
  · rw [execRedDec_of_check hcheck]
    refine .refused 0 ?_ (by simp) (by simp)
    cases crypt <;> simp_all [outcomeCodes]
  · rw [execRedDec_of_check hcheck]
    exact .refused 0 (by simp [outcomeCodes]) (by simp) (by simp)
  · rw [execRedDec_of_check hcheck]
    exact .refused 0 (by simp [outcomeCodes]) (by simp) (by simp)
  have refused {code : ErrCode} (addr : Nat) (hcode : code ∈ [ErrCode.len, .dst, .model, .bus]) :
      s.EndsAs (.redDec crypt validate) (.next (s.raiseError code addr 0)) := by
    refine .refused addr ?_ ?_ fun _ => IsRed.not_isCounted hi
    · simp only [outcomeCodes, List.mem_append, List.mem_cons, List.not_mem_nil, or_false] at hcode ⊢
      tauto
    · rintro rfl
      simp at hcode
  rcases dmaRead_cases s.cfg s.mem s.latch.src.toNat 287 with ⟨hheader, -⟩ | ⟨e, hbad, -⟩
  · by_cases hlength : s.blockField 4 4 < 287 ∨ s.latch.srclen.toNat < s.blockField 4 4
    · rw [execRedDec_of_badLength hcheck hheader hlength]
      exact refused 0 (by simp)
    by_cases hroom : s.latch.dstlen.toNat < 4 * s.blockField 20 4
    · rw [execRedDec_of_noRoom hcheck hheader hlength hroom]
      exact refused 0 (by simp)
    rcases dmaRead_cases s.cfg s.mem (s.latch.src.toNat + 287) (s.blockField 4 4 - 287) with ⟨hbody, -⟩ | ⟨e, hbad, -⟩
    · have hread : AllDmaOK s.cfg .read s.latch.src.toNat (s.blockField 4 4) := by
        have hsplit := (allDmaOK_add_iff s.cfg .read s.latch.src.toNat 287 (s.blockField 4 4 - 287)).2 ⟨hheader, hbody⟩
        rwa [Nat.add_sub_cancel' (by omega)] at hsplit
      have hblock : s.RedDecReadable := ⟨by omega, by omega, by omega, hread⟩
      by_cases hmodel : totalCount (s.redDecCounts crypt) = 0 ∧ 0 < s.blockField 16 4
      · rw [execRedDec_of_noModel hcheck hblock hmodel]
        exact refused 0 (by simp)
      have hkept : 4 * (s.redDecKept crypt).length ≤ s.latch.dstlen.toNat := by
        have hle := length_redDecKept_le s crypt
        omega
      rcases dmaWrite_cases s.cfg s.mem s.latch.dst.toNat ((s.redDecKept crypt).flatMap wordBytes) with
        ⟨hwrite, -⟩ | ⟨e, hbad, -⟩
      · have hstored := State.EndsAs.redStored hi hwrite (by rwa [length_flatMap_wordBytes]) hrange happart
          (State.redDecOutputs_success (validate := validate) hkept)
        rw [length_flatMap_wordBytes] at hwrite
        rwa [execRedDec_of_allDmaOK hcheck hblock hmodel hwrite]
      · rw [length_flatMap_wordBytes] at hbad
        rw [execRedDec_of_writeFails hcheck hblock hmodel hbad]
        exact .failScrambled e hi (.inl rfl) hrange happart
    · rw [execRedDec_of_bodyFails hcheck hheader hlength hroom hbad]
      exact refused e (by simp)
  · rw [execRedDec_of_headerFails hcheck hbad]
    exact refused e (by simp)

/-- Every command ends in one of the ways that `State.CommandEnds` describes. -/
theorem exec_endsAs (i : Instr) : s.EndsAs i (exec i s) := by
  cases i with
  | nop =>
    exact .complete s.worksTo_refl (.same rfl rfl) (.inl rfl) (.same rfl) (by simp [outcomeCodes]) rfl
  | crcInit =>
    exact .complete (s.worksTo_crc _) (.same rfl rfl) (.inr (.inl rfl)) (.same rfl)
      (by simp [outcomeCodes]) rfl
  | crcUpdate => exact execCrcUpdate_endsAs s
  | keyLoad => exact execKeyLoad_endsAs s
  | keyClear =>
    exact .complete s.worksTo_clearKeys (.cleared (.inr rfl) rfl rfl) (.inl rfl) (.same rfl)
      (by simp [outcomeCodes]) rfl
  | aesEnc => exact segmentCommand_endsAs s _ (.inl rfl)
  | aesDec => exact segmentCommand_endsAs s _ (.inr rfl)
  | redEnc crypt disc => exact execRedEnc_endsAs s crypt disc
  | redDec crypt validate => exact execRedDec_endsAs s crypt validate

/-- The same for a next state that is known. -/
theorem exec_next_endsAs {s t : State} {i : Instr} (h : exec i s = .next t) :
    ∃ u out code addr, State.CommandEnds i s u out code addr ∧ t = u.finish out code addr := by
  obtain ⟨u, out, code, addr, hends, hnext⟩ := exec_endsAs s i
  cases h.symm.trans hnext
  exact ⟨u, out, code, addr, hends, rfl⟩

end Commands

end Sys2Proof.Machine
end

section
/-!
PROOF. What one input can do to the state, once for each kind of it: the engine's turn and the end of a command (rules
R28, R69, R83), an access of the host or another bus master (rules R69, R71, R256), a write of the register window
(rules R23 to R39), the reset input (rule R271). And the induction that each invariant uses.
-/

namespace Sys2Proof.Machine

/-- The ends of the running command: of a reserved opcode, of a command as its rule has it, of a disturbed one. -/
inductive State.RunEnds (s : State) : State → Prop where
  | reserved (e : DecodeError) (hdec : decode s.latch.cmd = .error e) : s.RunEnds (s.raiseError .op 0 0)
  | plain (i : Instr) (t : State) (hdec : decode s.latch.cmd = .ok i) (hexec : exec i s = .next t) :
    s.RunEnds (t.markStale (destRange i s.latch))
  | disturbed (i : Instr) (t : State) (hdec : decode s.latch.cmd = .ok i)
    (hexec : exec i (s.readUnsteady (sourceRange i s.latch)) = .next t) :
    s.RunEnds ((t.freeResults s (writtenRange i s.latch)).markStale (destRange i s.latch))

theorem State.commandEnd_runEnds (s : State) : ∃ t, s.commandEnd = .next t ∧ s.RunEnds t := by
  rcases hdec : decode s.latch.cmd with e | i
  · exact ⟨_, by rw [State.commandEnd, hdec], .reserved e hdec⟩
  · cases hdist : s.disturbed && usesDma i with
    | false =>
      obtain ⟨u, out, code, addr, -, hexec⟩ := exec_endsAs s i
      refine ⟨_, ?_, .plain i _ hdec hexec⟩
      rw [State.commandEnd, hdec]
      dsimp only
      rw [hdist, if_neg Bool.false_ne_true, hexec, markStaleAfter_next]
    | true =>
      obtain ⟨u, out, code, addr, -, hexec⟩ := exec_endsAs (s.readUnsteady (sourceRange i s.latch)) i
      refine ⟨_, ?_, .disturbed i _ hdec hexec⟩
      rw [State.commandEnd, hdec]
      dsimp only
      rw [hdist, if_pos rfl, State.disturbedEnd_next s _ i hexec, markStaleAfter_next]

/-- A turn of the engine: nothing when it is idle, a step less to wait, or the end of the command. -/
inductive State.Turns (s : State) : State → Prop where
  | idle (hidle : s.busy = false) : s.Turns s
  | waits (n : Nat) (hbusy : s.busy = true) (hwait : s.wait = n + 1) : s.Turns { s with wait := n }
  | ends (t : State) (hbusy : s.busy = true) (hwait : s.wait = 0) (hend : s.RunEnds t) : s.Turns t

theorem State.engineStep_turns (s : State) : ∃ t, s.engineStep = .next t ∧ s.Turns t := by
  cases hbusy : s.busy with
  | false => exact ⟨s, by simp [State.engineStep, hbusy], .idle hbusy⟩
  | true =>
    rcases hwait : s.wait with _ | n
    · obtain ⟨t, hnext, hend⟩ := s.commandEnd_runEnds
      exact ⟨t, (State.engineStep_of_wait_zero hbusy hwait).trans hnext, .ends t hbusy hwait hend⟩
    · exact ⟨_, by simp [State.engineStep, hbusy, hwait], .waits n hbusy hwait⟩

/-- The state after an access that is no write of a register: no register that the host may write is changed, and no
key. -/
structure State.Accessed (s t : State) : Prop where
  frame : ∃ disturbed unsteady endUnseen crcUnseen unseenDest mem hostDirty hostStale response draws,
    t = { s with
      disturbed := disturbed, unsteady := unsteady, endUnseen := endUnseen, crcUnseen := crcUnseen
      unseenDest := unseenDest, mem := mem, hostDirty := hostDirty, hostStale := hostStale
      response := response, draws := draws }
  idle : s.busy = false → t.disturbed = s.disturbed ∧ t.unsteady = s.unsteady
  end_seen : s.endUnseen = false → t.endUnseen = false
  crc_seen : s.crcUnseen = false → t.crcUnseen = false
  dest_seen : s.unseenDest = [] → t.unseenDest = []

section Accesses

variable (s : State)

/-- The host gets a response, and unspecified values may have been drawn for it. -/
theorem State.accessed_response (response : BusResponse) (draws : Nat) :
    s.Accessed { s with response := response, draws := draws } :=
  ⟨⟨_, _, _, _, _, _, _, _, _, _, rfl⟩, fun _ => ⟨rfl, rfl⟩, id, id, id⟩

theorem State.accessed_refl : s.Accessed s := s.accessed_response s.response s.draws

theorem State.readRegister_accessed (offset : BitVec 8) (width : AccessWidth) :
    s.Accessed (s.readRegister offset width) := by
  unfold State.readRegister
  split
  · exact s.accessed_response _ _
  split
  · exact s.accessed_response _ _
  dsimp only
  split
  · exact ⟨⟨_, _, _, _, _, _, _, _, _, _, rfl⟩, fun _ => ⟨rfl, rfl⟩, fun _ => rfl, fun _ => rfl, fun _ => rfl⟩
  · exact s.accessed_response _ _

theorem State.hostLoad_accessed (addr : Word) : s.Accessed (s.hostLoad addr) := by
  unfold State.hostLoad
  dsimp only
  split
  · exact s.accessed_response _ _
  split
  · exact s.accessed_response _ _
  · exact s.accessed_response _ _

theorem State.disturb_unsteady_idle (h : s.busy = false) (addrs : List Nat) :
    (s.disturb addrs).disturbed = s.disturbed ∧ (s.disturb addrs).unsteady = s.unsteady := by
  rw [State.disturb_idle s h]
  exact ⟨rfl, rfl⟩

theorem State.hostStore_accessed (addr : Word) (b : Byte) : s.Accessed (s.hostStore addr b) := by
  have hdest : s.unseenDest = [] → subtractRange ⟨addr.toNat, 1⟩ s.unseenDest = [] := by
    intro h
    rw [h]
    rfl
  unfold State.hostStore
  dsimp only
  split
  · exact s.accessed_response _ _
  split
  · exact ⟨⟨_, _, _, _, _, _, _, _, _, _, rfl⟩, (s.disturb_unsteady_idle · _), id, id, hdest⟩
  · exact ⟨⟨_, _, _, _, _, _, _, _, _, _, rfl⟩, (s.disturb_unsteady_idle · _), id, id, hdest⟩

/-- A byte is touched only while a command runs. -/
theorem State.touch_accessed {a : Nat} (hbusy : s.busy = true) : s.Accessed (s.touch a) := by
  refine ⟨?_, fun hidle => absurd (hidle.symm.trans hbusy) Bool.false_ne_true, ?_, ?_, ?_⟩
  · unfold State.touch State.markStale
    split <;> exact ⟨_, _, _, _, _, _, _, _, _, _, rfl⟩
  all_goals simp

theorem State.busy_of_inUse {s : State} {a : Nat} (h : s.inUse a = true) : s.busy = true := by
  rw [State.inUse, Bool.and_eq_true] at h
  exact h.1

theorem State.otherWrite_accessed (addr : Word) (b : Byte) : s.Accessed (s.otherWrite addr b) := by
  rcases s.otherWrite_cases addr b with ⟨-, h⟩ | ⟨-, huse, h⟩ | ⟨-, -, h⟩ <;> rw [h]
  · exact s.accessed_refl
  · exact s.touch_accessed (State.busy_of_inUse huse)
  · have hdest : s.unseenDest = [] → subtractRange ⟨addr.toNat, 1⟩ s.unseenDest = [] := by
      intro h
      rw [h]
      rfl
    unfold State.markStale
    split <;> exact ⟨⟨_, _, _, _, _, _, _, _, _, _, rfl⟩, fun _ => ⟨rfl, rfl⟩, id, id, hdest⟩

theorem State.otherRead_accessed (addr : Word) : s.Accessed (s.otherRead addr) := by
  rcases s.otherRead_cases addr with ⟨-, huse, h⟩ | ⟨-, h⟩ <;> rw [h]
  · exact s.touch_accessed (State.busy_of_inUse huse)
  · exact s.accessed_refl

theorem State.hostClean_accessed (r : ByteRange) : s.Accessed (s.hostClean r) :=
  ⟨⟨_, _, _, _, _, _, _, _, _, _, rfl⟩, (s.disturb_unsteady_idle · _), id, id, id⟩

theorem State.hostInvalidate_accessed (r : ByteRange) : s.Accessed (s.hostInvalidate r) :=
  ⟨⟨_, _, _, _, _, _, _, _, _, _, rfl⟩, fun _ => ⟨rfl, rfl⟩, id, id, id⟩

end Accesses

/-- A write of the register window, by what it does. -/
inductive State.RegisterWrite (s : State) : State → Prop where
  | ignored (response : BusResponse) : s.RegisterWrite { s with response := response }
  | softReset (hfree : s.resetHeld = false) : s.RegisterWrite (State.hardwareReset { s with response := .done })
  | launch (hfree : s.resetHeld = false) (hidle : s.busy = false) (ie : Bool) :
    s.RegisterWrite (State.loseUncleaned { s with response := .done, ie := ie }).launch
  | enable (hfree : s.resetHeld = false) (ie : Bool) :
    s.RegisterWrite (State.seeIrq { s with response := .done, ie := ie })
  | clearDone (hfree : s.resetHeld = false) : s.RegisterWrite { s with response := .done, done := false }
  | operand (hfree : s.resetHeld = false) (hidle : s.busy = false) (cmd src srclen dst dstlen crc btimeLo btimeHi : Word)
    (crcUnseen : Bool) (hcmd : cmd = s.cmd ∨ ∃ v, cmd = v &&& cmdMask) (hcrc : s.crcUnseen = false → crcUnseen = false) :
    s.RegisterWrite { s with
      response := .done, cmd := cmd, src := src, srclen := srclen, dst := dst, dstlen := dstlen, crc := crc
      btimeLo := btimeLo, btimeHi := btimeHi, crcUnseen := crcUnseen }

section RegisterWrites

variable {s : State}

theorem State.writeCtrl_registerWrite (hfree : s.resetHeld = false) (v : Word) :
    s.RegisterWrite (State.writeCtrl { s with response := .done } v) := by
  unfold State.writeCtrl
  split
  · exact .softReset hfree
  dsimp only
  split
  next hstart =>
    have hidle : s.busy = false := by simp_all
    exact .launch hfree hidle _
  next => exact .enable hfree _

theorem State.writeStatus_registerWrite (hfree : s.resetHeld = false) (v : Word) :
    s.RegisterWrite (State.writeStatus { s with response := .done } v) := by
  unfold State.writeStatus
  split
  · exact .clearDone hfree
  · exact .ignored .done

theorem State.writeOperand_registerWrite (hfree : s.resetHeld = false) (offset : BitVec 8) (v : Word) :
    s.RegisterWrite (State.writeOperand { s with response := .done } offset v) := by
  unfold State.writeOperand
  split
  · exact .ignored .done
  next hbusy =>
    have hidle : s.busy = false := by simpa using hbusy
    split
    · exact .operand hfree hidle _ _ _ _ _ _ _ _ _ (.inr ⟨v, rfl⟩) id
    · exact .operand hfree hidle _ _ _ _ _ _ _ _ _ (.inl rfl) id
    · exact .operand hfree hidle _ _ _ _ _ _ _ _ _ (.inl rfl) id
    · exact .operand hfree hidle _ _ _ _ _ _ _ _ _ (.inl rfl) id
    · exact .operand hfree hidle _ _ _ _ _ _ _ _ _ (.inl rfl) id
    · exact .operand hfree hidle _ _ _ _ _ _ _ _ _ (.inl rfl) fun _ => rfl
    · exact .operand hfree hidle _ _ _ _ _ _ _ _ _ (.inl rfl) id
    · exact .operand hfree hidle _ _ _ _ _ _ _ _ _ (.inl rfl) id
    · exact .ignored .done

theorem State.writeRegister_registerWrite (offset : BitVec 8) (width : AccessWidth) (v : Word) :
    s.RegisterWrite (s.writeRegister offset width v) := by
  unfold State.writeRegister
  split
  · exact .ignored _
  dsimp only
  split
  · exact .ignored _
  next hheld =>
    have hfree : s.resetHeld = false := by simpa using hheld
    split
    · exact State.writeCtrl_registerWrite hfree v
    · exact State.writeStatus_registerWrite hfree v
    · exact State.writeOperand_registerWrite hfree offset v

end RegisterWrites

/-- The predicate is kept by all that an input can do, but perhaps not by the release of the reset input. -/
structure KeptByInputs (P : State → Prop) : Prop where
  ports : ∀ {s : State} (inputs response), P s → P { s with inputs := inputs, response := response }
  turn : ∀ {s t : State}, P s → s.Turns t → P t
  readRegister : ∀ {s : State} (offset width), P s → P (s.readRegister offset width)
  load : ∀ {s : State} (addr), P s → P (s.hostLoad addr)
  store : ∀ {s : State} (addr b), P s → P (s.hostStore addr b)
  busWrite : ∀ {s : State} (addr b), P s → P (s.otherWrite addr b)
  busRead : ∀ {s : State} (addr), P s → P (s.otherRead addr)
  clean : ∀ {s : State} (r), P s → P (s.hostClean r)
  invalidate : ∀ {s : State} (r), P s → P (s.hostInvalidate r)
  write : ∀ {s t : State}, P s → s.RegisterWrite t → P t
  assert : ∀ {s : State}, P s → P s.assertReset

/-- A predicate that every access keeps is kept by each of them. -/
theorem KeptByInputs.of_accessed {P : State → Prop}
    (ports : ∀ {s : State} (inputs response), P s → P { s with inputs := inputs, response := response })
    (turn : ∀ {s t : State}, P s → s.Turns t → P t) (accessed : ∀ {s t : State}, P s → s.Accessed t → P t)
    (write : ∀ {s t : State}, P s → s.RegisterWrite t → P t) (assert : ∀ {s : State}, P s → P s.assertReset) :
    KeptByInputs P where
  ports := ports
  turn := turn
  readRegister offset width h := accessed h (State.readRegister_accessed _ offset width)
  load addr h := accessed h (State.hostLoad_accessed _ addr)
  store addr b h := accessed h (State.hostStore_accessed _ addr b)
  busWrite addr b h := accessed h (State.otherWrite_accessed _ addr b)
  busRead addr h := accessed h (State.otherRead_accessed _ addr)
  clean r h := accessed h (State.hostClean_accessed _ r)
  invalidate r h := accessed h (State.hostInvalidate_accessed _ r)
  write := write
  assert := assert

theorem KeptByInputs.engineStep {P : State → Prop} (hP : KeptByInputs P) {s t : State} (h : P s)
    (hstep : s.engineStep = .next t) : P t := by
  obtain ⟨u, hnext, hturn⟩ := s.engineStep_turns
  cases hstep.symm.trans hnext
  exact hP.turn h hturn

theorem KeptByInputs.waitStep {P : State → Prop} (hP : KeptByInputs P) {s t : State} (h : P s)
    (hstep : s.waitStep = .next t) : P t := by
  unfold State.waitStep at hstep
  split at hstep
  · exact hP.engineStep (hP.ports _ _ h) hstep
  · cases hstep
    exact hP.readRegister _ _ h

/-- The induction over the inputs: what each of them keeps, a step keeps. -/
theorem KeptByInputs.step_or_release {P : State → Prop} (hP : KeptByInputs P) {s t : State} (h : P s)
    (hstep : step s = .next t) :
    P t ∨ ∃ rest, s.inputs = .resetRelease :: rest ∧ t = State.releaseReset { s with inputs := rest } := by
  rcases hinputs : s.inputs with _ | ⟨input, rest⟩
  · rw [step_of_inputs_nil hinputs] at hstep
    exact .inl (hP.engineStep h hstep)
  · rw [step_of_inputs_cons hinputs] at hstep
    have hrest : P { s with inputs := rest } := hP.ports rest s.response h
    cases input with
    | engine => exact .inl (hP.engineStep hrest hstep)
    | waitIdle => exact .inl (hP.waitStep hrest hstep)
    | readReg offset width => cases hstep; exact .inl (hP.readRegister _ _ hrest)
    | writeReg offset width v => cases hstep; exact .inl (hP.write hrest (State.writeRegister_registerWrite _ _ _))
    | load addr => cases hstep; exact .inl (hP.load _ hrest)
    | store addr b => cases hstep; exact .inl (hP.store _ _ hrest)
    | busWrite addr b => cases hstep; exact .inl (hP.busWrite _ _ hrest)
    | busRead addr => cases hstep; exact .inl (hP.busRead _ hrest)
    | clean r => cases hstep; exact .inl (hP.clean _ hrest)
    | invalidate r => cases hstep; exact .inl (hP.invalidate _ hrest)
    | resetAssert => cases hstep; exact .inl (hP.assert hrest)
    | resetRelease => cases hstep; exact .inr ⟨rest, rfl, rfl⟩

theorem KeptByInputs.step {P : State → Prop} (hP : KeptByInputs P) (release : ∀ {s : State}, P s → P s.releaseReset)
    {s t : State} (h : P s) (hstep : Machine.step s = .next t) : P t := by
  rcases hP.step_or_release h hstep with ht | ⟨rest, -, rfl⟩
  · exact ht
  · exact release (hP.ports rest s.response h)

end Sys2Proof.Machine
end

section
/-!
PROOF. What each invariant needs of the operations: the form of memory after a command's end and of the host's uncleaned
bytes after a store, the key store after an end, the phase after an access.
-/

namespace Sys2Proof.Machine

section MemoryForm

variable {s t : State}

theorem MemoryEnd.wf {i : Instr} {m : Memory} {code : ErrCode} (h : MemoryEnd i s m code) (hs : s.mem.wf = true) :
    m.wf = true := by
  cases h with
  | same hmem => rwa [hmem]
  | stored bytes hmem _ _ hend => rw [hmem]; exact Memory.wf_writeBytes _ _ _ hs hend
  | unspecified draw hmem hend => rw [hmem]; exact Memory.wf_scramble _ _ _ _ hs hend

theorem State.WorksTo.hostDirty {u : State} (h : s.WorksTo u) : u.hostDirty = s.hostDirty := by
  obtain ⟨_, _, _, _, _, rfl⟩ := h
  rfl

theorem exec_wf {i : Instr} (hexec : exec i s = .next t) (h : s.memoryCanonical) : t.memoryCanonical := by
  obtain ⟨hmem, hdirty⟩ := h
  obtain ⟨u, out, code, addr, hends, rfl⟩ := exec_next_endsAs hexec
  rw [← hends.work.hostDirty] at hdirty
  exact ⟨hends.memory.wf hmem, hdirty⟩

theorem State.RunEnds.memoryCanonical (hend : s.RunEnds t) (h : s.memoryCanonical) : t.memoryCanonical := by
  cases hend with
  | reserved e hdec => exact h
  | plain i u hdec hexec =>
    have hu := exec_wf hexec h
    unfold State.memoryCanonical at hu ⊢
    rwa [State.markStale_mem, State.markStale_hostDirty]
  | disturbed i u hdec hexec =>
    obtain ⟨hmem, hdirty⟩ := h
    obtain ⟨v, out, code, addr, hends, rfl⟩ := exec_next_endsAs hexec
    have hsame : v.hostDirty = s.hostDirty := hends.work.hostDirty
    unfold State.memoryCanonical
    rw [State.markStale_mem, State.freeResults_mem, State.markStale_hostDirty, State.freeResults_hostDirty,
      State.finish_hostDirty, hsame]
    refine ⟨?_, hdirty⟩
    rcases ByteRange.inter_end (destRange i s.latch) ⟨s.latch.dst.toNat, s.latch.dstlen.toNat⟩
      (destRange_end i s.latch) with hempty | hrange
    · rw [writtenRange, hempty]
      exact hmem
    · exact Memory.wf_scramble _ _ _ _ hmem hrange

theorem mem_dirtyWrite {d : List Host.Cell} {a : Nat} {b : Byte} {p : Host.Cell} (h : p ∈ dirtyWrite d a b) :
    p = (a, b) ∨ p ∈ d := by
  induction d with
  | nil => exact .inl (List.mem_singleton.1 h)
  | cons q rest ih =>
    unfold dirtyWrite at h
    split at h
    · exact List.mem_cons.1 h
    split at h
    · rcases List.mem_cons.1 h with hp | hp
      · exact .inl hp
      · exact .inr (List.mem_cons_of_mem _ hp)
    · rcases List.mem_cons.1 h with hp | hp
      · exact .inr (hp ▸ List.mem_cons_self)
      · exact (ih hp).imp_right (List.mem_cons_of_mem _)

theorem rising_dirtyWrite {d : List Host.Cell} (a : Nat) (b : Byte) (h : d.Pairwise fun p q => p.1 < q.1) :
    (dirtyWrite d a b).Pairwise fun p q => p.1 < q.1 := by
  induction d with
  | nil => exact List.pairwise_singleton _ _
  | cons q rest ih =>
    obtain ⟨x, c⟩ := q
    obtain ⟨hlt, hrest⟩ := List.pairwise_cons.1 h
    unfold dirtyWrite
    split
    next hax =>
      refine List.pairwise_cons.2 ⟨fun p hp => ?_, h⟩
      rcases List.mem_cons.1 hp with rfl | hp
      · exact hax
      · exact Nat.lt_trans hax (hlt p hp)
    next hax =>
      split
      next heq => exact List.pairwise_cons.2 ⟨fun p hp => heq ▸ hlt p hp, hrest⟩
      next hne =>
        refine List.pairwise_cons.2 ⟨fun p hp => ?_, ih hrest⟩
        rcases mem_dirtyWrite hp with rfl | hp
        · exact Nat.lt_of_le_of_ne (Nat.le_of_not_lt hax) fun heq => hne heq.symm
        · exact hlt p hp

theorem State.hostStore_memoryCanonical (addr : Word) (b : Byte) (h : s.memoryCanonical) :
    (s.hostStore addr b).memoryCanonical := by
  obtain ⟨hmem, hrising, hdirty⟩ := h
  unfold State.hostStore
  dsimp only
  split
  · exact ⟨hmem, hrising, hdirty⟩
  split
  · exact ⟨Memory.wf_write _ hmem _ addr.isLt _, hrising, hdirty⟩
  · refine ⟨hmem, rising_dirtyWrite _ _ hrising, fun p hp => ?_⟩
    rcases mem_dirtyWrite hp with rfl | hp
    · exact addr.isLt
    · exact hdirty p hp

theorem State.touch_memoryCanonical (addr : Word) (h : s.memoryCanonical) :
    (s.touch addr.toNat).memoryCanonical := by
  obtain ⟨hmem, hdirty⟩ := h
  exact ⟨State.touch_wf _ _ hmem addr.isLt, by rwa [State.touch_hostDirty]⟩

theorem State.otherWrite_memoryCanonical (addr : Word) (b : Byte) (h : s.memoryCanonical) :
    (s.otherWrite addr b).memoryCanonical := by
  rcases s.otherWrite_cases addr b with ⟨-, heq⟩ | ⟨-, -, heq⟩ | ⟨-, -, heq⟩ <;> rw [heq]
  · exact h
  · exact State.touch_memoryCanonical addr h
  · obtain ⟨hmem, hdirty⟩ := h
    unfold State.memoryCanonical
    rw [State.markStale_mem, State.markStale_hostDirty]
    exact ⟨Memory.wf_write _ hmem _ addr.isLt _, hdirty⟩

theorem State.otherRead_memoryCanonical (addr : Word) (h : s.memoryCanonical) :
    (s.otherRead addr).memoryCanonical := by
  rcases s.otherRead_cases addr with ⟨-, -, heq⟩ | ⟨-, heq⟩ <;> rw [heq]
  · exact State.touch_memoryCanonical addr h
  · exact h

theorem State.readRegister_mem_hostDirty (s : State) (offset : BitVec 8) (width : AccessWidth) :
    (s.readRegister offset width).mem = s.mem ∧ (s.readRegister offset width).hostDirty = s.hostDirty := by
  unfold State.readRegister
  split
  · exact ⟨rfl, rfl⟩
  split
  · exact ⟨rfl, rfl⟩
  dsimp only
  split <;> exact ⟨rfl, rfl⟩

theorem State.hostLoad_mem_hostDirty (s : State) (addr : Word) :
    (s.hostLoad addr).mem = s.mem ∧ (s.hostLoad addr).hostDirty = s.hostDirty := by
  unfold State.hostLoad
  dsimp only
  split
  · exact ⟨rfl, rfl⟩
  split <;> exact ⟨rfl, rfl⟩

theorem State.RegisterWrite.memoryCanonical (hwrite : s.RegisterWrite t) (h : s.memoryCanonical) :
    t.memoryCanonical := by
  obtain ⟨hmem, hrising, hdirty⟩ := id h
  cases hwrite with
  | ignored response => exact h
  | softReset hfree =>
    refine ⟨State.abort_wf _ hmem, ?_⟩
    rw [State.hardwareReset_hostDirty]
    exact ⟨hrising, hdirty⟩
  | launch hfree hidle ie =>
    refine ⟨State.loseUncleaned_wf _ hmem hdirty, ?_⟩
    rw [State.launch_hostDirty, State.loseUncleaned_hostDirty]
    exact ⟨hrising, hdirty⟩
  | enable hfree ie =>
    unfold State.memoryCanonical
    rwa [State.seeIrq_mem, State.seeIrq_hostDirty]
  | clearDone hfree => exact h
  | operand hfree hidle => exact h

/-- The form of memory and of the host's uncleaned bytes is kept by every input. -/
theorem memoryCanonical_kept : KeptByInputs State.memoryCanonical where
  ports _ _ h := h
  turn h hturn := by
    cases hturn with
    | idle hidle => exact h
    | waits n hbusy hwait => exact h
    | ends t hbusy hwait hend => exact hend.memoryCanonical h
  readRegister {s} offset width h := by
    obtain ⟨hmem, hdirty⟩ := s.readRegister_mem_hostDirty offset width
    unfold State.memoryCanonical
    rwa [hmem, hdirty]
  load {s} addr h := by
    obtain ⟨hmem, hdirty⟩ := s.hostLoad_mem_hostDirty addr
    unfold State.memoryCanonical
    rwa [hmem, hdirty]
  store addr b h := State.hostStore_memoryCanonical addr b h
  busWrite addr b h := State.otherWrite_memoryCanonical addr b h
  busRead addr h := State.otherRead_memoryCanonical addr h
  clean r h := by
    obtain ⟨hmem, hrising, hdirty⟩ := h
    exact ⟨Memory.wf_copyListed _ _ hmem fun p hp => hdirty p (List.mem_of_mem_filter hp), hrising.filter _,
      fun p hp => hdirty p (List.mem_of_mem_filter hp)⟩
  invalidate r h := by
    obtain ⟨hmem, hrising, hdirty⟩ := h
    exact ⟨hmem, hrising.filter _, fun p hp => hdirty p (List.mem_of_mem_filter hp)⟩
  write h hwrite := hwrite.memoryCanonical h
  assert h := by
    obtain ⟨hmem, hdirty⟩ := h
    exact ⟨State.abort_wf _ hmem, by simpa using hdirty⟩

end MemoryForm

section Keys

variable {s t : State}

theorem State.keysConsistent_of_eq (hrk : t.rk = s.rk) (hkeyv : t.keyv = s.keyv) (h : s.keysConsistent) :
    t.keysConsistent := by
  unfold State.keysConsistent
  rwa [hrk, hkeyv]

theorem State.keysConsistent_of_empty (hrk : t.rk = RoundKeys.zero) (hkeyv : t.keyv = false) : t.keysConsistent := by
  simp [State.keysConsistent, hkeyv, hrk]

theorem KeysEnd.keysConsistent {i : Instr} {u : State} (hkeys : KeysEnd i s u) (h : s.keysConsistent) :
    u.keysConsistent := by
  cases hkeys with
  | same hrk hkeyv => exact State.keysConsistent_of_eq hrk hkeyv h
  | loaded key _ hrk hkeyv => simp [State.keysConsistent, hkeyv, hrk]
  | cleared _ hrk hkeyv => exact State.keysConsistent_of_empty hrk hkeyv

theorem State.RunEnds.keysConsistent (hend : s.RunEnds t) (h : s.keysConsistent) : t.keysConsistent := by
  cases hend with
  | reserved e hdec => exact h
  | plain i u hdec hexec =>
    obtain ⟨v, out, code, addr, hends, rfl⟩ := exec_next_endsAs hexec
    exact State.keysConsistent_of_eq (by simp) (by simp) (hends.keys.keysConsistent h)
  | disturbed i u hdec hexec =>
    obtain ⟨v, out, code, addr, hends, rfl⟩ := exec_next_endsAs hexec
    exact State.keysConsistent_of_eq (by simp) (by simp)
      (hends.keys.keysConsistent (s := s.readUnsteady (sourceRange i s.latch)) h)

theorem keysConsistent_kept : KeptByInputs State.keysConsistent := by
  refine .of_accessed (fun _ _ h => h) ?turn ?accessed ?write ?assert
  case turn =>
    intro s t h hturn
    cases hturn with
    | idle hidle => exact h
    | waits n hbusy hwait => exact h
    | ends t hbusy hwait hend => exact hend.keysConsistent h
  case accessed =>
    intro s t h haccess
    obtain ⟨_, _, _, _, _, _, _, _, _, _, rfl⟩ := haccess.frame
    exact h
  case write =>
    intro s t h hwrite
    cases hwrite with
    | softReset hfree => exact State.keysConsistent_of_empty rfl rfl
    | launch hfree hidle ie => exact State.keysConsistent_of_eq (by simp) (by simp) h
    | enable hfree ie => exact State.keysConsistent_of_eq (by simp) (by simp) h
    | _ => exact h
  case assert => exact fun _ => State.keysConsistent_of_empty rfl rfl

end Keys

section ReservedBits

variable {s t : State}

theorem cmdReservedClear_and_cmdMask (v : Word) : cmdReservedClear (v &&& cmdMask) = true := by
  rw [cmdReservedClear, BitVec.and_assoc]
  simp [cmdMask]

theorem cmdReservedClear_zero : cmdReservedClear 0#32 = true := by decide

theorem State.reservedBitsClear_of_zero (hcmd : t.cmd = 0#32) (hlatch : t.latch = Latch.zero) :
    t.reservedBitsClear := by
  unfold State.reservedBitsClear
  rw [hcmd, hlatch]
  exact ⟨cmdReservedClear_zero, cmdReservedClear_zero⟩

/-- A command's end leaves the register `CMD` alone, and no word latched. -/
theorem exec_cmd_latch {i : Instr} (hexec : exec i s = .next t) : t.cmd = s.cmd ∧ t.latch = Latch.zero := by
  obtain ⟨u, out, code, addr, hends, rfl⟩ := exec_next_endsAs hexec
  obtain ⟨_, _, _, _, _, rfl⟩ := hends.work
  exact ⟨rfl, rfl⟩

theorem State.RunEnds.cmd_latch (hend : s.RunEnds t) : t.cmd = s.cmd ∧ t.latch = Latch.zero := by
  cases hend with
  | reserved e hdec => exact ⟨rfl, rfl⟩
  | plain i u hdec hexec => simpa using exec_cmd_latch hexec
  | disturbed i u hdec hexec => simpa using exec_cmd_latch hexec

theorem reservedBitsClear_kept : KeptByInputs State.reservedBitsClear := by
  refine .of_accessed (fun _ _ h => h) ?turn ?accessed ?write ?assert
  case turn =>
    intro s t h hturn
    cases hturn with
    | idle hidle => exact h
    | waits n hbusy hwait => exact h
    | ends t hbusy hwait hend =>
      obtain ⟨hcmd, hlatch⟩ := hend.cmd_latch
      unfold State.reservedBitsClear
      rw [hcmd, hlatch]
      exact ⟨h.1, cmdReservedClear_zero⟩
  case accessed =>
    intro s t h haccess
    obtain ⟨_, _, _, _, _, _, _, _, _, _, rfl⟩ := haccess.frame
    exact h
  case write =>
    intro s t h hwrite
    obtain ⟨hs, hlatched⟩ := id h
    cases hwrite with
    | softReset hfree => exact State.reservedBitsClear_of_zero rfl rfl
    | launch hfree hidle ie =>
      unfold State.reservedBitsClear
      simpa [State.operands] using hs
    | enable hfree ie =>
      simpa [State.reservedBitsClear] using h
    | operand hfree hidle cmd src srclen dst dstlen crc btimeLo btimeHi crcUnseen hcmd hcrc =>
      refine ⟨?_, hlatched⟩
      rcases hcmd with rfl | ⟨v, rfl⟩
      · exact hs
      · exact cmdReservedClear_and_cmdMask v
    | _ => exact h
  case assert => exact fun _ => State.reservedBitsClear_of_zero rfl rfl

end ReservedBits

section Phase

variable {s t : State}

/-- The reset state is idle. -/
theorem State.phaseConsistent.of_clear (hclear : t.clearEngine = t) : t.phaseConsistent := by
  have hidle : t.busy = false := by rw [← hclear, State.clearEngine_busy]
  have hdone : t.done = false := by rw [← hclear, State.clearEngine_done]
  have hlatch : t.latch = Latch.zero := by rw [← hclear, State.clearEngine_latch]
  have hwait : t.wait = 0 := by rw [← hclear, State.clearEngine_wait]
  have hdisturbed : t.disturbed = false := by rw [← hclear, State.clearEngine_disturbed]
  have hunsteady : t.unsteady = [] := by rw [← hclear, State.clearEngine_unsteady]
  refine ⟨?_, fun _ => hclear, fun hirq => ?_⟩
  · rw [hidle, if_neg Bool.false_ne_true]
    exact ⟨hlatch, hwait, hdisturbed, hunsteady⟩
  · rw [State.irq_of_done_false hdone] at hirq
    exact absurd hirq Bool.false_ne_true

/-- What a command's end leaves of the phase (rules R42, R242, R243, R274). -/
structure State.EndPhase (s t : State) : Prop where
  busy : t.busy = false
  latch : t.latch = Latch.zero
  wait : t.wait = 0
  disturbed : t.disturbed = false
  unsteady : t.unsteady = []
  resetHeld : t.resetHeld = s.resetHeld
  ie : t.ie = s.ie
  done : t.done = true
  endUnseen : t.endUnseen = !s.ie
  crcUnseen : t.crcUnseen = !s.ie
  unseenDest : t.unseenDest = if s.ie then [] else s.latch.dest :: s.unseenDest

theorem exec_endPhase {i : Instr} (hexec : exec i s = .next t) : s.EndPhase t := by
  obtain ⟨u, out, code, addr, hends, rfl⟩ := exec_next_endsAs hexec
  obtain ⟨_, _, _, _, _, rfl⟩ := hends.work
  exact ⟨rfl, rfl, rfl, rfl, rfl, rfl, rfl, rfl, rfl, rfl, rfl⟩

theorem State.EndPhase.markStale (h : s.EndPhase t) (r : ByteRange) : s.EndPhase (t.markStale r) := by
  obtain ⟨hbusy, hlatch, hwait, hdisturbed, hunsteady, hheld, hie, hdone, hend, hcrc, hdest⟩ := h
  constructor <;> simp only [State.markStale_busy, State.markStale_latch, State.markStale_wait,
    State.markStale_disturbed, State.markStale_unsteady, State.markStale_resetHeld, State.markStale_ie,
    State.markStale_done, State.markStale_endUnseen, State.markStale_crcUnseen, State.markStale_unseenDest] <;>
    assumption

theorem State.RunEnds.endPhase (hend : s.RunEnds t) : s.EndPhase t := by
  cases hend with
  | reserved e hdec => exact ⟨rfl, rfl, rfl, rfl, rfl, rfl, rfl, rfl, rfl, rfl, rfl⟩
  | plain i u hdec hexec => exact (exec_endPhase hexec).markStale _
  | disturbed i u hdec hexec =>
    obtain ⟨hbusy, hlatch, hwait, hdisturbed, hunsteady, hheld, hie, hdone, hend, hcrc, hdest⟩ := exec_endPhase hexec
    have hfree : s.EndPhase (u.freeResults s (writtenRange i s.latch)) :=
      ⟨hbusy, hlatch, hwait, hdisturbed, hunsteady, hheld, hie, hdone, hend, hcrc, hdest⟩
    exact hfree.markStale _

theorem State.EndPhase.phaseConsistent (hend : s.EndPhase t) (hfree : s.resetHeld = false) : t.phaseConsistent := by
  refine ⟨?_, fun hheld => ?_, fun hirq => ?_⟩
  · rw [hend.busy, if_neg Bool.false_ne_true]
    exact ⟨hend.latch, hend.wait, hend.disturbed, hend.unsteady⟩
  · rw [hend.resetHeld, hfree] at hheld
    exact absurd hheld Bool.false_ne_true
  · have hie : s.ie = true := by
      rw [State.irq, Bool.and_eq_true, hend.ie] at hirq
      exact hirq.2
    simp [hend.endUnseen, hend.crcUnseen, hend.unseenDest, hie]

theorem State.Accessed.phaseConsistent (haccess : s.Accessed t) (h : s.phaseConsistent) : t.phaseConsistent := by
  obtain ⟨⟨_, _, _, _, _, _, _, _, _, _, rfl⟩, hidle, hend, hcrc, hdest⟩ := haccess
  obtain ⟨hphase, hheld, hirq⟩ := h
  refine ⟨?_, fun hreset => ?_, fun hraised => ?_⟩
  · dsimp only at hidle ⊢
    cases hbusy : s.busy with
    | true => simpa [hbusy] using hphase
    | false =>
      obtain ⟨hsame, hsame'⟩ := hidle hbusy
      rw [hsame, hsame']
      simpa [hbusy] using hphase
  · have hclear := (State.clearEngine_eq_iff s).1 (hheld hreset)
    rw [State.clearEngine_eq_iff]
    obtain ⟨hsame, hsame'⟩ := hidle hclear.2.1
    dsimp only at hsame hsame' hend hcrc ⊢
    rw [hsame, hsame']
    simp only [hclear, hend, hcrc, and_self]
  · obtain ⟨hseen, hcrcSeen, hdestSeen⟩ := hirq hraised
    exact ⟨hend hseen, hcrc hcrcSeen, hdest hdestSeen⟩

theorem State.launch_phaseConsistent (hfree : s.resetHeld = false) : s.launch.phaseConsistent := by
  refine ⟨by simp, fun hheld => ?_, fun hirq => ?_⟩
  · rw [State.launch_resetHeld, hfree] at hheld
    exact absurd hheld Bool.false_ne_true
  · rw [State.irq_of_done_false (State.launch_done s)] at hirq
    exact absurd hirq Bool.false_ne_true

/-- Setting `IE` raises `IRQ` where `DONE` is set, and the host then sees the end. -/
theorem State.seeIrq_phaseConsistent
    (hphase : if s.busy then
        s.done = false ∧ s.errcode = .ok ∧ s.crcok = false ∧ s.cntok = false ∧ s.s24ovf = false
      else s.latch = Latch.zero ∧ s.wait = 0 ∧ s.disturbed = false ∧ s.unsteady = [])
    (hfree : s.resetHeld = false) : s.seeIrq.phaseConsistent := by
  refine ⟨by simpa using hphase, fun hheld => ?_, fun hirq => ?_⟩
  · rw [State.seeIrq_resetHeld, hfree] at hheld
    exact absurd hheld Bool.false_ne_true
  · have hraised : s.irq = true := by simpa [State.irq] using hirq
    rw [State.seeIrq, if_pos hraised]
    exact ⟨rfl, rfl, rfl⟩

theorem State.RegisterWrite.phaseConsistent (hwrite : s.RegisterWrite t) (h : s.phaseConsistent) :
    t.phaseConsistent := by
  obtain ⟨hphase, hheld, hirq⟩ := id h
  cases hwrite with
  | ignored response =>
    exact (s.accessed_response response s.draws).phaseConsistent h
  | softReset hfree => exact .of_clear rfl
  | launch hfree hidle ie => exact State.launch_phaseConsistent (by simpa using hfree)
  | enable hfree ie => exact State.seeIrq_phaseConsistent hphase hfree
  | clearDone hfree =>
    refine ⟨?_, fun hreset => absurd (hfree.symm.trans hreset) Bool.false_ne_true, fun hraised => ?_⟩
    · cases hbusy : s.busy with
      | true =>
        rw [if_pos hbusy] at hphase
        simpa using hphase.2
      | false => simpa [hbusy] using hphase
    · exact absurd hraised Bool.false_ne_true
  | operand hfree hidle _ _ _ _ _ _ _ _ _ _ hcrc =>
    refine ⟨by simpa [hidle] using hphase, fun hreset => absurd (hfree.symm.trans hreset) Bool.false_ne_true,
      fun hraised => ?_⟩
    obtain ⟨hseen, hcrcSeen, hdestSeen⟩ := hirq hraised
    exact ⟨hseen, hcrc hcrcSeen, hdestSeen⟩

theorem phaseConsistent_kept : KeptByInputs State.phaseConsistent := by
  refine .of_accessed ?ports ?turn (fun h haccess => haccess.phaseConsistent h) (fun h hwrite => hwrite.phaseConsistent h)
    (fun _ => .of_clear rfl)
  case ports =>
    rintro s inputs response ⟨hphase, hheld, hirq⟩
    refine ⟨hphase, fun hreset => ?_, hirq⟩
    have hclear := hheld hreset
    rw [State.clearEngine_eq_iff] at hclear ⊢
    exact hclear
  case turn =>
    intro s t h hturn
    cases hturn with
    | idle hidle => exact h
    | waits n hbusy hwait =>
      have hfree := h.resetHeld_of_busy hbusy
      obtain ⟨hphase, hheld, hirq⟩ := h
      refine ⟨?_, fun hreset => absurd (hfree.symm.trans hreset) Bool.false_ne_true, hirq⟩
      dsimp only
      rw [if_pos hbusy] at hphase ⊢
      exact hphase
    | ends t hbusy hwait hend => exact hend.endPhase.phaseConsistent (h.resetHeld_of_busy hbusy)

theorem State.phaseConsistent.releaseReset (h : s.phaseConsistent) : s.releaseReset.phaseConsistent := by
  obtain ⟨hphase, -, hirq⟩ := h
  exact ⟨hphase, fun hreset => absurd hreset Bool.false_ne_true, hirq⟩

end Phase

end Sys2Proof.Machine
end

section
/-!
PROOF. The statements about every step: the invariants, their start, the next state, the end of every command.
-/

namespace Sys2Proof.Proofs.Steps

open Sys2Proof Sys2Proof.Machine

/-- Settles O9: each operation on memory keeps its form, and every range that the engine writes is in DMA space. -/
theorem stepKeepsMemoryCanonical : Obligations.StepKeepsMemoryCanonical :=
  fun _ _ h hstep => memoryCanonical_kept.step id h hstep

/-- Settles O10: only the ends of `KEY_LOAD` and `KEY_CLEAR` and the resets write the keys, and `KEYV` with them. -/
theorem stepKeepsKeyStoreMatchingKeyv : Obligations.StepKeepsKeyStoreMatchingKeyv :=
  fun _ _ h hstep => keysConsistent_kept.step id h hstep

/-- Settles O11: an end, a launch and a reset each set the whole phase; an access changes what depends on it only while
a command runs. -/
theorem stepKeepsPhaseConsistent : Obligations.StepKeepsPhaseConsistent :=
  fun _ _ h hstep => phaseConsistent_kept.step State.phaseConsistent.releaseReset h hstep

/-- Settles O12: a write of `CMD` is masked, and a launch latches `CMD`. -/
theorem stepKeepsReservedBitsClear : Obligations.StepKeepsReservedBitsClear :=
  fun _ _ h hstep => reservedBitsClear_kept.step id h hstep

/-- Settles O13: the reset state is evaluated. -/
theorem resetMeetsTheInvariant : Obligations.ResetMeetsTheInvariant :=
  ⟨by decide, State.reservedBitsClear_of_zero rfl rfl, ⟨rfl, List.Pairwise.nil, fun _ h => absurd h List.not_mem_nil⟩,
    .of_clear rfl, State.keysConsistent_of_empty rfl rfl⟩

end Sys2Proof.Proofs.Steps
end

section
/-!
PROOF. Runs of steps, and the engine's turns in them (rules R24, R88, R283).
-/

namespace Sys2Proof.Machine

section Runs

variable {s t u : State}

theorem core_run_succ (M : Host.Core) {k : Nat} {a b : M.State} (h : M.step a = .next b) :
    M.run (k + 1) a = M.run k b := by
  rw [Host.Core.run, h]

theorem run_succ {k : Nat} (h : step s = .next t) :
    Host.Core.run Sys2Proof.core (k + 1) s = Host.Core.run Sys2Proof.core k t :=
  core_run_succ Sys2Proof.core h

theorem State.with_wait {n : Nat} (h : s.wait = n) : { s with wait := n } = s := by
  subst h
  rfl

theorem run_one (h : step s = .next t) : Host.Core.run Sys2Proof.core 1 s = .next t := run_succ h

theorem run_two (h : step s = .next t) (h' : step t = .next u) : Host.Core.run Sys2Proof.core 2 s = .next u :=
  (run_succ h).trans (run_one h')

theorem State.exists_engineStep (s : State) : ∃ t, s.engineStep = .next t := by
  obtain ⟨t, hnext, -⟩ := s.engineStep_turns
  exact ⟨t, hnext⟩

theorem step_next (s : State) : ∃ t, step s = .next t := by
  rcases hinputs : s.inputs with _ | ⟨input, rest⟩
  · rw [step_of_inputs_nil hinputs]
    exact s.exists_engineStep
  · rw [step_of_inputs_cons hinputs]
    cases input with
    | engine => exact State.exists_engineStep _
    | waitIdle =>
      rw [State.takeInput, State.waitStep]
      split
      · exact State.exists_engineStep _
      · exact ⟨_, rfl⟩
    | _ => exact ⟨_, rfl⟩

theorem State.engineStep_idle (hidle : s.busy = false) : s.engineStep = .next s := by
  simp [State.engineStep, hidle]

theorem step_waiting {n : Nat} (hinputs : s.inputs = []) (hbusy : s.busy = true) (hwait : s.wait = n + 1) :
    step s = .next { s with wait := n } := by
  rw [step_of_inputs_nil hinputs]
  simp [State.engineStep, hbusy, hwait]

/-- While the host does nothing, the engine takes the steps of `LATENCY` one by one. -/
theorem run_waiting (n : Nat) : ∀ {s : State}, s.inputs = [] → s.busy = true → s.wait = n → ∀ k, k ≤ n →
    Host.Core.run Sys2Proof.core k s = .next { s with wait := n - k } := by
  induction n with
  | zero =>
    intro s _ _ hwait k hk
    obtain rfl := Nat.le_zero.1 hk
    exact congrArg Host.Outcome.next (State.with_wait hwait).symm
  | succ n ih =>
    intro s hinputs hbusy hwait k hk
    cases k with
    | zero => exact congrArg Host.Outcome.next (State.with_wait hwait).symm
    | succ k =>
      have hrest := ih (s := { s with wait := n }) hinputs hbusy rfl k (Nat.le_of_succ_le_succ hk)
      rw [Nat.add_sub_add_right]
      exact (run_succ (step_waiting hinputs hbusy hwait)).trans hrest

/-- After them the command ends. -/
theorem run_to_end (n : Nat) : ∀ {s : State}, s.inputs = [] → s.busy = true → s.wait = n →
    ∃ t, Host.Core.run Sys2Proof.core (n + 1) s = .next t ∧ s.EndPhase t := by
  induction n with
  | zero =>
    intro s hinputs hbusy hwait
    obtain ⟨t, hnext, hend⟩ := s.commandEnd_runEnds
    refine ⟨t, run_one ?_, hend.endPhase⟩
    rw [step_of_inputs_nil hinputs, State.engineStep_of_wait_zero hbusy hwait, hnext]
  | succ n ih =>
    intro s hinputs hbusy hwait
    obtain ⟨t, hrun, hend⟩ := ih (s := { s with wait := n }) hinputs hbusy rfl
    obtain ⟨hbusy', hlatch, hwait', hdisturbed, hunsteady, hheld, hie, hdone, hunseen, hcrc, hdest⟩ := hend
    refine ⟨t, (run_succ (step_waiting hinputs hbusy hwait)).trans hrun, ?_⟩
    exact ⟨hbusy', hlatch, hwait', hdisturbed, hunsteady, hheld, hie, hdone, hunseen, hcrc, hdest⟩

/-- A command whose bytes no other has touched ends with its own meaning. -/
theorem State.commandEnd_undisturbed {i : Instr} (hdec : decode s.latch.cmd = .ok i)
    (hsteady : s.disturbed = false ∨ usesDma i = false) :
    s.commandEnd = markStaleAfter (destRange i s.latch) (exec i s) := by
  have hdist : (s.disturbed && usesDma i) = false := by
    rcases hsteady with h | h <;> simp [h]
  rw [State.commandEnd, hdec]
  dsimp only
  rw [hdist, if_neg Bool.false_ne_true]

theorem exec_cfg {i : Instr} (hexec : exec i s = .next t) : t.cfg = s.cfg := by
  obtain ⟨u, out, code, addr, hends, rfl⟩ := exec_next_endsAs hexec
  obtain ⟨_, _, _, _, _, rfl⟩ := hends.work
  rfl

theorem State.markStale_of_coherent (h : s.cfg.dmaCoherent = true) (r : ByteRange) : s.markStale r = s := by
  simp [State.markStale, h]

theorem markStaleAfter_exec_of_coherent (h : s.cfg.dmaCoherent = true) (i : Instr) (r : ByteRange) :
    markStaleAfter r (exec i s) = exec i s := by
  obtain ⟨u, out, code, addr, -, hexec⟩ := exec_endsAs s i
  rw [hexec, markStaleAfter_next, State.markStale_of_coherent]
  rw [exec_cfg hexec, h]

end Runs

end Sys2Proof.Machine
end

section
/-!
PROOF. The register window by one step each: a read of a register whose value is specified, of one whose value is not,
of `STATUS`; a write of an operand register (rules R20, R27, R39, R40, R274).
-/

namespace Sys2Proof.Machine

section Reads

variable {s : State} {rest : List Input} {offset : BitVec 8}

theorem step_readReg_specified (hin : s.inputs = .readReg offset .word :: rest) (halign : offset.toNat % 4 = 0)
    (hspec : s.registerUnspecified offset = false) (hstatus : offset.toNat ≠ 0x08) :
    step s = .next { s with inputs := rest, response := .word (s.register offset) } := by
  have hread := State.readRegister_specified { s with inputs := rest } (registerAccessOK_iff.2 ⟨rfl, halign⟩) hspec
    hstatus
  rw [step_of_inputs_cons hin, State.takeInput_readReg, hread]
  rfl

theorem step_readReg_unspecified (hin : s.inputs = .readReg offset .word :: rest) (halign : offset.toNat % 4 = 0)
    (hspec : s.registerUnspecified offset = true) :
    step s = .next { s with
      inputs := rest, response := .word (Config.freeWord s.draws 0), draws := s.draws + 1 } := by
  have hok : registerAccessOK offset .word = true := registerAccessOK_iff.2 ⟨rfl, halign⟩
  have hunspec : State.registerUnspecified { s with inputs := rest } offset = true := hspec
  rw [step_of_inputs_cons hin, State.takeInput_readReg, State.readRegister, hok, hunspec]
  rfl

/-- `STATUS` while the engine is idle: the host sees the end of the last command. -/
theorem State.readRegister_status_idle (hidle : s.busy = false) :
    s.readRegister 0x08#8 .word = { s with
      response := .word s.statusWord, endUnseen := false, crcUnseen := false, unseenDest := [] } := by
  have hok : registerAccessOK 0x08#8 .word = true := by decide
  have hspec : s.registerUnspecified 0x08#8 = false := State.registerUnspecified_other s (by decide) (by decide)
  rw [State.readRegister, hok, hspec]
  simp only [Bool.not_true, Bool.false_eq_true, if_false, hidle, Bool.not_false, Bool.and_true]
  rfl

theorem State.readRegister_status_busy (hbusy : s.busy = true) :
    s.readRegister 0x08#8 .word = { s with response := .word s.statusWord } := by
  have hok : registerAccessOK 0x08#8 .word = true := by decide
  have hspec : s.registerUnspecified 0x08#8 = false := State.registerUnspecified_other s (by decide) (by decide)
  rw [State.readRegister, hok, hspec]
  simp only [Bool.not_true, Bool.false_eq_true, if_false, hbusy, Bool.and_false]
  rfl

theorem step_readStatus (hin : s.inputs = .readReg 0x08#8 .word :: rest) :
    step s = .next
      (let t := { s with inputs := rest, response := .word s.statusWord }
       if s.busy then t else { t with endUnseen := false, crcUnseen := false, unseenDest := [] }) := by
  rw [step_of_inputs_cons hin, State.takeInput_readReg]
  by_cases hbusy : s.busy = true
  · have hread := State.readRegister_status_busy (s := { s with inputs := rest }) hbusy
    exact congrArg Host.Outcome.next (hread.trans (if_pos hbusy).symm)
  · have hread := State.readRegister_status_idle (s := { s with inputs := rest }) (Bool.eq_false_iff.2 hbusy)
    exact congrArg Host.Outcome.next (hread.trans (if_neg hbusy).symm)

theorem registerUnspecified_result (hoffset : offset.toNat ∈ [0x20, 0x30, 0x34, 0x38, 0x3C]) :
    s.registerUnspecified offset = (s.busy || s.endUnseen) := by
  have hresult : resultOffset offset = true := by simpa [resultOffset] using hoffset
  have hcrc : offset.toNat ≠ 0x24 := by
    intro h
    simp [h] at hoffset
  simp [State.registerUnspecified, hresult, hcrc]

theorem registerUnspecified_crc : s.registerUnspecified 0x24#8 = (s.busy || s.crcUnseen) := by
  simp [State.registerUnspecified, resultOffset]

theorem mul_four_of_result (hoffset : offset.toNat ∈ [0x20, 0x30, 0x34, 0x38, 0x3C]) : offset.toNat % 4 = 0 := by
  simp only [List.mem_cons, List.not_mem_nil, or_false] at hoffset
  omega

end Reads

section Status

/-- The bits of a one-bit field. -/
theorem getLsbD_bitAt (k : Nat) (b : Bool) {i : Nat} (hi : i < 32) : (bitAt k b).getLsbD i = (b && decide (i = k)) := by
  cases b with
  | false => simp [bitAt]
  | true =>
    have hbit : (1#32 <<< k).getLsbD i = decide (i = k) := by
      rw [BitVec.getLsbD_shiftLeft, BitVec.getLsbD_one, Bool.eq_iff_iff]
      simp only [Bool.and_eq_true, Bool.not_eq_true', decide_eq_true_eq, decide_eq_false_iff_not]
      omega
    simpa [bitAt] using hbit

/-- The bits of `STATUS`, field by field (rule R27). -/
theorem State.getLsbD_statusWord (s : State) {i : Nat} (hi : i < 32) :
    s.statusWord.getLsbD i = ((s.busy && decide (i = 0)) || (s.done && decide (i = 1)) || (s.keyv && decide (i = 2))
      || (s.crcok && decide (i = 3)) || (s.cntok && decide (i = 4)) || (s.s24ovf && decide (i = 5))
      || (decide (8 ≤ i) && s.errcode.toByte.getLsbD (i - 8))) := by
  have herr : (s.errcode.toByte.zeroExtend 32 <<< 8).getLsbD i
      = (decide (8 ≤ i) && s.errcode.toByte.getLsbD (i - 8)) := by
    rw [BitVec.getLsbD_shiftLeft, BitVec.zeroExtend_eq_setWidth, BitVec.getLsbD_setWidth, Bool.eq_iff_iff]
    simp only [Bool.and_eq_true, Bool.not_eq_true', decide_eq_true_eq, decide_eq_false_iff_not]
    constructor
    · rintro ⟨⟨-, hlow⟩, -, hbit⟩
      exact ⟨by omega, hbit⟩
    · rintro ⟨hlow, hbit⟩
      exact ⟨⟨hi, by omega⟩, by omega, hbit⟩
  simp only [State.statusWord, BitVec.getLsbD_or, getLsbD_bitAt _ _ hi, herr]

/-- Above the one-bit fields is `ERRCODE` only. -/
theorem State.getLsbD_statusWord_high (s : State) {i : Nat} (hi : i < 32) (hlow : 6 ≤ i) :
    s.statusWord.getLsbD i = (decide (8 ≤ i) && s.errcode.toByte.getLsbD (i - 8)) := by
  rw [State.getLsbD_statusWord s hi]
  simp [show i ≠ 0 by omega, show i ≠ 1 by omega, show i ≠ 2 by omega, show i ≠ 3 by omega, show i ≠ 4 by omega,
    show i ≠ 5 by omega]

theorem State.extractLsb'_statusWord_errcode (s : State) : s.statusWord.extractLsb' 8 8 = s.errcode.toByte := by
  refine BitVec.eq_of_getLsbD_eq fun i hi => ?_
  rw [BitVec.getLsbD_extractLsb', State.getLsbD_statusWord_high s (by omega) (by omega)]
  simp [hi]

theorem State.extractLsb'_statusWord_low (s : State) : s.statusWord.extractLsb' 6 2 = 0#2 := by
  refine BitVec.eq_of_getLsbD_eq fun i hi => ?_
  rw [BitVec.getLsbD_extractLsb', State.getLsbD_statusWord_high s (by omega) (by omega)]
  simp [show ¬ 8 ≤ 6 + i by omega]

theorem State.extractLsb'_statusWord_high (s : State) : s.statusWord.extractLsb' 16 16 = 0#16 := by
  refine BitVec.eq_of_getLsbD_eq fun i hi => ?_
  rw [BitVec.getLsbD_extractLsb', State.getLsbD_statusWord_high s (by omega) (by omega),
    BitVec.getLsbD_of_ge s.errcode.toByte _ (by omega)]
  simp

/-- While a command runs, `STATUS` shows `BUSY` and `KEYV` only (rule R40). -/
theorem State.statusWord_busy {s : State} (hbusy : s.busy = true) (hphase : s.phaseConsistent) :
    s.statusWord = if s.keyv then 0x00000005#32 else 0x00000001#32 := by
  obtain ⟨hphase, -, -⟩ := hphase
  rw [if_pos hbusy] at hphase
  obtain ⟨hdone, herr, hcrcok, hcntok, hovf⟩ := hphase
  unfold State.statusWord
  rw [hbusy, hdone, herr, hcrcok, hcntok, hovf]
  cases s.keyv <;> decide

end Status

section OperandWrites

variable {s : State} {rest : List Input} {offset : BitVec 8} {v : Word}

theorem step_writeOperand (hin : s.inputs = .writeReg offset .word v :: rest) (hfree : s.resetHeld = false)
    (halign : offset.toNat % 4 = 0) (hctrl : offset.toNat ≠ 0x04) (hstatus : offset.toNat ≠ 0x08) :
    step s = .next (State.writeOperand { s with inputs := rest, response := .done } offset v) := by
  rw [step_of_inputs_cons hin, State.takeInput_writeReg, State.writeRegister, registerAccessOK_iff.2 ⟨rfl, halign⟩]
  simp only [Bool.not_true, Bool.false_eq_true, if_false, hfree]

/-- The operand registers that hold whatever is written to them: all but `CMD`. -/
def plainOffsets : List Nat := [0x10, 0x14, 0x18, 0x1C, 0x24, 0x28, 0x2C]

theorem writeOperand_reads_back (hidle : s.busy = false) (hoffset : offset.toNat ∈ plainOffsets) :
    (s.writeOperand offset v).register offset = v ∧ (s.writeOperand offset v).registerUnspecified offset = false ∧
      (s.writeOperand offset v).inputs = s.inputs := by
  simp only [plainOffsets, List.mem_cons, List.not_mem_nil, or_false] at hoffset
  rcases hoffset with h | h | h | h | h | h | h <;>
    simp [State.writeOperand, State.register, State.registerUnspecified, resultOffset, hidle, h]

end OperandWrites

end Sys2Proof.Machine
end

section
/-!
PROOF. The reset state, however it is reached (rules R46, R270 to R272), and what an abort leaves in DMA space.
-/

namespace Sys2Proof.Machine

section Reset

variable {s t : State} {rest : List Input} {v : Word}

theorem sameMemoryOutside_abort (s : State) : SameMemoryOutside s.latch.dest s s.abort :=
  fun x hx => State.abort_read_other s x hx

/-- A soft reset leaves the reset state, whether the reset input is held meanwhile or not. -/
theorem step_softReset (hin : s.inputs = .writeReg 0x04#8 .word v :: rest) (hsrst : v.getLsbD 1 = true)
    (hheld : s.resetHeld = true → s.clearEngine = s) :
    ∃ t, step s = .next t ∧ t.clearEngine = t ∧ t.inputs = rest ∧ (s.busy = false → t.mem = s.mem)
      ∧ SameMemoryOutside s.latch.dest s t := by
  cases hreset : s.resetHeld with
  | false =>
    refine ⟨_, (step_writeCtrl hin hreset).trans (congrArg _ (State.writeCtrl_srst hsrst)), rfl, by simp, ?_, ?_⟩
    · intro hidle
      have habort : ({ s with inputs := rest, response := .done } : State).abort = _ := State.abort_mem_idle _ hidle
      rw [State.hardwareReset_mem, habort]
    · exact sameMemoryOutside_abort { s with inputs := rest, response := .done }
  | true =>
    obtain ⟨response, hwrite⟩ := State.writeRegister_held { s with inputs := rest } hreset 0x04#8 .word v
    rw [step_of_inputs_cons hin, State.takeInput_writeReg, hwrite]
    refine ⟨_, rfl, ?_, rfl, fun _ => rfl, fun _ _ => rfl⟩
    have hclear := hheld hreset
    rw [State.clearEngine_eq_iff] at hclear ⊢
    exact hclear

theorem step_assertReset (hin : s.inputs = .resetAssert :: rest) :
    ∃ t, step s = .next t ∧ t.clearEngine = t ∧ t.resetHeld = true ∧ (s.busy = false → t.mem = s.mem)
      ∧ SameMemoryOutside s.latch.dest s t := by
  refine ⟨_, step_of_inputs_cons hin, rfl, rfl, ?_, sameMemoryOutside_abort { s with inputs := rest }⟩
  intro hidle
  have habort : ({ s with inputs := rest } : State).abort = _ := State.abort_mem_idle _ hidle
  rw [State.assertReset_mem, habort]

/-- The registers in the reset state (rule R46). -/
theorem registers_of_clear (hclear : t.clearEngine = t) :
    t.ctrlWord = 0#32 ∧ t.statusWord = 0#32 ∧ t.cmd = 0#32 ∧ t.src = 0#32 ∧ t.srclen = 0#32 ∧ t.dst = 0#32
      ∧ t.dstlen = 0#32 ∧ t.ResultsAre 0#32 0#32 0#32 0#32 ∧ t.erraddr = 0#32 ∧ t.crc = 0xFFFFFFFF#32
      ∧ t.btimeLo = 0#32 ∧ t.btimeHi = 0#32 := by
  have hstatus : t.clearEngine.statusWord = 0#32 := by simp [State.statusWord, bitAt, ErrCode.toByte]
  rw [← hclear]
  exact ⟨rfl, hstatus, rfl, rfl, rfl, rfl, rfl, ⟨rfl, rfl, rfl, rfl⟩, rfl, rfl, rfl, rfl⟩

/-- The rest of the engine in the reset state (rule R46). -/
theorem engine_of_clear (hclear : t.clearEngine = t) :
    t.ie = false ∧ t.busy = false ∧ t.irq = false ∧ t.rk = RoundKeys.zero ∧ t.latch = Latch.zero
      ∧ t.endUnseen = false ∧ t.crcUnseen = false := by
  rw [← hclear]
  exact ⟨rfl, rfl, rfl, rfl, rfl, rfl, rfl⟩

/-- The reset state while the reset input is held. -/
def State.HeldClear (s : State) : Prop := s.resetHeld = true ∧ s.clearEngine = s

/-- No input but the release of the reset input ends it. -/
theorem heldClear_kept : KeptByInputs State.HeldClear := by
  have idle {s : State} (h : s.HeldClear) : s.busy = false := (engine_of_clear h.2).2.1
  refine .of_accessed ?ports ?turn ?accessed ?write (fun _ => ⟨rfl, rfl⟩)
  case ports =>
    rintro s inputs response ⟨hheld, hclear⟩
    refine ⟨hheld, ?_⟩
    rw [State.clearEngine_eq_iff] at hclear ⊢
    exact hclear
  case turn =>
    intro s t h hturn
    cases hturn with
    | idle _ => exact h
    | waits n hbusy hwait => exact absurd ((idle h).symm.trans hbusy) Bool.false_ne_true
    | ends t hbusy hwait hend => exact absurd ((idle h).symm.trans hbusy) Bool.false_ne_true
  case accessed =>
    rintro s t ⟨hheld, hclear⟩ haccess
    have hsame : t.resetHeld = s.resetHeld := by
      obtain ⟨_, _, _, _, _, _, _, _, _, _, rfl⟩ := haccess.frame
      rfl
    have hphase := haccess.phaseConsistent (.of_clear hclear)
    exact ⟨hsame.trans hheld, hphase.2.1 (hsame.trans hheld)⟩
  case write =>
    rintro s t ⟨hheld, hclear⟩ hwrite
    have hcontra (hfree : s.resetHeld = false) : False := Bool.false_ne_true (hfree.symm.trans hheld)
    cases hwrite with
    | ignored response =>
      refine ⟨hheld, ?_⟩
      rw [State.clearEngine_eq_iff] at hclear ⊢
      exact hclear
    | softReset hfree => exact (hcontra hfree).elim
    | launch hfree => exact (hcontra hfree).elim
    | enable hfree => exact (hcontra hfree).elim
    | clearDone hfree => exact (hcontra hfree).elim
    | operand hfree => exact (hcontra hfree).elim

end Reset

/-- A range that is clipped at the end of the address space has no byte that it did not have before. -/
theorem contains_clippedRange {a : Word} {n x : Nat} (h : (⟨a.toNat, n⟩ : ByteRange).contains x = false) :
    (clippedRange a n).contains x = false := by
  simp only [ByteRange.contains, clippedRange, Bool.and_eq_false_iff, decide_eq_false_iff_not] at h ⊢
  rcases h with h | h
  · exact .inl (decide_eq_false (by omega))
  · exact .inr (decide_eq_false (by omega))

@[simp] theorem contains_emptyRange (x : Nat) : emptyRange.contains x = false := by
  simp [emptyRange, ByteRange.contains]

theorem Latch.dest_of_decode {l : Latch} {i : Instr} (h : decode l.cmd = .ok i) : l.dest = destRange i l := by
  rw [Latch.dest, h]

theorem Latch.source_of_decode {l : Latch} {i : Instr} (h : decode l.cmd = .ok i) : l.source = sourceRange i l := by
  rw [Latch.source, h]

/-- What is outside the range is outside the part of it that is clipped. -/
theorem SameMemoryOutside.of_clipped {s t : State} {a : Word} {n : Nat} (h : SameMemoryOutside (clippedRange a n) s t) :
    SameMemoryOutside ⟨a.toNat, n⟩ s t :=
  fun x hx => h x (contains_clippedRange hx)

theorem SameMemoryOutside.of_empty {s t : State} (h : SameMemoryOutside emptyRange s t) : SameMemory s t :=
  fun x => h x (contains_emptyRange x)

section Launch

variable {s : State}

/-- What a launch finds in memory differs from before only in source bytes that the host has stored and not cleaned. -/
theorem State.exists_uncleaned_of_loseUncleaned {x : Nat} (h : s.loseUncleaned.mem.read x ≠ s.mem.read x) :
    ∃ b, (x, b) ∈ s.uncleanedSource := by
  by_contra hnone
  refine h (State.loseUncleaned_read_other s x fun p hp heq => hnone ⟨p.2, ?_⟩)
  rw [← heq]
  exact hp

theorem State.loseUncleaned_of_coherent (h : s.cfg.dmaCoherent = true) : s.loseUncleaned = s :=
  State.loseUncleaned_of_clean s (by rw [State.uncleanedSource, if_pos h])

/-- A command without a source finds memory as it is. -/
theorem State.loseUncleaned_of_no_source (h : s.operands.source = emptyRange) : s.loseUncleaned = s := by
  refine State.loseUncleaned_of_clean s (List.eq_nil_iff_forall_not_mem.2 fun p hp => ?_)
  obtain ⟨-, -, hsource⟩ := (State.mem_uncleanedSource s p).1 hp
  rw [h, contains_emptyRange] at hsource
  exact Bool.false_ne_true hsource

theorem sourceRange_of_no_dma {i : Instr} (h : usesDma i = false) (l : Latch) : sourceRange i l = emptyRange := by
  cases i <;> first | rfl | cases h

end Launch

end Sys2Proof.Machine
end

section
/-!
PROOF. The statements about single steps: the command's end, the launch, the register window, both resets.
-/

namespace Sys2Proof.Proofs.Steps

open Sys2Proof Sys2Proof.Machine

/-- Settles O6: the three forms of the engine's turn differ in the inputs left and in the response. -/
theorem stepRunsTheDecodedCommand : Obligations.StepRunsTheDecodedCommand := by
  intro s i hbusy hwait hdec hsteady
  have ends {u : State} (hu : u.busy = true) (hw : u.wait = 0) (hd : decode u.latch.cmd = .ok i)
      (hs : u.disturbed = false ∨ usesDma i = false) :
      u.engineStep = markStaleAfter (destRange i u.latch) (exec i u) :=
    (State.engineStep_of_wait_zero hu hw).trans (State.commandEnd_undisturbed hd hs)
  have hplain (hin : s.inputs = []) : step s = markStaleAfter (destRange i s.latch) (exec i s) :=
    (step_of_inputs_nil hin).trans (ends hbusy hwait hdec hsteady)
  refine ⟨hplain, fun hin hcoherent => ?_, fun rest hin => ?_, fun rest hin => ?_⟩
  · rw [hplain hin, markStaleAfter_exec_of_coherent hcoherent]
  · exact (step_of_inputs_engine hin).trans (ends (u := { s with inputs := rest }) hbusy hwait hdec hsteady)
  · rw [← hin]
    exact (step_of_inputs_waitIdle hin hbusy).trans
      (ends (u := { s with response := .word s.statusWord }) hbusy hwait hdec hsteady)

/-- Settles O7: by induction on the number of steps that the engine waits; an idle engine's turn is nothing. -/
theorem everyCommandEnds : Obligations.EveryCommandEnds := by
  refine ⟨fun n s hinputs hbusy hwait => ⟨run_waiting n hinputs hbusy hwait, ?_⟩, fun s hidle => ⟨?_, ?_, ?_⟩⟩
  · obtain ⟨t, hrun, hend⟩ := run_to_end n hinputs hbusy hwait
    exact ⟨t, hrun, hend.busy, hend.done, hend.endUnseen, hend.crcUnseen, hend.unseenDest⟩
  · intro hin
    rw [step_of_inputs_nil hin, State.engineStep_idle hidle]
  · intro rest hin
    rw [step_of_inputs_engine hin]
    exact State.engineStep_idle (s := { s with inputs := rest }) hidle
  · intro rest hin
    have hread := State.readRegister_status_idle (s := { s with inputs := rest }) hidle
    rw [step_of_inputs_cons hin, State.takeInput, State.waitStep, if_neg (by simp [hidle]), hread]
    rfl

/-- Settles O8: each input is taken, and each command ends. -/
theorem machineNeverStops : Obligations.MachineNeverStops := step_next

/-- Settles O14: the launch writes the phase and the latch; memory is what `State.loseUncleaned` leaves. -/
theorem launchLatchesTheOperands : Obligations.LaunchLatchesTheOperands := by
  intro s v rest hin hstart hsrst hidle hfree
  let u : State := { s with inputs := rest, response := .done, ie := v.getLsbD 2 }
  have hstep : step s = .next u.loseUncleaned.launch :=
    (step_writeCtrl hin hfree).trans (congrArg _ (State.writeCtrl_start hsrst hstart hidle))
  have hsame (h : u.loseUncleaned = u) : u.loseUncleaned.launch.mem = s.mem := by
    rw [State.launch_mem, h]
  have hchanged {x : Nat} (hx : u.loseUncleaned.launch.mem.read x ≠ s.mem.read x) :
      ∃ b, (x, b) ∈ u.uncleanedSource := by
    rw [State.launch_mem] at hx
    exact State.exists_uncleaned_of_loseUncleaned hx
  have hlatch : u.loseUncleaned.launch.latch
      = ⟨s.cmd, s.src, s.srclen, s.dst, s.dstlen, s.crc, s.btimeHi, s.btimeLo⟩ := by
    simp [u, State.operands]
  refine ⟨_, hstep, by simp, by simp, by simp, by simp [State.FlagsAre], hlatch, by simp [u], by simp [SameKeys, u],
    by simp [u], by simp [u], by simp [u], by simp [u], by simp [u], by simp [u], by simp [u], by simp [u],
    by simp [u], by simp [u], ?coherent, ?reserved, ?decoded, ?dirty⟩
  case coherent => exact fun hcoherent => hsame (State.loseUncleaned_of_coherent hcoherent)
  case reserved =>
    intro e hdec
    have hsource : u.operands.source = emptyRange := by
      have hcmd : decode u.operands.cmd = .error e := hdec
      rw [Latch.source, hcmd]
    exact hsame (State.loseUncleaned_of_no_source hsource)
  case decoded =>
    intro i hdec
    have hsource : u.operands.source = sourceRange i u.operands := Latch.source_of_decode hdec
    constructor
    · intro hdma
      exact hsame (State.loseUncleaned_of_no_source (hsource.trans (sourceRange_of_no_dma hdma _)))
    · intro x hx
      by_contra hne
      obtain ⟨b, hb⟩ := hchanged hne
      obtain ⟨-, -, hin'⟩ := (State.mem_uncleanedSource u (x, b)).1 hb
      rw [hsource] at hin'
      rw [hlatch] at hx
      exact Bool.false_ne_true (hx.symm.trans hin')
  case dirty =>
    intro x hx
    obtain ⟨b, hb⟩ := hchanged hx
    exact ⟨b, ((State.mem_uncleanedSource u (x, b)).1 hb).2.1⟩

/-- Settles O57: no register that is read is a key. -/
theorem roundKeysCannotBeReadBack : Obligations.RoundKeysCannotBeReadBack := by
  intro s rk offset width rest t t' hin hstep hstep'
  have hread (u : State) :
      State.readRegister { u with rk := rk } offset width = { u.readRegister offset width with rk := rk } := by
    have hspec : State.registerUnspecified { u with rk := rk } offset = u.registerUnspecified offset := rfl
    have hvalue : State.register { u with rk := rk } offset = u.register offset := rfl
    simp only [State.readRegister, hspec, hvalue]
    split_ifs <;> rfl
  rw [step_of_inputs_cons hin] at hstep
  rw [step_of_inputs_cons (s := { s with rk := rk }) hin] at hstep'
  cases hstep
  cases hstep'
  rw [hread { s with inputs := rest }]
  exact ⟨rfl, rfl⟩

end Sys2Proof.Proofs.Steps

namespace Sys2Proof.Proofs.Registers

open Sys2Proof Sys2Proof.Machine

/-- Settles O16: the value is specified at each offset that is no result's, and at those once the end is seen; a write
is that of its own register, which is what the read after it finds. -/
theorem registersReadBack : Obligations.RegistersReadBack := by
  intro s rest hidle
  refine ⟨?reads, fun hfree v => ?writes, fun hfree offset v hin => ?readBack⟩
  case reads =>
    have plain {offset : BitVec 8} (halign : offset.toNat % 4 = 0) (hresult : resultOffset offset = false)
        (hcrc : offset.toNat ≠ 0x24) (hstatus : offset.toNat ≠ 0x08)
        (hin : s.inputs = .readReg offset .word :: rest) :
        step s = .next { s with inputs := rest, response := .word (s.register offset) } :=
      step_readReg_specified hin halign (State.registerUnspecified_other s hresult hcrc) hstatus
    refine ⟨plain (by decide) (by decide) (by decide) (by decide), plain (by decide) (by decide) (by decide) (by decide),
      plain (by decide) (by decide) (by decide) (by decide), plain (by decide) (by decide) (by decide) (by decide),
      plain (by decide) (by decide) (by decide) (by decide), plain (by decide) (by decide) (by decide) (by decide),
      plain (by decide) (by decide) (by decide) (by decide), plain (by decide) (by decide) (by decide) (by decide),
      fun hseen hin => ?_, fun hseen => ?_⟩
    · refine step_readReg_specified hin (by decide) ?_ (by decide)
      rw [registerUnspecified_crc, hidle, hseen, Bool.or_false]
    · have result {offset : BitVec 8} (hoffset : offset.toNat ∈ [0x20, 0x30, 0x34, 0x38, 0x3C])
          (hstatus : offset.toNat ≠ 0x08) (hin : s.inputs = .readReg offset .word :: rest) :
          step s = .next { s with inputs := rest, response := .word (s.register offset) } := by
        refine step_readReg_specified hin (mul_four_of_result hoffset) ?_ hstatus
        rw [registerUnspecified_result hoffset, hidle, hseen, Bool.or_false]
      exact ⟨result (by decide) (by decide), result (by decide) (by decide), result (by decide) (by decide),
        result (by decide) (by decide), result (by decide) (by decide)⟩
  case writes =>
    intro u writes
    have operand {offset : BitVec 8} (halign : offset.toNat % 4 = 0) (hctrl : offset.toNat ≠ 0x04)
        (hstatus : offset.toNat ≠ 0x08) : writes offset (u.writeOperand offset v) :=
      fun hin => step_writeOperand hin hfree halign hctrl hstatus
    have hbranch (offset : BitVec 8) : ¬ u.busy = true := by simp [u, hidle]
    have plain {offset : BitVec 8} {t : State} (halign : offset.toNat % 4 = 0) (hctrl : offset.toNat ≠ 0x04)
        (hstatus : offset.toNat ≠ 0x08) (ht : u.writeOperand offset v = t) : writes offset t :=
      ht ▸ operand halign hctrl hstatus
    refine ⟨plain (by decide) (by decide) (by decide) (if_neg (hbranch 0x0C#8)),
      plain (by decide) (by decide) (by decide) (if_neg (hbranch 0x10#8)),
      plain (by decide) (by decide) (by decide) (if_neg (hbranch 0x14#8)),
      plain (by decide) (by decide) (by decide) (if_neg (hbranch 0x18#8)),
      plain (by decide) (by decide) (by decide) (if_neg (hbranch 0x1C#8)),
      plain (by decide) (by decide) (by decide) (if_neg (hbranch 0x24#8)),
      plain (by decide) (by decide) (by decide) (if_neg (hbranch 0x28#8)),
      plain (by decide) (by decide) (by decide) (if_neg (hbranch 0x2C#8)), ?_, ?_⟩
    · intro offset hoffset hin
      have hreadonly : offset.toNat ∉ writableOffsets := by
        simp only [writableOffsets, List.mem_cons, List.not_mem_nil, or_false] at hoffset ⊢
        omega
      have hok : registerAccessOK offset .word = true := registerAccessOK_iff.2 ⟨rfl, mul_four_of_result hoffset⟩
      rw [step_of_inputs_cons hin, State.takeInput_writeReg, State.writeRegister_ignored _ hok hreadonly]
    · intro hstart hsrst hin
      exact (step_writeCtrl hin hfree).trans (congrArg _ (State.writeCtrl_ie hsrst hstart))
  case readBack =>
    let u : State := { s with inputs := .readReg offset .word :: rest, response := .done }
    have back (halign : offset.toNat % 4 = 0) (hctrl : offset.toNat ≠ 0x04) (hstatus : offset.toNat ≠ 0x08)
        (hspec : (u.writeOperand offset v).registerUnspecified offset = false)
        (hinputs : (u.writeOperand offset v).inputs = .readReg offset .word :: rest) :
        Host.Core.run Sys2Proof.core 2 s = .next { u.writeOperand offset v with
          inputs := rest, response := .word ((u.writeOperand offset v).register offset) } :=
      run_two (step_writeOperand hin hfree halign hctrl hstatus) (step_readReg_specified hinputs halign hspec hstatus)
    constructor
    · intro hoffset
      obtain ⟨hvalue, hspec, hinputs⟩ := writeOperand_reads_back (v := v) (s := u) hidle hoffset
      have hsmall : offset.toNat % 4 = 0 ∧ offset.toNat ≠ 0x04 ∧ offset.toNat ≠ 0x08 := by
        simp only [List.mem_cons, List.not_mem_nil, or_false] at hoffset
        omega
      obtain ⟨halign, hctrl, hstatus⟩ := hsmall
      exact ⟨_, back halign hctrl hstatus hspec hinputs, congrArg BusResponse.word hvalue, rfl⟩
    · rintro rfl
      have hwrite : u.writeOperand 0x0C#8 v = { u with cmd := v &&& cmdMask } := if_neg (by simp [u, hidle])
      have hspec : State.registerUnspecified { u with cmd := v &&& cmdMask } 0x0C#8 = false :=
        State.registerUnspecified_other _ (by decide) (by decide)
      have hrun := back (by decide) (by decide) (by decide) (by rw [hwrite]; exact hspec) (by rw [hwrite])
      rw [hwrite] at hrun
      exact ⟨_, hrun, rfl, rfl, rfl⟩

/-- Settles O19: the word is the fields at their bits; the read with `BUSY = 0` sees the end; the write clears `DONE`
where its bit 1 is set. -/
theorem statusRegisterFields : Obligations.StatusRegisterFields := by
  refine ⟨by decide, fun s rest => ⟨fun hin => ⟨s.statusWord, step_readStatus hin, ?_⟩, fun v hheld hin => ?_⟩⟩
  · have bit {i : Nat} {b : Bool} (hi : i < 32) (hb : ((s.busy && decide (i = 0)) || (s.done && decide (i = 1))
        || (s.keyv && decide (i = 2)) || (s.crcok && decide (i = 3)) || (s.cntok && decide (i = 4))
        || (s.s24ovf && decide (i = 5)) || (decide (8 ≤ i) && s.errcode.toByte.getLsbD (i - 8))) = b) :
        s.statusWord.getLsbD i = b := (s.getLsbD_statusWord hi).trans hb
    refine ⟨bit (by decide) (by simp), bit (by decide) (by simp), bit (by decide) (by simp), bit (by decide) (by simp),
      bit (by decide) (by simp), bit (by decide) (by simp), s.extractLsb'_statusWord_low, ?_,
      s.extractLsb'_statusWord_high⟩
    rw [s.extractLsb'_statusWord_errcode]
    cases s.errcode <;> rfl
  · cases hreset : s.resetHeld with
    | true =>
      have hdone : s.done = false := by rw [← hheld hreset, State.clearEngine_done]
      have hok : registerAccessOK 0x08#8 .word = true := by decide
      rw [step_of_inputs_cons hin, State.takeInput_writeReg, State.writeRegister, hok]
      simp only [Bool.not_true, Bool.false_eq_true, if_false, hreset, if_true, hdone, Bool.false_and]
    | false =>
      rw [step_writeStatus hin hreset, State.writeStatus]
      cases v.getLsbD 1 <;> simp [hreset]

/-- Settles O20: while a command runs, and until its end is seen, exactly the results and `CRC` have no specified
value. -/
theorem readsWhileBusy : Obligations.ReadsWhileBusy := by
  intro s rest reads readsSome
  have some {offset : BitVec 8} (halign : offset.toNat % 4 = 0) (hspec : s.registerUnspecified offset = true) :
      readsSome offset := fun hin => ⟨_, step_readReg_unspecified hin halign hspec⟩
  refine ⟨fun hbusy hphase => ⟨?status, fun offset hoffset => ?results, ?others⟩, fun hidle hunseen offset hoffset => ?_,
    fun hidle hunseen => ?_⟩
  case status =>
    intro hin
    rw [step_readStatus hin, ← State.statusWord_busy hbusy hphase]
    exact congrArg Host.Outcome.next (if_pos hbusy)
  case results =>
    by_cases hcrc : offset.toNat = 0x24
    · obtain rfl : offset = 0x24#8 := BitVec.eq_of_toNat_eq hcrc
      exact some (by decide) (by rw [registerUnspecified_crc, hbusy, Bool.true_or])
    · have hresult : offset.toNat ∈ [0x20, 0x30, 0x34, 0x38, 0x3C] := by
        simp only [List.mem_cons, List.not_mem_nil, or_false] at hoffset ⊢
        omega
      exact some (mul_four_of_result hresult) (by rw [registerUnspecified_result hresult, hbusy, Bool.true_or])
  case others =>
    have plain {offset : BitVec 8} (halign : offset.toNat % 4 = 0) (hresult : resultOffset offset = false)
        (hcrc : offset.toNat ≠ 0x24) (hstatus : offset.toNat ≠ 0x08) : reads offset (s.register offset) :=
      fun hin => step_readReg_specified hin halign (State.registerUnspecified_other s hresult hcrc) hstatus
    exact ⟨plain (by decide) (by decide) (by decide) (by decide), plain (by decide) (by decide) (by decide) (by decide),
      plain (by decide) (by decide) (by decide) (by decide), plain (by decide) (by decide) (by decide) (by decide),
      plain (by decide) (by decide) (by decide) (by decide), plain (by decide) (by decide) (by decide) (by decide),
      plain (by decide) (by decide) (by decide) (by decide), plain (by decide) (by decide) (by decide) (by decide)⟩
  · exact some (mul_four_of_result hoffset) (by rw [registerUnspecified_result hoffset, hunseen, Bool.or_true])
  · exact some (by decide) (by rw [registerUnspecified_crc, hunseen, Bool.or_true])

/-- Settles O22: both resets lead to the reset state, whose fields have the values of rule R46; while the reset input
is held, every input but its release keeps that state. -/
theorem hardwareResetValues : Obligations.HardwareResetValues := by
  refine ⟨fun s rest v hreset => ?values, fun s rest hheld hphase => ⟨?writes, ?release, fun t hstep => ?steps⟩⟩
  case values =>
    obtain ⟨t, hstep, hclear, hkept, hmem, hdest⟩ : ∃ t, step s = .next t ∧ t.clearEngine = t ∧
        (s.inputs = .resetAssert :: rest → t.resetHeld = true) ∧ (s.busy = false → t.mem = s.mem)
        ∧ SameMemoryOutside s.latch.dest s t := by
      rcases hreset with hin | ⟨hin, hsrst, hheld⟩
      · obtain ⟨t, hstep, hclear, hkept, hmem⟩ := step_assertReset hin
        exact ⟨t, hstep, hclear, fun _ => hkept, hmem⟩
      · obtain ⟨t, hstep, hclear, -, hmem⟩ := step_softReset hin hsrst hheld
        refine ⟨t, hstep, hclear, fun hin' => ?_, hmem⟩
        cases hin.symm.trans hin'
    obtain ⟨hctrl, hstatus, hcmd, hsrc, hsrclen, hdst, hdstlen, hresults, herraddr, hcrc, hlo, hhi⟩ :=
      registers_of_clear hclear
    obtain ⟨-, hbusy, hirq, hrk, -, hend, hcrcEnd⟩ := engine_of_clear hclear
    exact ⟨t, hstep, hctrl, hstatus, hcmd, hsrc, hsrclen, hdst, hdstlen, hresults, herraddr, hcrc, hlo, hhi,
      fun k b hb => RoundKeys.mem_zero_toList (hrk ▸ hb), hbusy, hirq, rfl, hmem, hdest, hkept, hend, hcrcEnd⟩
  case writes =>
    intro offset width v hin
    obtain ⟨r, hwrite⟩ := State.writeRegister_held { s with inputs := rest } hheld offset width v
    exact ⟨r, by rw [step_of_inputs_cons hin, State.takeInput_writeReg, hwrite]⟩
  case release =>
    intro hin
    rw [step_of_inputs_cons hin]
    rfl
  case steps =>
    have hclear := hphase.2.1 hheld
    rcases heldClear_kept.step_or_release ⟨hheld, hclear⟩ hstep with ⟨hheld', hclear'⟩ | ⟨later, hin, rfl⟩
    · refine ⟨hclear', (engine_of_clear hclear').2.2.1, fun hfree => ?_⟩
      exact absurd (hfree.symm.trans hheld') Bool.false_ne_true
    · have hclear' : (State.releaseReset { s with inputs := later }).clearEngine
          = State.releaseReset { s with inputs := later } := by
        rw [State.clearEngine_eq_iff] at hclear ⊢
        exact hclear
      exact ⟨hclear', (engine_of_clear hclear').2.2.1, fun _ => ⟨later, hin⟩⟩

/-- Settles O23: the abort reaches the latched command's destination range, which rule R272 gives by the command. -/
theorem softResetAbortsTheCommand : Obligations.SoftResetAbortsTheCommand := by
  intro s v rest hin hsrst hheld
  obtain ⟨t, hstep, hclear, hinputs, hmem, hdest⟩ := step_softReset hin hsrst hheld
  obtain ⟨-, hstatus, hcmd, hsrc, hsrclen, hdst, hdstlen, hresults, herraddr, hcrc, hlo, hhi⟩ :=
    registers_of_clear hclear
  obtain ⟨hie, -, hirq, hrk, hlatch, -, -⟩ := engine_of_clear hclear
  refine ⟨t, hstep, hie, hstatus, hcmd, hsrc, hsrclen, hdst, hdstlen, hresults, herraddr, hcrc, hlo, hhi, hrk, hlatch,
    hirq, hinputs, fun hidle x => by rw [hmem hidle], fun i _ hdec => ?_⟩
  rw [Latch.dest_of_decode hdec] at hdest
  refine ⟨?_, ?_, ?_⟩
  · rintro (rfl | rfl) <;> exact hdest.of_clipped
  · rintro c d (rfl | rfl) <;> exact hdest.of_clipped
  · rintro (rfl | rfl | rfl | rfl | rfl) <;> exact hdest.of_empty

end Sys2Proof.Proofs.Registers
end

section
/-!
PROOF. `InvCipher` undoes `Cipher` and the other way round (rule R130): the steps of a round are bijections, `MixColumns`
because its circulant matrix has an inverse over GF(2^8).
-/

namespace Sys2Proof.Machine

theorem xor_gmulBits (n : Nat) : ∀ a b c, gmulBits n (a ^^^ b) c = gmulBits n a c ^^^ gmulBits n b c := by
  induction n with
  | zero => intro a b c; simp [gmulBits]
  | succ n ih =>
    intro a b c
    simp only [gmulBits, xtime_xor, ih]
    split
    · ac_rfl
    · simp

theorem xor_gmul (a b c : Byte) : gmul (a ^^^ b) c = gmul a c ^^^ gmul b c := xor_gmulBits 8 a b c

/-- The product of a column with the circulant matrix whose first row is `p q r s`. -/
def circulant (p q r s : Byte) (c : Col) : Col where
  b0 := gmul p c.b0 ^^^ gmul q c.b1 ^^^ gmul r c.b2 ^^^ gmul s c.b3
  b1 := gmul s c.b0 ^^^ gmul p c.b1 ^^^ gmul q c.b2 ^^^ gmul r c.b3
  b2 := gmul r c.b0 ^^^ gmul s c.b1 ^^^ gmul p c.b2 ^^^ gmul q c.b3
  b3 := gmul q c.b0 ^^^ gmul r c.b1 ^^^ gmul s c.b2 ^^^ gmul p c.b3

theorem mixColumn_eq_circulant (c : Col) : mixColumn c = circulant 2#8 3#8 1#8 1#8 c := by
  simp only [mixColumn, circulant, one_gmul]

theorem invMixColumn_eq_circulant (c : Col) : invMixColumn c = circulant 14#8 11#8 13#8 9#8 c := rfl

theorem circulant_one (c : Col) : circulant 1#8 0#8 0#8 0#8 c = c := by
  simp [circulant, one_gmul]

/-- Circulant matrices multiply to a circulant matrix. -/
theorem circulant_circulant (p q r s p' q' r' s' : Byte) (c : Col) :
    circulant p q r s (circulant p' q' r' s' c)
      = circulant (gmul p p' ^^^ gmul q s' ^^^ gmul r r' ^^^ gmul s q')
          (gmul p q' ^^^ gmul q p' ^^^ gmul r s' ^^^ gmul s r')
          (gmul p r' ^^^ gmul q q' ^^^ gmul r p' ^^^ gmul s s')
          (gmul p s' ^^^ gmul q r' ^^^ gmul r q' ^^^ gmul s p') c := by
  simp only [circulant, gmul_xor, xor_gmul, gmul_assoc, Col.mk.injEq]
  refine ⟨?_, ?_, ?_, ?_⟩ <;> ac_rfl

theorem invMixColumn_mixColumn (c : Col) : invMixColumn (mixColumn c) = c := by
  rw [mixColumn_eq_circulant, invMixColumn_eq_circulant, circulant_circulant]
  exact circulant_one c

theorem mixColumn_invMixColumn (c : Col) : mixColumn (invMixColumn c) = c := by
  rw [mixColumn_eq_circulant, invMixColumn_eq_circulant, circulant_circulant]
  exact circulant_one c

theorem sbox_invSbox : ∀ b, sbox (invSbox b) = b := by decide

theorem Col.map_map_eq_self {f g : Byte → Byte} (h : ∀ b, f (g b) = b) (c : Col) : (c.map g).map f = c := by
  simp [Col.map, h]

theorem Block.mapCols_mapCols_eq_self {f g : Col → Col} (h : ∀ c, f (g c) = c) (b : Block) :
    (b.mapCols g).mapCols f = b := by
  simp [Block.mapCols, h]

theorem invMixColumns_mixColumns (b : Block) : invMixColumns (mixColumns b) = b :=
  Block.mapCols_mapCols_eq_self invMixColumn_mixColumn b

theorem mixColumns_invMixColumns (b : Block) : mixColumns (invMixColumns b) = b :=
  Block.mapCols_mapCols_eq_self mixColumn_invMixColumn b

theorem invSubBytes_subBytes (b : Block) : invSubBytes (subBytes b) = b :=
  Block.mapCols_mapCols_eq_self (Col.map_map_eq_self invSbox_sbox) b

theorem subBytes_invSubBytes (b : Block) : subBytes (invSubBytes b) = b :=
  Block.mapCols_mapCols_eq_self (Col.map_map_eq_self sbox_invSbox) b

theorem invShiftRows_shiftRows (b : Block) : invShiftRows (shiftRows b) = b := rfl

theorem shiftRows_invShiftRows (b : Block) : shiftRows (invShiftRows b) = b := rfl

theorem addRoundKey_addRoundKey (k b : Block) : addRoundKey k (addRoundKey k b) = b := by
  simp [addRoundKey, Col.xor]

/-- A round of `InvCipher` undoes the round of `Cipher` with its key, between a block and the next that SubBytes and
ShiftRows have been applied to. -/
theorem invCipherRound_cipherRound (k b : Block) :
    invCipherRound k (shiftRows (subBytes (cipherRound k b))) = shiftRows (subBytes b) := by
  rw [invCipherRound, invShiftRows_shiftRows, invSubBytes_subBytes, cipherRound, addRoundKey_addRoundKey,
    invMixColumns_mixColumns]

theorem cipherRound_invCipherRound (k b : Block) :
    cipherRound k (invSubBytes (invShiftRows (invCipherRound k b))) = invSubBytes (invShiftRows b) := by
  rw [cipherRound, subBytes_invSubBytes, shiftRows_invShiftRows, invCipherRound, mixColumns_invMixColumns,
    addRoundKey_addRoundKey]

theorem invCipher_cipher (rk : RoundKeys) (p : Block) : invCipher rk (cipher rk p) = p := by
  simp only [cipher, invCipher, List.foldl, addRoundKey_addRoundKey, invCipherRound_cipherRound,
    invShiftRows_shiftRows, invSubBytes_subBytes]

theorem cipher_invCipher (rk : RoundKeys) (p : Block) : cipher rk (invCipher rk p) = p := by
  simp only [cipher, invCipher, List.foldl, addRoundKey_addRoundKey, cipherRound_invCipherRound,
    shiftRows_invShiftRows, subBytes_invSubBytes]

/-- A block function that undoes another, segment by segment. -/
theorem ecb_ecb {f g : Block → Block} (h : ∀ b, g (f b) = b) (k : Nat) :
    ∀ {bytes : List Byte}, bytes.length = 16 * k → ecb g (ecb f bytes) = bytes := by
  induction k with
  | zero =>
    intro bytes hlength
    rw [List.eq_nil_of_length_eq_zero hlength]
    rfl
  | succ k ih =>
    intro bytes hlength
    have hdrop : (bytes.drop 16).length = 16 * k := by rw [List.length_drop]; omega
    have hfirst : (Block.ofList (bytes.take 16)).toList = bytes.take 16 := by
      have htake : (bytes.take 16).length = 16 := by rw [List.length_take]; omega
      rw [Block.toList_ofList htake.le, htake]
      simp
    conv_lhs => rw [← List.take_append_drop 16 bytes, ← hfirst]
    rw [ecb_toList_append, ecb_toList_append, h, ih hdrop, hfirst, List.take_append_drop]

end Sys2Proof.Machine
end

section
/-!
PROOF. The ends of `AES_ENC` and `AES_DEC` (rules R134, R135, R245).
-/

namespace Sys2Proof.Machine

section SegmentEnds

variable {s : State} {f : Block → Block}

/-- The state with a byte string stored. -/
def State.withBytes (s : State) (d : Nat) (bytes : List Byte) : State := { s with mem := s.mem.writeBytes d bytes }

/-- The checks of rule R134 pass. -/
def State.SegmentsShape (s : State) : Prop :=
  s.keyv = true ∧ s.latch.srclen.toNat % 16 = 0 ∧ s.latch.src.toNat + s.latch.srclen.toNat ≤ 2 ^ 32
    ∧ s.latch.srclen.toNat ≤ s.latch.dstlen.toNat ∧ s.latch.dst.toNat + s.latch.srclen.toNat ≤ 2 ^ 32
    ∧ InPlaceOrApart s.latch.src.toNat s.latch.dst.toNat s.latch.srclen.toNat

theorem segmentCommand_of_allDmaOK (hshape : s.SegmentsShape)
    (hread : AllDmaOK s.cfg .read s.latch.src.toNat s.latch.srclen.toNat)
    (hwrite : AllDmaOK s.cfg .write s.latch.dst.toNat s.latch.srclen.toNat) :
    segmentCommand f s
      = (s.withBytes s.latch.dst.toNat (ecb f (s.mem.readBytes s.latch.src.toNat s.latch.srclen.toNat))).complete
          { reslen := s.latch.srclen } := by
  have hsize : 16 * (s.latch.srclen.toNat / 16) = s.latch.srclen.toNat := by
    obtain ⟨-, hmul, -⟩ := hshape
    omega
  obtain ⟨m, j, failing, hend, hcommand⟩ := segmentCommand_end (f := f) (segmentCheck_eq_none_iff.2 hshape)
  rw [hcommand]
  cases hend with
  | complete _ _ => rw [hsize]; rfl
  | readFails j e hj _ _ hbad =>
    obtain ⟨hlow, hhigh, -, -⟩ := id hbad
    exact absurd hread (hbad.not_allDmaOK (by omega) (by omega))
  | writeFails j e hj _ _ hbad =>
    obtain ⟨hlow, hhigh, -, -⟩ := id hbad
    exact absurd hwrite (hbad.not_allDmaOK (by omega) (by omega))

theorem segmentCommand_of_readFails (hshape : s.SegmentsShape) {j e : Nat} (hj : 16 * j < s.latch.srclen.toNat)
    (hread : AllDmaOK s.cfg .read s.latch.src.toNat (16 * j))
    (hwrite : AllDmaOK s.cfg .write s.latch.dst.toNat (16 * j))
    (hbad : FirstBad s.cfg .read (s.latch.src.toNat + 16 * j) 16 e) :
    segmentCommand f s
      = (s.withBytes s.latch.dst.toNat (ecb f (s.mem.readBytes s.latch.src.toNat (16 * j)))).raiseError .bus e
          (16 * j) := by
  obtain ⟨m, i, failing, hend, hcommand⟩ := segmentCommand_end (f := f) (segmentCheck_eq_none_iff.2 hshape)
  obtain ⟨hlow, hhigh, -, -⟩ := id hbad
  obtain ⟨-, hmul, -⟩ := hshape
  rw [hcommand]
  cases hend with
  | complete hread' _ => exact absurd hread' (hbad.not_allDmaOK (by omega) (by omega))
  | readFails i e' hi hread' hwrite' hbad' =>
    obtain ⟨hlow', hhigh', -, -⟩ := id hbad'
    have hji : i = j := by
      rcases Nat.lt_trichotomy i j with hlt | heq | hgt
      · exact absurd hread (hbad'.not_allDmaOK (by omega) (by omega))
      · exact heq
      · exact absurd hread' (hbad.not_allDmaOK (by omega) (by omega))
    subst hji
    cases hbad.unique hbad'
    rfl
  | writeFails i e' hi hread' hwrite' hbad' =>
    obtain ⟨hlow', hhigh', -, -⟩ := id hbad'
    rcases Nat.lt_or_ge i j with hlt | hge
    · exact absurd hwrite (hbad'.not_allDmaOK (by omega) (by omega))
    · exact absurd hread' (hbad.not_allDmaOK (by omega) (by omega))

theorem segmentCommand_of_writeFails (hshape : s.SegmentsShape) {j e : Nat} (hj : 16 * j < s.latch.srclen.toNat)
    (hread : AllDmaOK s.cfg .read s.latch.src.toNat (16 * (j + 1)))
    (hwrite : AllDmaOK s.cfg .write s.latch.dst.toNat (16 * j))
    (hbad : FirstBad s.cfg .write (s.latch.dst.toNat + 16 * j) 16 e) :
    segmentCommand f s
      = (s.withBytes s.latch.dst.toNat ((ecb f (s.mem.readBytes s.latch.src.toNat (16 * (j + 1)))).take
          (e - s.latch.dst.toNat))).raiseError .bus e (16 * j) := by
  obtain ⟨m, i, failing, hend, hcommand⟩ := segmentCommand_end (f := f) (segmentCheck_eq_none_iff.2 hshape)
  obtain ⟨hlow, hhigh, -, -⟩ := id hbad
  obtain ⟨-, hmul, -⟩ := hshape
  rw [hcommand]
  cases hend with
  | complete _ hwrite' => exact absurd hwrite' (hbad.not_allDmaOK (by omega) (by omega))
  | readFails i e' hi hread' hwrite' hbad' =>
    obtain ⟨hlow', hhigh', -, -⟩ := id hbad'
    rcases Nat.lt_or_ge j i with hlt | hge
    · exact absurd hwrite' (hbad.not_allDmaOK (by omega) (by omega))
    · exact absurd hread (hbad'.not_allDmaOK (by omega) (by omega))
  | writeFails i e' hi hread' hwrite' hbad' =>
    obtain ⟨hlow', hhigh', -, -⟩ := id hbad'
    have hji : i = j := by
      rcases Nat.lt_trichotomy i j with hlt | heq | hgt
      · exact absurd hwrite (hbad'.not_allDmaOK (by omega) (by omega))
      · exact heq
      · exact absurd hwrite' (hbad.not_allDmaOK (by omega) (by omega))
    subst hji
    cases hbad.unique hbad'
    rfl

/-- What a command leaves that stores a byte string and then ends. -/
theorem State.finish_stored (hwf : s.mem.wf = true) (d : Nat) {bytes : List Byte} {n : Nat} (hn : bytes.length = n)
    (out : Outputs) (code : ErrCode) (addr : Word) :
    ((s.withBytes d bytes).finish out code addr).mem.readBytes d n = bytes
      ∧ SameMemoryOutside ⟨d, n⟩ s ((s.withBytes d bytes).finish out code addr)
      ∧ SameKeys s ((s.withBytes d bytes).finish out code addr)
      ∧ ((s.withBytes d bytes).finish out code addr).crc = s.crc
      ∧ SameRest s ((s.withBytes d bytes).finish out code addr) := by
  subst hn
  refine ⟨Memory.readBytes_writeBytes _ ((Memory.wf_iff _).1 hwf).1 _ _, ?_, ⟨rfl, rfl⟩, rfl, State.finish_sameRest _ _ _ _⟩
  intro x hx
  refine Memory.read_writeBytes_other _ _ _ _ fun hin => ?_
  simp [ByteRange.contains, hin] at hx

end SegmentEnds

theorem length_ecb_readBytes_of_mod (f : Block → Block) (m : Memory) (a : Nat) {n : Nat} (h : n % 16 = 0) :
    (ecb f (m.readBytes a n)).length = n := by
  obtain ⟨k, rfl⟩ := Nat.dvd_of_mod_eq_zero h
  exact length_ecb_readBytes f m a k

/-- Memories that give the same byte string for a range give the same byte at each place in it. -/
theorem Memory.read_eq_of_readBytes_eq {m m' : Memory} {a n x : Nat} (h : m'.readBytes a n = m.readBytes a n)
    (hlow : a ≤ x) (hhigh : x < a + n) : m'.read x = m.read x := by
  have hget (m : Memory) : (m.readBytes a n)[x - a]? = some (m.read x) := by
    have hlt : x - a < (m.readBytes a n).length := by rw [Memory.length_readBytes]; omega
    rw [List.getElem?_eq_getElem hlt, Memory.getElem_readBytes, Nat.add_sub_cancel' hlow]
  exact Option.some.inj ((hget m').symm.trans ((congrArg (·[x - a]?) h).trans (hget m)))

/-- The block function of `AES_ENC` or of `AES_DEC` under a key store. -/
def IsSegmentFunction (rk : RoundKeys) (i : Instr) (f : Block → Block) : Prop :=
  (i = .aesEnc ∧ f = cipher rk) ∨ (i = .aesDec ∧ f = invCipher rk)

theorem exec_of_isSegmentFunction {s : State} {i : Instr} {f : Block → Block} (h : IsSegmentFunction s.rk i f) :
    exec i s = .next (segmentCommand f s) := by
  rcases h with ⟨rfl, rfl⟩ | ⟨rfl, rfl⟩ <;> rfl

/-- The successful end of rules R134 and R135. -/
theorem exec_stores_segments {s : State} {i : Instr} {f : Block → Block} (hf : IsSegmentFunction s.rk i f)
    (hwf : s.mem.wf = true) (hshape : s.SegmentsShape)
    (hread : AllDmaOK s.cfg .read s.latch.src.toNat s.latch.srclen.toNat)
    (hwrite : AllDmaOK s.cfg .write s.latch.dst.toNat s.latch.srclen.toNat) :
    ∃ t, exec i s = .next t
      ∧ t.mem.readBytes s.latch.dst.toNat s.latch.srclen.toNat
          = ecb f (s.mem.readBytes s.latch.src.toNat s.latch.srclen.toNat)
      ∧ SameMemoryOutside ⟨s.latch.dst.toNat, s.latch.srclen.toNat⟩ s t ∧ t.EndedWith .ok 0#32
      ∧ t.ResultsAre s.latch.srclen 0#32 0#32 0#32 ∧ t.FlagsAre false false false ∧ SameKeys s t ∧ t.crc = s.crc
      ∧ SameRest s t := by
  obtain ⟨-, hmul, -⟩ := id hshape
  have hlength := length_ecb_readBytes_of_mod f s.mem s.latch.src.toNat hmul
  obtain ⟨hstored, houtside, hkeys, hcrc, hrest⟩ :=
    State.finish_stored hwf s.latch.dst.toNat hlength { reslen := s.latch.srclen } .ok 0#32
  exact ⟨_, (exec_of_isSegmentFunction hf).trans (congrArg _ (segmentCommand_of_allDmaOK hshape hread hwrite)),
    hstored, houtside, ⟨rfl, rfl, rfl, rfl⟩, ⟨rfl, rfl, rfl, rfl⟩, ⟨rfl, rfl, rfl⟩, hkeys, hcrc, hrest⟩

end Sys2Proof.Machine

namespace Sys2Proof.Proofs.Cipher

open Sys2Proof Sys2Proof.Machine

/-- Settles O31: each round undoes a round. -/
theorem invCipherUndoesCipher : Obligations.InvCipherUndoesCipher :=
  fun rk p => ⟨invCipher_cipher rk p, cipher_invCipher rk p⟩

/-- An empty range is in place or apart from any other. -/
theorem inPlaceOrApart_of_empty_or {a d n : Nat} (h : n = 0 ∨ a = d ∨ a + n ≤ d ∨ d + n ≤ a) :
    InPlaceOrApart a d n := by
  unfold InPlaceOrApart
  omega

/-- Settles O35: the loop runs to its end, for no byte fails. -/
theorem aesEncStoresTheEncryptedSegments : Obligations.AesEncStoresTheEncryptedSegments := by
  intro s a n d hwf hkey hmul hsrc hroom hdst hplace hread hwrite
  exact exec_stores_segments (.inl ⟨rfl, rfl⟩) hwf
    ⟨hkey, hmul, hsrc, hroom, hdst, inPlaceOrApart_of_empty_or hplace⟩ hread hwrite

/-- Settles O36: as for `AES_ENC`. -/
theorem aesDecStoresTheDecryptedSegments : Obligations.AesDecStoresTheDecryptedSegments := by
  intro s a n d hwf hkey hmul hsrc hroom hdst hplace hread hwrite
  exact exec_stores_segments (.inr ⟨rfl, rfl⟩) hwf
    ⟨hkey, hmul, hsrc, hroom, hdst, inPlaceOrApart_of_empty_or hplace⟩ hread hwrite

/-- Settles O37: the first check that fails gives the code, and the command ends there. -/
theorem aesStaticErrorsInOrder : Obligations.AesStaticErrorsInOrder := by
  intro s i code hi hfails
  have hcheck : segmentCheck s = some code := by
    rcases hfails with ⟨hkey, rfl⟩ | ⟨hkey, hmul, rfl⟩ | ⟨hkey, hmul, hsrc, rfl⟩ | ⟨hkey, hmul, hsrc, hroom, rfl⟩
      | ⟨hkey, hmul, hsrc, hroom, hdst, rfl⟩ | ⟨hkey, hmul, hsrc, hroom, hdst, hne, hlow, hhigh, rfl⟩
    · simp [segmentCheck, hkey]
    · simp [segmentCheck, hkey, hmul]
    · simp [segmentCheck, hkey, hmul, (rangeOK_eq_false_iff _ _).2 hsrc]
    · simp [segmentCheck, hkey, hmul, (rangeOK_iff _ _).2 hsrc, hroom]
    · simp [segmentCheck, hkey, hmul, (rangeOK_iff _ _).2 hsrc, hroom.not_gt, (rangeOK_eq_false_iff _ _).2 hdst]
    · have hover := (overlap_iff s.latch.src.toNat s.latch.srclen.toNat s.latch.dst.toNat
        s.latch.srclen.toNat).2 ⟨by omega, by omega, hlow, hhigh⟩
      simp [segmentCheck, hkey, hmul, (rangeOK_iff _ _).2 hsrc, hroom.not_gt, (rangeOK_iff _ _).2 hdst, hne, hover]
  have hcode : code ≠ .bus := by
    have hmem := segmentCheck_mem hcheck
    rintro rfl
    exact absurd hmem (by decide)
  have hexec : ∃ f, exec i s = .next (segmentCommand f s) := by
    rcases hi with rfl | rfl
    · exact ⟨_, rfl⟩
    · exact ⟨_, rfl⟩
  obtain ⟨f, hexec⟩ := hexec
  rw [hexec, segmentCommand_of_check hcheck]
  refine ⟨_, rfl, ⟨rfl, rfl, rfl, ?_⟩, ⟨rfl, rfl, rfl, rfl⟩, ⟨rfl, rfl, rfl⟩, State.finish_sameMemory s _ _ _,
    State.finish_sameKeys s _ _ _, rfl, State.finish_sameRest s _ _ _⟩
  rw [State.raiseError_erraddr, if_neg hcode]

/-- Settles O38: the loop ends at the segment whose access fails first. -/
theorem aesBusErrorKeepsDoneSegments : Obligations.AesBusErrorKeepsDoneSegments := by
  intro s i f j e hf a n d hwf hkey hmul hsrc hroom hdst hplace hj hread hwrite
  have hshape : s.SegmentsShape := ⟨hkey, hmul, hsrc, hroom, hdst, hplace⟩
  have hexec := exec_of_isSegmentFunction hf
  constructor
  · intro hbad
    obtain ⟨hstored, houtside, hkeys, hcrc, hrest⟩ := State.finish_stored hwf d
      (length_ecb_readBytes f s.mem a j) (Outputs.bytes (16 * j)) .bus (toWord e)
    exact ⟨_, hexec.trans (congrArg _ (segmentCommand_of_readFails hshape hj hread hwrite hbad)),
      ⟨rfl, rfl, rfl, rfl⟩, ⟨rfl, rfl, rfl, rfl⟩, ⟨rfl, rfl, rfl⟩, hstored, houtside, hkeys, hcrc, hrest⟩
  · intro hsegment hbad
    have hreadNext : AllDmaOK s.cfg .read a (16 * (j + 1)) := by
      rw [Nat.mul_add, Nat.mul_one]
      exact (allDmaOK_add_iff _ _ _ _ _).2 ⟨hread, hsegment⟩
    have hlength : ((ecb f (s.mem.readBytes a (16 * (j + 1)))).take (e - d)).length = e - d := by
      obtain ⟨hlow, hhigh, -, -⟩ := hbad
      rw [List.length_take, length_ecb_readBytes]
      omega
    obtain ⟨hstored, houtside, hkeys, hcrc, hrest⟩ :=
      State.finish_stored hwf d hlength (Outputs.bytes (16 * j)) .bus (toWord e)
    exact ⟨_, hexec.trans (congrArg _ (segmentCommand_of_writeFails hshape hj hreadNext hwrite hbad)),
      ⟨rfl, rfl, rfl, rfl⟩, ⟨rfl, rfl, rfl, rfl⟩, ⟨rfl, rfl, rfl⟩, hstored, houtside, hkeys, hcrc, hrest⟩

/-- Settles O39: the second command decrypts what the first has stored, under the same round keys. -/
theorem aesRoundTripInPlace : Obligations.AesRoundTripInPlace := by
  intro s a n hwf hkey hmul hsrc hroom hdst hread hwrite
  have hshape : s.SegmentsShape := by
    refine ⟨hkey, hmul, hsrc, hroom, ?_, .inl ?_⟩
    · rwa [hdst]
    · rw [hdst]
  have hwriteDst : AllDmaOK s.cfg .write s.latch.dst.toNat n := by rwa [hdst]
  obtain ⟨t, hexec, hstored, houtside, -, -, -, ⟨hrk, hkeyv⟩, -, hcfg, -⟩ :=
    exec_stores_segments (.inl ⟨rfl, rfl⟩) hwf hshape hread hwriteDst
  have hwf' : t.mem.wf = true := by
    obtain ⟨-, -, -, -, hend, -⟩ := id hshape
    have hcommand := exec_of_isSegmentFunction (s := s) (i := .aesEnc) (.inl ⟨rfl, rfl⟩)
    rw [segmentCommand_of_allDmaOK hshape hread hwriteDst] at hcommand
    cases hexec.symm.trans hcommand
    exact Memory.wf_writeBytes _ _ _ hwf (by rwa [length_ecb_readBytes_of_mod _ _ _ hmul])
  obtain ⟨u, hexec', hstored', houtside', hend, -⟩ :=
    exec_stores_segments (s := { t with latch := s.latch }) (i := .aesDec) (.inr ⟨rfl, rfl⟩) hwf'
      ⟨hkeyv.trans hkey, hshape.2⟩ (by rwa [hcfg]) (by rwa [hcfg])
  have hback : u.mem.readBytes a n = s.mem.readBytes a n := by
    obtain ⟨k, hk⟩ := Nat.dvd_of_mod_eq_zero hmul
    rw [hdst] at hstored hstored'
    rw [hstored', hrk, hstored]
    exact ecb_ecb (invCipher_cipher s.rk) k ((s.mem.length_readBytes _ _).trans hk)
  refine ⟨t, u, hexec, hexec', hend, fun x => ?_⟩
  by_cases hx : a ≤ x ∧ x < a + n
  · exact Memory.read_eq_of_readBytes_eq hback hx.1 hx.2
  · have hapart : (⟨s.latch.dst.toNat, n⟩ : ByteRange).contains x = false := by
      rw [hdst]
      simpa [ByteRange.contains] using hx
    exact (houtside' x hapart).trans (houtside x hapart)

end Sys2Proof.Proofs.Cipher
end

section
/-!
PROOF. The frames of all commands: what an end leaves as it was, in DMA space and in the registers (rules R45, R62, R64,
R241 to R245).
-/

namespace Sys2Proof.Machine

section Memory

variable {i : Instr} {s : State} {m : Memory} {code : ErrCode}

/-- Where a command changes a byte, it stored there or left it unspecified. -/
inductive ByteChange (i : Instr) (s : State) (code : ErrCode) (x : Nat) : Prop where
  | stored (size : Nat) (hlow : s.latch.dst.toNat ≤ x) (hhigh : x < s.latch.dst.toNat + size)
    (hroom : size ≤ s.latch.dstlen.toNat) (hwrite : dmaOK s.cfg .write x = true)
    (hi : IsSegment i ∨ IsRed i ∧ code = .ok) (hsource : s.SourceSpared i size)
  | unspecified (hlow : s.latch.dst.toNat ≤ x) (hhigh : x < s.latch.dst.toNat + s.latch.dstlen.toNat) (hi : IsRed i)
    (hcode : code = .bus ∨ code = .dst) (hsource : s.SourceSpared i s.latch.dstlen.toNat)

theorem MemoryEnd.byteChange (h : MemoryEnd i s m code) {x : Nat} (hx : m.read x ≠ s.mem.read x) :
    ByteChange i s code x := by
  cases h with
  | same hmem => exact absurd (congrArg (Memory.read · x) hmem) hx
  | stored bytes hmem hwrite hroom hend hi hsource =>
    subst hmem
    have hin : s.latch.dst.toNat ≤ x ∧ x < s.latch.dst.toNat + bytes.length := by
      by_contra hout
      exact hx (Memory.read_writeBytes_other _ _ _ _ hout)
    exact .stored bytes.length hin.1 hin.2 hroom (hwrite x hin.1 hin.2) hi hsource
  | unspecified draw hmem hend hi hcode hsource =>
    subst hmem
    have hin : s.latch.dst.toNat ≤ x ∧ x < s.latch.dst.toNat + s.latch.dstlen.toNat := by
      by_contra hout
      exact hx (Memory.read_scramble_other _ _ _ _ _ hout)
    exact .unspecified hin.1 hin.2 hi hcode hsource

theorem ByteChange.mem_dest {x : Nat} (h : ByteChange i s code x) :
    s.latch.dst.toNat ≤ x ∧ x < s.latch.dst.toNat + s.latch.dstlen.toNat := by
  cases h with
  | stored size hlow hhigh hroom => exact ⟨hlow, by omega⟩
  | unspecified hlow hhigh => exact ⟨hlow, hhigh⟩

theorem ByteChange.command {x : Nat} (h : ByteChange i s code x) : IsSegment i ∨ IsRed i := by
  cases h with
  | stored size hlow hhigh hroom hwrite hi => exact hi.imp_right And.left
  | unspecified hlow hhigh hi => exact .inr hi

/-- Only a segment command in place changes a byte of its source. -/
theorem ByteChange.source {x : Nat} (h : ByteChange i s code x) (hlow : s.latch.src.toNat ≤ x)
    (hhigh : x < s.latch.src.toNat + s.latch.srclen.toNat) : IsSegment i ∧ s.latch.src = s.latch.dst := by
  cases h with
  | stored size hlow' hhigh' hroom hwrite hi hsource => exact hsource x hlow hhigh hlow' hhigh'
  | unspecified hlow' hhigh' hi hcode hsource => exact hsource x hlow hhigh hlow' hhigh'

end Memory

theorem IsRed.not_isSegment {i : Instr} (h : IsRed i) : ¬ IsSegment i := by
  obtain ⟨c, f, rfl | rfl⟩ := h <;> simp [IsSegment]

theorem not_isSegment_or_isRed {i : Instr}
    (hi : i = .nop ∨ i = .crcInit ∨ i = .crcUpdate ∨ i = .keyLoad ∨ i = .keyClear) : ¬ (IsSegment i ∨ IsRed i) := by
  rintro (hsegment | ⟨c, f, hred⟩)
  · rcases hsegment with rfl | rfl <;> simp at hi
  · rcases hred with rfl | rfl <;> simp at hi

/-- A byte where a DMA write completes is writable and not in the engine's own window (rules R62, R64). -/
theorem dmaOK_write_iff {cfg : Config} {x : Nat} :
    dmaOK cfg .write x = true
      ↔ memOK cfg .write x = true ∧ ¬ (cfg.engineBase.toNat ≤ x ∧ x < cfg.engineBase.toNat + 0x100) := by
  have hwindow : (window cfg).contains x = true ↔ cfg.engineBase.toNat ≤ x ∧ x < cfg.engineBase.toNat + 0x100 := by
    rw [window, ByteRange.contains, Bool.and_eq_true, decide_eq_true_iff, decide_eq_true_iff]
  rw [dmaOK, Bool.and_eq_true, Bool.not_eq_true', ← Bool.not_eq_true, hwindow]

theorem State.WorksTo.sameRest {s u : State} (h : s.WorksTo u) (out : Outputs) (code : ErrCode) (addr : Word) :
    SameRest s (u.finish out code addr) := by
  obtain ⟨_, _, _, _, _, rfl⟩ := h
  exact State.finish_sameRest _ _ _ _

theorem KeysEnd.sameKeys {i : Instr} {s u : State} (h : KeysEnd i s u) (hload : i ≠ .keyLoad) (hclear : i ≠ .keyClear) :
    SameKeys s u := by
  cases h with
  | same hrk hkeyv => exact ⟨hrk, hkeyv⟩
  | loaded key hi => exact absurd hi hload
  | cleared hi => exact (hi.elim hload hclear).elim

section Outputs

variable {i : Instr} {s u : State} {out : Outputs} {code : ErrCode} {addr : Word}

/-- What the results and flags are, by the command and its code. -/
theorem State.CommandEnds.outputs (h : State.CommandEnds i s u out code addr) :
    code = .ok ∧ SuccessOutputs i s out ∨ code ≠ .ok ∧ out = {} ∧ (code = .bus → ¬ IsCounted i)
      ∨ code = .bus ∧ IsCounted i ∧ ∃ n < s.latch.srclen.toNat, out = Outputs.bytes n := by
  by_cases hok : code = .ok
  · exact .inl ⟨hok, h.success hok⟩
  · rcases h.error hok with ⟨hout, hbus⟩ | ⟨hi, hbus, hcount⟩
    · exact .inr (.inl ⟨hok, hout, hbus⟩)
    · exact .inr (.inr ⟨hbus, hi, hcount⟩)

/-- A successful command that writes none of `CRCOK` and `CNTOK`. -/
theorem SuccessOutputs.checks (h : SuccessOutputs i s out) (hi : ∀ c v, i ≠ .redDec c v) :
    out.crcok = false ∧ out.cntok = false := by
  cases i with
  | redDec c v => exact absurd rfl (hi c v)
  | redEnc c d => exact ⟨h.1, h.2.1⟩
  | keyLoad => obtain ⟨n, -, rfl⟩ := h; exact ⟨rfl, rfl⟩
  | nop | crcInit | crcUpdate | keyClear | aesEnc | aesDec => cases h; exact ⟨rfl, rfl⟩

theorem SuccessOutputs.s24ovf (h : SuccessOutputs i s out) (hi : ∀ c d, i ≠ .redEnc c d) : out.s24ovf = false := by
  cases i with
  | redEnc c d => exact absurd rfl (hi c d)
  | redDec c v => exact h.1
  | keyLoad => obtain ⟨n, -, rfl⟩ := h; rfl
  | nop | crcInit | crcUpdate | keyClear | aesEnc | aesDec => cases h; rfl

theorem SuccessOutputs.extremes (h : SuccessOutputs i s out) (hi : ¬ IsRed i) :
    out.maxv = 0#32 ∧ out.minv = 0#32 ∧ out.diffcnt = 0#32 := by
  cases i with
  | redEnc c d => exact absurd ⟨c, d, .inl rfl⟩ hi
  | redDec c v => exact absurd ⟨c, v, .inr rfl⟩ hi
  | keyLoad => obtain ⟨n, -, rfl⟩ := h; exact ⟨rfl, rfl, rfl⟩
  | nop | crcInit | crcUpdate | keyClear | aesEnc | aesDec => cases h; exact ⟨rfl, rfl, rfl⟩

theorem SuccessOutputs.reslen_counted (h : SuccessOutputs i s out) (hi : IsCounted i) :
    out.reslen = s.latch.srclen := by
  rcases hi with rfl | rfl | rfl <;> cases h <;> rfl

theorem SuccessOutputs.reslen_none (h : SuccessOutputs i s out) (hi : i = .nop ∨ i = .crcInit ∨ i = .keyClear) :
    out.reslen = 0#32 := by
  rcases hi with rfl | rfl | rfl <;> cases h <;> rfl

theorem SuccessOutputs.reslen_red (h : SuccessOutputs i s out) (hi : IsRed i) :
    out.reslen.toNat ≤ s.latch.dstlen.toNat := by
  obtain ⟨c, f, rfl | rfl⟩ := hi
  · exact h.2.2
  · exact h.2

end Outputs

end Sys2Proof.Machine

namespace Sys2Proof.Proofs.Frames

open Sys2Proof Sys2Proof.Machine

/-- Settles O54: a changed byte is in the destination range, of a command that has one. -/
theorem noCommandWritesOutsideItsDestination : Obligations.NoCommandWritesOutsideItsDestination := by
  intro i s t hexec
  obtain ⟨u, out, code, addr, hends, rfl⟩ := exec_next_endsAs hexec
  have unchanged {x : Nat} (h : ¬ ByteChange i s code x) :
      (u.finish out code addr).mem.read x = s.mem.read x := by
    by_contra hx
    exact h (hends.memory.byteChange hx)
  refine ⟨fun x hx => unchanged fun hchange => ?_, fun hi x => unchanged fun hchange => ?_,
    fun hplace x hlow hhigh => unchanged fun hchange => ?_⟩
  · simp [ByteRange.contains, hchange.mem_dest] at hx
  · exact not_isSegment_or_isRed hi hchange.command
  · obtain ⟨hsegment, heq⟩ := hchange.source hlow hhigh
    rcases hplace with ⟨henc, hdec⟩ | hne
    · exact hsegment.elim henc hdec
    · exact hne heq

/-- Settles O56: what a successful command or a segment command changes it stored; a RED error leaves its destination
unspecified. -/
theorem changedBytesAreWritable : Obligations.ChangedBytesAreWritable := by
  intro i s t x hexec hx
  obtain ⟨u, out, code, addr, hends, rfl⟩ := exec_next_endsAs hexec
  have hchange := hends.memory.byteChange hx
  refine ⟨fun hok => ?_, fun hne hi => ⟨?_, hchange.mem_dest⟩⟩
  · cases hchange with
    | stored size hlow hhigh hroom hwrite => exact dmaOK_write_iff.1 hwrite
    | unspecified hlow hhigh hi hcode =>
      rcases hok with hok | hsegment
      · rcases hcode with rfl | rfl <;> cases hok
      · exact absurd hsegment (IsRed.not_isSegment hi)
  · cases hchange with
    | stored size hlow hhigh hroom hwrite hcommand =>
      exact absurd (hcommand.resolve_left (IsRed.not_isSegment hi)).2 hne
    | unspecified hlow hhigh hi hcode => exact hcode

/-- Settles O55: the end writes the outputs, and those are what the command's own rule gives, or nothing but a count. -/
theorem commandsWriteTheirOwnRegistersOnly : Obligations.CommandsWriteTheirOwnRegistersOnly := by
  intro i s t hexec counted
  obtain ⟨u, out, code, addr, hends, rfl⟩ := exec_next_endsAs hexec
  have hout := hends.outputs
  have hcount {n : Nat} (hn : n < s.latch.srclen.toNat) : (toWord n).toNat < s.latch.srclen.toNat := by
    rw [toWord, BitVec.toNat_ofNat]
    exact (Nat.mod_le _ _).trans_lt hn
  have notCounted (hi : i = .nop ∨ i = .crcInit ∨ i = .keyClear ∨ i = .keyLoad) : ¬ IsCounted i := by
    rcases hi with rfl | rfl | rfl | rfl <;> simp [IsCounted]
  refine ⟨hends.work.sameRest _ _ _, rfl, rfl, rfl, fun hload hclear => hends.keys.sameKeys hload hclear,
    fun hinit hupdate => hends.crc.resolve_right (by simp [hinit, hupdate]), fun hi => ?checks, fun hi => ?s24ovf,
    fun henc hdec => ?extremes, fun hne => ?errors, hends.addr_zero, hends.code_mem, fun hi => ?none,
    fun hne hbus => ?uncounted, fun hok hi => ?whole, fun hbus hi => ?part, fun hi => ?key, fun hi => ?red⟩
  case checks =>
    rcases hout with ⟨-, hsuccess⟩ | ⟨-, rfl, -⟩ | ⟨-, -, n, -, rfl⟩
    · exact hsuccess.checks hi
    · exact ⟨rfl, rfl⟩
    · exact ⟨rfl, rfl⟩
  case s24ovf =>
    rcases hout with ⟨-, hsuccess⟩ | ⟨-, rfl, -⟩ | ⟨-, -, n, -, rfl⟩
    · exact hsuccess.s24ovf hi
    · rfl
    · rfl
  case extremes =>
    rcases hout with ⟨-, hsuccess⟩ | ⟨-, rfl, -⟩ | ⟨-, -, n, -, rfl⟩
    · exact hsuccess.extremes fun ⟨c, f, hi⟩ => hi.elim (henc c f) (hdec c f)
    · exact ⟨rfl, rfl, rfl⟩
    · exact ⟨rfl, rfl, rfl⟩
  case errors =>
    rcases hout with ⟨hok, -⟩ | ⟨-, rfl, -⟩ | ⟨-, -, n, -, rfl⟩
    · exact absurd hok hne
    · exact ⟨rfl, rfl, rfl, rfl, rfl, rfl⟩
    · exact ⟨rfl, rfl, rfl, rfl, rfl, rfl⟩
  case none =>
    rcases hout with ⟨-, hsuccess⟩ | ⟨-, rfl, -⟩ | ⟨-, hcounted, -⟩
    · exact hsuccess.reslen_none hi
    · rfl
    · exact absurd hcounted (notCounted (by tauto))
  case uncounted =>
    rcases hout with ⟨hok, -⟩ | ⟨-, rfl, -⟩ | ⟨hcode, hcounted, -⟩
    · exact absurd hok hne
    · rfl
    · exact absurd ⟨hcode, hcounted⟩ hbus
  case whole =>
    rcases hout with ⟨-, hsuccess⟩ | ⟨hne, -⟩ | ⟨hcode, -⟩
    · exact hsuccess.reslen_counted hi
    · exact absurd hok hne
    · cases hok.symm.trans hcode
  case part =>
    rcases hout with ⟨hok, -⟩ | ⟨-, -, hnot⟩ | ⟨-, -, n, hn, rfl⟩
    · cases hok.symm.trans hbus
    · exact absurd hi (hnot hbus)
    · exact hcount hn
  case key =>
    rcases hout with ⟨-, hsuccess⟩ | ⟨-, rfl, -⟩ | ⟨-, hcounted, -⟩
    · subst hi
      obtain ⟨n, hn, rfl⟩ := hsuccess
      have hle : (toWord n).toNat ≤ n := Nat.mod_le _ _
      exact hle.trans hn
    · exact Nat.zero_le _
    · exact absurd hcounted (notCounted (by simp [hi]))
  case red =>
    rcases hout with ⟨-, hsuccess⟩ | ⟨-, rfl, -⟩ | ⟨-, hcounted, -⟩
    · exact hsuccess.reslen_red hi
    · exact Nat.zero_le _
    · exact absurd hcounted (IsRed.not_isCounted hi)

end Sys2Proof.Proofs.Frames
end

section
/-!
PROOF. The delta transform (rules R173, R192): the decoder takes each sample's bytes back to the sample.
-/

namespace Sys2Proof.Machine

theorem leNat_leBytes (n : Nat) : ∀ v, leNat (leBytes n v) = v % 256 ^ n := by
  induction n with
  | zero => intro v; simp [leBytes, leNat, Nat.mod_one]
  | succ n ih =>
    intro v
    have hsplit : v % (256 * 256 ^ n) = v % 256 + 256 * (v / 256 % 256 ^ n) := Nat.mod_mul
    rw [leBytes, leNat, ih, BitVec.toNat_ofNat, pow_succ' 256 n, hsplit]

theorem toInt_ofInt_of_in24 {x : Int} (hlow : -2 ^ 23 ≤ x) (hhigh : x ≤ 2 ^ 23 - 1) :
    (BitVec.ofInt 32 x).toInt = x := by
  rw [BitVec.toInt_ofInt, Int.bmod_eq_of_le (by omega) (by omega)]

theorem sext24_lowBytes3 {x : Int} (hlow : -2 ^ 23 ≤ x) (hhigh : x ≤ 2 ^ 23 - 1) :
    sext24 (lowBytes3 x) = BitVec.ofInt 32 x := by
  have hback : BitVec.ofNat 24 (leNat (lowBytes3 x)) = BitVec.ofInt 24 x := by
    apply BitVec.eq_of_toNat_eq
    rw [lowBytes3, leNat_leBytes, BitVec.toNat_ofNat]
    have hlt := (BitVec.ofInt 24 x).isLt
    omega
  rw [sext24, hback, BitVec.signExtend, BitVec.toInt_ofInt, Int.bmod_eq_of_le (by omega) (by omega)]

theorem deltaLoop_verbatim (acc : Word) (x : Int) (rest : List Byte) :
    deltaLoop (.verbatim []) acc (lowBytes3 x ++ rest)
      = sext24 (lowBytes3 x) :: deltaLoop .normal (sext24 (lowBytes3 x)) rest := by
  simp [lowBytes3, leBytes, deltaLoop]

/-- The bytes of one sample give the sample, from a total that is the sample before it. -/
theorem deltaLoop_deltaBytes (prev : Int) {cur : Int} (hlow : -2 ^ 23 ≤ cur) (hhigh : cur ≤ 2 ^ 23 - 1)
    (rest : List Byte) :
    deltaLoop .normal (BitVec.ofInt 32 prev) (deltaBytes prev cur ++ rest)
      = BitVec.ofInt 32 cur :: deltaLoop .normal (BitVec.ofInt 32 cur) rest := by
  by_cases hfits : -127 ≤ cur - prev ∧ cur - prev ≤ 127
  · have htoInt : (BitVec.ofInt 8 (cur - prev)).toInt = cur - prev := by
      rw [BitVec.toInt_ofInt, Int.bmod_eq_of_le (by omega) (by omega)]
    have hne : BitVec.ofInt 8 (cur - prev) ≠ 0x80#8 := by
      intro heq
      have hescape : (0x80#8 : Byte).toInt = -128 := rfl
      rw [heq] at htoInt
      omega
    have hsum : BitVec.ofInt 32 prev + (BitVec.ofInt 8 (cur - prev)).signExtend 32 = BitVec.ofInt 32 cur := by
      rw [BitVec.signExtend, htoInt, ← BitVec.ofInt_add, add_sub_cancel]
    rw [deltaBytes, if_pos hfits, List.singleton_append, deltaLoop]
    simp only [hne, if_false, hsum]
  · rw [deltaBytes, if_neg hfits, List.cons_append, deltaLoop]
    simp only [if_true]
    rw [deltaLoop_verbatim, sext24_lowBytes3 hlow hhigh]

theorem deltaLoop_deltaTail (v : List Int) : ∀ prev, (∀ x ∈ v, -2 ^ 23 ≤ x ∧ x ≤ 2 ^ 23 - 1) →
    deltaLoop .normal (BitVec.ofInt 32 prev) (deltaTail prev v) = v.map (BitVec.ofInt 32) := by
  induction v with
  | nil => intro prev _; rfl
  | cons cur rest ih =>
    intro prev hv
    obtain ⟨hlow, hhigh⟩ := hv cur List.mem_cons_self
    rw [deltaTail, deltaLoop_deltaBytes prev hlow hhigh, ih cur fun x hx => hv x (List.mem_cons_of_mem cur hx),
      List.map_cons]

theorem deltaDecode_deltaEncode {v : List Int} (hv : ∀ x ∈ v, -2 ^ 23 ≤ x ∧ x ≤ 2 ^ 23 - 1) :
    deltaDecode (deltaEncode v) = v.map (BitVec.ofInt 32) := by
  cases v with
  | nil => rfl
  | cons first rest =>
    obtain ⟨hlow, hhigh⟩ := hv first List.mem_cons_self
    rw [deltaEncode, deltaDecode, deltaLoop_verbatim, sext24_lowBytes3 hlow hhigh,
      deltaLoop_deltaTail rest first fun x hx => hv x (List.mem_cons_of_mem first hx), List.map_cons]

end Sys2Proof.Machine
end

section
/-!
PROOF. The totals of the counts and the bounds of `range` (rules R179, R182, R188, R189).
-/

namespace Sys2Proof.Machine

theorem encNormalize_range_le (n : Nat) : ∀ {e : EncState}, e.range.toNat ≤ 2 ^ 31 →
    (encNormalize n e).range.toNat ≤ 2 ^ 31 := by
  induction n with
  | zero => exact id
  | succ n ih =>
    intro e h
    rw [encNormalize]
    split
    next hlow =>
      have hle : e.range.toNat ≤ 2 ^ 23 := hlow
      refine ih ?_
      rw [encTurn_range hle]
      omega
    next => exact h

theorem decTurn_range {d : DecState} (h : d.range.toNat ≤ 2 ^ 23) :
    (decTurn d).range.toNat = d.range.toNat * 2 ^ 8 := by
  change (d.range <<< 8).toNat = _
  rw [BitVec.toNat_shiftLeft, Nat.shiftLeft_eq]
  omega

/-- The decoder's `range` in a renormalisation is an encoder's. -/
theorem decNormalize_range (n : Nat) : ∀ {d : DecState} {e : EncState}, d.range = e.range →
    (decNormalize n d).range = (encNormalize n e).range := by
  induction n with
  | zero => exact id
  | succ n ih =>
    intro d e h
    rw [decNormalize, encNormalize, h]
    split
    next =>
      have hturn : (decTurn d).range = (encTurn e).range := congrArg (fun r : Word => r <<< (8 : Nat)) h
      exact ih hturn
    next => exact h

theorem encNormalize_bounds {e : EncState} (hpos : 1 ≤ e.range.toNat) (hle : e.range.toNat ≤ 2 ^ 31) :
    2 ^ 23 < (encNormalize coderTurns e).range.toNat ∧ (encNormalize coderTurns e).range.toNat ≤ 2 ^ 31 := by
  refine ⟨encNormalize_range_gt coderTurns ?_, encNormalize_range_le coderTurns hle⟩
  rw [coderTurns]
  omega

theorem decNormalize_bounds {d : DecState} (hpos : 1 ≤ d.range.toNat) (hle : d.range.toNat ≤ 2 ^ 31) :
    2 ^ 23 < (decNormalize coderTurns d).range.toNat ∧ (decNormalize coderTurns d).range.toNat ≤ 2 ^ 31 := by
  rw [decNormalize_range coderTurns (e := { encStart with range := d.range }) rfl]
  exact encNormalize_bounds hpos hle

/-- The search ends at the bucket whose counts hold the value (rule R189). -/
theorem findSymbol_spec (cnt : List Nat) : ∀ (b tmp : Nat), tmp < cnt.sum →
    ∃ k < cnt.length, findSymbol cnt b tmp = b + k ∧ cumulative cnt k ≤ tmp
      ∧ tmp < cumulative cnt k + countOf cnt k := by
  induction cnt with
  | nil => intro b tmp h; simp at h
  | cons c rest ih =>
    intro b tmp h
    rw [findSymbol]
    split
    next hlt => exact ⟨0, by simp, rfl, by simp [cumulative], by simpa [cumulative, countOf] using hlt⟩
    next hge =>
      rw [List.sum_cons] at h
      obtain ⟨k, hk, hfind, hlow, hhigh⟩ := ih (b + 1) (tmp - c) (by omega)
      have hcum : cumulative (c :: rest) (k + 1) = c + cumulative rest k := by simp [cumulative]
      have hcount : countOf (c :: rest) (k + 1) = countOf rest k := by simp [countOf]
      refine ⟨k + 1, by simpa using hk, by rw [hfind]; omega, ?_, ?_⟩ <;> rw [hcum]
      · omega
      · rw [hcount]
        omega

/-- The search is defined below the total of 256 counts, and gives a byte. -/
theorem findSymbol_byte {cnt : List Nat} (hlength : cnt.length = 256) {tmp : Nat} (h : tmp < totalCount cnt) :
    findSymbol cnt 0 tmp < 256 ∧ cumulative cnt (findSymbol cnt 0 tmp) ≤ tmp
      ∧ tmp < cumulative cnt (findSymbol cnt 0 tmp) + countOf cnt (findSymbol cnt 0 tmp) := by
  rw [totalCount, cumulative, List.take_of_length_le hlength.le] at h
  obtain ⟨k, hk, hfind, hlow, hhigh⟩ := findSymbol_spec cnt 0 tmp h
  rw [hfind, Nat.zero_add]
  exact ⟨hlength ▸ hk, hlow, hhigh⟩

/-- The value that the decoder looks up (rule R189). -/
def DecState.target (cnt : List Nat) (d : DecState) : Nat :=
  if totalCount cnt ≤ d.low.toNat / (d.range.toNat / totalCount cnt) then totalCount cnt - 1
  else d.low.toNat / (d.range.toNat / totalCount cnt)

/-- The state after the symbol `b` is taken out (rule R189). -/
def DecState.taken (cnt : List Nat) (d : DecState) (b : Nat) : DecState :=
  { d with
    low := d.low - toWord (d.range.toNat / totalCount cnt * cumulative cnt b)
    range := if cumulative cnt b + countOf cnt b < totalCount cnt
      then toWord (d.range.toNat / totalCount cnt * countOf cnt b)
      else d.range - toWord (d.range.toNat / totalCount cnt * cumulative cnt b) }

theorem decodeSymbol_eq (cnt : List Nat) (d : DecState) :
    decodeSymbol cnt d = (BitVec.ofNat 8 (findSymbol cnt 0 ((decNormalize coderTurns d).target cnt)),
      (decNormalize coderTurns d).taken cnt (findSymbol cnt 0 ((decNormalize coderTurns d).target cnt))) := rfl

/-- The decoder's `range` after a symbol is the encoder's after the same one (rules R183, R189). -/
theorem DecState.taken_range (cnt : List Nat) {d : DecState} {e : EncState}
    (h : d.range = (encNormalize coderTurns e).range) (b : Byte) :
    (d.taken cnt b.toNat).range = (encodeSymbol cnt e b).range := by
  have hcum := cumulative_add_countOf_le cnt b
  have hunits : d.range.toNat / totalCount cnt * cumulative cnt b.toNat ≤ d.range.toNat :=
    (Nat.mul_le_mul_left _ (by omega)).trans (Nat.div_mul_le_self d.range.toNat (totalCount cnt))
  have hsub : d.range - toWord (d.range.toNat / totalCount cnt * cumulative cnt b.toNat)
      = toWord (d.range.toNat - d.range.toNat / totalCount cnt * cumulative cnt b.toNat) := by
    have hlt := d.range.isLt
    apply BitVec.eq_of_toNat_eq
    rw [toWord, toWord, BitVec.toNat_sub, BitVec.toNat_ofNat, BitVec.toNat_ofNat]
    omega
  have hencoder : (encodeSymbol cnt e b).range
      = if cumulative cnt b.toNat + countOf cnt b.toNat < totalCount cnt
        then toWord ((encNormalize coderTurns e).range.toNat / totalCount cnt * countOf cnt b.toNat)
        else toWord ((encNormalize coderTurns e).range.toNat
          - (encNormalize coderTurns e).range.toNat / totalCount cnt * cumulative cnt b.toNat) := rfl
  rw [hencoder, ← h, ← hsub]
  rfl

theorem DecState.target_lt {cnt : List Nat} (h : 1 ≤ totalCount cnt) (d : DecState) : d.target cnt < totalCount cnt := by
  unfold DecState.target
  split <;> omega

end Sys2Proof.Machine

namespace Sys2Proof.Proofs.RedCoder

open Sys2Proof Sys2Proof.Machine

/-- Settles O40: the decoder starts as if just after an escape, and each sample's bytes give the sample. -/
theorem deltaDecodeInvertsEncode : Obligations.DeltaDecodeInvertsEncode := by
  intro v hv
  rw [deltaDecode_deltaEncode hv, List.map_map]
  refine (List.map_congr_left fun x hx => ?_).trans (List.map_id v)
  obtain ⟨hlow, hhigh⟩ := hv x hx
  exact toInt_ofInt_of_in24 hlow hhigh

/-- Settles O43: a byte of the stream counts at least 1; each of the 256 counts is at most 255. -/
theorem totalCountBounds : Obligations.TotalCountBounds := by
  intro cfg z hcfg hz
  obtain ⟨b, rest, rfl⟩ := List.exists_cons_of_ne_nil hz
  have hpos := countOf_scale_histogram_pos hcfg (z := b :: rest) List.mem_cons_self
  have hle := cumulative_add_countOf_le (scale cfg (histogram (b :: rest))) b
  exact ⟨by omega, totalCount_le fun _ => le_255_of_mem_scale hcfg⟩

/-- Settles O44: each turn multiplies `range` by 2^8 and is taken only while that stays at most `TOP`. -/
theorem renormalisationFinishes : Obligations.RenormalisationFinishes :=
  ⟨fun _ => encNormalize_bounds, fun _ => decNormalize_bounds⟩

/-- Settles O45: the value looked up is below the total, so it is in some bucket's interval, and that bucket has a
count. -/
theorem symbolDecodingIsDefined : Obligations.SymbolDecodingIsDefined := by
  intro cnt d hlength hpos hle hrange hrange'
  obtain ⟨hgt, hle'⟩ := decNormalize_bounds hrange hrange'
  have hsame := decNormalize_range coderTurns (d := d) (e := { encStart with range := d.range }) rfl
  rw [decodeSymbol_eq]
  generalize decNormalize coderTurns d = n at hgt hle' hsame
  obtain ⟨hbyte, hlow, hhigh⟩ := findSymbol_byte hlength (n.target_lt hpos)
  generalize findSymbol cnt 0 (n.target cnt) = b at hbyte hlow hhigh
  have hbits : (BitVec.ofNat 8 b).toNat = b := by rw [BitVec.toNat_ofNat]; omega
  have hcount : 0 < countOf cnt (BitVec.ofNat 8 b).toNat := by rw [hbits]; omega
  have htaken := n.taken_range cnt hsame (BitVec.ofNat 8 b)
  obtain ⟨hunit, hall⟩ := encodeSymbol_range_bounds hcount { encStart with range := d.range }
  rw [← hsame, ← htaken, hbits] at hunit hall
  obtain ⟨hone, -⟩ := le_mul_div_of_total hgt hpos hle
  exact ⟨hone.trans hunit, hall.trans hle', hcount⟩

end Sys2Proof.Proofs.RedCoder
end

section
/-!
PROOF. Big-endian numbers of byte strings, for the range coder: the payload's bytes are the digits of one number.
-/

namespace Sys2Proof.Machine

/-- The number whose digits are the bytes, the most significant first. -/
def beNat (l : List Byte) : Nat := l.foldl (fun acc b => acc * 256 + b.toNat) 0

/-- The number of the first `k` bytes, with zero bytes after the last one (rule R186). -/
def prefixNat (l : List Byte) (k : Nat) : Nat :=
  match k with
  | 0 => 0
  | k + 1 => prefixNat l k * 256 + (l.getD k 0x00#8).toNat

theorem beNat_append_singleton (l : List Byte) (b : Byte) : beNat (l ++ [b]) = beNat l * 256 + b.toNat := by
  rw [beNat, List.foldl_append]
  rfl

theorem beNat_append_zeros (l : List Byte) (n : Nat) : beNat (l ++ List.replicate n 0x00#8) = beNat l * 256 ^ n := by
  induction n with
  | zero => simp
  | succ n ih =>
    rw [List.replicate_succ', ← List.append_assoc, beNat_append_singleton, ih, pow_succ]
    simp [Nat.mul_assoc]

theorem beNat_append_ones (l : List Byte) (n : Nat) :
    beNat (l ++ List.replicate n 0xFF#8) + 1 = (beNat l + 1) * 256 ^ n := by
  induction n with
  | zero => simp
  | succ n ih =>
    have hdigit : (0xFF#8 : Byte).toNat = 255 := rfl
    rw [List.replicate_succ', ← List.append_assoc, beNat_append_singleton, hdigit, pow_succ, ← Nat.mul_assoc, ← ih]
    omega

theorem prefixNat_congr {l l' : List Byte} (k : Nat) (h : ∀ i < k, l.getD i 0x00#8 = l'.getD i 0x00#8) :
    prefixNat l k = prefixNat l' k := by
  induction k with
  | zero => rfl
  | succ k ih =>
    rw [prefixNat, prefixNat, ih fun i hi => h i (Nat.lt_succ_of_lt hi), h k (Nat.lt_succ_self k)]

theorem prefixNat_length (l : List Byte) : prefixNat l l.length = beNat l := by
  induction l using List.reverseRecOn with
  | nil => rfl
  | append_singleton l b ih =>
    have hinit : prefixNat (l ++ [b]) l.length = prefixNat l l.length :=
      prefixNat_congr _ fun i hi => by simp [List.getD_eq_getElem?_getD, List.getElem?_append_left hi]
    have hlast : (l ++ [b]).getD l.length 0x00#8 = b := by simp
    rw [List.length_append, List.length_singleton, prefixNat, hinit, hlast, ih, beNat_append_singleton]

theorem prefixNat_length_add (l : List Byte) (k : Nat) : prefixNat l (l.length + k) = beNat l * 256 ^ k := by
  induction k with
  | zero => simp [prefixNat_length]
  | succ k ih =>
    have hpast : l.getD (l.length + k) 0x00#8 = 0x00#8 := List.getD_eq_default _ _ (by omega)
    rw [← Nat.add_assoc, prefixNat, ih, hpast, pow_succ]
    simp [Nat.mul_assoc]

end Sys2Proof.Machine
end

section
/-!
PROOF. The encoder's number (rules R180 to R184): the bytes given out, those that wait and `low` are one number, which a
turn multiplies by 2^8 and a symbol moves up within the interval of `range`.
-/

namespace Sys2Proof.Machine

/-- The number that the encoder stands for: the bytes so far, without a carry, and `low` below them. -/
def EncState.value (e : EncState) : Nat := beNat (e.settle false) * 2 ^ 31 + e.low.toNat

/-- The interval stays in a word, and leaves no carry to a held byte that is 0xFF already. -/
structure EncState.Sound (e : EncState) : Prop where
  sum_le : e.low.toNat + e.range.toNat ≤ 2 ^ 32
  held : e.buffer = 0xFF#8 → e.low.toNat + e.range.toNat ≤ 2 ^ 31

theorem EncState.settle_false (e : EncState) :
    e.settle false = e.out ++ [e.buffer] ++ List.replicate e.help.toNat 0xFF#8 := rfl

/-- A carry adds one to the bytes so far. -/
theorem EncState.beNat_settle_true {e : EncState} (h : e.buffer ≠ 0xFF#8) :
    beNat (e.settle true) = beNat (e.settle false) + 1 := by
  have hbuffer : (e.buffer + 1#8).toNat = e.buffer.toNat + 1 := by
    have hlt : e.buffer.toNat ≠ 255 := fun heq => h (BitVec.eq_of_toNat_eq heq)
    rw [BitVec.toNat_add]
    have hone : (1#8 : Byte).toNat = 1 := rfl
    omega
  have htrue : e.settle true = e.out ++ [e.buffer + 1#8] ++ List.replicate e.help.toNat 0x00#8 := rfl
  rw [EncState.settle_false, beNat_append_ones, htrue, beNat_append_zeros, beNat_append_singleton,
    beNat_append_singleton, hbuffer, Nat.add_assoc]

theorem encTurn_low (e : EncState) : (encTurn e).low.toNat = e.low.toNat * 256 % 2 ^ 31 := by
  have hlow : (encTurn e).low = (e.low <<< 8) &&& toWord (2 ^ 31 - 1) := rfl
  have hmask : (toWord (2 ^ 31 - 1)).toNat = 2 ^ 31 - 1 := rfl
  rw [hlow, BitVec.toNat_and, hmask, Nat.and_two_pow_sub_one_eq_mod, BitVec.toNat_shiftLeft, Nat.shiftLeft_eq]
  omega

theorem EncState.toNat_topByte (e : EncState) : e.topByte.toNat = e.low.toNat / 2 ^ 23 % 256 := by
  rw [EncState.topByte, coderShift, BitVec.truncate, BitVec.toNat_setWidth, BitVec.toNat_ushiftRight,
    Nat.shiftRight_eq_div_pow]

/-- What a turn appends to the bytes so far, in the three branches of rule R182. -/
theorem encTurn_settle {e : EncState} (hhelp : e.help.toNat + 1 < 2 ^ 32) :
    e.low.toNat < 2 ^ 31 ∧ e.low.toNat < 255 * 2 ^ 23 ∧ (encTurn e).buffer = e.topByte
        ∧ (encTurn e).settle false = e.settle false ++ [e.topByte]
      ∨ 2 ^ 31 ≤ e.low.toNat ∧ (encTurn e).buffer = e.topByte ∧ (encTurn e).settle false = e.settle true ++ [e.topByte]
      ∨ 255 * 2 ^ 23 ≤ e.low.toNat ∧ e.low.toNat < 2 ^ 31 ∧ (encTurn e).buffer = e.buffer
        ∧ (encTurn e).settle false = e.settle false ++ [0xFF#8] := by
  have hmsb : e.low.getLsbD 31 = decide (2 ^ 31 ≤ e.low.toNat) := by
    rw [← BitVec.msb_eq_getLsbD_last, BitVec.msb_eq_decide]
  have hbuffer : (encTurn e).buffer = (encTurnOut e).buffer := rfl
  have hsettle : (encTurn e).settle false = (encTurnOut e).settle false := rfl
  rw [hbuffer, hsettle]
  unfold encTurnOut
  rw [coderShift, hmsb]
  split
  next hlow => exact .inl ⟨by omega, by omega, rfl, List.append_nil _⟩
  next hhigh =>
    split
    next hcarry => exact .inr (.inl ⟨of_decide_eq_true hcarry, rfl, List.append_nil _⟩)
    next hnone =>
      have hnext : (e.help + 1#32).toNat = e.help.toNat + 1 := by
        have hone : (1#32 : Word).toNat = 1 := rfl
        rw [BitVec.toNat_add, hone, Nat.mod_eq_of_lt hhelp]
      refine .inr (.inr ⟨by omega, by simpa using hnone, rfl, ?_⟩)
      rw [EncState.settle_false, EncState.settle_false, hnext, List.replicate_succ', ← List.append_assoc]

theorem encTurn_value {e : EncState} (h : e.Sound) (hrange : 1 ≤ e.range.toNat) (hhelp : e.help.toNat + 1 < 2 ^ 32) :
    (encTurn e).value = e.value * 2 ^ 8 := by
  rw [EncState.value, EncState.value, encTurn_low]
  rcases encTurn_settle hhelp with ⟨hlow, hbelow, -, hsettle⟩ | ⟨hcarry, -, hsettle⟩ | ⟨habove, hlow, -, hsettle⟩
  · rw [hsettle, beNat_append_singleton, EncState.toNat_topByte]
    omega
  · have hheld : e.buffer ≠ 0xFF#8 := fun hff => by
      have hle := h.held hff
      omega
    rw [hsettle, beNat_append_singleton, EncState.toNat_topByte, EncState.beNat_settle_true hheld]
    have hlt := e.low.isLt
    omega
  · have hdigit : (0xFF#8 : Byte).toNat = 255 := rfl
    rw [hsettle, beNat_append_singleton, hdigit]
    omega

theorem encTurn_size {e : EncState} (hhelp : e.help.toNat + 1 < 2 ^ 32) :
    (encTurn e).size = e.size + 1 := by
  have hlength : ((encTurn e).settle false).length = (e.settle false).length + 1 := by
    rcases encTurn_settle hhelp with ⟨-, -, -, hsettle⟩ | ⟨-, -, hsettle⟩ | ⟨-, -, -, hsettle⟩ <;>
      rw [hsettle] <;> simp
  rw [EncState.length_settle, EncState.length_settle] at hlength
  omega

theorem EncState.Sound.turn {e : EncState} (h : e.Sound) (hrange : 1 ≤ e.range.toNat) (hlow : e.range.toNat ≤ 2 ^ 23)
    (hhelp : e.help.toNat + 1 < 2 ^ 32) : (encTurn e).Sound := by
  have hsum := h.sum_le
  have hnext := encTurn_range hlow
  refine ⟨?_, fun hff => ?_⟩ <;> rw [encTurn_low, hnext]
  · omega
  · rcases encTurn_settle hhelp with ⟨-, hbelow, hbuffer, -⟩ | ⟨hcarry, hbuffer, -⟩ |
      ⟨habove, hnone, hbuffer, -⟩
    · have htop := congrArg BitVec.toNat (hbuffer.symm.trans hff)
      rw [EncState.toNat_topByte, BitVec.toNat_ofNat] at htop
      omega
    · have htop := congrArg BitVec.toNat (hbuffer.symm.trans hff)
      rw [EncState.toNat_topByte, BitVec.toNat_ofNat] at htop
      omega
    · have hle := h.held (hbuffer.symm.trans hff)
      omega

/-- What holds of the encoder along a stream that is not too long (log entry 7). -/
structure EncState.Good (k : Nat) (e : EncState) : Prop where
  paid : e.Paid k
  sound : e.Sound
  short : 17 * k + 16 ≤ 2 ^ 35

theorem EncState.Good.help_lt {k : Nat} {e : EncState} (h : e.Good k) : e.help.toNat + 1 < 2 ^ 32 := by
  have hsize := h.paid.size_le
  have hshort := h.short
  rw [EncState.size] at hsize
  omega

theorem EncState.Good.turn {k : Nat} {e : EncState} (h : e.Good k) (hlow : e.range.toNat ≤ 2 ^ 23) :
    (encTurn e).Good k :=
  ⟨h.paid.turn hlow, h.sound.turn h.paid.range_pos hlow h.help_lt, h.short⟩

theorem EncState.Good.normalize {k : Nat} (n : Nat) : ∀ {e : EncState}, e.Good k → (encNormalize n e).Good k := by
  induction n with
  | zero => exact id
  | succ n ih =>
    intro e h
    rw [encNormalize]
    split
    next hlow => exact ih (h.turn hlow)
    next => exact h

/-- A unit of the renormalised `range` is at least 1 (rule R183). -/
theorem EncState.Good.unit_pos {k : Nat} {e : EncState} (h : e.Good k) {cnt : List Nat} (hT : totalCount cnt ≤ 65280)
    {b : Byte} (hb : 0 < countOf cnt b.toNat) : 1 ≤ (encNormalize coderTurns e).range.toNat / totalCount cnt := by
  have hcum := cumulative_add_countOf_le cnt b
  exact (le_mul_div_of_total h.paid.bottom_lt_range (by omega) hT).1

/-- A symbol moves `low` up and leaves an interval within the one before it (rule R183). -/
theorem encodeSymbol_interval {cnt : List Nat} {e : EncState} (b : Byte) (hb : 0 < countOf cnt b.toNat)
    (h : (encNormalize coderTurns e).Sound) (hunit : 1 ≤ (encNormalize coderTurns e).range.toNat / totalCount cnt) :
    let R := (encNormalize coderTurns e).range.toNat
    (encodeSymbol cnt e b).low.toNat
        = (encNormalize coderTurns e).low.toNat + R / totalCount cnt * cumulative cnt b.toNat ∧
      1 ≤ (encodeSymbol cnt e b).range.toNat ∧
      (encodeSymbol cnt e b).range.toNat
        = (if cumulative cnt b.toNat + countOf cnt b.toNat < totalCount cnt
            then R / totalCount cnt * countOf cnt b.toNat
            else R - R / totalCount cnt * cumulative cnt b.toNat) ∧
      R / totalCount cnt * cumulative cnt b.toNat + (encodeSymbol cnt e b).range.toNat ≤ R := by
  intro R
  have hR : R < 2 ^ 32 := (encNormalize coderTurns e).range.isLt
  have hsum : (encNormalize coderTurns e).low.toNat + R ≤ 2 ^ 32 := h.sum_le
  have hcum := cumulative_add_countOf_le cnt b
  have hunits : R / totalCount cnt * cumulative cnt b.toNat + R / totalCount cnt * countOf cnt b.toNat ≤ R := by
    rw [← Nat.mul_add]
    exact (Nat.mul_le_mul_left _ hcum).trans (Nat.div_mul_le_self R _)
  have hmul : 1 ≤ R / totalCount cnt * countOf cnt b.toNat := Nat.mul_pos hunit hb
  have hlow : (encodeSymbol cnt e b).low
      = toWord ((encNormalize coderTurns e).low.toNat + R / totalCount cnt * cumulative cnt b.toNat) := rfl
  have hrange : (encodeSymbol cnt e b).range
      = if cumulative cnt b.toNat + countOf cnt b.toNat < totalCount cnt
        then toWord (R / totalCount cnt * countOf cnt b.toNat)
        else toWord (R - R / totalCount cnt * cumulative cnt b.toNat) := rfl
  have hrange' : (encodeSymbol cnt e b).range.toNat
      = if cumulative cnt b.toNat + countOf cnt b.toNat < totalCount cnt
        then R / totalCount cnt * countOf cnt b.toNat
        else R - R / totalCount cnt * cumulative cnt b.toNat := by
    rw [hrange]
    split <;> rw [toWord, BitVec.toNat_ofNat, Nat.mod_eq_of_lt (by omega)]
  refine ⟨?_, ?_, hrange', ?_⟩
  · rw [hlow, toWord, BitVec.toNat_ofNat, Nat.mod_eq_of_lt (by omega)]
  · rw [hrange']
    split <;> omega
  · rw [hrange']
    split <;> omega

theorem EncState.Good.symbol {k : Nat} {e : EncState} (h : e.Good k) (hshort : 17 * (k + 1) + 16 ≤ 2 ^ 35)
    {cnt : List Nat} (hT : totalCount cnt ≤ 65280) {b : Byte} (hb : 0 < countOf cnt b.toNat) :
    (encodeSymbol cnt e b).Good (k + 1) := by
  have hsound := (h.normalize coderTurns).sound
  have hsum := hsound.sum_le
  obtain ⟨hlow, -, -, hnested⟩ := encodeSymbol_interval b hb hsound (h.unit_pos hT hb)
  refine ⟨h.paid.symbol hT hb, ⟨by omega, fun hff => ?_⟩, hshort⟩
  have hle := hsound.held hff
  omega

theorem EncState.Good.stream {cnt : List Nat} (hT : totalCount cnt ≤ 65280) (z : List Byte) :
    ∀ {k : Nat} {e : EncState}, e.Good k → 17 * (k + z.length) + 16 ≤ 2 ^ 35 → (∀ b ∈ z, 0 < countOf cnt b.toNat) →
      (z.foldl (encodeSymbol cnt) e).Good (k + z.length) := by
  induction z with
  | nil => exact fun h _ _ => h
  | cons b rest ih =>
    intro k e h hshort hz
    rw [List.length_cons] at hshort
    have hrest := ih (h.symbol (by omega) hT (hz b List.mem_cons_self)) (by omega)
      fun c hc => hz c (List.mem_cons_of_mem b hc)
    rwa [Nat.add_assoc, Nat.add_comm 1] at hrest

theorem encStart_good : encStart.Good 0 := ⟨encStart_paid, ⟨by decide, by decide⟩, by norm_num⟩

end Sys2Proof.Machine
end

section
/-!
PROOF. The payload's number is in the encoder's interval at each step (rules R182 to R184): in the last one as `enc_finish`
chooses its last byte, and then in each before.
-/

namespace Sys2Proof.Machine

/-- The payload's bytes, as far as the decoder has read them with the encoder in the state `e`: half their number is in
the encoder's interval. -/
def EncState.Holds (e : EncState) (payload : List Byte) : Prop :=
  2 * e.value ≤ prefixNat payload (e.size + 5) ∧ prefixNat payload (e.size + 5) < 2 * (e.value + e.range.toNat)

theorem EncState.Holds.of_turn {k : Nat} {e : EncState} {payload : List Byte} (h : e.Good k)
    (hlow : e.range.toNat ≤ 2 ^ 23) (hnext : (encTurn e).Holds payload) : e.Holds payload := by
  obtain ⟨hmin, hmax⟩ := hnext
  rw [encTurn_value h.sound h.paid.range_pos h.help_lt, encTurn_size h.help_lt] at hmin hmax
  have hbyte := (payload.getD (e.size + 5) 0x00#8).isLt
  rw [encTurn_range hlow, Nat.add_right_comm, prefixNat] at hmax
  rw [Nat.add_right_comm, prefixNat] at hmin
  constructor <;> omega

theorem EncState.Holds.of_normalize {k : Nat} {payload : List Byte} (n : Nat) : ∀ {e : EncState}, e.Good k →
    (encNormalize n e).Holds payload → e.Holds payload := by
  induction n with
  | zero => exact fun _ h => h
  | succ n ih =>
    intro e h hlast
    rw [encNormalize] at hlast
    split at hlast
    next hlow => exact .of_turn h hlow (ih (h.turn hlow) hlast)
    next => exact hlast

theorem encodeSymbol_value {cnt : List Nat} {e : EncState} (b : Byte) (hb : 0 < countOf cnt b.toNat)
    (h : (encNormalize coderTurns e).Sound) (hunit : 1 ≤ (encNormalize coderTurns e).range.toNat / totalCount cnt) :
    (encodeSymbol cnt e b).value = (encNormalize coderTurns e).value
      + (encNormalize coderTurns e).range.toNat / totalCount cnt * cumulative cnt b.toNat := by
  obtain ⟨hlow, -⟩ := encodeSymbol_interval b hb h hunit
  have hsettle : (encodeSymbol cnt e b).settle false = (encNormalize coderTurns e).settle false := rfl
  rw [EncState.value, EncState.value, hsettle, hlow, Nat.add_assoc]

theorem EncState.Holds.of_symbol {k : Nat} {e : EncState} {payload : List Byte} {cnt : List Nat} {b : Byte}
    (h : e.Good k) (hT : totalCount cnt ≤ 65280) (hb : 0 < countOf cnt b.toNat)
    (hnext : (encodeSymbol cnt e b).Holds payload) : (encNormalize coderTurns e).Holds payload := by
  have hsound := (h.normalize coderTurns).sound
  have hunit := h.unit_pos hT hb
  obtain ⟨-, -, -, hnested⟩ := encodeSymbol_interval b hb hsound hunit
  obtain ⟨hmin, hmax⟩ := hnext
  rw [encodeSymbol_value b hb hsound hunit, encodeSymbol_size] at hmin hmax
  constructor <;> omega

/-- The last byte puts the payload's number over the lower end of the interval by at most 2^23, which `range` exceeds. -/
theorem encFinish_holds {k : Nat} {e : EncState} (h : e.Good k) :
    (encNormalize coderTurns e).Holds (encFinish e) := by
  have hgood := h.normalize coderTurns
  have hrange := h.paid.bottom_lt_range
  have hfinish : encFinish e = (encNormalize coderTurns e).settle
      (decide (0xFF < ((encNormalize coderTurns e).low >>> coderShift).toNat + 1))
        ++ [BitVec.ofNat 8 (((encNormalize coderTurns e).low >>> coderShift).toNat + 1)] := rfl
  generalize encNormalize coderTurns e = n at hgood hrange hfinish
  have hsum := hgood.sound.sum_le
  have htop : (n.low >>> coderShift).toNat = n.low.toNat / 2 ^ 23 := by
    rw [coderShift, BitVec.toNat_ushiftRight, Nat.shiftRight_eq_div_pow]
  have hbe : beNat (encFinish e) = beNat (n.settle false) * 256 + (n.low.toNat / 2 ^ 23 + 1) := by
    rw [hfinish, htop, beNat_append_singleton, BitVec.toNat_ofNat]
    by_cases hcarry : 0xFF < n.low.toNat / 2 ^ 23 + 1
    · have hheld : n.buffer ≠ 0xFF#8 := fun hff => by
        have hle := hgood.sound.held hff
        omega
      rw [decide_eq_true hcarry, EncState.beNat_settle_true hheld]
      omega
    · rw [decide_eq_false hcarry]
      omega
  have hlength : (encFinish e).length + 3 = n.size + 5 := by
    rw [hfinish, List.length_append, EncState.length_settle, List.length_singleton]
  have hprefix : prefixNat (encFinish e) (n.size + 5)
      = (beNat (n.settle false) * 256 + (n.low.toNat / 2 ^ 23 + 1)) * 2 ^ 24 := by
    rw [← hlength, prefixNat_length_add, hbe]
    norm_num
  rw [EncState.Holds, hprefix, EncState.value]
  constructor <;> omega

end Sys2Proof.Machine
end

section
/-!
PROOF. The decoder follows the encoder (rules R186 to R189): its `low` is half the number of the bytes it has read, less the
encoder's number, and so it finds the encoder's symbols.
-/

namespace Sys2Proof.Machine

/-- The decoder has read `count` bytes of the payload and taken the number `value` off. -/
structure DecState.HasRead (d : DecState) (payload : List Byte) (count value : Nat) : Prop where
  low : d.low.toNat + value = prefixNat payload (count + 1) / 2
  buffer : d.buffer = payload.getD count 0x00#8
  input : ∀ i, d.input.getD i 0x00#8 = payload.getD (count + 1 + i) 0x00#8

theorem nextByte_eq_getD (input : List Byte) : nextByte input = input.getD 0 0x00#8 := by
  cases input <;> rfl

theorem getD_tail (input : List Byte) (i : Nat) : input.tail.getD i 0x00#8 = input.getD (i + 1) 0x00#8 := by
  cases input <;> rfl

/-- The three parts of the new `low` do not overlap (rule R188). -/
theorem decTurn_low {d : DecState} (h : d.low.toNat < 2 ^ 24) :
    (decTurn d).low.toNat = d.low.toNat * 2 ^ 8 + d.buffer.toNat % 2 * 2 ^ 7 + (nextByte d.input).toNat / 2 := by
  have hlow : (decTurn d).low = ((d.low <<< 8) ||| (d.buffer <<< 7).zeroExtend 32)
      ||| (nextByte d.input >>> 1).zeroExtend 32 := rfl
  have hnext := (nextByte d.input).isLt
  have hshift : (d.low <<< 8).toNat = d.low.toNat * 2 ^ 8 := by
    rw [BitVec.toNat_shiftLeft, Nat.shiftLeft_eq]
    omega
  have hbit : ((d.buffer <<< 7).zeroExtend 32).toNat = d.buffer.toNat % 2 * 2 ^ 7 := by
    rw [BitVec.zeroExtend, BitVec.toNat_setWidth, BitVec.toNat_shiftLeft, Nat.shiftLeft_eq]
    omega
  have hhalf : ((nextByte d.input >>> 1).zeroExtend 32).toNat = (nextByte d.input).toNat / 2 := by
    rw [BitVec.zeroExtend, BitVec.toNat_setWidth, BitVec.toNat_ushiftRight, Nat.shiftRight_eq_div_pow]
    omega
  have hupper : 2 ^ 8 * d.low.toNat ||| d.buffer.toNat % 2 * 2 ^ 7 = 2 ^ 7 * (2 * d.low.toNat + d.buffer.toNat % 2) := by
    rw [← Nat.two_pow_add_eq_or_of_lt (by omega)]
    omega
  rw [hlow, BitVec.toNat_or, BitVec.toNat_or, hshift, hbit, hhalf, Nat.mul_comm d.low.toNat, hupper,
    ← Nat.two_pow_add_eq_or_of_lt (by omega)]
  omega

theorem DecState.HasRead.turn {d : DecState} {payload : List Byte} {count value : Nat} (h : d.HasRead payload count value)
    (hlow : d.low.toNat < 2 ^ 24) : (decTurn d).HasRead payload (count + 1) (value * 2 ^ 8) := by
  obtain ⟨hvalue, hbuffer, hinput⟩ := h
  have hnext : nextByte d.input = payload.getD (count + 1) 0x00#8 := (nextByte_eq_getD _).trans (hinput 0)
  refine ⟨?_, hnext, fun i => ?_⟩
  · rw [decTurn_low hlow, hnext, hbuffer, prefixNat]
    rw [prefixNat] at hvalue ⊢
    omega
  · have htail : (decTurn d).input = d.input.tail := rfl
    rw [htail, getD_tail, hinput, Nat.add_right_comm _ 1 i, Nat.add_assoc _ i 1]

/-- The decoder is where the encoder is: the same `range`, and `low` counted from the encoder's number. -/
structure DecState.Follows (d : DecState) (payload : List Byte) (e : EncState) : Prop where
  range : d.range = e.range
  read : d.HasRead payload (e.size + 4) e.value

theorem DecState.Follows.low_lt {d : DecState} {payload : List Byte} {e : EncState} (h : d.Follows payload e)
    (hholds : e.Holds payload) : d.low.toNat < e.range.toNat := by
  obtain ⟨-, hmax⟩ := hholds
  have hread : d.low.toNat + e.value = prefixNat payload (e.size + 5) / 2 := h.read.low
  omega

theorem DecState.Follows.turn {d : DecState} {payload : List Byte} {e : EncState} {k : Nat} (h : d.Follows payload e)
    (hgood : e.Good k) (hlow : e.range.toNat ≤ 2 ^ 23) (hholds : e.Holds payload) :
    (decTurn d).Follows payload (encTurn e) := by
  have hlt := h.low_lt hholds
  refine ⟨?_, ?_⟩
  · have hturn : (decTurn d).range = d.range <<< 8 := rfl
    rw [hturn, h.range]
    rfl
  · rw [encTurn_value hgood.sound hgood.paid.range_pos hgood.help_lt, encTurn_size hgood.help_lt, Nat.add_right_comm]
    exact h.read.turn (by omega)

theorem DecState.Follows.normalize {payload : List Byte} {k : Nat} (n : Nat) : ∀ {d : DecState} {e : EncState},
    d.Follows payload e → e.Good k → (encNormalize n e).Holds payload →
    (decNormalize n d).Follows payload (encNormalize n e) := by
  induction n with
  | zero => exact fun h _ _ => h
  | succ n ih =>
    intro d e h hgood hholds
    rw [encNormalize] at hholds ⊢
    rw [decNormalize, h.range]
    split at hholds
    next hlow =>
      rw [if_pos hlow, if_pos hlow]
      exact ih (h.turn hgood hlow (.of_turn hgood hlow (.of_normalize n (hgood.turn hlow) hholds))) (hgood.turn hlow) hholds
    next hhigh =>
      rw [if_neg hhigh, if_neg hhigh]
      exact h

/-- At most one byte's interval holds a value. -/
theorem findSymbol_eq {cnt : List Nat} (hlength : cnt.length = 256) {tmp b : Nat} (hlow : cumulative cnt b ≤ tmp)
    (hhigh : tmp < cumulative cnt b + countOf cnt b) (htotal : tmp < totalCount cnt) : findSymbol cnt 0 tmp = b := by
  obtain ⟨-, hlow', hhigh'⟩ := findSymbol_byte hlength htotal
  rw [← cumulative_succ] at hhigh hhigh'
  rcases Nat.lt_trichotomy (findSymbol cnt 0 tmp) b with hlt | heq | hgt
  · have hmono : cumulative cnt (findSymbol cnt 0 tmp + 1) ≤ cumulative cnt b := cumulative_mono cnt hlt
    omega
  · exact heq
  · have hmono : cumulative cnt (b + 1) ≤ cumulative cnt (findSymbol cnt 0 tmp) := cumulative_mono cnt hgt
    omega

/-- The decoder finds the symbol that the encoder coded, and follows it over the symbol. -/
theorem DecState.Follows.symbol {payload : List Byte} {k : Nat} {d : DecState} {e : EncState} {cnt : List Nat} {b : Byte}
    (h : (decNormalize coderTurns d).Follows payload (encNormalize coderTurns e)) (hgood : e.Good k)
    (hlength : cnt.length = 256) (hT : totalCount cnt ≤ 65280) (hb : 0 < countOf cnt b.toNat)
    (hnext : (encodeSymbol cnt e b).Holds payload) :
    (decodeSymbol cnt d).1 = b ∧ (decodeSymbol cnt d).2.Follows payload (encodeSymbol cnt e b) := by
  have hsound := (hgood.normalize coderTurns).sound
  have hunit := hgood.unit_pos hT hb
  obtain ⟨-, -, hrange, hnested⟩ := encodeSymbol_interval b hb hsound hunit
  have hvalue := encodeSymbol_value b hb hsound hunit
  have hcum := cumulative_add_countOf_le cnt b
  rw [decodeSymbol_eq]
  generalize decNormalize coderTurns d = n at h
  have hread : n.low.toNat + (encNormalize coderTurns e).value
      = prefixNat payload ((encNormalize coderTurns e).size + 5) / 2 := h.read.low
  have hmin : n.range.toNat / totalCount cnt * cumulative cnt b.toNat ≤ n.low.toNat := by
    obtain ⟨hmin, -⟩ := hnext
    rw [hvalue, encodeSymbol_size] at hmin
    rw [h.range]
    omega
  have hmax : n.low.toNat < n.range.toNat / totalCount cnt * cumulative cnt b.toNat
      + (encodeSymbol cnt e b).range.toNat := by
    obtain ⟨-, hmax⟩ := hnext
    rw [hvalue, encodeSymbol_size] at hmax
    rw [h.range]
    omega
  rw [← h.range] at hunit hrange hvalue hnested
  have hfind : findSymbol cnt 0 (n.target cnt) = b.toNat := by
    have hle : cumulative cnt b.toNat ≤ n.low.toNat / (n.range.toNat / totalCount cnt) := by
      rw [Nat.le_div_iff_mul_le hunit, Nat.mul_comm]
      exact hmin
    refine findSymbol_eq hlength ?_ ?_ (n.target_lt (by omega))
    · unfold DecState.target
      split <;> omega
    · by_cases hlast : cumulative cnt b.toNat + countOf cnt b.toNat < totalCount cnt
      · rw [if_pos hlast] at hrange
        rw [hrange, ← Nat.mul_add] at hmax
        have hlt : n.low.toNat / (n.range.toNat / totalCount cnt) < cumulative cnt b.toNat + countOf cnt b.toNat :=
          Nat.div_lt_of_lt_mul hmax
        unfold DecState.target
        split <;> omega
      · have hlt := n.target_lt (cnt := cnt) (by omega)
        omega
  rw [hfind]
  refine ⟨BitVec.ofNat_toNat 8 b |>.trans (BitVec.setWidth_eq b), n.taken_range cnt h.range b, ?_, h.read.buffer,
    h.read.input⟩
  have htaken : (n.taken cnt b.toNat).low
      = n.low - toWord (n.range.toNat / totalCount cnt * cumulative cnt b.toNat) := rfl
  rw [htaken, hvalue, encodeSymbol_size, ← hread, toWord, BitVec.toNat_sub, BitVec.toNat_ofNat]
  have hlt := n.low.isLt
  omega

/-- The payload's number is in the interval before a stream if it is in the one after it. -/
theorem EncState.Holds.of_stream {payload : List Byte} {cnt : List Nat} (hT : totalCount cnt ≤ 65280) (z : List Byte) :
    ∀ {k : Nat} {e : EncState}, e.Good k → 17 * (k + z.length) + 16 ≤ 2 ^ 35 → (∀ b ∈ z, 0 < countOf cnt b.toNat) →
    (encNormalize coderTurns (z.foldl (encodeSymbol cnt) e)).Holds payload →
    (encNormalize coderTurns e).Holds payload := by
  induction z with
  | nil => exact fun _ _ _ h => h
  | cons b rest ih =>
    intro k e hgood hshort hz hlast
    rw [List.length_cons] at hshort
    have hb := hz b List.mem_cons_self
    have hnext := hgood.symbol (by omega) hT hb
    exact .of_symbol hgood hT hb (.of_normalize coderTurns hnext
      (ih hnext (by omega) (fun c hc => hz c (List.mem_cons_of_mem b hc)) hlast))

/-- A decoder that follows the encoder before a stream gives back the stream. -/
theorem decodeSymbols_of_follows {payload : List Byte} {cnt : List Nat} (hlength : cnt.length = 256)
    (hT : totalCount cnt ≤ 65280) (z : List Byte) : ∀ {k : Nat} {d : DecState} {e : EncState}, e.Good k →
    17 * (k + z.length) + 16 ≤ 2 ^ 35 → (∀ b ∈ z, 0 < countOf cnt b.toNat) →
    (encNormalize coderTurns (z.foldl (encodeSymbol cnt) e)).Holds payload →
    (decNormalize coderTurns d).Follows payload (encNormalize coderTurns e) →
    decodeSymbols cnt z.length d = z := by
  induction z with
  | nil => exact fun _ _ _ _ _ => rfl
  | cons b rest ih =>
    intro k d e hgood hshort hz hlast hfollows
    rw [List.length_cons] at hshort
    have hb := hz b List.mem_cons_self
    have hrest : ∀ c ∈ rest, 0 < countOf cnt c.toNat := fun c hc => hz c (List.mem_cons_of_mem b hc)
    have hnext := hgood.symbol (by omega) hT hb
    have hholds := EncState.Holds.of_stream hT rest hnext (by omega) hrest hlast
    obtain ⟨hsymbol, hfollows'⟩ :=
      hfollows.symbol hgood hlength hT hb (.of_normalize coderTurns hnext hholds)
    rw [List.length_cons, decodeSymbols, hsymbol,
      ih hnext (by omega) hrest hlast (hfollows'.normalize coderTurns hnext hholds)]

/-- The decoder starts with `range` 2^7, which three turns bring to 2^31 (rule R187). -/
theorem decNormalize_decStart (payload : List Byte) :
    decNormalize coderTurns (decStart payload) = decTurn (decTurn (decTurn (decStart payload)))
      ∧ (decTurn (decTurn (decTurn (decStart payload)))).range = toWord coderTop := by
  have hzero : (decStart payload).range.toNat = 2 ^ 7 := rfl
  have hone := decTurn_range (d := decStart payload) (by omega)
  have htwo := decTurn_range (d := decTurn (decStart payload)) (by omega)
  have hthree := decTurn_range (d := decTurn (decTurn (decStart payload))) (by omega)
  constructor
  · rw [coderTurns, decNormalize, if_pos (by rw [hzero]; decide), decNormalize, if_pos (by rw [hone, hzero]; decide),
      decNormalize, if_pos (by rw [htwo, hone, hzero]; decide), decNormalize,
      if_neg (by rw [hthree, htwo, hone, hzero]; decide)]
  · apply BitVec.eq_of_toNat_eq
    rw [hthree, htwo, hone, hzero]
    rfl

theorem decStart_hasRead {payload : List Byte} (h : payload.getD 0 0x00#8 = 0x00#8) :
    (decStart payload).HasRead payload 1 0 := by
  have hsecond : nextByte payload.tail = payload.getD 1 0x00#8 := (nextByte_eq_getD _).trans (getD_tail _ _)
  refine ⟨?_, hsecond, fun i => ?_⟩
  · have hlow : (decStart payload).low = (nextByte payload.tail >>> 1).zeroExtend 32 := rfl
    rw [hlow, hsecond, BitVec.zeroExtend, BitVec.toNat_setWidth, BitVec.toNat_ushiftRight, Nat.shiftRight_eq_div_pow]
    have hlt := (payload.getD 1 0x00#8).isLt
    simp only [prefixNat, h]
    have hzero : (0x00#8 : Byte).toNat = 0 := rfl
    omega
  · have hinput : (decStart payload).input = payload.tail.tail := rfl
    rw [hinput, getD_tail, getD_tail]
    congr 1
    omega

/-- The decoder starts where the encoder starts: the first payload byte is 0, and the next four are read. -/
theorem decStart_follows {payload : List Byte} (h : encStart.Holds payload) :
    (decNormalize coderTurns (decStart payload)).Follows payload (encNormalize coderTurns encStart) := by
  obtain ⟨-, hmax⟩ := h
  have hvalue : encStart.value = 0 := rfl
  have hrange : encStart.range.toNat = 2 ^ 31 := rfl
  have hsize : encStart.size = 0 := rfl
  rw [hvalue, hrange, hsize] at hmax
  simp only [prefixNat] at hmax
  have hfirst : payload.getD 0 0x00#8 = 0x00#8 := BitVec.eq_of_toNat_eq (by rw [BitVec.toNat_ofNat]; omega)
  have hone := decStart_hasRead hfirst
  have hzero : (0x00#8 : Byte).toNat = 0 := rfl
  have hlow1 := hone.low
  simp only [prefixNat, hfirst, hzero] at hlow1
  have htwo := hone.turn (by have hlt := (payload.getD 1 0x00#8).isLt; omega)
  have hlow2 := htwo.low
  simp only [prefixNat, hfirst, hzero] at hlow2
  have hthree := htwo.turn (by
    have hlt := (payload.getD 1 0x00#8).isLt
    have hlt' := (payload.getD 2 0x00#8).isLt
    omega)
  have hlow3 := hthree.low
  simp only [prefixNat, hfirst, hzero] at hlow3
  have hfour := hthree.turn (by omega)
  obtain ⟨hturns, hrange'⟩ := decNormalize_decStart payload
  rw [hturns]
  exact ⟨hrange', hfour⟩

/-- The decoder reads zero bytes past the end in any case (rule R186). -/
theorem prefixNat_append_zeros (l : List Byte) (n k : Nat) :
    prefixNat (l ++ List.replicate n 0x00#8) k = prefixNat l k := by
  refine prefixNat_congr k fun i _ => ?_
  rcases Nat.lt_or_ge i l.length with hin | hpast
  · rw [List.getD_append _ _ _ _ hin]
  · rw [List.getD_append_right _ _ _ _ hpast, List.getD_eq_default _ _ hpast]
    rw [List.getD_eq_getElem?_getD, List.getElem?_replicate]
    split <;> rfl

theorem rangeDecode_rangeEncode {z : List Byte} {cnt : List Nat} (filler : Nat) (hlength : cnt.length = 256)
    (hT : totalCount cnt ≤ 65280) (hz : ∀ b ∈ z, 0 < countOf cnt b.toNat) (hshort : 17 * z.length + 16 ≤ 2 ^ 35) :
    rangeDecode (rangeEncode z cnt ++ List.replicate filler 0x00#8) cnt z.length = z := by
  have hlast : (encNormalize coderTurns (z.foldl (encodeSymbol cnt) encStart)).Holds
      (rangeEncode z cnt ++ List.replicate filler 0x00#8) := by
    rw [EncState.Holds, prefixNat_append_zeros]
    exact encFinish_holds (encStart_good.stream hT z (by omega) hz)
  have hfirst := EncState.Holds.of_stream hT z encStart_good (by omega) hz hlast
  exact decodeSymbols_of_follows hlength hT z encStart_good (by omega) hz hlast
    (decStart_follows (.of_normalize coderTurns encStart_good hfirst))

end Sys2Proof.Machine

namespace Sys2Proof.Proofs.RedCoder

open Sys2Proof Sys2Proof.Machine

/-- Settles O46: the payload's number stays in the encoder's interval, so the decoder, which holds that number less the
encoder's, finds each symbol. -/
theorem rangeDecodeInvertsEncode : Obligations.RangeDecodeInvertsEncode := by
  intro cfg z filler hcfg _ hshort cnt
  exact rangeDecode_rangeEncode filler ((length_scale cfg _).trans (length_histogram z))
    (totalCount_le fun _ => le_255_of_mem_scale hcfg) (fun _ => countOf_scale_histogram_pos hcfg) hshort

end Sys2Proof.Proofs.RedCoder
end

section
/-!
PROOF. Samples in memory, and the extremes of a list (rules R172, R175).
-/

namespace Sys2Proof.Machine

/-- The sample that is stored at an address (rule R172). -/
def Memory.sampleAt (m : Memory) (a : Nat) : Int := (BitVec.ofNat 32 (leNat (m.readBytes a 4))).toInt

theorem samplesOf_readBytes (m : Memory) (k : Nat) : ∀ a,
    samplesOf (m.readBytes a (4 * k)) = (List.range k).map fun j => m.sampleAt (a + 4 * j) := by
  induction k with
  | zero => intro a; rfl
  | succ k ih =>
    intro a
    have hfirst : samplesOf (m.readBytes a (4 * (k + 1))) = m.sampleAt a :: samplesOf (m.readBytes (a + 4) (4 * k)) := rfl
    rw [hfirst, ih, List.range_succ_eq_map, List.map_cons, List.map_map]
    refine congrArg _ (List.map_congr_left fun j _ => congrArg m.sampleAt ?_)
    omega

theorem greatest_spec {v : List Int} (hv : v ≠ []) : greatest v ∈ v ∧ ∀ y ∈ v, y ≤ greatest v := by
  obtain ⟨x, rest, rfl⟩ := List.exists_cons_of_ne_nil hv
  rw [← List.max?_eq_some_iff, List.max?_cons']
  rfl

theorem least_spec {v : List Int} (hv : v ≠ []) : least v ∈ v ∧ ∀ y ∈ v, least v ≤ y := by
  obtain ⟨x, rest, rfl⟩ := List.exists_cons_of_ne_nil hv
  rw [← List.min?_eq_some_iff, List.min?_cons']
  rfl

theorem in24_eq_false_iff (x : Int) : in24 x = false ↔ x < -2 ^ 23 ∨ 2 ^ 23 - 1 < x := by
  rw [in24, Bool.and_eq_false_iff, decide_eq_false_iff_not, decide_eq_false_iff_not, not_le, not_le]

/-- The extremes of a list of words, as words. -/
theorem ofInt_greatest_spec {l : List Word} (hl : l ≠ []) :
    BitVec.ofInt 32 (greatest (l.map BitVec.toInt)) ∈ l
      ∧ ∀ x ∈ l, x.toInt ≤ (BitVec.ofInt 32 (greatest (l.map BitVec.toInt))).toInt := by
  obtain ⟨hmem, hle⟩ := greatest_spec (v := l.map BitVec.toInt) (by simpa using hl)
  obtain ⟨w, hw, heq⟩ := List.mem_map.1 hmem
  rw [← heq] at hle ⊢
  rw [BitVec.ofInt_toInt]
  exact ⟨hw, fun x hx => hle _ (List.mem_map_of_mem hx)⟩

theorem ofInt_least_spec {l : List Word} (hl : l ≠ []) :
    BitVec.ofInt 32 (least (l.map BitVec.toInt)) ∈ l
      ∧ ∀ x ∈ l, (BitVec.ofInt 32 (least (l.map BitVec.toInt))).toInt ≤ x.toInt := by
  obtain ⟨hmem, hle⟩ := least_spec (v := l.map BitVec.toInt) (by simpa using hl)
  obtain ⟨w, hw, heq⟩ := List.mem_map.1 hmem
  rw [← heq] at hle ⊢
  rw [BitVec.ofInt_toInt]
  exact ⟨hw, fun x hx => hle _ (List.mem_map_of_mem hx)⟩

end Sys2Proof.Machine
end

section
/-!
PROOF. The ends of the RED commands on memory (rules R204, R205, R244, R245).
-/

namespace Sys2Proof.Machine

/-- An error end, with the results 0 and memory changed in a range only. -/
def State.FailsAs (s t : State) (code : ErrCode) (addr : Nat) (r : ByteRange) : Prop :=
  t.EndedWith code (BitVec.ofNat 32 addr) ∧ t.ResultsAre 0#32 0#32 0#32 0#32 ∧ t.FlagsAre false false false
    ∧ SameMemoryOutside r s t ∧ SameKeys s t ∧ t.crc = s.crc ∧ SameRest s t

section Ends

variable (s : State) {code : ErrCode} {addr : Nat}

theorem erraddr_eq (h : code = .bus ∨ addr = 0) : (if code = .bus then toWord addr else 0#32) = BitVec.ofNat 32 addr := by
  rcases h with rfl | rfl
  · rfl
  · exact ite_self _

theorem State.raiseError_failsAs (h : code = .bus ∨ addr = 0) (r : ByteRange) :
    s.FailsAs (s.raiseError code addr 0) code addr r :=
  ⟨⟨rfl, rfl, rfl, erraddr_eq h⟩, ⟨rfl, rfl, rfl, rfl⟩, ⟨rfl, rfl, rfl⟩, fun _ _ => rfl, ⟨rfl, rfl⟩, rfl,
    State.finish_sameRest s _ _ _⟩

theorem State.failScrambled_failsAs (h : code = .bus ∨ addr = 0) :
    s.FailsAs (s.failScrambled code addr) code addr ⟨s.latch.dst.toNat, s.latch.dstlen.toNat⟩ := by
  refine ⟨⟨rfl, rfl, rfl, erraddr_eq h⟩, ⟨rfl, rfl, rfl, rfl⟩, ⟨rfl, rfl, rfl⟩, fun x hx => ?_, ⟨rfl, rfl⟩, rfl,
    State.finish_sameRest _ _ _ _⟩
  refine Memory.read_scramble_other _ _ _ _ _ fun hin => ?_
  simp [ByteRange.contains, hin] at hx

end Ends

section RedEncode

variable {s : State} {crypt disc : Bool}

/-- The samples of the running `RED_ENC`, one for each four bytes of its source. -/
def State.redEncSamples (s : State) : List Int :=
  (List.range (s.latch.srclen.toNat / 4)).map fun j => s.mem.sampleAt (s.latch.src.toNat + 4 * j)

theorem samplesOf_sourceBytes (h : s.latch.srclen.toNat % 4 = 0) : samplesOf s.sourceBytes = s.redEncSamples := by
  have hsize : s.latch.srclen.toNat = 4 * (s.latch.srclen.toNat / 4) := by omega
  rw [State.sourceBytes, State.redEncSamples]
  conv_lhs => rw [hsize]
  exact samplesOf_readBytes _ _ _

theorem State.redEncBlock_eq (h : s.latch.srclen.toNat % 4 = 0) :
    s.redEncBlock crypt disc = encodeBlock s.cfg s.redEncSamples
      (s.latch.btimeHi.toNat * 2 ^ 32 + s.latch.btimeLo.toNat) disc (if crypt then some s.rk else none) := by
  rw [State.redEncBlock, samplesOf_sourceBytes h]
  rfl

theorem rangesApart_of_apart {a n d cap : Nat} (h : cap = 0 ∨ a + n ≤ d ∨ d + cap ≤ a) : RangesApart a n d cap := by
  unfold RangesApart
  omega

end RedEncode

section RedDecode

variable {s : State} {crypt : Bool}

/-- The counts in the table of the block that the running `RED_DEC` reads. -/
def State.sourceCounts (s : State) (crypt : Bool) : List Nat :=
  (if crypt then ecbDec s.rk (s.mem.readBytes (s.latch.src.toNat + 31) 256)
    else s.mem.readBytes (s.latch.src.toNat + 31) 256).map BitVec.toNat

theorem exec_redDec (s : State) (crypt validate : Bool) :
    exec (.redDec crypt validate) s = execRedDec crypt validate s := rfl

theorem redDecCounts_eq (hheader : 287 ≤ s.blockField 4 4) : s.redDecCounts crypt = s.sourceCounts crypt := by
  have hstored : (s.redDecBytes.drop 31).take 256 = s.mem.readBytes (s.latch.src.toNat + 31) 256 := by
    rw [State.redDecBytes, Memory.drop_readBytes _ _ _ _ (by omega), Memory.take_readBytes _ _ _ _ (by omega)]
  rw [State.sourceCounts, ← hstored]
  cases crypt <;> rfl

theorem redDecSamples_eq (hheader : 287 ≤ s.blockField 4 4) :
    s.redDecSamples crypt
      = deltaDecode (rangeDecode (s.mem.readBytes (s.latch.src.toNat + 287) (s.blockField 4 4 - 287))
          (s.sourceCounts crypt) (s.blockField 16 4)) := by
  rw [State.redDecSamples, decodeBlock, redDecCounts_eq hheader, State.redDecBytes, headerSize,
    Memory.drop_readBytes _ _ _ _ hheader]

theorem checksumOK_redDecBytes (hheader : 287 ≤ s.blockField 4 4) :
    checksumOK s.cfg s.redDecBytes = true
      ↔ (crc32 s.cfg (s.mem.readBytes (s.latch.src.toNat + 4) (s.blockField 4 4 - 4))).toNat = s.blockField 0 4 := by
  rw [checksumOK, beq_iff_eq, State.redDecBytes, Memory.drop_readBytes _ _ _ _ (by omega),
    fieldAt_readBytes _ _ (by omega), State.blockField, State.blockField]

end RedDecode

end Sys2Proof.Machine

namespace Sys2Proof.Proofs.RedCommands

open Sys2Proof Sys2Proof.Machine

/-- Settles O49: the command reads the samples, and stores the block that they make. -/
theorem redEncStoresTheBlock : Obligations.RedEncStoresTheBlock := by
  intro s crypt disc a n d cap v block hwf hkey hpos hmul hsrc hdst happart hread hroom hwrite
  have hsamples : samplesOf s.sourceBytes = v := samplesOf_sourceBytes hmul
  have hblock : s.redEncBlock crypt disc = block := State.redEncBlock_eq hmul
  have hcheck := redEncCheck_none hkey ⟨hpos, hmul, hsrc, hdst⟩ (rangesApart_of_apart (.inr happart))
  have hexec : exec (.redEnc crypt disc) s = _ :=
    execRedEnc_of_allDmaOK (disc := disc) hcheck hread (by rwa [hblock]) (by rwa [hblock])
  obtain ⟨hstored, houtside, hkeys, hcrc, hrest⟩ :=
    State.finish_stored hwf d (congrArg List.length hblock) (s.redEncOutputs crypt disc) .ok 0#32
  have hv : v ≠ [] := by
    intro hnil
    have hlength := congrArg List.length hnil
    rw [List.length_map, List.length_range, List.length_nil] at hlength
    omega
  obtain ⟨hmax, hmaxle⟩ := greatest_spec hv
  obtain ⟨hmin, hminle⟩ := least_spec hv
  have hreslen : (s.redEncOutputs crypt disc).reslen = toWord block.length := by rw [← hblock]; rfl
  have hdiffs : (s.redEncOutputs crypt disc).diffcnt = toWord (deltaEncode v).length := by rw [← hsamples]; rfl
  have hmaxv : (s.redEncOutputs crypt disc).maxv = BitVec.ofInt 32 (greatest v) := by rw [← hsamples]; rfl
  have hminv : (s.redEncOutputs crypt disc).minv = BitVec.ofInt 32 (least v) := by rw [← hsamples]; rfl
  have hflag : (s.redEncOutputs crypt disc).s24ovf = v.any fun x => !in24 x := by rw [← hsamples]; rfl
  refine ⟨_, hexec, hstored.trans hblock, houtside, ⟨rfl, rfl, rfl, rfl⟩, hreslen, hdiffs, ⟨_, hmax, hmaxle, hmaxv⟩,
    ⟨_, hmin, hminle, hminv⟩, rfl, rfl, ?_, hkeys, hcrc, hrest⟩
  rw [State.complete_s24ovf, hflag, List.any_eq_true]
  simp only [Bool.not_eq_true', in24_eq_false_iff]

/-- Settles O50: each check, read and write that fails ends the command there. -/
theorem redEncErrors : Obligations.RedEncErrors := by
  intro s crypt disc a n d cap v block key shape apart fails
  have hblock (hshape : shape) : s.redEncBlock crypt disc = block := State.redEncBlock_eq hshape.2.1
  have hcheck (hkey : key) (hshape : shape) (happart : apart) : redEncCheck crypt s = none :=
    redEncCheck_none hkey hshape happart
  refine ⟨fun hkey => ?_, fun hkey hshape => ?_, fun hkey hshape hmeet => ?_, fun e hkey hshape happart hbad => ?_,
    fun hkey hshape happart hread hsmall => ?_, fun e hkey hshape happart hread hroom hbad => ?_⟩
  · exact ⟨_, execRedEnc_of_check (redEncCheck_noKey hkey), s.raiseError_failsAs (.inr rfl) _⟩
  · exact ⟨_, execRedEnc_of_check (redEncCheck_len hkey hshape), s.raiseError_failsAs (.inr rfl) _⟩
  · exact ⟨_, execRedEnc_of_check (redEncCheck_overlap hkey hshape hmeet), s.raiseError_failsAs (.inr rfl) _⟩
  · exact ⟨_, execRedEnc_of_readFails (hcheck hkey hshape happart) hbad, s.failScrambled_failsAs (.inl rfl)⟩
  · exact ⟨_, execRedEnc_of_noRoom (hcheck hkey hshape happart) hread (by rwa [hblock hshape]),
      s.failScrambled_failsAs (.inr rfl)⟩
  · exact ⟨_, execRedEnc_of_writeFails (hcheck hkey hshape happart) hread (by rwa [hblock hshape])
      (by rwa [hblock hshape]), s.failScrambled_failsAs (.inl rfl)⟩

/-- Settles O51: the command reads the block, and stores what its table and its payload give. -/
theorem redDecStoresTheSamples : Obligations.RedDecStoresTheSamples := by
  intro s crypt validate a n d cap l diffs count stored cnt out w hwf hkey hheader hsrc hdst happart hmin hmax hroom
    hread hmodel hwrite
  have hcheck := redDecCheck_none hkey ⟨hheader, hsrc, hdst⟩ (rangesApart_of_apart happart)
  have hblock : s.RedDecReadable := ⟨hmin, hmax, hroom, hread⟩
  have hcounts : s.redDecCounts crypt = cnt := redDecCounts_eq hmin
  have hsamples : s.redDecSamples crypt = out := redDecSamples_eq hmin
  have hkept : s.redDecKept crypt = out.take w := by
    rw [State.redDecKept, hsamples, List.take_eq_take_iff]
    exact (Nat.min_comm _ _).trans (Nat.min_eq_left (Nat.min_le_left _ _)).symm
  have hlength : (out.take w).length = w := by
    rw [List.length_take]
    omega
  have hstoredLength : ((s.redDecKept crypt).flatMap wordBytes).length = 4 * w := by
    rw [length_flatMap_wordBytes, hkept, hlength]
  have hdecodes : ¬ (totalCount cnt = 0 ∧ 0 < diffs) := by omega
  have hexec := execRedDec_of_allDmaOK (validate := validate) hcheck hblock (by rw [hcounts]; exact hdecodes)
    (by rwa [hkept, hlength])
  obtain ⟨hstored, houtside, hkeys, hcrc, hrest⟩ :=
    State.finish_stored hwf d hstoredLength (s.redDecOutputs crypt validate) .ok 0#32
  have hreslen : (s.redDecOutputs crypt validate).reslen = toWord (4 * w) := by rw [← hlength, ← hkept]; rfl
  have hdiffs : (s.redDecOutputs crypt validate).diffcnt = toWord diffs := rfl
  have hmaxv : (s.redDecOutputs crypt validate).maxv = BitVec.ofInt 32 (greatest ((out.take w).map BitVec.toInt)) := by
    rw [← hkept]; rfl
  have hminv : (s.redDecOutputs crypt validate).minv = BitVec.ofInt 32 (least ((out.take w).map BitVec.toInt)) := by
    rw [← hkept]; rfl
  have hcrcok : (s.redDecOutputs crypt validate).crcok = (validate && checksumOK s.cfg s.redDecBytes) := rfl
  have hcntok : (s.redDecOutputs crypt validate).cntok = (out.length == count) := by rw [← hsamples]; rfl
  refine ⟨_, (exec_redDec s crypt validate).trans hexec, hstored.trans (congrArg (·.flatMap wordBytes) hkept), houtside,
    State.finish_endedWith _ _ _ _, hreslen, hdiffs, fun hnone => ?none, fun hsome => ?some, ?crcok, ?cntok, rfl, hkeys, hcrc, hrest⟩
  case none =>
    rw [State.complete_maxv, State.complete_minv, hmaxv, hminv, hnone, List.take_zero]
    exact ⟨rfl, rfl⟩
  case some =>
    have hne : out.take w ≠ [] := List.ne_nil_of_length_pos (by omega)
    obtain ⟨hmaxmem, hmaxle⟩ := ofInt_greatest_spec hne
    obtain ⟨hminmem, hminle⟩ := ofInt_least_spec hne
    rw [State.complete_maxv, State.complete_minv, hmaxv, hminv]
    exact ⟨hmaxmem, hminmem, fun x hx => ⟨hminle x hx, hmaxle x hx⟩⟩
  case crcok =>
    rw [State.complete_crcok, hcrcok, Bool.and_eq_true, checksumOK_redDecBytes hmin]
    rfl
  case cntok =>
    rw [State.complete_cntok, hcntok, beq_iff_eq]

/-- Settles O52: each check, read and write that fails ends the command there, and an empty table too. -/
theorem redDecErrors : Obligations.RedDecErrors := by
  intro s crypt validate a n d cap l diffs count stored cnt out w key shape apart fails
  have hcheck (hkey : key) (hshape : shape) (happart : apart) : redDecCheck crypt s = none :=
    redDecCheck_none hkey hshape happart
  have hlength (hmin : 287 ≤ l) (hmax : l ≤ n) : ¬ (s.blockField 4 4 < 287 ∨ s.latch.srclen.toNat < s.blockField 4 4) :=
    not_or.2 ⟨not_lt.2 hmin, not_lt.2 hmax⟩
  have hcounts (hmin : 287 ≤ l) : s.redDecCounts crypt = cnt := redDecCounts_eq hmin
  have ends {t code addr r} (hexec : execRedDec crypt validate s = .next t) (hfails : s.FailsAs t code addr r) :
      fails code addr r := ⟨t, hexec, hfails⟩
  refine ⟨fun hkey => ?_, fun hkey hshape => ?_, fun hkey hshape hmeet => ?_, fun e hkey hshape happart hbad => ?_,
    fun hkey hshape happart hread hbad => ?_, fun hkey hshape happart hread hmin hmax hsmall => ?_,
    fun e hkey hshape happart hread hmin hmax hroom hbad => ?_,
    fun hkey hshape happart hmin hmax hroom hread hzero hpos => ?_,
    fun e hkey hshape happart hmin hmax hroom hread hmodel hbad => ?_⟩
  · exact ends (execRedDec_of_check (redDecCheck_noKey hkey)) (s.raiseError_failsAs (.inr rfl) _)
  · exact ends (execRedDec_of_check (redDecCheck_len hkey hshape)) (s.raiseError_failsAs (.inr rfl) _)
  · exact ends (execRedDec_of_check (redDecCheck_overlap hkey hshape hmeet)) (s.raiseError_failsAs (.inr rfl) _)
  · exact ends (execRedDec_of_headerFails (hcheck hkey hshape happart) hbad) (s.raiseError_failsAs (.inl rfl) _)
  · exact ends (execRedDec_of_badLength (hcheck hkey hshape happart) hread hbad) (s.raiseError_failsAs (.inr rfl) _)
  · exact ends (execRedDec_of_noRoom (hcheck hkey hshape happart) hread (hlength hmin hmax) hsmall)
      (s.raiseError_failsAs (.inr rfl) _)
  · exact ends (execRedDec_of_bodyFails (hcheck hkey hshape happart) hread (hlength hmin hmax) (not_lt.2 hroom) hbad)
      (s.raiseError_failsAs (.inl rfl) _)
  · exact ends (execRedDec_of_noModel (hcheck hkey hshape happart) ⟨hmin, hmax, hroom, hread⟩
      ⟨(congrArg totalCount (hcounts hmin)).trans hzero, hpos⟩) (s.raiseError_failsAs (.inr rfl) _)
  · have hkept : (s.redDecKept crypt).length = w := by
      have hsamples : s.redDecSamples crypt = out := redDecSamples_eq hmin
      rw [State.redDecKept, hsamples, List.length_take, Nat.min_comm]
      rfl
    have hdecodes : ¬ (totalCount cnt = 0 ∧ 0 < diffs) := by omega
    exact ends (execRedDec_of_writeFails (hcheck hkey hshape happart) ⟨hmin, hmax, hroom, hread⟩
      (by rw [hcounts hmin]; exact hdecodes) (by rwa [hkept])) (s.failScrambled_failsAs (.inl rfl))

end Sys2Proof.Proofs.RedCommands
end

section
/-!
PROOF. A block in memory, read back (rules R171, R205, R206): its fields, its table, its samples.
-/

namespace Sys2Proof.Machine

theorem leNat_leBytes_of_lt {n v : Nat} (h : v < 256 ^ n) : leNat (leBytes n v) = v := by
  rw [leNat_leBytes, Nat.mod_eq_of_lt h]

theorem leBytes_leNat (bytes : List Byte) : leBytes bytes.length (leNat bytes) = bytes := by
  induction bytes with
  | nil => rfl
  | cons b rest ih =>
    have hb := b.isLt
    have hdigit : BitVec.ofNat 8 (b.toNat + 256 * leNat rest) = b := by
      apply BitVec.eq_of_toNat_eq
      rw [BitVec.toNat_ofNat]
      omega
    have hrest : (b.toNat + 256 * leNat rest) / 256 = leNat rest := by omega
    rw [List.length_cons, leNat, leBytes, hdigit, hrest, ih]

theorem leNat_lt (bytes : List Byte) : leNat bytes < 256 ^ bytes.length := by
  induction bytes with
  | nil => simp [leNat]
  | cons b rest ih =>
    have hb := b.isLt
    rw [leNat, List.length_cons, pow_succ]
    omega

/-- A sample's word is the four bytes that it was read from. -/
theorem wordBytes_sampleAt (m : Memory) (a : Nat) : wordBytes (BitVec.ofInt 32 (m.sampleAt a)) = m.readBytes a 4 := by
  have hlt := leNat_lt (m.readBytes a 4)
  have hlength := m.length_readBytes 4 a
  rw [hlength] at hlt
  have hback := leBytes_leNat (m.readBytes a 4)
  rw [hlength] at hback
  rw [Memory.sampleAt, BitVec.ofInt_toInt, wordBytes, BitVec.toNat_ofNat, Nat.mod_eq_of_lt (by omega), hback]

theorem flatMap_wordBytes_samples (m : Memory) (k : Nat) : ∀ a,
    (((List.range k).map fun j => m.sampleAt (a + 4 * j)).map (BitVec.ofInt 32)).flatMap wordBytes
      = m.readBytes a (4 * k) := by
  intro a
  rw [List.map_map, List.flatMap_map]
  induction k with
  | zero => rfl
  | succ k ih =>
    rw [List.range_succ, List.flatMap_append, ih, Nat.mul_add, Nat.mul_one, Memory.readBytes_add,
      List.flatMap_singleton]
    exact congrArg _ (wordBytes_sampleAt m _)

theorem storedTable_none (cnt : List Nat) : storedTable none cnt = cnt.map fun c => BitVec.ofNat 8 c := rfl

theorem storedTable_some (rk : RoundKeys) (cnt : List Nat) :
    storedTable (some rk) cnt = ecbEnc rk (cnt.map fun c => BitVec.ofNat 8 c) := rfl

theorem sourceCounts_false (s : State) :
    s.sourceCounts false = (s.mem.readBytes (s.latch.src.toNat + 31) 256).map BitVec.toNat := rfl

theorem sourceCounts_true (s : State) :
    s.sourceCounts true = (ecbDec s.rk (s.mem.readBytes (s.latch.src.toNat + 31) 256)).map BitVec.toNat := rfl

section Block

variable {s : State} {v : List Int} {blockTime : Nat} {disc crypt : Bool}

/-- The source of the running `RED_DEC` starts with the block of the samples `v`, with the table under its key. -/
def State.SourceHolds (s : State) (v : List Int) (blockTime : Nat) (disc crypt : Bool) : Prop :=
  s.mem.readBytes s.latch.src.toNat (encodeBlock s.cfg v blockTime disc (s.tableKey crypt)).length
    = encodeBlock s.cfg v blockTime disc (s.tableKey crypt)

theorem State.SourceHolds.readBytes (h : s.SourceHolds v blockTime disc crypt) {k n : Nat}
    (hk : k + n ≤ (encodeBlock s.cfg v blockTime disc (s.tableKey crypt)).length) :
    s.mem.readBytes (s.latch.src.toNat + k) n
      = ((encodeBlock s.cfg v blockTime disc (s.tableKey crypt)).drop k).take n := by
  unfold State.SourceHolds at h
  generalize encodeBlock s.cfg v blockTime disc (s.tableKey crypt) = block at h hk
  rw [← Memory.take_readBytes _ _ (block.length - k) _ (by omega), ← Memory.drop_readBytes _ _ _ _ (by omega), h]

theorem State.SourceHolds.drop (h : s.SourceHolds v blockTime disc crypt) {k n : Nat}
    (hn : k + n = (encodeBlock s.cfg v blockTime disc (s.tableKey crypt)).length) :
    s.mem.readBytes (s.latch.src.toNat + k) n = (encodeBlock s.cfg v blockTime disc (s.tableKey crypt)).drop k := by
  rw [h.readBytes hn.le, List.take_of_length_le]
  rw [List.length_drop]
  omega

/-- A part of the block, at its offset (rule R171). -/
theorem State.SourceHolds.part (h : s.SourceHolds v blockTime disc crypt) (i : Nat) {offset : Nat} {part : List Byte}
    (hoffset : ((partSizes (samplesPayload s.cfg v).length).take i).sum = offset)
    (hpart : (blockParts s.cfg v blockTime disc (s.tableKey crypt))[i]? = some part)
    (hle : offset + part.length ≤ (encodeBlock s.cfg v blockTime disc (s.tableKey crypt)).length) :
    s.mem.readBytes (s.latch.src.toNat + offset) part.length = part :=
  (h.readBytes hle).trans (take_drop_encodeBlock s.cfg v blockTime disc (s.tableKey crypt) i hoffset hpart rfl)

/-- The samples fit a source range, and their block fits a destination range. -/
structure FitsMemory (v : List Int) : Prop where
  ne_nil : v ≠ []
  samples_le : 4 * v.length ≤ 2 ^ 32
  block_lt : 297 + (17 * (4 * v.length - 1) + 7) / 8 < 2 ^ 32

/-- Rule R208's bounds, as far as the round trip needs them. -/
theorem encodeBlock_bounds (hcfg : s.cfg.wellFormed = true) (hv : v ≠ []) :
    288 ≤ (encodeBlock s.cfg v blockTime disc (s.tableKey crypt)).length
      ∧ (encodeBlock s.cfg v blockTime disc (s.tableKey crypt)).length ≤ 297 + (17 * (4 * v.length - 1) + 7) / 8
      ∧ (deltaEncode v).length ≤ 4 * v.length - 1 := by
  obtain ⟨hdelta, hmin, -, hmax⟩ := Proofs.RedBlock.blockSizeBounds s.cfg v blockTime disc (s.tableKey crypt) hcfg hv
  exact ⟨hmin, hmax, hdelta⟩

variable (h : s.SourceHolds v blockTime disc crypt) (hcfg : s.cfg.wellFormed = true) (hfits : FitsMemory v)

include h hcfg hfits

theorem State.SourceHolds.fields :
    s.blockField 4 4 = (encodeBlock s.cfg v blockTime disc (s.tableKey crypt)).length
      ∧ s.blockField 16 4 = (deltaEncode v).length ∧ s.blockField 20 4 = v.length := by
  obtain ⟨hv, hlength, hsize⟩ := hfits
  obtain ⟨hmin, hmax, hdelta⟩ := encodeBlock_bounds (blockTime := blockTime) (disc := disc) (crypt := crypt) hcfg hv
  have field (i : Nat) {offset x : Nat}
      (hoffset : ((partSizes (samplesPayload s.cfg v).length).take i).sum = offset)
      (hpart : (blockParts s.cfg v blockTime disc (s.tableKey crypt))[i]? = some (leBytes 4 x))
      (hle : offset ≤ 284) (hx : x < 2 ^ 32) : s.blockField offset 4 = x := by
    have hbytes := h.part i hoffset hpart (by rw [length_leBytes]; omega)
    rw [length_leBytes] at hbytes
    rw [State.blockField, hbytes, leNat_leBytes_of_lt hx]
  have hblock := length_encodeBlock s.cfg v blockTime disc (s.tableKey crypt)
  refine ⟨?_, field 3 rfl rfl (by norm_num) (by omega), field 4 rfl rfl (by norm_num) (by omega)⟩
  rw [hblock]
  exact field 1 rfl rfl (by norm_num) (by omega)

theorem State.SourceHolds.counts : s.sourceCounts crypt = scale s.cfg (histogram (deltaEncode v)) := by
  obtain ⟨hmin, -, -⟩ :=
    encodeBlock_bounds (blockTime := blockTime) (disc := disc) (crypt := crypt) hcfg hfits.ne_nil
  have htable : (scale s.cfg (histogram (deltaEncode v))).length = 256 := by simp
  have hlength := length_storedTable (s.tableKey crypt) htable
  have hstored := h.part 8 (offset := 31) rfl rfl (by omega)
  rw [hlength] at hstored
  have hback : ((scale s.cfg (histogram (deltaEncode v))).map fun c => BitVec.ofNat 8 c).map BitVec.toNat
      = scale s.cfg (histogram (deltaEncode v)) := by
    rw [List.map_map]
    refine (List.map_congr_left fun c hc => ?_).trans (List.map_id _)
    have hle := le_255_of_mem_scale hcfg hc
    rw [Function.comp_apply, BitVec.toNat_ofNat, Nat.mod_eq_of_lt (by omega), id]
  cases crypt with
  | false =>
    have hkey : s.tableKey false = none := rfl
    rw [sourceCounts_false, hstored, hkey, storedTable_none, hback]
  | true =>
    have hkey : s.tableKey true = some s.rk := rfl
    have hdecrypted := ecb_ecb (invCipher_cipher s.rk) 16 ((List.length_map (fun c => BitVec.ofNat 8 c)).trans htable)
    rw [sourceCounts_true, hstored, hkey, storedTable_some, ecbDec, ecbEnc, hdecrypted, hback]

theorem State.SourceHolds.samples (hin24 : ∀ x ∈ v, -2 ^ 23 ≤ x ∧ x ≤ 2 ^ 23 - 1) :
    s.redDecSamples crypt = v.map (BitVec.ofInt 32) := by
  obtain ⟨hl, hdiffs, -⟩ := h.fields hcfg hfits
  have hcounts := h.counts hcfg hfits
  obtain ⟨hv, hlength, hsize⟩ := hfits
  obtain ⟨hmin, hmax, hdelta⟩ := encodeBlock_bounds (blockTime := blockTime) (disc := disc) (crypt := crypt) hcfg hv
  have hpayload : (encodeBlock s.cfg v blockTime disc (s.tableKey crypt)).drop 287
      = samplesPayload s.cfg v ++ List.replicate (fillerCount (samplesPayload s.cfg v).length) 0x00#8 :=
    (drop_encodeBlock s.cfg v blockTime disc (s.tableKey crypt) 9 rfl).trans (congrArg _ (List.append_nil _))
  rw [redDecSamples_eq (by omega), hl, hdiffs, hcounts, h.drop (Nat.add_sub_cancel' (by omega)), hpayload,
    samplesPayload, rangeDecode_rangeEncode _ (by simp) (totalCount_le fun _ => le_255_of_mem_scale hcfg)
      (fun _ => countOf_scale_histogram_pos hcfg) (by omega), deltaDecode_deltaEncode hin24]

theorem State.SourceHolds.checksum : checksumOK s.cfg s.redDecBytes = true := by
  obtain ⟨hl, -, -⟩ := h.fields hcfg hfits
  obtain ⟨hmin, -, -⟩ :=
    encodeBlock_bounds (blockTime := blockTime) (disc := disc) (crypt := crypt) hcfg hfits.ne_nil
  have hstored := h.part 0 (offset := 0) rfl rfl (by rw [length_wordBytes]; omega)
  rw [length_wordBytes] at hstored
  rw [checksumOK_redDecBytes (by omega), hl, h.drop (Nat.add_sub_cancel' (by omega)), drop_four_encodeBlock,
    State.blockField, hstored, wordBytes, leNat_leBytes_of_lt (BitVec.isLt _)]

/-- Any table of the block of some samples can decode. -/
theorem State.SourceHolds.decodes : 0 < totalCount (s.redDecCounts crypt) := by
  obtain ⟨hl, -, -⟩ := h.fields hcfg hfits
  obtain ⟨hmin, -, -⟩ :=
    encodeBlock_bounds (blockTime := blockTime) (disc := disc) (crypt := crypt) hcfg hfits.ne_nil
  have hnonempty : deltaEncode v ≠ [] := by
    intro hnil
    have hcount := length_deltaEncode hfits.ne_nil
    rw [hnil, List.length_nil] at hcount
    omega
  rw [redDecCounts_eq (by omega), h.counts hcfg hfits]
  exact (Proofs.RedCoder.totalCountBounds s.cfg (deltaEncode v) hcfg hnonempty).1

/-- `RED_DEC` of a block with `VALIDATE = 1` stores the samples of the block (rules R205, R206). -/
theorem State.SourceHolds.execRedDec (hin24 : ∀ x ∈ v, -2 ^ 23 ≤ x ∧ x ≤ 2 ^ 23 - 1)
    (hcheck : redDecCheck crypt s = none)
    (hroom : s.latch.dstlen.toNat = 4 * v.length)
    (hsize : s.latch.srclen.toNat = (encodeBlock s.cfg v blockTime disc (s.tableKey crypt)).length)
    (hread : AllDmaOK s.cfg .read s.latch.src.toNat s.latch.srclen.toNat)
    (hwrite : AllDmaOK s.cfg .write s.latch.dst.toNat s.latch.dstlen.toNat) :
    ∃ out : Outputs, exec (.redDec crypt true) s
        = .next ((s.withBytes s.latch.dst.toNat ((v.map (BitVec.ofInt 32)).flatMap wordBytes)).complete out)
      ∧ out.crcok = true ∧ out.cntok = true ∧ out.s24ovf = false ∧ out.reslen = toWord (4 * v.length) := by
  obtain ⟨hl, hdiffs, hcount⟩ := h.fields hcfg hfits
  have hsamples := h.samples hcfg hfits hin24
  have hchecksum := h.checksum hcfg hfits
  have hdecodes := h.decodes hcfg hfits
  obtain ⟨hmin, -, -⟩ :=
    encodeBlock_bounds (blockTime := blockTime) (disc := disc) (crypt := crypt) hcfg hfits.ne_nil
  have hkept : s.redDecKept crypt = v.map (BitVec.ofInt 32) := by
    rw [State.redDecKept, hsamples, hcount, List.take_of_length_le (by rw [List.length_map])]
  have hkeptLength : (s.redDecKept crypt).length = v.length := by rw [hkept, List.length_map]
  have hblock : s.RedDecReadable := ⟨by omega, by omega, by omega, by rwa [hl, ← hsize]⟩
  have hexec := execRedDec_of_allDmaOK (validate := true) hcheck hblock (by omega) (by rwa [hkeptLength, ← hroom])
  have hreslen : (s.redDecOutputs crypt true).reslen = toWord (4 * (s.redDecKept crypt).length) := rfl
  have hcrcok : (s.redDecOutputs crypt true).crcok = (true && checksumOK s.cfg s.redDecBytes) := rfl
  have hcntok : (s.redDecOutputs crypt true).cntok = ((s.redDecSamples crypt).length == s.blockField 20 4) := rfl
  rw [hkept] at hexec
  refine ⟨s.redDecOutputs crypt true, (exec_redDec s crypt true).trans hexec, ?_, ?_, rfl, ?_⟩
  · rw [hcrcok, hchecksum, Bool.true_and]
  · rw [hcntok, hsamples, List.length_map, hcount, beq_self_eq_true]
  · rw [hreslen, hkeptLength]

end Block

/-- The state after a successful `RED_ENC`. -/
def State.withBlock (s : State) (crypt disc : Bool) : State :=
  (s.withBytes s.latch.dst.toNat (s.redEncBlock crypt disc)).complete (s.redEncOutputs crypt disc)

/-- The state in which a `RED_DEC` of the block that a `RED_ENC` has stored ends, with room for the samples at `dst2`. -/
def State.readingBack (s : State) (crypt disc : Bool) (dst2 : Word) : State :=
  { s.withBlock crypt disc with
    latch := { s.latch with
      src := s.latch.dst, srclen := (s.withBlock crypt disc).reslen, dst := dst2, dstlen := s.latch.srclen } }

section WithBytes

variable (s : State) (d : Nat) (bytes : List Byte)

theorem State.withBytes_cfg : (s.withBytes d bytes).cfg = s.cfg := rfl

theorem State.withBytes_keyv : (s.withBytes d bytes).keyv = s.keyv := rfl

theorem State.withBytes_rk : (s.withBytes d bytes).rk = s.rk := rfl

theorem State.withBytes_mem : (s.withBytes d bytes).mem = s.mem.writeBytes d bytes := rfl

end WithBytes

section ReadingBack

variable (s : State) (crypt disc : Bool) (dst2 : Word)

theorem State.readingBack_cfg : (s.readingBack crypt disc dst2).cfg = s.cfg := by
  simp only [State.readingBack, State.withBlock, State.complete_cfg, State.withBytes_cfg]

theorem State.readingBack_keyv : (s.readingBack crypt disc dst2).keyv = s.keyv := by
  simp only [State.readingBack, State.withBlock, State.complete_keyv, State.withBytes_keyv]

theorem State.readingBack_tableKey : (s.readingBack crypt disc dst2).tableKey crypt = s.tableKey crypt := by
  simp only [State.tableKey, State.readingBack, State.withBlock, State.complete_rk, State.withBytes_rk]

theorem State.readingBack_mem :
    (s.readingBack crypt disc dst2).mem = s.mem.writeBytes s.latch.dst.toNat (s.redEncBlock crypt disc) := by
  simp only [State.readingBack, State.withBlock, State.complete_mem, State.withBytes_mem]

theorem State.readingBack_src : (s.readingBack crypt disc dst2).latch.src = s.latch.dst := rfl

theorem State.readingBack_dst : (s.readingBack crypt disc dst2).latch.dst = dst2 := rfl

theorem State.readingBack_dstlen : (s.readingBack crypt disc dst2).latch.dstlen = s.latch.srclen := rfl

variable {s crypt disc}

theorem State.readingBack_srclen (hroom : (s.redEncBlock crypt disc).length ≤ s.latch.dstlen.toNat) :
    (s.readingBack crypt disc dst2).latch.srclen.toNat = (s.redEncBlock crypt disc).length := by
  have hreslen : (s.redEncOutputs crypt disc).reslen = toWord (s.redEncBlock crypt disc).length := rfl
  have hsrclen : (s.readingBack crypt disc dst2).latch.srclen = toWord (s.redEncBlock crypt disc).length := by
    simp only [State.readingBack, State.withBlock, State.complete_reslen, hreslen]
  rw [hsrclen, toWord, BitVec.toNat_ofNat, Nat.mod_eq_of_lt (hroom.trans_lt s.latch.dstlen.isLt)]

end ReadingBack

end Sys2Proof.Machine

namespace Sys2Proof.Proofs.RedCommands

open Sys2Proof Sys2Proof.Machine

/-- Settles O53: the first command stores the block of the samples, and the second reads it back. -/
theorem redRoundTrip : Obligations.RedRoundTrip := by
  intro s crypt disc dst2 a n d cap need hwf hcfg hkey hpos hmul hsrc hdst happart hneed hdst2 happart2 hread hreadBlock
    hwrite hwrite2 hin24
  have hlength : s.redEncSamples.length = n / 4 := by rw [State.redEncSamples, List.length_map, List.length_range]
  have hsize : 4 * s.redEncSamples.length = n := by omega
  have hcap := s.latch.dstlen.isLt
  have hfits : FitsMemory s.redEncSamples :=
    ⟨List.ne_nil_of_length_pos (by omega), by omega, by rw [hsize]; omega⟩
  have hin24' : ∀ x ∈ s.redEncSamples, -2 ^ 23 ≤ x ∧ x ≤ 2 ^ 23 - 1 := by
    intro x hx
    obtain ⟨j, hj, rfl⟩ := List.mem_map.1 hx
    exact hin24 j (List.mem_range.1 hj)
  have hblock : s.redEncBlock crypt disc = encodeBlock s.cfg s.redEncSamples s.latch.blockTime disc (s.tableKey crypt) :=
    State.redEncBlock_eq hmul
  obtain ⟨hmin, hmax, -⟩ := encodeBlock_bounds (s := s) (blockTime := s.latch.blockTime) (disc := disc) (crypt := crypt)
    hcfg hfits.ne_nil
  rw [← hblock, hsize] at hmax
  rw [← hblock] at hmin
  have hroom : (s.redEncBlock crypt disc).length ≤ cap := hmax.trans hneed
  have hwrites : AllDmaOK s.cfg .write d (s.redEncBlock crypt disc).length := hwrite.mono le_rfl (by omega)
  have hreads : AllDmaOK s.cfg .read d (s.redEncBlock crypt disc).length := hreadBlock.mono le_rfl (by omega)
  have hheader : 287 ≤ (s.redEncBlock crypt disc).length := by omega
  have hend : d + (s.redEncBlock crypt disc).length ≤ 2 ^ 32 := by omega
  have hplace : RangesApart d (s.redEncBlock crypt disc).length dst2.toNat n :=
    rangesApart_of_apart (.inr (by omega))
  have hshape : s.RedEncShape := ⟨hpos, hmul, hsrc, hdst⟩
  have hexec := execRedEnc_of_allDmaOK (disc := disc)
    (redEncCheck_none hkey hshape (rangesApart_of_apart (.inr happart))) hread hroom hwrites
  have hsrclen := State.readingBack_srclen dst2 hroom
  have hsource : (s.readingBack crypt disc dst2).SourceHolds s.redEncSamples s.latch.blockTime disc crypt := by
    rw [State.SourceHolds, State.readingBack_mem, State.readingBack_src, State.readingBack_cfg,
      State.readingBack_tableKey, ← hblock]
    exact Memory.readBytes_writeBytes _ ((Memory.wf_iff _).1 hwf).1 _ _
  have hcheck : redDecCheck crypt (s.readingBack crypt disc dst2) = none := by
    refine redDecCheck_none (by rw [State.readingBack_keyv]; exact hkey) ?_ ?_
    · rw [State.RedDecShape, hsrclen, State.readingBack_src, State.readingBack_dst, State.readingBack_dstlen]
      exact ⟨hheader, hend, hdst2⟩
    · rw [hsrclen, State.readingBack_src, State.readingBack_dst, State.readingBack_dstlen]
      exact hplace
  obtain ⟨out, hexec', hcrcok, hcntok, hs24ovf, hout⟩ := hsource.execRedDec
    (by rw [State.readingBack_cfg]; exact hcfg) hfits hin24' hcheck
    (by rw [State.readingBack_dstlen, hsize])
    (by rw [hsrclen, State.readingBack_cfg, State.readingBack_tableKey, hblock])
    (by rw [hsrclen, State.readingBack_cfg, State.readingBack_src]; exact hreads)
    (by rw [State.readingBack_cfg, State.readingBack_dst, State.readingBack_dstlen]; exact hwrite2)
  have hwf' : (s.readingBack crypt disc dst2).mem.wf = true := by
    rw [State.readingBack_mem]
    exact Memory.wf_writeBytes _ _ _ hwf hend
  have hbytes : (s.redEncSamples.map (BitVec.ofInt 32)).flatMap wordBytes = s.mem.readBytes a n := by
    have hback := flatMap_wordBytes_samples s.mem (n / 4) a
    rwa [Nat.mul_div_cancel' (Nat.dvd_of_mod_eq_zero hmul)] at hback
  have hbytesLength : ((s.redEncSamples.map (BitVec.ofInt 32)).flatMap wordBytes).length = n := by
    rw [hbytes, Memory.length_readBytes]
  obtain ⟨hstored, -⟩ := State.finish_stored hwf' dst2.toNat hbytesLength out .ok 0#32
  have hreslen : out.reslen = s.latch.srclen := by
    rw [hout, hsize, toWord, BitVec.ofNat_toNat, BitVec.setWidth_eq]
  exact ⟨s.withBlock crypt disc, _, hexec, rfl, hexec', State.finish_endedWith _ _ _ _, ⟨hcrcok, hcntok, hs24ovf⟩, hreslen,
    hstored.trans hbytes⟩

end Sys2Proof.Proofs.RedCommands
end

section
/-!
PROOF. The host's and other masters' accesses to single bytes (rules R69, R71, R73, R256): each by the cases of the
operation.
-/

namespace Sys2Proof.Machine

section Steps

variable {s : State} {rest : List Input} {addr : Word} {b : Byte} {r : ByteRange}

theorem step_store (hin : s.inputs = .store addr b :: rest) :
    step s = .next (State.hostStore { s with inputs := rest } addr b) := step_of_inputs_cons hin

theorem step_load (hin : s.inputs = .load addr :: rest) :
    step s = .next (State.hostLoad { s with inputs := rest } addr) := step_of_inputs_cons hin

theorem step_busWrite (hin : s.inputs = .busWrite addr b :: rest) :
    step s = .next (State.otherWrite { s with inputs := rest } addr b) := step_of_inputs_cons hin

theorem step_busRead (hin : s.inputs = .busRead addr :: rest) :
    step s = .next (State.otherRead { s with inputs := rest } addr) := step_of_inputs_cons hin

theorem step_clean (hin : s.inputs = .clean r :: rest) :
    step s = .next (State.hostClean { s with inputs := rest } r) := step_of_inputs_cons hin

theorem step_invalidate (hin : s.inputs = .invalidate r :: rest) :
    step s = .next (State.hostInvalidate { s with inputs := rest } r) := step_of_inputs_cons hin

end Steps

section Bytes

variable {s : State} {addr : Word} {b : Byte} {a x : Nat}

theorem contains_singleton (a x : Nat) : (⟨a, 1⟩ : ByteRange).contains x = true ↔ x = a := by
  simp only [ByteRange.contains, Bool.and_eq_true, decide_eq_true_eq]
  omega

theorem contains_self (a : Nat) : (⟨a, 1⟩ : ByteRange).contains a = true := (contains_singleton a a).2 rfl

theorem ne_of_contains_singleton (h : (⟨a, 1⟩ : ByteRange).contains x = false) : x ≠ a := by
  rintro rfl
  exact Bool.false_ne_true (h.symm.trans (contains_self x))

/-- Where one byte is taken out of some ranges, none of them has it. -/
theorem subtractRange_self (a : Nat) (ranges : List ByteRange) :
    ((subtractRange ⟨a, 1⟩ ranges).any fun r => r.contains a) = false := by
  rw [subtractRange_any, contains_self, Bool.not_true, Bool.false_and]

/-- A byte that the running command does not use disturbs nothing. -/
theorem State.disturb_unused (h : s.inUse a = false) : s.disturb [a] = s := by
  simp [State.disturb, h]

theorem State.markStale_any (hcache : s.cfg.dmaCoherent = false) {r : ByteRange} (h : r.contains a = true) :
    ((s.markStale r).hostStale.any fun q => q.contains a) = true := by
  have hsize : r.size ≠ 0 := by
    simp only [ByteRange.contains, Bool.and_eq_true, decide_eq_true_eq] at h
    omega
  simp [State.markStale, hcache, hsize, h]

theorem State.hostStore_window (h : (window s.cfg).contains addr.toNat = true) :
    s.hostStore addr b = { s with response := .error } := if_pos h

theorem State.hostStore_coherent (hwindow : ¬ (window s.cfg).contains addr.toNat = true)
    (hcoherent : s.cfg.dmaCoherent = true) :
    s.hostStore addr b = { s.disturb [addr.toNat] with
      response := .done, unseenDest := subtractRange ⟨addr.toNat, 1⟩ s.unseenDest, mem := s.mem.write addr.toNat b } :=
  (if_neg hwindow).trans (if_pos hcoherent)

theorem State.hostStore_cached (hwindow : ¬ (window s.cfg).contains addr.toNat = true)
    (hcache : s.cfg.dmaCoherent = false) :
    s.hostStore addr b = { s.disturb [addr.toNat] with
      response := .done, unseenDest := subtractRange ⟨addr.toNat, 1⟩ s.unseenDest
      hostDirty := dirtyWrite s.hostDirty addr.toNat b
      hostStale := subtractRange ⟨addr.toNat, 1⟩ s.hostStale } :=
  (if_neg hwindow).trans (if_neg (by simp [hcache]))

theorem State.hostLoad_window (h : (window s.cfg).contains addr.toNat = true) :
    s.hostLoad addr = { s with response := .error } := if_pos h

theorem State.hostLoad_specified (hwindow : ¬ (window s.cfg).contains addr.toNat = true)
    (hspec : s.loadUnspecified addr.toNat = false) :
    s.hostLoad addr = { s with response := .byte (s.hostView addr.toNat) } :=
  (if_neg hwindow).trans (if_neg (by simp [hspec]))

theorem State.hostLoad_unspecified (hwindow : ¬ (window s.cfg).contains addr.toNat = true)
    (hspec : s.loadUnspecified addr.toNat = true) :
    s.hostLoad addr
      = { s with response := .byte (Config.freeByte s.draws addr.toNat), draws := s.draws + 1 } :=
  (if_neg hwindow).trans (if_pos hspec)

theorem State.hostView_coherent (h : s.cfg.dmaCoherent = true) (a : Nat) : s.hostView a = s.mem.read a := if_pos h

/-- The byte that the host stored last is the one it has. -/
theorem State.hostView_dirtyWrite (hcache : s.cfg.dmaCoherent = false) {d : List Host.Cell}
    (hdirty : s.hostDirty = dirtyWrite d a b) : s.hostView a = b := by
  rw [State.hostView, if_neg (by simp [hcache]), hdirty, find_dirtyWrite]

/-- Without a copy of its own, the host has the byte in memory. -/
theorem State.hostView_clean (hclean : ∀ p ∈ s.hostDirty, p.1 ≠ a) : s.hostView a = s.mem.read a := by
  have hnone : s.hostDirty.find? (fun p => p.1 == a) = none := by simpa using hclean
  rw [State.hostView, hnone]
  exact ite_self _

theorem State.loadUnspecified_eq_false_iff (s : State) (a : Nat) :
    s.loadUnspecified a = false ↔ ¬ (s.busy = true ∧ s.latch.dest.contains a = true)
      ∧ (s.unseenDest.any fun r => r.contains a) = false
      ∧ (s.cfg.dmaCoherent = false → (s.hostStale.any fun r => r.contains a) = false) := by
  rw [State.loadUnspecified, Bool.or_eq_false_iff, Bool.or_eq_false_iff, ← Bool.not_eq_true (s.busy && _),
    Bool.and_eq_true, and_assoc]
  cases s.cfg.dmaCoherent <;> simp

theorem sameMemoryOutside_write (t : State) (hmem : t.mem = s.mem.write a b) : SameMemoryOutside ⟨a, 1⟩ s t := by
  intro x hx
  rw [hmem]
  exact Memory.read_write_other _ _ _ _ (ne_of_contains_singleton hx)

theorem State.touch_sameMemoryOutside (s : State) (a : Nat) : SameMemoryOutside ⟨a, 1⟩ s (s.touch a) :=
  fun x hx => s.touch_read_other a x (ne_of_contains_singleton hx)

/-- A write by another master changes that byte only, and gets the host no response. -/
theorem State.otherWrite_frame (s : State) (addr : Word) (b : Byte) :
    SameMemoryOutside ⟨addr.toNat, 1⟩ s (s.otherWrite addr b) ∧ (s.otherWrite addr b).response = s.response
      ∧ (s.otherWrite addr b).inputs = s.inputs := by
  rcases s.otherWrite_cases addr b with ⟨-, h⟩ | ⟨-, -, h⟩ | ⟨-, -, h⟩ <;> rw [h]
  · exact ⟨fun _ _ => rfl, rfl, rfl⟩
  · exact ⟨s.touch_sameMemoryOutside _, by simp, by simp⟩
  · exact ⟨sameMemoryOutside_write (b := b) _ (by simp), by simp, by simp⟩

theorem State.otherWrite_unused (hwindow : ¬ (window s.cfg).contains addr.toNat = true)
    (hunused : s.inUse addr.toNat = false) :
    s.otherWrite addr b = State.markStale
      { s with mem := s.mem.write addr.toNat b, unseenDest := subtractRange ⟨addr.toNat, 1⟩ s.unseenDest }
      ⟨addr.toNat, 1⟩ := by
  rcases s.otherWrite_cases addr b with ⟨h, -⟩ | ⟨-, h, -⟩ | ⟨-, -, h⟩
  · exact absurd h hwindow
  · exact absurd (hunused.symm.trans h) Bool.false_ne_true
  · exact h

theorem State.otherRead_frame (s : State) (addr : Word) :
    SameMemoryOutside ⟨addr.toNat, 1⟩ s (s.otherRead addr) ∧ (s.otherRead addr).response = s.response
      ∧ (s.otherRead addr).inputs = s.inputs := by
  rcases s.otherRead_cases addr with ⟨-, -, h⟩ | ⟨-, h⟩ <;> rw [h]
  · exact ⟨s.touch_sameMemoryOutside _, by simp, by simp⟩
  · exact ⟨fun _ _ => rfl, rfl, rfl⟩

theorem State.otherRead_unused (h : (window s.cfg).contains addr.toNat = true ∨ s.inUse addr.toNat = false) :
    s.otherRead addr = s := by
  rcases s.otherRead_cases addr with ⟨hwindow, huse, -⟩ | ⟨-, heq⟩
  · rw [hwindow, huse] at h
    simp at h
  · exact heq

theorem State.otherWrite_window (h : (window s.cfg).contains addr.toNat = true) : s.otherWrite addr b = s := if_pos h

end Bytes

end Sys2Proof.Machine

namespace Sys2Proof.Proofs.HostAccess

open Sys2Proof Sys2Proof.Machine

/-- Settles O58: each access by the cases of its operation; with coherence no copy stands between the host and
memory. -/
theorem hostStoresReachMemory : Obligations.HostStoresReachMemory := by
  intro s addr b rest
  refine ⟨fun hcoherent hwf hwindow => ⟨fun hin => ?store, fun hin => ?busWrite, fun hin => ⟨fun hdest hseen => ?load,
    fun hopen => ?loadOpen⟩⟩, fun hin => ⟨?busRead, fun hunused => ?busReadUnused⟩, fun hwindow => ⟨?host, ?other⟩⟩
  case store =>
    have hread : (s.mem.write addr.toNat b).read addr.toNat = b :=
      (Memory.read_write_wf _ hwf _ _ _).trans (if_pos rfl)
    rw [step_store hin, State.hostStore_coherent (s := { s with inputs := rest }) hwindow hcoherent]
    refine ⟨_, rfl, hread, sameMemoryOutside_write _ rfl,
      (State.hostView_coherent (by simpa using hcoherent) _).trans hread, rfl, by simp, subtractRange_self _ _,
      fun hunused => ?_⟩
    rw [State.disturb_unused (s := { s with inputs := rest }) hunused]
  case busWrite =>
    obtain ⟨houtside, hresponse, hinputs⟩ := State.otherWrite_frame { s with inputs := rest } addr b
    refine ⟨_, step_busWrite hin, houtside, hresponse, hinputs, fun hunused => ?_⟩
    rw [State.otherWrite_unused (s := { s with inputs := rest }) hwindow hunused,
      State.markStale_of_coherent (by exact hcoherent)]
    exact ⟨(Memory.read_write_wf _ hwf _ _ _).trans (if_pos rfl), subtractRange_self _ _, rfl⟩
  case load =>
    have hspec := (State.loadUnspecified_eq_false_iff { s with inputs := rest } addr.toNat).2
      ⟨hdest, hseen, fun hcache => absurd (hcache.symm.trans hcoherent) Bool.false_ne_true⟩
    rw [step_load hin, State.hostLoad_specified (s := { s with inputs := rest }) hwindow hspec,
      State.hostView_coherent (s := { s with inputs := rest }) hcoherent]
  case loadOpen =>
    have hspec : State.loadUnspecified { s with inputs := rest } addr.toNat = true := by
      by_contra hnot
      obtain ⟨hdest, hseen, -⟩ := (State.loadUnspecified_eq_false_iff _ _).1 (Bool.eq_false_iff.2 hnot)
      rcases hopen with hbusy | hunseen
      · exact hdest hbusy
      · exact Bool.false_ne_true (hseen.symm.trans hunseen)
    exact ⟨_, (step_load hin).trans
      (congrArg _ (State.hostLoad_unspecified (s := { s with inputs := rest }) hwindow hspec))⟩
  case busRead =>
    obtain ⟨houtside, hresponse, hinputs⟩ := State.otherRead_frame { s with inputs := rest } addr
    exact ⟨_, step_busRead hin, houtside, hresponse, hinputs⟩
  case busReadUnused =>
    rw [step_busRead hin, State.otherRead_unused (s := { s with inputs := rest }) (.inr hunused)]
  case host =>
    rintro (hin | hin)
    · rw [step_store hin, State.hostStore_window (s := { s with inputs := rest }) hwindow]
    · rw [step_load hin, State.hostLoad_window (s := { s with inputs := rest }) hwindow]
  case other =>
    rintro (hin | hin)
    · rw [step_busWrite hin, State.otherWrite_window (s := { s with inputs := rest }) hwindow]
    · rw [step_busRead hin, State.otherRead_unused (s := { s with inputs := rest }) (.inl hwindow)]

end Sys2Proof.Proofs.HostAccess
end

section
/-!
PROOF. The host's cache without DMA coherence (rule R71): a stored byte until it is cleaned, a stale one until it is
invalidated.
-/

namespace Sys2Proof.Machine

section Cache

variable {s t u : State} {rest : List Input} {addr : Word} {b : Byte} {a : Nat} {r : ByteRange}

theorem run_three (h : step s = .next t) (h' : step t = .next u) {v : State} (h'' : step u = .next v) :
    Host.Core.run Sys2Proof.core 3 s = .next v :=
  (run_succ h).trans (run_two h' h'')

/-- A byte that the copied cells name, all with one value, reads as that value. -/
theorem Memory.read_copyListed_named {cells : List Host.Cell} (h : ∀ p ∈ cells, p.1 = a → p.2 = b) :
    ∀ {m : Memory}, m.wf = true → (∀ p ∈ cells, p.1 < addressLimit) → (m.read a = b ∨ ∃ p ∈ cells, p.1 = a) →
      Memory.read (m.copyListed cells) a = b := by
  induction cells with
  | nil =>
    intro m _ _ hsome
    exact hsome.resolve_right fun ⟨p, hp, _⟩ => absurd hp List.not_mem_nil
  | cons p cells ih =>
    intro m hwf hlow hsome
    rw [List.forall_mem_cons] at h hlow
    obtain ⟨hvalue, hvalues⟩ := h
    obtain ⟨haddr, haddrs⟩ := hlow
    refine ih hvalues (Memory.wf_write _ hwf _ haddr _) haddrs ?_
    rw [Memory.read_write_wf _ hwf]
    by_cases hp : a = p.1
    · exact .inl ((if_pos hp).trans (hvalue hp.symm))
    · rw [if_neg hp]
      refine hsome.imp_right fun ⟨q, hq, hqa⟩ => ⟨q, ?_, hqa⟩
      exact (List.mem_cons.1 hq).resolve_left fun heq => hp (heq ▸ hqa.symm)

theorem mem_dirtyWrite_self (d : List Host.Cell) (a : Nat) (b : Byte) : (a, b) ∈ dirtyWrite d a b :=
  List.mem_of_find?_eq_some (find_dirtyWrite d a b)

/-- In cells with rising addresses, a stored byte has one cell. -/
theorem eq_of_mem_dirtyWrite {d : List Host.Cell} (h : d.Pairwise fun p q => p.1 < q.1) {p : Host.Cell}
    (hp : p ∈ dirtyWrite d a b) (hpa : p.1 = a) : p.2 = b := by
  have hrising := rising_dirtyWrite a b h
  have hdistinct : ((dirtyWrite d a b).map Prod.fst).Nodup :=
    List.pairwise_map.2 (hrising.imp fun hlt => Nat.ne_of_lt hlt)
  exact congrArg Prod.snd (List.inj_on_of_nodup_map hdistinct hp (mem_dirtyWrite_self d a b) hpa)

/-- A clean changes only bytes of its range. -/
theorem State.hostClean_sameMemoryOutside (s : State) (r : ByteRange) : SameMemoryOutside r s (s.hostClean r) := by
  refine fun x hx => Memory.read_copyListed_other _ _ _ fun p hp hpx => ?_
  exact Bool.false_ne_true (hx.symm.trans (hpx ▸ (List.mem_filter.1 hp).2))

/-- The byte the host stored last reaches memory by a clean of its range. -/
theorem State.hostClean_read {d : List Host.Cell} (hmem : s.memoryCanonical) (hd : d.Pairwise fun p q => p.1 < q.1)
    (hdirty : s.hostDirty = dirtyWrite d a b) (hr : r.contains a = true) : (s.hostClean r).mem.read a = b := by
  obtain ⟨hwf, -, hlow⟩ := hmem
  rw [hdirty] at hlow
  have hnamed : Memory.read (s.mem.copyListed ((dirtyWrite d a b).filter fun p => r.contains p.1)) a = b :=
    Memory.read_copyListed_named (fun p hp => eq_of_mem_dirtyWrite hd (List.mem_filter.1 hp).1) hwf
      (fun p hp => hlow p (List.mem_filter.1 hp).1)
      (.inr ⟨_, List.mem_filter.2 ⟨mem_dirtyWrite_self d a b, hr⟩, rfl⟩)
  rw [← hdirty] at hnamed
  exact hnamed

/-- However a running command ends, its destination is then stale in the host's cache. -/
theorem State.RunEnds.stale {i : Instr} (hend : s.RunEnds t) (hcache : s.cfg.dmaCoherent = false)
    (hdec : decode s.latch.cmd = .ok i) (ha : (destRange i s.latch).contains a = true) :
    (t.hostStale.any fun r => r.contains a) = true := by
  cases hend with
  | reserved e hdec' => exact absurd (hdec'.symm.trans hdec) (by simp)
  | plain j t hdec' hexec =>
    obtain rfl : j = i := Except.ok.inj (hdec'.symm.trans hdec)
    exact State.markStale_any (by rwa [exec_cfg hexec]) ha
  | disturbed j t hdec' hexec =>
    obtain rfl : j = i := Except.ok.inj (hdec'.symm.trans hdec)
    exact State.markStale_any (by rwa [State.freeResults_cfg, exec_cfg hexec]) ha

/-- An idle engine leaves the host the byte it has, where neither an ended command nor its cache withholds it. -/
theorem step_load_specified (hin : s.inputs = .load addr :: rest) (hidle : s.busy = false)
    (hwindow : ¬ (window s.cfg).contains addr.toNat = true)
    (hseen : (s.unseenDest.any fun r => r.contains addr.toNat) = false)
    (hfresh : (s.hostStale.any fun r => r.contains addr.toNat) = false) :
    step s = .next { s with inputs := rest, response := .byte (s.hostView addr.toNat) } := by
  have hspec := (State.loadUnspecified_eq_false_iff { s with inputs := rest } addr.toNat).2
    ⟨fun h => Bool.false_ne_true (hidle.symm.trans h.1), hseen, fun _ => hfresh⟩
  exact (step_load hin).trans (congrArg _ (State.hostLoad_specified (s := { s with inputs := rest }) hwindow hspec))

theorem State.hostStore_idle (hidle : s.busy = false) (hwindow : ¬ (window s.cfg).contains addr.toNat = true)
    (hcache : s.cfg.dmaCoherent = false) :
    s.hostStore addr b = { s with
      response := .done, unseenDest := subtractRange ⟨addr.toNat, 1⟩ s.unseenDest
      hostDirty := dirtyWrite s.hostDirty addr.toNat b
      hostStale := subtractRange ⟨addr.toNat, 1⟩ s.hostStale } := by
  rw [State.hostStore_cached hwindow hcache, State.disturb_idle s hidle]

/-- The byte that another master writes is stale in the host's cache. -/
theorem State.otherWrite_stale (hcache : s.cfg.dmaCoherent = false)
    (hwindow : ¬ (window s.cfg).contains addr.toNat = true) :
    ((s.otherWrite addr b).hostStale.any fun r => r.contains addr.toNat) = true := by
  rcases s.otherWrite_cases addr b with ⟨h, -⟩ | ⟨-, -, h⟩ | ⟨-, -, h⟩
  · exact absurd h hwindow
  · rw [h, State.touch]
    exact State.markStale_any (by simpa using hcache) (contains_self _)
  · rw [h]
    exact State.markStale_any (by exact hcache) (contains_self _)

end Cache

end Sys2Proof.Machine

namespace Sys2Proof.Proofs.HostCache

open Sys2Proof Sys2Proof.Machine

/-- What the host stores stays its own until it cleans it: the memory of the load's state is the old one. -/
theorem store_load_clean {s : State} {addr : Word} {b : Byte} {rest : List Input} (hcache : s.cfg.dmaCoherent = false)
    (hmem : s.memoryCanonical) (hwindow : ¬ (window s.cfg).contains addr.toNat = true) (hidle : s.busy = false)
    (hin : s.inputs = .store addr b :: .load addr :: .clean ⟨addr.toNat, 1⟩ :: rest) :
    ∃ t u, Host.Core.run Sys2Proof.core 2 s = .next t ∧ Host.Core.run Sys2Proof.core 3 s = .next u
      ∧ State.mem t = s.mem ∧ State.response t = .byte b
      ∧ Memory.read (State.mem u) addr.toNat = b ∧ SameMemoryOutside ⟨addr.toNat, 1⟩ s u := by
  obtain ⟨-, hrising, -⟩ := id hmem
  have hstore := (step_store hin).trans
    (congrArg _ (State.hostStore_idle (s := { s with inputs := _ }) (b := b) hidle hwindow hcache))
  have hload := step_load_specified (s := { s with
      inputs := .load addr :: .clean ⟨addr.toNat, 1⟩ :: rest, response := .done
      unseenDest := subtractRange ⟨addr.toNat, 1⟩ s.unseenDest
      hostDirty := dirtyWrite s.hostDirty addr.toNat b, hostStale := subtractRange ⟨addr.toNat, 1⟩ s.hostStale })
    rfl hidle hwindow (subtractRange_self _ _) (subtractRange_self _ _)
  refine ⟨_, _, run_two hstore hload, run_three hstore hload (step_clean rfl), rfl,
    congrArg BusResponse.byte (State.hostView_dirtyWrite hcache rfl),
    State.hostClean_read ?_ hrising rfl (contains_self _), fun x hx => State.hostClean_sameMemoryOutside _ _ x hx⟩
  have hkept := State.hostStore_memoryCanonical addr b hmem
  rwa [State.hostStore_idle hidle hwindow hcache] at hkept

/-- Settles O60: by the runs of the two and three steps, and by the cases of an end and of another master's write. -/
theorem uncoherentStoresNeedACleaning : Obligations.UncoherentStoresNeedACleaning := by
  intro s addr b rest hcache hmem hwindow
  refine ⟨fun hidle hin => store_load_clean hcache hmem hwindow hidle hin,
    fun i t hdec hbusy hwait hin hstep hdest => ?ended, fun hin hstale => ?stale, fun r hidle hr hseen hin => ?invalidated, fun hin => ?busWrite⟩
  case ended =>
    obtain ⟨u, hnext, hend⟩ := s.commandEnd_runEnds
    rw [step_of_inputs_nil hin, State.engineStep_of_wait_zero hbusy hwait, hnext] at hstep
    obtain rfl := Host.Outcome.next.inj hstep
    exact hend.stale hcache hdec hdest
  case stale =>
    have hspec : State.loadUnspecified { s with inputs := rest } addr.toNat = true := by
      simp [State.loadUnspecified, hcache, hstale]
    exact ⟨_, (step_load hin).trans
      (congrArg _ (State.hostLoad_unspecified (s := { s with inputs := rest }) hwindow hspec))⟩
  case invalidated =>
    have hload := step_load_specified (s := State.hostInvalidate { s with inputs := .load addr :: rest } r) rfl hidle
      hwindow hseen (by
        rw [State.hostInvalidate, subtractRange_any, hr, Bool.not_true, Bool.false_and])
    refine ⟨_, run_two (step_invalidate hin) hload, rfl, congrArg BusResponse.byte (State.hostView_clean ?_)⟩
    intro p hp hpa
    have hout := (List.mem_filter.1 hp).2
    rw [hpa, hr] at hout
    exact Bool.false_ne_true hout
  case busWrite =>
    obtain ⟨hwf, -, -⟩ := hmem
    obtain ⟨houtside, -, -⟩ := State.otherWrite_frame { s with inputs := rest } addr b
    refine ⟨_, step_busWrite hin, fun hunused => ?_, houtside, State.otherWrite_stale hcache hwindow⟩
    rw [State.otherWrite_unused (s := { s with inputs := rest }) hwindow hunused, State.markStale_mem]
    exact (Memory.read_write_wf _ hwf _ _ _).trans (if_pos rfl)

end Sys2Proof.Proofs.HostCache
end

section
/-!
PROOF. Disturbed commands (rules R68, R69, R256, R276): what disturbs one, and how it then ends.
-/

namespace Sys2Proof.Machine

section Accesses

variable {s t : State} {addr : Word} {b : Byte} {a : Nat} {r : ByteRange} {i : Instr}

/-- In `t` the command that ran in `s` still runs, disturbed, and does not find the byte steady. -/
def State.DisturbedAt (s t : State) (a : Nat) : Prop :=
  t.disturbed = true ∧ (t.unsteady.any fun r => r.contains a) = true ∧ t.busy = true ∧ t.latch = s.latch

/-- The bytes of the command's two ranges are those it uses. -/
theorem State.inUse_of_decode (hdec : decode s.latch.cmd = .ok i) (hbusy : s.busy = true)
    (ha : (sourceRange i s.latch).contains a = true ∨ (destRange i s.latch).contains a = true) : s.inUse a = true := by
  rw [← Latch.source_of_decode hdec, ← Latch.dest_of_decode hdec] at ha
  simp [State.inUse, hbusy, ha]

theorem State.inUse_busy (h : s.inUse a = true) : s.busy = true := by
  rw [State.inUse, Bool.and_eq_true] at h
  exact h.1

theorem State.disturb_disturbedAt {addrs : List Nat} (ha : a ∈ addrs) (huse : s.inUse a = true) :
    s.DisturbedAt (s.disturb addrs) a := by
  refine ⟨?_, ?_, State.inUse_busy huse, rfl⟩
  · rw [State.disturb_disturbed, List.any_eq_true.2 ⟨a, ha, huse⟩, Bool.or_true]
  · have hmem : (⟨a, 1⟩ : ByteRange) ∈ (addrs.filter s.inUse).map fun x => ⟨x, 1⟩ :=
      List.mem_map.2 ⟨a, List.mem_filter.2 ⟨ha, huse⟩, rfl⟩
    rw [State.disturb_unsteady]
    exact List.any_eq_true.2 ⟨_, List.mem_append_left _ hmem, contains_self a⟩

theorem State.touch_disturbedAt (huse : s.inUse a = true) : s.DisturbedAt (s.touch a) a := by
  have h := State.disturb_disturbedAt (List.mem_singleton_self a) huse
  rw [State.DisturbedAt, State.disturb_disturbed, State.disturb_unsteady, State.disturb_busy, State.disturb_latch] at h
  rw [State.DisturbedAt, State.touch_disturbed, State.touch_unsteady, State.touch_busy, State.touch_latch]
  simpa using h

/-- A store by the host to a byte in use, with DMA coherence or without. -/
theorem State.hostStore_disturbs (hwindow : ¬ (window s.cfg).contains addr.toNat = true)
    (huse : s.inUse addr.toNat = true) :
    s.DisturbedAt (s.hostStore addr b) addr.toNat ∧ SameMemoryOutside ⟨addr.toNat, 1⟩ s (s.hostStore addr b) := by
  have hdist := State.disturb_disturbedAt (List.mem_singleton_self _) huse
  cases hcoherent : s.cfg.dmaCoherent with
  | true =>
    rw [State.hostStore_coherent hwindow hcoherent]
    exact ⟨hdist, sameMemoryOutside_write _ rfl⟩
  | false =>
    rw [State.hostStore_cached hwindow hcoherent]
    exact ⟨hdist, fun _ _ => rfl⟩

theorem State.otherWrite_disturbs (hwindow : ¬ (window s.cfg).contains addr.toNat = true)
    (huse : s.inUse addr.toNat = true) : s.otherWrite addr b = s.touch addr.toNat := by
  rcases s.otherWrite_cases addr b with ⟨h, -⟩ | ⟨-, -, h⟩ | ⟨-, h, -⟩
  · exact absurd h hwindow
  · exact h
  · exact absurd (h.symm.trans huse) Bool.false_ne_true

theorem State.otherRead_disturbs (hwindow : ¬ (window s.cfg).contains addr.toNat = true)
    (huse : s.inUse addr.toNat = true) : s.otherRead addr = s.touch addr.toNat := by
  rcases s.otherRead_cases addr with ⟨-, -, h⟩ | ⟨h, -⟩
  · exact h
  · exact (h.elim hwindow fun hunused => Bool.false_ne_true (hunused.symm.trans huse)).elim

theorem State.hostClean_disturbs (hdirty : (a, b) ∈ s.hostDirty) (hr : r.contains a = true)
    (huse : s.inUse a = true) : s.DisturbedAt (s.hostClean r) a := by
  have hmem : a ∈ (s.hostDirty.filter fun p => r.contains p.1).map Prod.fst :=
    List.mem_map.2 ⟨_, List.mem_filter.2 ⟨hdirty, hr⟩, rfl⟩
  exact State.disturb_disturbedAt hmem huse

end Accesses

section Device

theorem ByteRange.meets_iff (r q : ByteRange) :
    r.meets q = true ↔ ∃ x, q.base ≤ x ∧ x < q.base + q.size ∧ r.contains x = true := by
  simp only [ByteRange.meets, overlap_iff, ByteRange.contains, Bool.and_eq_true, decide_eq_true_eq]
  constructor
  · rintro ⟨hr, hq, hlow, hhigh⟩
    exact ⟨max r.base q.base, by omega⟩
  · rintro ⟨x, hx⟩
    omega

/-- The operands touch a device region where a byte of one of the two ranges lies in it. -/
theorem touchesDevice_iff (cfg : Config) (l : Latch) :
    touchesDevice cfg l = true ↔ ∃ r ∈ cfg.regions, r.device = true ∧ ∃ x, r.base ≤ x ∧ x < r.base + r.size ∧
      (l.source.contains x = true ∨ l.dest.contains x = true) := by
  simp only [touchesDevice, deviceRanges, List.any_map, List.any_filter, List.any_eq_true, Function.comp_apply,
    Bool.and_eq_true, Bool.or_eq_true, ByteRange.meets_iff, ← exists_or, ← and_or_left, regionRange]

end Device

section Ends

variable {s t : State} {i : Instr}

theorem exec_noKey (hi : i = .aesEnc ∨ i = .aesDec) (hkey : s.keyv = false) (hexec : exec i s = .next t) :
    t.errcode = .noKey := by
  have hcheck : segmentCheck s = some .noKey := by simp [segmentCheck, hkey]
  have hend : exec i s = .next (s.raiseError .noKey 0 0) := by
    rcases hi with rfl | rfl
    · exact congrArg _ (segmentCommand_of_check hcheck)
    · exact congrArg _ (segmentCommand_of_check hcheck)
  obtain rfl := Host.Outcome.next.inj (hexec.symm.trans hend)
  rfl

theorem exec_crcUpdate_wraps (hwraps : 2 ^ 32 < s.latch.src.toNat + s.latch.srclen.toNat)
    (hexec : exec .crcUpdate s = .next t) : t.errcode = .len ∧ t.crc = s.crc := by
  obtain rfl := Host.Outcome.next.inj (hexec.symm.trans (execCrcUpdate_of_wraps hwraps))
  exact ⟨rfl, rfl⟩

/-- Past its range check, `CRC_UPDATE` succeeds exactly where each read completes. -/
theorem exec_crcUpdate_ok_iff (hrange : s.latch.src.toNat + s.latch.srclen.toNat ≤ 2 ^ 32)
    (hexec : exec .crcUpdate s = .next t) :
    t.errcode = .ok ↔ AllDmaOK s.cfg .read s.latch.src.toNat s.latch.srclen.toNat := by
  rcases dmaRead_cases s.cfg s.mem s.latch.src.toNat s.latch.srclen.toNat with ⟨hread, -⟩ | ⟨e, hbad, -⟩
  · obtain rfl := Host.Outcome.next.inj (hexec.symm.trans (execCrcUpdate_of_allDmaOK hrange hread))
    exact iff_of_true rfl hread
  · obtain rfl := Host.Outcome.next.inj (hexec.symm.trans (execCrcUpdate_of_firstBad hrange hbad))
    have hnot : ¬ AllDmaOK s.cfg .read s.latch.src.toNat s.latch.srclen.toNat := by
      obtain ⟨hlow, hhigh, -, -⟩ := id hbad
      exact hbad.not_allDmaOK hlow hhigh
    exact iff_of_false (fun h => ErrCode.noConfusion h) hnot

/-- How a disturbed command ends: as its meaning on what it reads, with its results left unspecified. -/
theorem State.commandEnd_disturbed (hdec : decode s.latch.cmd = .ok i) (hdma : usesDma i = true)
    (hdist : s.disturbed = true) (hexec : exec i (s.readUnsteady (sourceRange i s.latch)) = .next t) :
    s.commandEnd
      = .next ((t.freeResults s (writtenRange i s.latch)).markStale (destRange i s.latch)) := by
  rw [State.commandEnd, hdec]
  dsimp only
  rw [hdist, hdma, Bool.and_self, if_pos rfl, State.disturbedEnd_next s t i hexec, markStaleAfter_next]

/-- Each byte that a disturbed command reads is the one in memory, or a source byte that was not steady. -/
theorem State.readUnsteady_read (s : State) (source : ByteRange) (x : Nat) :
    (s.readUnsteady source).mem.read x = s.mem.read x
      ∨ source.contains x = true ∧ (s.unsteady.any fun r => r.contains x) = true := by
  cases hx : source.contains x && s.unsteady.any fun r => r.contains x with
  | false => exact .inl (Memory.read_scrambleWithin_other _ _ _ _ hx _)
  | true => exact .inr (Bool.and_eq_true_iff.1 hx)

/-- Its end changes only bytes of its destination. -/
theorem State.disturbedEnd_sameMemoryOutside_dest (s t : State) (i : Instr) (r : ByteRange) :
    SameMemoryOutside (destRange i s.latch) s ((t.freeResults s (writtenRange i s.latch)).markStale r) := by
  intro x hx
  rw [State.markStale_mem]
  exact State.freeResults_read_other _ _ _ _ (by rw [writtenRange, ByteRange.contains_inter, hx, Bool.false_and])

/-- And of its room. -/
theorem State.disturbedEnd_sameMemoryOutside_room (s t : State) (i : Instr) (r : ByteRange) :
    SameMemoryOutside ⟨s.latch.dst.toNat, s.latch.dstlen.toNat⟩ s
      ((t.freeResults s (writtenRange i s.latch)).markStale r) := by
  intro x hx
  rw [State.markStale_mem]
  exact State.freeResults_read_other _ _ _ _ (by rw [writtenRange, ByteRange.contains_inter, hx, Bool.and_false])

end Ends

end Sys2Proof.Machine

namespace Sys2Proof.Proofs.Disturbed

open Sys2Proof Sys2Proof.Machine

/-- Settles O59: the accesses and the launch by their own rules; the end by `State.commandEnd_disturbed` and what every
end of a command keeps. -/
theorem disturbedCommandEnds : Obligations.DisturbedCommandEnds := by
  refine ⟨fun s i a hdec hbusy ha => ⟨?access, ?clean⟩, ?launch, ?ends⟩
  case access =>
    rintro addr b rest rfl hwindow hin
    have huse : State.inUse { s with inputs := rest } addr.toNat = true := State.inUse_of_decode hdec hbusy ha
    have htouched := State.touch_disturbedAt huse
    have houtside := State.touch_sameMemoryOutside { s with inputs := rest } addr.toNat
    rcases hin with hin | hin | hin
    · obtain ⟨⟨hdist, hunsteady, hrun, hlatch⟩, hmem⟩ :=
        State.hostStore_disturbs (s := { s with inputs := rest }) (b := b) hwindow huse
      exact ⟨_, step_store hin, hdist, hunsteady, hrun, hlatch, hmem⟩
    · rw [step_busWrite hin, State.otherWrite_disturbs (s := { s with inputs := rest }) hwindow huse]
      obtain ⟨hdist, hunsteady, hrun, hlatch⟩ := htouched
      exact ⟨_, rfl, hdist, hunsteady, hrun, hlatch, houtside⟩
    · rw [step_busRead hin, State.otherRead_disturbs (s := { s with inputs := rest }) hwindow huse]
      obtain ⟨hdist, hunsteady, hrun, hlatch⟩ := htouched
      exact ⟨_, rfl, hdist, hunsteady, hrun, hlatch, houtside⟩
  case clean =>
    intro r b rest hin hdirty hr
    have huse : State.inUse { s with inputs := rest } a = true := State.inUse_of_decode hdec hbusy ha
    obtain ⟨hdist, hunsteady, hrun, hlatch⟩ := State.hostClean_disturbs hdirty hr huse
    exact ⟨_, step_clean hin, hdist, hunsteady, hrun, hlatch,
      State.hostClean_sameMemoryOutside { s with inputs := rest } r⟩
  case launch =>
    intro s i v rest hdec hidle hfree hin hstart hsrst
    let u : State := { s with inputs := rest, response := .done, ie := v.getLsbD 2 }
    have hstep : step s = .next u.loseUncleaned.launch :=
      (step_writeCtrl hin hfree).trans (congrArg _ (State.writeCtrl_start hsrst hstart hidle))
    have hdec' : decode u.loseUncleaned.operands.cmd = .ok i := by simpa [State.operands, u] using hdec
    refine ⟨_, hstep, State.launch_busy _, ?_⟩
    rw [State.launch_disturbed, State.launch_latch, touchesDevice_iff, Latch.source_of_decode hdec',
      Latch.dest_of_decode hdec', State.loseUncleaned_cfg]
  case ends =>
    intro s i hdec hbusy hdma hdist hwait hin
    obtain ⟨u, out, code, addr, hends, hexec⟩ := exec_endsAs (s.readUnsteady (sourceRange i s.latch)) i
    have hstep := (step_of_inputs_nil hin).trans
      ((State.engineStep_of_wait_zero hbusy hwait).trans (State.commandEnd_disturbed hdec hdma hdist hexec))
    obtain ⟨-, hie, hcmd, hsrc, hsrclen, hdst, hdstlen, hlo, hhi, -⟩ := hends.work.sameRest out code addr
    have hkeys (hi : i ≠ .keyLoad) : SameKeys (s.readUnsteady (sourceRange i s.latch)) u :=
      hends.keys.sameKeys hi (by rintro rfl; cases hdma)
    have hcrc (hi : i ≠ .crcUpdate) : u.crc = s.crc :=
      hends.crc.resolve_right fun h => h.elim (by rintro rfl; cases hdma) hi
    refine ⟨_, _, _, hstep, hexec, s.readUnsteady_read _, State.markStale_busy _ _, State.markStale_done _ _,
      State.markStale_errcode _ _, ⟨State.markStale_crcok _ _, State.markStale_cntok _ _, State.markStale_s24ovf _ _⟩,
      State.markStale_crc _ _, ⟨State.markStale_rk _ _, State.markStale_keyv _ _⟩,
      s.disturbedEnd_sameMemoryOutside_dest _ i _, s.disturbedEnd_sameMemoryOutside_room _ i _,
      fun hi => ⟨(State.markStale_rk _ _).trans (hkeys hi).1, (State.markStale_keyv _ _).trans (hkeys hi).2⟩,
      fun hi => (State.markStale_crc _ _).trans (hcrc hi), (State.markStale_cmd _ _).trans hcmd,
      (State.markStale_src _ _).trans hsrc, (State.markStale_srclen _ _).trans hsrclen,
      (State.markStale_dst _ _).trans hdst, (State.markStale_dstlen _ _).trans hdstlen,
      (State.markStale_btimeLo _ _).trans hlo, (State.markStale_btimeHi _ _).trans hhi,
      (State.markStale_ie _ _).trans hie, ?noKey, ?wraps, ?fits⟩
    case noKey =>
      intro hi hkey
      have hcode := exec_noKey (s := s.readUnsteady _) hi hkey hexec
      exact (State.markStale_errcode _ _).trans hcode
    case wraps =>
      rintro rfl hwraps
      obtain ⟨hcode, hcrc⟩ := exec_crcUpdate_wraps (s := s.readUnsteady _) hwraps hexec
      exact ⟨(State.markStale_errcode _ _).trans hcode, (State.markStale_crc _ _).trans hcrc⟩
    case fits =>
      rintro rfl hrange
      have hiff := exec_crcUpdate_ok_iff (s := s.readUnsteady _) hrange hexec
      rw [State.markStale_errcode]
      exact hiff

end Sys2Proof.Proofs.Disturbed
end
